-- ==== Sys2Proof/Word.lean ====
section
/-! DEFINITION. The word types of TH-CORE: 32-bit host registers and counts (R21 to R27), 8-bit bytes and symbols (R9, R60), 16-bit
command operands (R91), and bits as booleans, a bit sequence being a list in stream order (R14). -/

namespace Sys2Proof

/-- A 32-bit host register or command word (R46, R91). -/
abbrev Word := BitVec 32

/-- An occurrence count, a weight or a symbol count: CNT_W = 32 bits (R12). -/
abbrev Count := BitVec 32

/-- A byte of a stream, and a symbol of the alphabet (R9: SYM_W = 8). -/
abbrev Byte := BitVec 8

/-- The operand field OPD of a command word, 16 bits unsigned (R91). -/
abbrev Opd := BitVec 16

/-- A bit sequence in stream order, the first bit first (R14); `true` is the bit 1. -/
abbrev Bits := List Bool

end Sys2Proof
end

