-- ==== Sys2Proof/Machine/Bits.lean ====
section
/-! DEFINITION. Bits and bytes: most significant bit first everywhere (R15, R69; decision D3). -/

namespace Sys2Proof

/-- `bits8(v) = [v[7], v[6], ..., v[0]]` (R15). -/
def bits8 (v : Byte) : Bits :=
  [v.getLsbD 7, v.getLsbD 6, v.getLsbD 5, v.getLsbD 4, v.getLsbD 3, v.getLsbD 2, v.getLsbD 1, v.getLsbD 0]

/-- The number a bit sequence writes, its first bit the most significant. -/
def bitsVal : Bits → Nat
  | [] => 0
  | b :: bs => b.toNat * 2 ^ bs.length + bitsVal bs

/-- `byte(b)` for a sequence of exactly 8 bits (R15). -/
def byteOf (q : Bits) : Byte := BitVec.ofNat 8 (bitsVal q)

/-- A group of fewer than 8 bits with zeros on the right (R69), as a byte. -/
def paddedByte (q : Bits) : Byte := byteOf (q ++ List.replicate (8 - q.length) false)

/-- Byte `k` of a 32-bit count, byte 0 the least significant (R68, R191: `(TOTAL >> (8*k)) & 0xFF`). -/
def countByte (c : Count) (k : Nat) : Byte := c.extractLsb' (8 * k) 8

end Sys2Proof
end

