-- ==== Sys2Proof/Syntax.lean ====
section
/-! DEFINITION. The syntax of TH-CORE: one constructor for each row of spec/opcode_table.json, that is the 25 host commands of table R93
and the two tokens of the serialized tree of table R99. A command's operand is the whole 16-bit field OPD, so that an operand out of the
accepted range of table R92 can be written; `WellFormed` says which are accepted. -/

namespace Sys2Proof

inductive Instr where
  -- system (46_system.md)
  | nop
  | softReset
  | release
  -- bit buffer (40_bitbuf.md)
  | bbClear
  | bbAppendBit (b : Opd)
  | bbAppendByte (v : Opd)
  | bbAppendCode (s : Opd)
  | bbDrop (n : Opd)
  | bbDrain
  | bbFlush
  | bbFill
  -- frequency table and tree builder (41_treebuild.md)
  | freqClr
  | freqInc (s : Opd)
  | freqScan
  | treeBuild
  -- prefix code table (42_codegen.md)
  | codeGen
  -- tree serializer and deserializer (43_treeser.md)
  | treeSer
  | treeDes
  -- encoder (44_encoder.md)
  | hdrWrite
  | payloadEnc
  | compress
  -- decoder (45_decoder.md)
  | hdrRead
  | decSymbol
  | payloadDec
  | decompress
  -- tokens of the serialized tree (30_encoding.md R99), never commands
  | branch
  | leaf (s : Byte)
  deriving DecidableEq, Repr

end Sys2Proof
end

