-- ==== Sys2Proof/WellFormed.lean ====
section
/-! DEFINITION. Which instructions are well formed: the operand lies in the range table R92 accepts. -/

namespace Sys2Proof

/-- Table R92: a bit is 0..1, a byte or a symbol 0..255, a number of bits 0..65535; every other command has no operand. A token's symbol
is a byte, so every token is well formed (R103). -/
def Instr.wellFormed : Instr → Bool
  | .bbAppendBit b => decide (b.toNat ≤ 1)
  | .bbAppendByte v => decide (v.toNat ≤ 255)
  | .bbAppendCode s => decide (s.toNat ≤ 255)
  | .freqInc s => decide (s.toNat ≤ 255)
  | .bbDrop n => decide (n.toNat ≤ 65535)
  | .nop | .softReset | .release | .bbClear | .bbDrain | .bbFlush | .bbFill | .freqClr | .freqScan | .treeBuild | .codeGen | .treeSer
  | .treeDes | .hdrWrite | .payloadEnc | .compress | .hdrRead | .decSymbol | .payloadDec | .decompress | .branch | .leaf _ => true

/-- Whether the instruction is one of the 25 host commands (R93), not a token of the serialized tree (R99). -/
def Instr.isCommand : Instr → Bool
  | .branch | .leaf _ => false
  | .nop | .softReset | .release | .bbClear | .bbAppendBit _ | .bbAppendByte _ | .bbAppendCode _ | .bbDrop _ | .bbDrain | .bbFlush
  | .bbFill | .freqClr | .freqInc _ | .freqScan | .treeBuild | .codeGen | .treeSer | .treeDes | .hdrWrite | .payloadEnc | .compress
  | .hdrRead | .decSymbol | .payloadDec | .decompress => true

end Sys2Proof
end

