-- ==== Sys2Proof/Decode.lean ====
section
/-! DEFINITION. The two decoders of R90 that read instructions, the command decoder (R91 to R94) and the token decoder of the serialized
tree (R99, R100), total and rejecting by name; the encoder written from the same tables; and the reading of the opcode table's words. -/

namespace Sys2Proof

/-- Why a word or a token is rejected: `illegalCmd` and `badOperand` are the decode-time refusals of R94, `badToken` a bit string that is
not exactly one token of table R99. -/
inductive Reject where
  | illegalCmd
  | badOperand
  | badToken
  deriving DecidableEq, Repr

/-- What a decoder answers. -/
inductive Decoded where
  | ok (i : Instr)
  | reject (r : Reject)
  deriving DecidableEq, Repr

/-- What carries an instruction: a host command its 32-bit word (R91), a tree token its bits in stream order (R99). -/
inductive Carrier where
  | word (w : Word)
  | token (q : Bits)
  deriving DecidableEq, Repr

/-- OPC, bits 31:24 (table R91). -/
def opcField (w : Word) : Byte := w.extractLsb' 24 8

/-- RSV, bits 23:16 (table R91). -/
def rsvField (w : Word) : Byte := w.extractLsb' 16 8

/-- OPD, bits 15:0 (table R91). -/
def opdField (w : Word) : Opd := w.extractLsb' 0 16

/-- A command whose operand must be at most `most` (R92). -/
def withOperand (opd : Opd) (most : Nat) (i : Instr) : Decoded :=
  if opd.toNat ≤ most then .ok i else .reject .badOperand

/-- A command that takes no operand: OPD must be 0 (R92). -/
def withoutOperand (opd : Opd) (i : Instr) : Decoded := withOperand opd 0 i

/-- The command decoder (R91 to R94): RSV and OPC are checked first, then OPD. -/
def decodeWord (w : Word) : Decoded :=
  let opd := opdField w
  if rsvField w ≠ 0 then .reject .illegalCmd
  else match (opcField w).toNat with
    | 0x00 => withoutOperand opd .nop
    | 0x01 => withoutOperand opd .softReset
    | 0x02 => withoutOperand opd .release
    | 0x10 => withoutOperand opd .bbClear
    | 0x11 => withOperand opd 1 (.bbAppendBit opd)
    | 0x12 => withOperand opd 255 (.bbAppendByte opd)
    | 0x13 => withOperand opd 255 (.bbAppendCode opd)
    | 0x14 => withOperand opd 65535 (.bbDrop opd)
    | 0x15 => withoutOperand opd .bbDrain
    | 0x16 => withoutOperand opd .bbFlush
    | 0x17 => withoutOperand opd .bbFill
    | 0x20 => withoutOperand opd .freqClr
    | 0x21 => withOperand opd 255 (.freqInc opd)
    | 0x22 => withoutOperand opd .freqScan
    | 0x23 => withoutOperand opd .treeBuild
    | 0x24 => withoutOperand opd .codeGen
    | 0x30 => withoutOperand opd .treeSer
    | 0x31 => withoutOperand opd .treeDes
    | 0x40 => withoutOperand opd .hdrWrite
    | 0x41 => withoutOperand opd .payloadEnc
    | 0x4F => withoutOperand opd .compress
    | 0x50 => withoutOperand opd .hdrRead
    | 0x51 => withoutOperand opd .decSymbol
    | 0x52 => withoutOperand opd .payloadDec
    | 0x5F => withoutOperand opd .decompress
    | _ => .reject .illegalCmd

/-- The token decoder (table R99, R100): the first bit tells the length, a leaf's symbol follows most significant bit first. -/
def decodeToken : Bits → Decoded
  | [false] => .ok .branch
  | [true, b7, b6, b5, b4, b3, b2, b1, b0] => .ok (.leaf (byteOf [b7, b6, b5, b4, b3, b2, b1, b0]))
  | _ => .reject .badToken

def decode : Carrier → Decoded
  | .word w => decodeWord w
  | .token q => decodeToken q

/-- The opcode of a command (table R93); a token has none. -/
def opcodeOf : Instr → Option Byte
  | .nop => some 0x00
  | .softReset => some 0x01
  | .release => some 0x02
  | .bbClear => some 0x10
  | .bbAppendBit _ => some 0x11
  | .bbAppendByte _ => some 0x12
  | .bbAppendCode _ => some 0x13
  | .bbDrop _ => some 0x14
  | .bbDrain => some 0x15
  | .bbFlush => some 0x16
  | .bbFill => some 0x17
  | .freqClr => some 0x20
  | .freqInc _ => some 0x21
  | .freqScan => some 0x22
  | .treeBuild => some 0x23
  | .codeGen => some 0x24
  | .treeSer => some 0x30
  | .treeDes => some 0x31
  | .hdrWrite => some 0x40
  | .payloadEnc => some 0x41
  | .compress => some 0x4F
  | .hdrRead => some 0x50
  | .decSymbol => some 0x51
  | .payloadDec => some 0x52
  | .decompress => some 0x5F
  | .branch => none
  | .leaf _ => none

/-- The operand field a command's word holds (R92): 0 for a command that takes none. -/
def operandOf : Instr → Opd
  | .bbAppendBit b => b
  | .bbAppendByte v => v
  | .bbAppendCode s => s
  | .bbDrop n => n
  | .freqInc s => s
  | .nop | .softReset | .release | .bbClear | .bbDrain | .bbFlush | .bbFill | .freqClr | .freqScan | .treeBuild | .codeGen | .treeSer
  | .treeDes | .hdrWrite | .payloadEnc | .compress | .hdrRead | .decSymbol | .payloadDec | .decompress | .branch | .leaf _ => 0

/-- A command word with RSV = 0 (R91, R95: `(OPC << 24) | OPD`). -/
def commandWord (opc : Byte) (opd : Opd) : Word := opc ++ (0 : Byte) ++ opd

/-- The bits of a token (table R99); a command is no token. -/
def tokenBits : Instr → Bits
  | .leaf s => true :: bits8 s
  | .branch => [false]
  | .nop | .softReset | .release | .bbClear | .bbAppendBit _ | .bbAppendByte _ | .bbAppendCode _ | .bbDrop _ | .bbDrain | .bbFlush
  | .bbFill | .freqClr | .freqInc _ | .freqScan | .treeBuild | .codeGen | .treeSer | .treeDes | .hdrWrite | .payloadEnc | .compress
  | .hdrRead | .decSymbol | .payloadDec | .decompress => []

/-- The encoder: a command's word, a token's bits. -/
def encode (i : Instr) : Carrier :=
  match opcodeOf i with
  | some opc => .word (commandWord opc (operandOf i))
  | none => .token (tokenBits i)

/-- What carries the row of the opcode table whose bits are `w`: a row of 32 bits is a command word; a row of at most 16 bits is a tree
token, the table's pattern (`0`, `1ssssssss`) read as one number whose leftmost bit is first in the stream (log entry 11). -/
def tableCarrier (nbits w : Nat) : Carrier :=
  if nbits ≤ 8 then .token [w.testBit 0]
  else if nbits ≤ 16 then .token ((List.range 9).map fun k => w.testBit (8 - k))
  else .word (BitVec.ofNat 32 w)

/-- The instruction the decoder reads from a word of the opcode table. -/
def decodeTableWord (nbits w : Nat) : Option Instr :=
  match decode (tableCarrier nbits w) with
  | .ok i => some i
  | .reject _ => none

end Sys2Proof
end

