-- ==== Sys2Proof/Config.lean ====
section
/-! DEFINITION. What the implementation fixes (R9 to R12) and the one free value of the model. -/

namespace Sys2Proof.Config

/-- BB_CAP, the capacity of the bit buffer in bits (R10: this hardware takes 512). -/
def bbCap : Nat := 512

/-- NODE_CAP, the number of entries of the node memory (R11: this hardware takes 511). -/
def nodeCap : Nat := 511

/-- DEPTH_LIMIT, the depth at which tree deserialization aborts (table R9). -/
def depthLimit : Nat := 256

/-- MAX_CODE_LEN and MAX_DEPTH, the longest codeword and the greatest valid depth (table R9). -/
def maxDepth : Nat := 255

/-- TOPUP, the number of bits the payload decoder tries to hold before each symbol (table R9). -/
def topUp : Nat := 255

/-- MIN_INPUT, the fewest input bytes compression accepts (table R9). -/
def minInput : Nat := 2

/-- HDR_BYTES, the size of the symbol-count header (table R9). -/
def hdrBytes : Nat := 4

/-- SYNTH_OFFSET, by which the synthetic symbol is away from the one real symbol (table R12). -/
def synthOffset : Nat := 128

/-- The values the spec leaves open (U22, U24 to U26): a fresh one for each value of the counter `State.free`. It has no body: nothing
can be proved of what it is. DESIGN CHOICE, safe (log entry 9). -/
opaque freeWord : Nat → Word

end Sys2Proof.Config
end

