-- ==== Sys2Proof/Machine/State.lean ====
section
/-! DEFINITION. The state of TH-CORE as plain data: the control and working registers, the flags, the tables, the bit buffer (R20 to R40),
the deserializer's traversal (R42), the environment that stands beside the engine (R45, R286), and the model's own counter of free values.
A table that a valid flag guards is an option: the flag is 1 exactly when the table holds a value (R30: a table that no command of the
current job has written holds no value; log entry 3). -/

namespace Sys2Proof.Machine

/-! ### Result codes (table R241) -/

/-- The nine causes of the source's five error kinds (R242). -/
inductive ErrCode where
  | inputTooSmall
  | headerTruncated
  | treeDepth
  | treeSingleLeaf
  | treeEos
  | payloadEmpty
  | payloadMid
  | ioSrc
  | ioSnk
  deriving DecidableEq, Repr

/-- The six refusals (R246). They are outcomes the engine reports in RESULT, not stops of the model. -/
inductive RefuseCode where
  | illegalCmd
  | badSequence
  | badOperand
  | inputTooLarge
  | nodeMemFull
  | emptyFreq
  deriving DecidableEq, Repr

/-- The three sticky faults (R247). They are outcomes the engine reports in RESULT, not stops of the model. -/
inductive FaultCode where
  | bbOverflow
  | bbUnderflow
  | noCodeword
  deriving DecidableEq, Repr

/-- What RESULT[7:0] can hold (R241: no other value is ever written). -/
inductive ResultCode where
  | ok
  | okEos
  | err (e : ErrCode)
  | refuse (r : RefuseCode)
  | fault (f : FaultCode)
  deriving DecidableEq, Repr

/-- RUN_STATE (table R22). -/
inductive RunState where
  | idle
  | busy
  | fault
  deriving DecidableEq, Repr

/-! ### Tables -/

/-- The tree in NODE (R37, R38), read as the inductive value R48 allows. Every node keeps its index in NODE, which is its creation index;
a weight is absent where it was not written (R37: TreeDes writes none). ROOT, NODE_N and the entries of NODE are read from it
(`Tree.index`, `Tree.size`, `Tree.entry`). -/
inductive Tree where
  | leaf (index : Nat) (weight : Option Count) (sym : Byte)
  | branch (index : Nat) (weight : Option Count) (left right : Tree)
  deriving DecidableEq, Repr

/-- FREQ, 256 counts indexed by symbol (R36). -/
abbrev FreqTable := Vector Count 256

/-- CODE, 256 codewords indexed by symbol, root branch first; LEN is the length, the empty list is "no codeword" (R39). -/
abbrev CodeTable := Vector Bits 256

/-! ### The deserializer's traversal (R42) -/

/-- An open branch on the traversal stack: one whose left child is being read, or whose right child is. -/
inductive Frame where
  | left (index : Nat)
  | right (index : Nat) (leftChild : Tree)
  deriving DecidableEq, Repr

/-- The deserializer's hidden state: the bits of the token being read, the traversal stack (its length is DEPTH, R42), the next free index of
NODE, and the whole tree once its last token has been read. -/
structure Traversal where
  token : Bits
  stack : List Frame
  next : Nat
  whole : Option Tree
  deriving DecidableEq, Repr

/-- No traversal under way. -/
def Traversal.idle : Traversal := { token := [], stack := [], next := 0, whole := none }

/-! ### The environment (R45, R67, R79, R286) -/

/-- What the host's plan says of one port operation: it answers, it answers IoErr (R67), or it never answers (R79, R289). -/
inductive PortPlan where
  | answers
  | ioErr
  | never
  deriving DecidableEq, Repr

/-- SRC: its bytes, the read position, the plan for the next reads, and the contents it presents after each of the next rewinds; a read past the
plan's end answers (R45, U28; log entry 5), and past the end of `rewinds` a rewind presents the same bytes again (R65, the host's duties H3 and
H4). A host that breaks them writes other contents there (R194, R284; log entry 18). -/
structure Source where
  data : List Byte
  pos : Nat
  plan : List PortPlan
  rewinds : List (List Byte) := []
  deriving DecidableEq, Repr

/-- SNK: the bytes accepted, the plan for the next writes, and the byte of a write that was never answered (U26). -/
structure Sink where
  out : List Byte
  plan : List PortPlan
  inFlight : Option Byte
  deriving DecidableEq, Repr

/-- What the host does next (R46, R273, R286): write or read a register by its index, assert hard reset, present a source or a sink. -/
inductive HostAct where
  | writeReg (index : BitVec 3) (w : Word)
  | readReg (index : BitVec 3)
  | hardReset
  | attachSource (data : List Byte) (pos : Nat) (plan : List PortPlan) (rewinds : List (List Byte))
  | attachSink (plan : List PortPlan)
  deriving DecidableEq, Repr

/-! ### The state -/

structure State where
  /-- RUN_STATE (R22). -/
  run : RunState
  /-- RESULT[7:0] (R23). -/
  result : ResultCode
  /-- TOTAL (R25). -/
  total : Count
  /-- COUNT (R26). -/
  count : Count
  /-- EMITTED (R27). -/
  emitted : Count
  /-- COUNT_VALID (R34). -/
  countValid : Bool
  /-- SRC_EOS (R35). -/
  srcEos : Bool
  /-- BB, head first (R40); BB_LEN is its length (R28). -/
  bb : Bits
  /-- FREQ, present when FREQ_VALID = 1 (R31, R36). -/
  freq : Option FreqTable
  /-- NODE, ROOT and NODE_N, present when TREE_VALID = 1 (R29, R32, R37). -/
  tree : Option Tree
  /-- CODE, present when CODE_VALID = 1 (R33, R39). -/
  code : Option CodeTable
  /-- The deserializer's traversal, hidden (R42). -/
  des : Traversal
  /-- The byte source (R45). -/
  src : Source
  /-- The byte sink (R45). -/
  snk : Sink
  /-- What the host does next, in order (R24, R273). -/
  host : List HostAct
  /-- The values the host's register reads have returned, in order (R46). -/
  reads : List Word
  /-- The model's own: how many free values have been used (log entry 9). -/
  free : Nat
  deriving DecidableEq, Repr

/-- Why the model stops. -/
inductive Fault where
  /-- A write to CMD while RUN_STATE = BUSY, raised by every command and by the step (R21, R286: the host must never do it and the spec gives
  it no meaning, U24). Safe: the model stops where the engine does something unspecified. -/
  | cmdWhileBusy
  deriving DecidableEq, Repr

/-- Why an instruction has no meaning in the model. -/
inductive Refusal where
  /-- Raised by an arm of `exec` whose instruction has no meaning yet; no arm is left so. Safe. -/
  | notModelled (mnemonic : String)
  deriving DecidableEq, Repr

abbrev Outcome := Host.Outcome State Fault Refusal

/-- The state right after reset (table R47), with no traversal, an empty source and sink, a host that does nothing, and no read made. -/
def State.reset : State where
  run := .idle
  result := .ok
  total := 0
  count := 0
  emitted := 0
  countValid := false
  srcEos := false
  bb := []
  freq := none
  tree := none
  code := none
  des := .idle
  src := { data := [], pos := 0, plan := [], rewinds := [] }
  snk := { out := [], plan := [], inFlight := none }
  host := []
  reads := []
  free := 0

end Sys2Proof.Machine
end

