-- ==== Sys2Proof/Machine/Tables.lean ====
section
/-! DEFINITION. Reading the tables: entries of FREQ and CODE by symbol (R36, R39), and the views of a tree that the spec names: its root index,
its node count, the entries of NODE, its depth, its leaves and its serialized form (R29, R37, R38, R99). -/

namespace Sys2Proof.Machine

/-- Entry `s` of a 256-entry table. -/
def tableGet {α : Type} (t : Vector α 256) (s : Byte) : α := t[s.toNat]'s.isLt

/-- The table with entry `s` replaced. -/
def tableSet {α : Type} (t : Vector α 256) (s : Byte) (x : α) : Vector α 256 := t.set s.toNat x s.isLt

/-- The all-zero frequency table (R141). -/
def FreqTable.zero : FreqTable := Vector.replicate 256 0

/-- The code table in which no symbol has a codeword (R161). -/
def CodeTable.empty : CodeTable := Vector.replicate 256 []

/-- The sum of all entries of FREQ (R25). -/
def freqSum (f : FreqTable) : Nat := (f.toList.map BitVec.toNat).sum

/-! ### Views of a tree -/

/-- The index in NODE of the tree's root: ROOT for the whole tree (R29). -/
def Tree.index : Tree → Nat
  | .leaf i _ _ => i
  | .branch i _ _ _ => i

/-- The number of nodes: NODE_N for the whole tree (R29). -/
def Tree.size : Tree → Nat
  | .leaf _ _ _ => 1
  | .branch _ _ l r => l.size + r.size + 1

/-- KIND = leaf (table R37). -/
def Tree.isLeaf : Tree → Bool
  | .leaf _ _ _ => true
  | .branch _ _ _ _ => false

/-- The greatest depth of a node, the root at depth 0 (R18). -/
def Tree.height : Tree → Nat
  | .leaf _ _ _ => 0
  | .branch _ _ l r => max l.height r.height + 1

/-- The leaf symbols in pre-order. -/
def Tree.symbols : Tree → List Byte
  | .leaf _ _ s => [s]
  | .branch _ _ l r => l.symbols ++ r.symbols

/-- The indices of the nodes in pre-order. -/
def Tree.indices : Tree → List Nat
  | .leaf i _ _ => [i]
  | .branch i _ l r => i :: (l.indices ++ r.indices)

/-- One entry of NODE as table R37 lists it; a field that is meaningless for the kind is left out. -/
inductive NodeEntry where
  | leaf (sym : Byte) (weight : Option Count)
  | branch (weight : Option Count) (left right : Nat)
  deriving DecidableEq, Repr

/-- NODE[i] (R37), if the tree has a node of that index. -/
def Tree.entry (i : Nat) : Tree → Option NodeEntry
  | .leaf j w s => if i = j then some (.leaf s w) else none
  | .branch j w l r =>
    if i = j then some (.branch w l.index r.index)
    else match l.entry i with
      | some e => some e
      | none => r.entry i

/-- The serialized tree `T` (R99): pre-order, "0" for a branch, "1" and the symbol's 8 bits for a leaf. -/
def Tree.ser : Tree → Bits
  | .leaf _ _ s => true :: bits8 s
  | .branch _ _ l r => false :: (l.ser ++ r.ser)

/-- The tree without indices and weights: its shape and leaf symbols, all that the stream carries (R170, R179). -/
def Tree.shape : Tree → Tree
  | .leaf _ _ s => .leaf 0 none s
  | .branch _ _ l r => .branch 0 none l.shape r.shape

end Sys2Proof.Machine
end

