-- ==== Sys2Proof/Machine/Flags.lean ====
section
/-! DEFINITION. The flags and the host's registers: the valid flags (R30 to R34), the encodings of STATUS (table R22), RESULT (R23, table R241)
and TREE_INFO (R29), and what a host read of each register index returns (table R46). -/

namespace Sys2Proof.Machine

/-! ### Valid flags -/

/-- FREQ_VALID (R31). -/
def State.freqValid (s : State) : Bool := s.freq.isSome

/-- TREE_VALID (R32). -/
def State.treeValid (s : State) : Bool := s.tree.isSome

/-- CODE_VALID (R33). -/
def State.codeValid (s : State) : Bool := s.code.isSome

/-! ### Result codes (table R241) -/

def ErrCode.toNat : ErrCode → Nat
  | .inputTooSmall => 0x10
  | .headerTruncated => 0x20
  | .treeDepth => 0x30
  | .treeSingleLeaf => 0x31
  | .treeEos => 0x32
  | .payloadEmpty => 0x40
  | .payloadMid => 0x41
  | .ioSrc => 0x50
  | .ioSnk => 0x51

def RefuseCode.toNat : RefuseCode → Nat
  | .illegalCmd => 0x80
  | .badSequence => 0x81
  | .badOperand => 0x82
  | .inputTooLarge => 0x83
  | .nodeMemFull => 0x84
  | .emptyFreq => 0x85

def FaultCode.toNat : FaultCode → Nat
  | .bbOverflow => 0xF0
  | .bbUnderflow => 0xF1
  | .noCodeword => 0xF2

def ResultCode.toNat : ResultCode → Nat
  | .ok => 0x00
  | .okEos => 0x01
  | .err e => e.toNat
  | .refuse r => r.toNat
  | .fault f => f.toNat

/-- The source's five error kinds (R242, R243). -/
inductive ErrKind where
  | inputTooSmall
  | headerTruncated
  | treeMalformed
  | payloadTruncated
  | ioError
  deriving DecidableEq, Repr

/-- The source's kind of a result code (R243); successes, refusals and faults belong to none. -/
def ResultCode.kind : ResultCode → Option ErrKind
  | .err .inputTooSmall => some .inputTooSmall
  | .err .headerTruncated => some .headerTruncated
  | .err .treeDepth | .err .treeSingleLeaf | .err .treeEos => some .treeMalformed
  | .err .payloadEmpty | .err .payloadMid => some .payloadTruncated
  | .err .ioSrc | .err .ioSnk => some .ioError
  | .ok | .okEos | .refuse _ | .fault _ => none

/-! ### Register images -/

/-- RUN_STATE's encoding (table R22); 2 is never produced. -/
def RunState.toNat : RunState → Nat
  | .idle => 0
  | .busy => 1
  | .fault => 3

/-- STATUS (table R22); its reserved bits read as 0. -/
def statusWord (s : State) : Word :=
  BitVec.ofNat 32 (s.run.toNat + 16 * s.freqValid.toNat + 32 * s.treeValid.toNat + 64 * s.codeValid.toNat + 128 * s.countValid.toNat
    + 256 * s.srcEos.toNat)

/-- RESULT: the code in bits 7:0, the other bits 0 (R23). -/
def resultWord (s : State) : Word := BitVec.ofNat 32 s.result.toNat

/-- BB_LEN, zero-extended (R28, table R46). -/
def bbLenWord (s : State) : Word := BitVec.ofNat 32 s.bb.length

/-- TREE_INFO of a tree: ROOT in bits 8:0, NODE_N in bits 25:16, the other bits 0 (R29). -/
def treeInfoWord (t : Tree) : Word := BitVec.setWidth 32 (BitVec.ofNat 9 t.index) ||| (BitVec.setWidth 32 (BitVec.ofNat 10 t.size) <<< 16)

/-- Free bits for TREE_INFO: any ROOT and NODE_N, the other bits 0 (U22, U29). -/
def freeTreeInfo (v : Word) : Word := v &&& 0x03FF01FF

/-- What the host's read of a register returns while no command runs (table R46). CMD has no defined value (R21), nor has TREE_INFO while
TREE_VALID = 0 (U22): there the free value `v` stands. TOTAL, COUNT and EMITTED read as last written (R26, R27, R232). -/
def readIdle (index : BitVec 3) (v : Word) (s : State) : Word :=
  match index.toNat with
  | 0 => v
  | 1 => statusWord s
  | 2 => resultWord s
  | 3 => s.total
  | 4 => s.count
  | 5 => s.emitted
  | 6 => bbLenWord s
  | _ =>
    match s.tree with
    | some t => treeInfoWord t
    | none => freeTreeInfo v

/-- What the host's read of a register returns while a command runs: RUN_STATE reads BUSY, every other value is unspecified (R286 L6, U25),
within the limits the spec sets (reserved bits 0, U29; BB_LEN at most BB_CAP, R28). -/
def readBusy (index : BitVec 3) (v : Word) : Word :=
  match index.toNat with
  | 1 => (v &&& 0x1F0) ||| 1
  | 2 => v &&& 0xFF
  | 6 => BitVec.ofNat 32 (v.toNat % (Config.bbCap + 1))
  | 7 => freeTreeInfo v
  | _ => v

/-- What the host's read of register `index` returns. -/
def readReg (index : BitVec 3) (s : State) : Word :=
  match s.run with
  | .busy => readBusy index (Config.freeWord s.free)
  | .idle | .fault => readIdle index (Config.freeWord s.free) s

end Sys2Proof.Machine
end

