-- ==== Sys2Proof/Machine/Operands.lean ====
section
/-! DEFINITION. The operand forms of the commands (table R92): the accepted ranges and what an accepted operand stands for. -/

namespace Sys2Proof.Machine

/-- BB_APPEND_BIT takes a bit, 0..1 (table R92). -/
def bitOperandOk (opd : Opd) : Bool := decide (opd.toNat ≤ 1)

/-- BB_APPEND_BYTE, BB_APPEND_CODE and FREQ_INC take a byte or a symbol, 0..255 (table R92). -/
def byteOperandOk (opd : Opd) : Bool := decide (opd.toNat ≤ 255)

/-- BB_DROP takes any number of bits, 0..65535 (table R92). -/
def countOperandOk (opd : Opd) : Bool := decide (opd.toNat ≤ 65535)

/-- The bit an accepted operand of BB_APPEND_BIT stands for. -/
def operandBit (opd : Opd) : Bool := opd.getLsbD 0

/-- The byte or symbol an accepted operand stands for: used as it stands (R92). -/
def operandByte (opd : Opd) : Byte := opd.setWidth 8

end Sys2Proof.Machine
end

