-- ==== Sys2Proof/Machine/Ops.lean ====
section
/-! DEFINITION. The shared operations: micro-operations and their abnormal outcomes (R17, R240), the two ports (R63 to R66), the bit buffer
(R121 to R130), the completion of a command in each class of outcome (R244 to R247, this hardware's counterpart of taking an exception),
and the two resets, the way back from a fault (R270, R271). -/

namespace Sys2Proof.Machine

/-! ### Micro-operations -/

/-- What stops a micro-operation before its end: `raise Err`, `raise Refuse`, `raise Fault` (R17), or a port operation that the host never
answers (R79). -/
inductive Raise where
  | err (e : ErrCode)
  | refuse (r : RefuseCode)
  | fault (f : FaultCode)
  | hang
  deriving DecidableEq, Repr

/-- A micro-operation: from a state to a result and a state, or to a raise and the state at the raise, whose changes stand (R17, R245). -/
abbrev Micro (α : Type) := EStateM Raise State α

/-- `m`, with `f` applied to the state where `m` raises. -/
def onRaise {α : Type} (f : Raise → State → State) (m : Micro α) : Micro α := fun s =>
  match m s with
  | .ok a t => .ok a t
  | .error r t => .error r (f r t)

/-- The value a table holds. A command that needs a table is refused before its micro-operations start when the table has none (R30, R246). -/
def needed {α : Type} (x : Option α) : Micro α :=
  match x with
  | some a => pure a
  | none => throw (.refuse .badSequence)

/-! ### The ports -/

/-- What SrcRead returns (R63). -/
inductive SrcAnswer where
  | byte (v : Byte)
  | eos
  | ioErr
  deriving DecidableEq, Repr

/-- What SnkWrite returns (R66). -/
inductive SnkAnswer where
  | ok
  | ioErr
  deriving DecidableEq, Repr

/-- The source's answer to a read that does not fail: the next byte, or end of stream (R63, R64). -/
def srcTake (s : State) : SrcAnswer × State :=
  match s.src.data[s.src.pos]? with
  | some v => (.byte v, { s with src := { s.src with pos := s.src.pos + 1 }, srcEos := false })
  | none => (.eos, { s with srcEos := true })

/-- `SrcRead()` (R63): the plan's next entry says whether the host answers; a failing read changes neither SRC.POS nor SRC_EOS. -/
def srcRead : Micro SrcAnswer := fun s =>
  match s.src.plan with
  | [] => .ok (srcTake s).1 (srcTake s).2
  | .answers :: p =>
    let t := { s with src := { s.src with plan := p } }
    .ok (srcTake t).1 (srcTake t).2
  | .ioErr :: p => .ok .ioErr { s with src := { s.src with plan := p } }
  | .never :: p => .error .hang { s with src := { s.src with plan := p } }

/-- The source after a rewind: at its first byte, with the contents the host presents in the new pass (R65, R194, R284; log entry 18). -/
def Source.rewound (a : Source) : Source :=
  match a.rewinds with
  | [] => { a with pos := 0 }
  | d :: rest => { a with data := d, pos := 0, rewinds := rest }

/-- `SrcRewind()` (R65). -/
def srcRewind : Micro Unit := modify fun s => { s with src := s.src.rewound, srcEos := false }

/-- `SnkWrite(v)` (R66): a failing write leaves SNK.OUT unchanged; a write that is never answered leaves its byte in flight (U26). -/
def snkWrite (v : Byte) : Micro SnkAnswer := fun s =>
  match s.snk.plan with
  | [] => .ok .ok { s with snk := { s.snk with out := s.snk.out ++ [v] } }
  | .answers :: p => .ok .ok { s with snk := { s.snk with out := s.snk.out ++ [v], plan := p } }
  | .ioErr :: p => .ok .ioErr { s with snk := { s.snk with plan := p } }
  | .never :: p => .error .hang { s with snk := { s.snk with plan := p, inFlight := some v } }

/-- A SrcRead whose IoErr raises Err(IO_SRC) at once (R254): the next byte, or nothing at end of stream. -/
def readByte : Micro (Option Byte) := do
  match ← srcRead with
  | .byte v => pure (some v)
  | .eos => pure none
  | .ioErr => throw (.err .ioSrc)

/-- A SnkWrite whose IoErr raises Err(IO_SNK) at once (R254). -/
def writeByte (v : Byte) : Micro Unit := do
  match ← snkWrite v with
  | .ok => pure ()
  | .ioErr => throw (.err .ioSnk)

/-! ### The bit buffer -/

/-- BbClear (R121). -/
def bbClear : Micro Unit := modify fun s => { s with bb := [] }

/-- BbAppendBits (R123): all or nothing. -/
def bbAppendBits (q : Bits) : Micro Unit := fun s =>
  if s.bb.length + q.length > Config.bbCap then .error (.fault .bbOverflow) s
  else .ok () { s with bb := s.bb ++ q }

/-- BbAppendBit (R122); R123: appending a sequence of one bit equals it. -/
def bbAppendBit (b : Bool) : Micro Unit := bbAppendBits [b]

/-- AppendByte (R124): most significant bit first. -/
def appendByte (v : Byte) : Micro Unit := bbAppendBits (bits8 v)

/-- AppendCode (R125): the codeword in path order. -/
def appendCode (v : Byte) : Micro Unit := do
  let code ← needed (← get).code
  match tableGet code v with
  | [] => throw (.fault .noCodeword)
  | b :: q => bbAppendBits (b :: q)

/-- BbPeek (R126): bit `i` from the head, not removed. -/
def bbPeek (i : Nat) : Micro Bool := fun s =>
  match s.bb[i]? with
  | some b => .ok b s
  | none => .error (.fault .bbUnderflow) s

/-- BbDrop (R127): nothing is dropped when fewer bits are present. -/
def bbDrop (n : Nat) : Micro Unit := fun s =>
  if n > s.bb.length then .error (.fault .bbUnderflow) s
  else .ok () { s with bb := s.bb.drop n }

/-- `n` passes of BbDrain's loop (R128): a group leaves the buffer once the sink has accepted its byte. -/
def bbDrainPasses : Nat → Micro Unit
  | 0 => pure ()
  | n + 1 => do
    writeByte (byteOf ((← get).bb.take 8))
    bbDrop 8
    bbDrainPasses n

/-- BbDrain (R128): while BB_LEN ≥ 8 a pass removes 8 bits, so there are BB_LEN div 8 passes. -/
def bbDrain : Micro Unit := do bbDrainPasses ((← get).bb.length / 8)

/-- BbFlush (R129): drain, then the remaining 1 to 7 bits as one byte with zeros on the right. -/
def bbFlush : Micro Unit := do
  bbDrain
  let q := (← get).bb
  match q with
  | [] => pure ()
  | b :: bs => do
    writeByte (paddedByte (b :: bs))
    bbDrop (b :: bs).length

/-- What BbFill returns (R130). -/
inductive FillAnswer where
  | filled
  | eos
  deriving DecidableEq, Repr

/-- BbFill (R130): the capacity is checked before the source is read. -/
def bbFill : Micro FillAnswer := do
  if (← get).bb.length + 8 > Config.bbCap then throw (.fault .bbOverflow)
  else match ← readByte with
    | none => pure .eos
    | some v => do
      bbAppendBits (bits8 v)
      pure .filled

/-! ### Completing a command -/

/-- Release (R232): the four valid flags and the bit buffer are cleared; TOTAL, COUNT, EMITTED and SRC_EOS are kept. -/
def State.released (s : State) : State :=
  { s with freq := none, tree := none, code := none, countValid := false, bb := [] }

/-- A command starts: RUN_STATE is BUSY while it runs (R22). -/
def State.started (s : State) : State := { s with run := .busy }

/-- A command completes with code `c`: RESULT is written last, RUN_STATE is IDLE (R244, R245, R246). -/
def State.completed (c : ResultCode) (s : State) : State := { s with run := .idle, result := c }

/-- A fault: RESULT takes the code and RUN_STATE is FAULT; everything else stays as at the raise (R247). -/
def State.faulted (f : FaultCode) (s : State) : State := { s with run := .fault, result := .fault f }

/-- The state a command leaves when its micro-operations raised `r` in state `s`. A composite command performs Release first after an error or
a refusal, never after a fault (R245 to R247); a command whose port operation is never answered stays BUSY (R79). -/
def State.raised (composite : Bool) (r : Raise) (s : State) : State :=
  let base := if composite then s.released else s
  match r with
  | .err e => base.completed (.err e)
  | .refuse c => base.completed (.refuse c)
  | .fault f => s.faulted f
  | .hang => s

/-- The state a command leaves: its micro-operations are run from the started state and end with a success code or a raise. -/
def settle (composite : Bool) (body : Micro ResultCode) (s : State) : State :=
  match body s.started with
  | .ok c t => t.completed c
  | .error r t => t.raised composite r

/-- What accepts a command by RUN_STATE: IDLE runs it, FAULT ignores it (R255), BUSY is the host's broken duty (R21, U24). -/
def accept (s : State) (t : State) : Outcome :=
  match s.run with
  | .idle => .next t
  | .fault => .next s
  | .busy => .fault .cmdWhileBusy

/-- A primitive command: BAD_OPERAND, then BAD_SEQUENCE, then the pseudocode (R94, R246, R249). -/
def primitive (operandOk required : Bool) (body : Micro ResultCode) (s : State) : Outcome :=
  accept s <|
    if !operandOk then s.completed (.refuse .badOperand)
    else if !required then s.completed (.refuse .badSequence)
    else settle false body s

/-- A composite command requires no flag and ends with Release on success too (R96, R196, R216). -/
def composite (body : Micro Unit) (s : State) : Outcome :=
  accept s <| settle true (do body; modify State.released; pure .ok) s

/-- A micro-operation as a command body: it completes with OK. -/
def thenOk (m : Micro Unit) : Micro ResultCode := do m; pure .ok

/-! ### Reset -/

/-- The engine's part of the state at the values of table R47; the environment is not touched (R231, R270). -/
def State.engineReset (s : State) : State :=
  { State.reset with src := s.src, snk := s.snk, host := s.host, reads := s.reads, free := s.free }

/-- Hard reset (R270) works in every state. A byte whose write was never answered may or may not have been accepted (U26): a free bit
decides. -/
def State.hardReset (s : State) : State :=
  match s.snk.inFlight with
  | none => s.engineReset
  | some v =>
    let out := if (Config.freeWord s.free).getLsbD 0 then s.snk.out ++ [v] else s.snk.out
    { s.engineReset with snk := { s.snk with out := out, inFlight := none }, free := s.free + 1 }

end Sys2Proof.Machine
end

