-- ==== Sys2Proof/Machine/BitBuf.lean ====
section
/-! DEFINITION. The bit buffer's commands (40_bitbuf.md). -/

namespace Sys2Proof.Machine

/-- BB_CLEAR (R121). -/
def execBbClear (s : State) : Outcome := primitive true true (thenOk bbClear) s

/-- BB_APPEND_BIT (R122). -/
def execBbAppendBit (b : Opd) (s : State) : Outcome := primitive (bitOperandOk b) true (thenOk (bbAppendBit (operandBit b))) s

/-- BB_APPEND_BYTE (R124). -/
def execBbAppendByte (v : Opd) (s : State) : Outcome := primitive (byteOperandOk v) true (thenOk (appendByte (operandByte v))) s

/-- BB_APPEND_CODE (R125). -/
def execBbAppendCode (v : Opd) (s : State) : Outcome :=
  primitive (byteOperandOk v) s.codeValid (thenOk (appendCode (operandByte v))) s

/-- BB_DROP (R127). -/
def execBbDrop (n : Opd) (s : State) : Outcome := primitive (countOperandOk n) true (thenOk (bbDrop n.toNat)) s

/-- BB_DRAIN (R128). -/
def execBbDrain (s : State) : Outcome := primitive true true (thenOk bbDrain) s

/-- BB_FLUSH (R129). -/
def execBbFlush (s : State) : Outcome := primitive true true (thenOk bbFlush) s

/-- BB_FILL as a command (R130): OK when a byte was appended, OK_EOS at the source's end. -/
def bbFillCommand : Micro ResultCode := do
  match ← bbFill with
  | .filled => pure .ok
  | .eos => pure .okEos

/-- BB_FILL (R130). -/
def execBbFill (s : State) : Outcome := primitive true true bbFillCommand s

end Sys2Proof.Machine
end

