-- ==== Sys2Proof/Machine/TreeSer.lean ====
section
/-! DEFINITION. The tree serializer and deserializer, and the tokens of the serialized tree (43_treeser.md). The deserializer is written with
the explicit traversal stack that R42 gives the hardware; `Sys2Proof.Machine.desRecursive` (Safety.lean) is R173's recursion, and that the two agree is one of the
statements for the provers. -/

namespace Sys2Proof.Machine

/-! ### Serializer -/

/-- `Ser` (R171): pre-order, draining after every token. -/
def serNodes : Tree → Micro Unit
  | .branch _ _ l r => do
    bbAppendBit false
    bbDrain
    serNodes l
    serNodes r
  | .leaf _ _ v => do
    bbAppendBit true
    bbAppendBits (bits8 v)
    bbDrain

/-- TreeSer (R171). -/
def treeSer : Micro Unit := do
  let t ← needed (← get).tree
  serNodes t

/-! ### Deserializer: the tokens -/

/-- Entering a node (R173, R174): the depth of the node about to be read is the number of open branches. -/
def enterNode : Micro Unit := do
  if Config.depthLimit ≤ (← get).des.stack.length then throw (.err .treeDepth)
  else pure ()

/-- The check made once a token's kind bit has been read: NODE must have a free entry (R173, R177). -/
def checkNodeFree : Micro Unit := do
  if Config.nodeCap ≤ (← get).des.next then throw (.refuse .nodeMemFull)
  else pure ()

/-- A complete subtree closes the open branches it completes; without an open branch it is the whole tree. -/
def plug : Tree → List Frame → List Frame × Option Tree
  | t, [] => ([], some t)
  | t, .left i :: stack => (.right i t :: stack, none)
  | t, .right i l :: stack => plug (.branch i none l t) stack

/-- What the BRANCH token does (R99, R173, R177): the next index becomes an open branch, whose left subtree follows. -/
def Traversal.openBranch (d : Traversal) : Traversal :=
  { token := [], stack := .left d.next :: d.stack, next := d.next + 1, whole := none }

/-- What the LEAF token does (R99, R173, R177): the next index becomes a leaf, with no weight written. -/
def Traversal.addLeaf (v : Byte) (d : Traversal) : Traversal :=
  let p := plug (.leaf d.next none v) d.stack
  { token := [], stack := p.1, next := d.next + 1, whole := p.2 }

/-- The token BRANCH, read at the current place of the traversal. -/
def tokenBranch : Micro Unit := do
  enterNode
  checkNodeFree
  modify fun s => { s with des := s.des.openBranch }

/-- The token LEAF, read at the current place of the traversal. -/
def tokenLeaf (v : Byte) : Micro Unit := do
  enterNode
  checkNodeFree
  modify fun s => { s with des := s.des.addLeaf v }

/-- The token bits read so far are held until the token is complete (R42, hidden). -/
def holdToken (q : Bits) : Micro Unit := modify fun s => { s with des := { s.des with token := q } }

/-- On-demand fill (R173, R175): one byte if fewer than `n` bits are buffered; if they are still fewer, Err(TREE_EOS) (R178). -/
def demandBits (n : Nat) : Micro Unit := do
  if (← get).bb.length < n then
    match ← bbFill with
    | .filled | .eos => if (← get).bb.length < n then throw (.err .treeEos) else pure ()
  else pure ()

/-- One call of `Des` up to the token it reads (R173): depth, kind bit, node memory, a leaf's symbol. -/
def desToken : Micro Unit := do
  enterNode
  demandBits 1
  let b ← bbPeek 0
  bbDrop 1
  holdToken [b]
  checkNodeFree
  if b then
    demandBits 8
    let q := (← get).bb.take 8
    bbDrop 8
    holdToken (true :: q)
    tokenLeaf (byteOf q)
  else tokenBranch

/-- Token after token until the root's subtree is complete (R100, R173). Every token takes an index of NODE, and R177 refuses the token after
the last free one, so NODE_CAP + 1 passes are enough. -/
def desPasses : Nat → Micro Tree
  | 0 => throw (.refuse .nodeMemFull)
  | n + 1 => do
    desToken
    match (← get).des.whole with
    | some t => pure t
    | none => desPasses n

/-- The traversal is dead once the command ends (R42); only a command that stays BUSY keeps it. -/
def dropTraversal (r : Raise) (s : State) : State :=
  match r with
  | .err _ | .refuse _ | .fault _ => { s with des := .idle }
  | .hang => s

/-- TreeDes (R173, R176). -/
def treeDes : Micro Unit := do
  modify fun s => { s with tree := none, code := none, des := .idle }
  let t ← onRaise dropTraversal (desPasses (Config.nodeCap + 1))
  modify fun s => { s with des := .idle }
  if t.isLeaf then throw (.err .treeSingleLeaf)
  else modify fun s => { s with tree := some t }

/-! ### Commands -/

/-- TREE_SER (R171). -/
def execTreeSer (s : State) : Outcome := primitive true s.treeValid (thenOk treeSer) s

/-- TREE_DES (R173). -/
def execTreeDes (s : State) : Outcome := primitive true true (thenOk treeDes) s

/-! ### Tokens -/

/-- A token read by a running TREE_DES. The engine goes on with the traversal; a raise ends TREE_DES (R245, R246). Outside a running command
no token is read, and stream bits do nothing (R90; log entry 10). -/
def runToken (body : Micro Unit) (s : State) : Outcome :=
  match s.run with
  | .busy =>
    .next <| match onRaise dropTraversal body s with
      | .ok _ t => t
      | .error r t => t.raised false r
  | .idle | .fault => .next s

/-- BRANCH (R99, R173). -/
def execBranch (s : State) : Outcome := runToken tokenBranch s

/-- LEAF (R99, R173). -/
def execLeaf (v : Byte) (s : State) : Outcome := runToken (tokenLeaf v) s

end Sys2Proof.Machine
end

