-- ==== Sys2Proof/Machine/Decoder.lean ====
section
/-! DEFINITION. The decoder (45_decoder.md). -/

namespace Sys2Proof.Machine

/-- HdrRead's loop (R211): `n` more bytes, the first the most significant. -/
def hdrReadPasses : Nat → Nat → Micro Nat
  | 0, c => pure c
  | n + 1, c => do
    match ← readByte with
    | none => throw (.err .headerTruncated)
    | some v => hdrReadPasses n (c * 256 + v.toNat)

/-- HdrRead (R211): COUNT keeps its old value on a failure. -/
def hdrRead : Micro Unit := do
  modify fun s => { s with countValid := false }
  let c ← hdrReadPasses Config.hdrBytes 0
  modify fun s => { s with count := BitVec.ofNat 32 c, countValid := true }

/-- The top-up (R212): byte by byte while fewer than TOPUP bits are buffered, until the source is at its end. -/
def topUpPasses : Nat → Micro Unit
  | 0 => pure ()
  | n + 1 => do
    if (← get).bb.length < Config.topUp then
      match ← bbFill with
      | .eos => pure ()
      | .filled => topUpPasses n
    else pure ()

/-- Thirty-two bytes hold 256 bits, so no more passes than these are made. -/
def topUp : Micro Unit := topUpPasses 32

/-- The walk from a node to a leaf (R212, R44): bit `k` of the buffer picks the child; answers the symbol and the bits consumed. -/
def walkTree : Tree → Nat → Micro (Byte × Nat)
  | .leaf _ _ v, k => pure (v, k)
  | .branch _ _ l r, k => do
    if k = (← get).bb.length then throw (.err .payloadMid)
    else do
      let b ← bbPeek k
      if b then walkTree r (k + 1) else walkTree l (k + 1)

/-- EMITTED plus 1, saturating at 2^32 - 1 (R27, R212). -/
def emittedNext (c : Count) : Count := if c.toNat = 2 ^ 32 - 1 then c else c + 1

/-- DecSymbol (R212): the symbol is written before its bits are dropped. -/
def decSymbol : Micro Unit := do
  let t ← needed (← get).tree
  topUp
  if (← get).bb.length = 0 then throw (.err .payloadEmpty)
  else do
    let (v, k) ← walkTree t 0
    writeByte v
    bbDrop k
    modify fun s => { s with emitted := emittedNext s.emitted }

/-- PayloadDec's loop (R213): while EMITTED < COUNT. Each pass emits one symbol, so COUNT passes are enough. -/
def payloadDecPasses : Nat → Micro Unit
  | 0 => pure ()
  | n + 1 => do
    if (← get).emitted.toNat < (← get).count.toNat then do
      decSymbol
      payloadDecPasses n
    else pure ()

/-- PayloadDec (R213). -/
def payloadDec : Micro Unit := do
  modify fun s => { s with emitted := 0 }
  payloadDecPasses (← get).count.toNat

/-- Steps 1 to 5 of DECOMPRESS (R216). -/
def decompressSteps : Micro Unit := do
  bbClear
  hdrRead
  treeDes
  bbClear
  payloadDec

/-- HDR_READ (R211). -/
def execHdrRead (s : State) : Outcome := primitive true true (thenOk hdrRead) s

/-- DEC_SYMBOL (R212). -/
def execDecSymbol (s : State) : Outcome := primitive true s.treeValid (thenOk decSymbol) s

/-- PAYLOAD_DEC (R213). -/
def execPayloadDec (s : State) : Outcome := primitive true (s.treeValid && s.countValid) (thenOk payloadDec) s

/-- DECOMPRESS (R216). -/
def execDecompress (s : State) : Outcome := composite decompressSteps s

end Sys2Proof.Machine
end

