-- ==== Sys2Proof/Machine/CodeGen.lean ====
section
/-! DEFINITION. The prefix code table generator (42_codegen.md). -/

namespace Sys2Proof.Machine

/-- `Walk` (R161): pre-order, left appends 0 to the path, right appends 1; a leaf stores the path as its symbol's codeword, so that of
several leaves with one symbol the last in pre-order wins (R163). -/
def walkCodes : Tree → Bits → CodeTable → CodeTable
  | .leaf _ _ v, path, tab => tableSet tab v path
  | .branch _ _ l r, path, tab => walkCodes r (path ++ [true]) (walkCodes l (path ++ [false]) tab)

/-- The code table of a tree: derived from it and from nothing else (R160). -/
def codeTable (t : Tree) : CodeTable := walkCodes t [] .empty

/-- CodeGen (R161). -/
def codeGen : Micro Unit := do
  let t ← needed (← get).tree
  modify fun s => { s with code := some (codeTable t) }

/-- CODE_GEN (R161). -/
def execCodeGen (s : State) : Outcome := primitive true s.treeValid (thenOk codeGen) s

end Sys2Proof.Machine
end

