-- ==== Sys2Proof/Machine/TreeBuild.lean ====
section
/-! DEFINITION. The frequency producer and the Huffman tree builder (41_treebuild.md). -/

namespace Sys2Proof.Machine

/-! ### The frequency producer -/

/-- FreqClr (R141). -/
def freqClr : Micro Unit := modify fun s => { s with freq := some .zero, total := 0, tree := none, code := none }

/-- FreqInc (R142): refused at TOTAL = 2^32 - 1, before anything changes, so no count wraps. -/
def freqInc (v : Byte) : Micro Unit := do
  let f ← needed (← get).freq
  if (← get).total.toNat = 2 ^ 32 - 1 then throw (.refuse .inputTooLarge)
  else modify fun s =>
    { s with freq := some (tableSet f v (tableGet f v + 1)), total := s.total + 1, tree := none, code := none }

/-- FreqScan's loop (R143): until the source is at its end. The fuel is one more than the unread bytes, so the last pass meets the end. -/
def freqScanPasses : Nat → Micro Unit
  | 0 => pure ()
  | n + 1 => do
    match ← readByte with
    | none => pure ()
    | some v => do
      freqInc v
      freqScanPasses n

/-- What FreqScan does to FREQ_VALID when it stops on an error or a refusal (R31, R143). -/
def freqScanStopped (r : Raise) (s : State) : State :=
  match r with
  | .err _ | .refuse _ => { s with freq := none }
  | .fault _ | .hang => s

/-- FreqScan (R143): from the source's current position to its end, no rewind. -/
def freqScan : Micro Unit := do
  freqClr
  let s ← get
  onRaise freqScanStopped (freqScanPasses (s.src.data.length - s.src.pos + 1))

/-! ### Tree construction -/

/-- A node of the live set with its weight (R41, R147); the weight is an exact number during construction (R13, R152). -/
structure Live where
  weight : Nat
  node : Tree
  deriving DecidableEq, Repr

/-- Step 1 (R145): one leaf per symbol with a positive count, ascending; `sym` is the next symbol, `n` the next index. -/
def makeLeaves (sym n : Nat) : List Count → List Live
  | [] => []
  | c :: cs =>
    if 0 < c.toNat then ⟨c.toNat, .leaf n (some c) (BitVec.ofNat 8 sym)⟩ :: makeLeaves (sym + 1) (n + 1) cs
    else makeLeaves (sym + 1) n cs

/-- The synthetic symbol of the one real symbol (R146): add first, then reduce. -/
def synthSymbol (v : Byte) : Byte := BitVec.ofNat 8 ((v.toNat + Config.synthOffset) % 256)

/-- Step 2 (R146): a single leaf gets a second one, of weight 0 and creation index 1. -/
def addSynthetic : List Live → List Live
  | [⟨w, .leaf i c v⟩] => [⟨w, .leaf i c v⟩, ⟨0, .leaf 1 (some 0) (synthSymbol v)⟩]
  | live => live

/-- The order of nodes (R148): smaller weight, and among equal weights smaller creation index. -/
def Live.lower (a b : Live) : Bool :=
  decide (a.weight < b.weight) || (decide (a.weight = b.weight) && decide (a.node.index < b.node.index))

/-- The lowest node of a live set and the set without it. -/
def takeLowest : List Live → Option (Live × List Live)
  | [] => none
  | a :: rest =>
    match takeLowest rest with
    | none => some (a, [])
    | some (m, others) => if a.lower m then some (a, m :: others) else some (m, a :: others)

/-- The branch with index `n` over the lowest node `m1` and the second lowest `m2` (R147, R149: LEFT = m2, RIGHT = m1). -/
def mergeNodes (n : Nat) (m1 m2 : Live) : Live :=
  ⟨m1.weight + m2.weight, .branch n (some (BitVec.ofNat 32 (m1.weight + m2.weight))) m2.node m1.node⟩

/-- Step 3, the merge loop (R147), to the one node that remains (R150). Each pass takes one of `fuel`; `n` is the next index. -/
def mergePasses : Nat → Nat → List Live → Option Live
  | 0, _, _ => none
  | fuel + 1, n, live =>
    match takeLowest live with
    | none => none
    | some (m1, rest) =>
      match takeLowest rest with
      | none => some m1
      | some (m2, others) => mergePasses fuel (n + 1) (mergeNodes n m1 m2 :: others)

/-- The live set after steps 1 and 2. -/
def initialLive (f : FreqTable) : List Live := addSynthetic (makeLeaves 0 0 f.toList)

/-- The tree of a frequency table (R145 to R150); none for the all-zero table, for which the algorithm is not defined (R154). A set of L
nodes takes L - 1 merges and one pass that finds the root. -/
def buildTree (f : FreqTable) : Option Tree :=
  let live := initialLive f
  (mergePasses live.length live.length live).map Live.node

/-- TreeBuild (R144); the all-zero table is refused and nothing changes (R154). -/
def treeBuild : Micro Unit := do
  let f ← needed (← get).freq
  if (← get).total.toNat = 0 then throw (.refuse .emptyFreq)
  else match buildTree f with
    | none => throw (.refuse .emptyFreq)
    | some t => modify fun s => { s with tree := some t, code := none }

/-! ### Commands -/

/-- FREQ_CLR (R141). -/
def execFreqClr (s : State) : Outcome := primitive true true (thenOk freqClr) s

/-- FREQ_INC (R142). -/
def execFreqInc (v : Opd) (s : State) : Outcome := primitive (byteOperandOk v) s.freqValid (thenOk (freqInc (operandByte v))) s

/-- FREQ_SCAN (R143). -/
def execFreqScan (s : State) : Outcome := primitive true true (thenOk freqScan) s

/-- TREE_BUILD (R144). -/
def execTreeBuild (s : State) : Outcome := primitive true s.freqValid (thenOk treeBuild) s

end Sys2Proof.Machine
end

