-- ==== Sys2Proof/Machine/Encoder.lean ====
section
/-! DEFINITION. The encoder (44_encoder.md). -/

namespace Sys2Proof.Machine

/-- Refuse inputs shorter than MIN_INPUT bytes (R193). -/
def checkInputSize : Micro Unit := do
  if (← get).total.toNat < Config.minInput then throw (.err .inputTooSmall)
  else pure ()

/-- The four header bytes, most significant first, straight to the sink (R191, R68). -/
def hdrBytesOut (c : Count) : Micro Unit := do
  writeByte (countByte c 3)
  writeByte (countByte c 2)
  writeByte (countByte c 1)
  writeByte (countByte c 0)

/-- HdrWrite (R191). -/
def hdrWrite : Micro Unit := do
  checkInputSize
  hdrBytesOut (← get).total

/-- PayloadEnc's loop (R192): until the source is at its end. The fuel is one more than the unread bytes, so the last pass meets the end. -/
def payloadEncPasses : Nat → Micro Unit
  | 0 => pure ()
  | n + 1 => do
    match ← readByte with
    | none => pure ()
    | some v => do
      appendCode v
      bbDrain
      payloadEncPasses n

/-- PayloadEnc (R192): the one rewind, then the codeword of every byte that the second pass reads, whatever the first one read; no count check
(R194, R284). -/
def payloadEnc : Micro Unit := do
  srcRewind
  payloadEncPasses ((← get).src.data.length + 1)

/-- Steps 1 to 10 of COMPRESS (R196). -/
def compressSteps : Micro Unit := do
  freqScan
  checkInputSize
  treeBuild
  codeGen
  bbClear
  hdrWrite
  treeSer
  bbFlush
  payloadEnc
  bbFlush

/-- HDR_WRITE (R191). -/
def execHdrWrite (s : State) : Outcome := primitive true s.freqValid (thenOk hdrWrite) s

/-- PAYLOAD_ENC (R192). -/
def execPayloadEnc (s : State) : Outcome := primitive true s.codeValid (thenOk payloadEnc) s

/-- COMPRESS (R196). -/
def execCompress (s : State) : Outcome := composite compressSteps s

end Sys2Proof.Machine
end

