-- ==== Sys2Proof/Machine/System.lean ====
section
/-! DEFINITION. The system commands NOP, SOFT_RESET and RELEASE (46_system.md). -/

namespace Sys2Proof.Machine

/-- NOP (R230): nothing but RESULT. -/
def execNop (s : State) : Outcome := primitive true true (pure .ok) s

/-- SOFT_RESET (R231): the reset state of the engine; the one command that FAULT accepts (R255). -/
def execSoftReset (s : State) : Outcome :=
  match s.run with
  | .idle | .fault => .next s.engineReset
  | .busy => .fault .cmdWhileBusy

/-- RELEASE (R232). -/
def execRelease (s : State) : Outcome := primitive true true (thenOk (modify State.released)) s

end Sys2Proof.Machine
end

