-- ==== Sys2Proof/Machine/Dispatch.lean ====
section
/-! DEFINITION. The meaning of every instruction: one arm, one call. -/

namespace Sys2Proof.Machine

def exec (i : Instr) (s : State) : Host.Outcome State Fault Refusal :=
  match i with
  | .nop => Sys2Proof.Machine.execNop s
  | .softReset => Sys2Proof.Machine.execSoftReset s
  | .release => Sys2Proof.Machine.execRelease s
  | .bbClear => Sys2Proof.Machine.execBbClear s
  | .bbAppendBit b => Sys2Proof.Machine.execBbAppendBit b s
  | .bbAppendByte v => Sys2Proof.Machine.execBbAppendByte v s
  | .bbAppendCode v => Sys2Proof.Machine.execBbAppendCode v s
  | .bbDrop n => Sys2Proof.Machine.execBbDrop n s
  | .bbDrain => Sys2Proof.Machine.execBbDrain s
  | .bbFlush => Sys2Proof.Machine.execBbFlush s
  | .bbFill => Sys2Proof.Machine.execBbFill s
  | .freqClr => Sys2Proof.Machine.execFreqClr s
  | .freqInc v => Sys2Proof.Machine.execFreqInc v s
  | .freqScan => Sys2Proof.Machine.execFreqScan s
  | .treeBuild => Sys2Proof.Machine.execTreeBuild s
  | .codeGen => Sys2Proof.Machine.execCodeGen s
  | .treeSer => Sys2Proof.Machine.execTreeSer s
  | .treeDes => Sys2Proof.Machine.execTreeDes s
  | .hdrWrite => Sys2Proof.Machine.execHdrWrite s
  | .payloadEnc => Sys2Proof.Machine.execPayloadEnc s
  | .compress => Sys2Proof.Machine.execCompress s
  | .hdrRead => Sys2Proof.Machine.execHdrRead s
  | .decSymbol => Sys2Proof.Machine.execDecSymbol s
  | .payloadDec => Sys2Proof.Machine.execPayloadDec s
  | .decompress => Sys2Proof.Machine.execDecompress s
  | .branch => Sys2Proof.Machine.execBranch s
  | .leaf v => Sys2Proof.Machine.execLeaf v s

end Sys2Proof.Machine
end

