-- ==== Sys2Proof/Machine/Host.lean ====
section
/-! DEFINITION. What each act of the host does (R46, R273, R286). The one act that runs an instruction is given the instructions' meaning as an
argument, so that `step` can hand it `exec`. -/

namespace Sys2Proof.Machine

/-- The refusal a rejected command word completes with (R94). -/
def rejectCode : Reject → RefuseCode
  | .badOperand => .badOperand
  | .illegalCmd | .badToken => .illegalCmd

/-- A write to CMD. IDLE starts the command the word encodes or refuses the word (R21, R94); FAULT ignores every word but exactly SOFT_RESET
(R255); BUSY is the host's broken duty (R286). -/
def writeCmd (meaning : Instr → State → Outcome) (w : Word) (s : State) : Outcome :=
  match s.run with
  | .idle =>
    match decodeWord w with
    | .ok i => meaning i s
    | .reject r => .next (s.completed (.refuse (rejectCode r)))
  | .fault => if w = 0x01000000#32 then meaning .softReset s else .next s
  | .busy => .fault .cmdWhileBusy

/-- A read of a register: the value joins those the host has read; a free value is used up (R46). -/
def hostRead (index : BitVec 3) (s : State) : State :=
  { s with reads := s.reads ++ [readReg index s], free := s.free + 1 }

/-- One act of the host. A write to a register other than CMD has no effect (R46). A source is presented with its position (R273) and the
contents of its later passes, a sink empty; neither touches the engine. -/
def hostAct (meaning : Instr → State → Outcome) (a : HostAct) (s : State) : Outcome :=
  match a with
  | .writeReg index w => if index = 0 then writeCmd meaning w s else .next s
  | .readReg index => .next (hostRead index s)
  | .hardReset => .next s.hardReset
  | .attachSource data pos plan rewinds =>
    .next { s with src := { data := data, pos := min pos data.length, plan := plan, rewinds := rewinds } }
  | .attachSink plan => .next { s with snk := { out := [], plan := plan, inFlight := none } }

/-- The token a running TREE_DES has read whole and not yet acted on (R42, R173). -/
def heldToken (s : State) : Option Instr :=
  match s.run with
  | .busy =>
    match decodeToken s.des.token with
    | .ok i => some i
    | .reject _ => none
  | .idle | .fault => none

end Sys2Proof.Machine
end

