-- ==== Sys2Proof/Machine/Step.lean ====
section
/-! DEFINITION. One step of the machine, and where it fetches its next instruction. There is no program counter and no instruction memory
(R24): the host issues commands one at a time, and they stand at the head of `State.host`. -/

namespace Sys2Proof.Machine

/-- One step: a token a running TREE_DES holds is acted on; else the host's next act happens; with no act the engine waits (R257 j). -/
def step (s : State) : Host.Outcome State Fault Refusal :=
  match heldToken s with
  | some i => exec i s
  | none =>
    match s.host with
    | [] => .next s
    | a :: rest => hostAct exec a { s with host := rest }

/-- `s` with the instruction of an opcode-table row where `step` fetches its next one: a command word is what the host writes to CMD next; a
tree token stands in the token register of a TREE_DES that is running (log entries 10 and 11). -/
def State.withFetchWord (s : State) (nbits w : Nat) : State :=
  match tableCarrier nbits w with
  | .word c => { s with host := .writeReg 0 c :: s.host }
  | .token q => { s with run := .busy, des := { s.des with token := q } }

end Sys2Proof.Machine
end

