-- ==== Sys2Proof/Safety.lean ====
section
/-! DEFINITION. The terms in which claims about the machine are stated: what a good state is (`Inv`), what the host's plans may hold, the
stream format as a function of its parts (R97, R131), and the spec's own recursive or sorted definitions that the machine's loops are compared
with (R151, R173). Nothing here is called by the machine. -/

namespace Sys2Proof.Machine

/-! ### The ports -/

/-- No operation of the plan fails or is left unanswered. -/
abbrev PlanOk (p : List PortPlan) : Prop := ∀ a ∈ p, a = PortPlan.answers

/-- Every operation of the plan is answered, perhaps with IoErr (host duty H5, R286). -/
abbrev PlanLive (p : List PortPlan) : Prop := ∀ a ∈ p, a ≠ PortPlan.never

/-- Both ports answer every operation without failing. -/
abbrev State.PortsOk (s : State) : Prop := PlanOk s.src.plan ∧ PlanOk s.snk.plan

/-- Both ports answer every operation. -/
abbrev State.PortsLive (s : State) : Prop := PlanLive s.src.plan ∧ PlanLive s.snk.plan

/-- The bytes of the source from the read position on. -/
def State.unread (s : State) : List Byte := s.src.data.drop s.src.pos

/-! ### Bits and bytes -/

/-- The bits of a byte sequence (R15, R69). -/
def bitsOf (l : List Byte) : Bits := l.flatMap bits8

/-- The complete 8-bit groups of a bit sequence, as bytes (R128). -/
def fullBytes (q : Bits) : List Byte := (List.range (q.length / 8)).map fun k => byteOf ((q.drop (8 * k)).take 8)

/-- The 0 to 7 bits after the complete groups (R128). -/
def leftover (q : Bits) : Bits := q.drop (8 * (q.length / 8))

/-- How many zero bits fill a sequence of `n` bits up to a byte boundary (R101). -/
def padLength (n : Nat) : Nat := (8 - n % 8) % 8

/-- `pack(q)` (R131): the sequence with its padding, as bytes. -/
def pack (q : Bits) : List Byte := fullBytes (q ++ List.replicate (padLength q.length) false)

/-- A 32-bit value, big-endian (R68). -/
def bigEndian (c : Count) : List Byte :=
  [c.extractLsb' 24 8, c.extractLsb' 16 8, c.extractLsb' 8 8, c.extractLsb' 0 8]

/-! ### Trees -/

/-- The leaves in pre-order, each with its path from the root, left 0 and right 1 (R102, R161). -/
def Tree.paths : Tree → Bits → List (Byte × Bits)
  | .leaf _ _ v, p => [(v, p)]
  | .branch _ _ l r, p => l.paths (p ++ [false]) ++ r.paths (p ++ [true])

/-- The tree with its nodes numbered in pre-order from `n` and no weights, as TreeDes makes it (R177), and the next free index. -/
def Tree.preorder : Tree → Nat → Tree × Nat
  | .leaf _ _ v, n => (.leaf n none v, n + 1)
  | .branch _ _ l r, n =>
    let p := l.preorder (n + 1)
    let q := r.preorder p.2
    (.branch n none p.1 q.1, q.2)

/-- The tokens of the serialized tree in stream order (R99). -/
def Tree.tokens : Tree → List Instr
  | .leaf _ _ v => [.leaf v]
  | .branch _ _ l r => .branch :: (l.tokens ++ r.tokens)

/-- The token bits of a walk down from the root: `none` enters a branch's left child, `some l` its right child after the left subtree `l`. -/
def descent (path : List (Option Tree)) : Bits :=
  path.flatMap fun turn =>
    match turn with
    | none => [false]
    | some l => false :: l.ser

/-- How many nodes the tokens of the walk make. -/
def descentSize (path : List (Option Tree)) : Nat :=
  (path.map fun turn =>
    match turn with
    | none => 1
    | some l => l.size + 1).sum

/-- The left subtrees that the walk leaves behind keep to the valid depths (R174). -/
abbrev DescentOk (path : List (Option Tree)) : Prop := ∀ k l, path[k]? = some (some l) → k + 1 + l.height ≤ Config.maxDepth

/-- A tree a stream can carry to this engine: a branch at the root, every depth at most 255, at most NODE_CAP nodes (R38, R173). -/
abbrev Tree.Fits (t : Tree) : Prop := t.isLeaf = false ∧ t.height ≤ Config.maxDepth ∧ t.size ≤ Config.nodeCap

/-- The tree invariants R38 (a) to (d) beyond those the type gives: the root is a branch, every depth is at most 255, the nodes are exactly the
entries 0 to NODE_N - 1 of NODE, each once, and ROOT is the last entry (TreeBuild) or the first (TreeDes) (R29). -/
abbrev Tree.Ok (t : Tree) : Prop :=
  t.Fits ∧ t.indices.Perm (List.range t.size) ∧ (t.index = 0 ∨ t.index + 1 = t.size)

/-- The weight stored in a node, 0 where none is. -/
def Tree.weightOf : Tree → Nat
  | .leaf _ w _ => (w.getD 0).toNat
  | .branch _ w _ _ => (w.getD 0).toNat

/-- The weights and indices of a built tree (R145 to R149): every node has a weight; a branch's is the sum of its children's, its index is
above theirs, and its right child is lower than its left child, by weight and then by index. -/
def Tree.Built : Tree → Prop
  | .leaf _ w _ => w.isSome
  | .branch i w l r =>
    w.isSome ∧ (w.getD 0).toNat = l.weightOf + r.weightOf ∧ l.index < i ∧ r.index < i
    ∧ (r.weightOf < l.weightOf ∨ (r.weightOf = l.weightOf ∧ r.index < l.index)) ∧ l.Built ∧ r.Built

/-- The walk of DecSymbol on a bit sequence (R212): the symbol and the bits after its codeword; none when the bits run out at a branch. -/
def walkBits : Tree → Bits → Option (Byte × Bits)
  | .leaf _ _ v, q => some (v, q)
  | .branch _ _ _ _, [] => none
  | .branch _ _ l r, b :: q => if b then walkBits r q else walkBits l q

/-- How decoding up to a number of symbols ends (R213, R215). -/
inductive DecodeEnd where
  | done
  | empty
  | mid
  deriving DecidableEq, Repr

/-- Decoding up to `n` symbols from a bit sequence (R213): the symbols, the bits left, and the end. -/
def decodeUpTo : Nat → Tree → Bits → List Byte × Bits × DecodeEnd
  | 0, _, q => ([], q, .done)
  | n + 1, t, q =>
    if q = [] then ([], q, .empty)
    else match walkBits t q with
      | none => ([], q, .mid)
      | some (v, rest) =>
        let d := decodeUpTo n t rest
        (v :: d.1, d.2)

/-- The code RESULT shows for an end of decoding (R213, R215). -/
def DecodeEnd.code : DecodeEnd → ResultCode
  | .done => .ok
  | .empty => .err .payloadEmpty
  | .mid => .err .payloadMid

/-! ### The stream of an input -/

/-- The frequency table of an input (R143). -/
def freqOf (x : List Byte) : FreqTable := Vector.ofFn fun i => BitVec.ofNat 32 (x.count (BitVec.ofNat 8 i.val))

/-- The concatenated codewords of an input (R102). -/
def payloadBits (c : CodeTable) (x : List Byte) : Bits := x.flatMap fun v => tableGet c v

/-- What a job writes whose first pass reads `x` and whose second pass reads `y`: the header and the tree come from the first, the payload from
the second (R194, R284). -/
def streamOf (t : Tree) (x y : List Byte) : List Byte :=
  bigEndian (BitVec.ofNat 32 x.length) ++ pack t.ser ++ pack (payloadBits (codeTable t) y)

/-- The stream of an input and a tree (R97): header, packed tree, packed payload. -/
def streamWith (t : Tree) (x : List Byte) : List Byte := streamOf t x x

/-! ### Reference definitions -/

/-- One node stands before another in the source's descending order with the tie-break of R148 (R151): larger weight first, and among equal
weights the larger creation index first. -/
def Live.before (a b : Live) : Bool :=
  decide (b.weight < a.weight) || (decide (a.weight = b.weight) && decide (b.node.index ≤ a.node.index))

/-- The source's merge loop as R151 words it: order all current nodes in every pass, merge the last two. -/
def mergeSorted : Nat → Nat → List Live → Option Live
  | 0, _, _ => none
  | fuel + 1, n, live =>
    match (live.mergeSort Live.before).reverse with
    | [] => none
    | [m] => some m
    | m1 :: m2 :: others => mergeSorted fuel (n + 1) (mergeNodes n m1 m2 :: others)

/-- The tree of a frequency table by the source's wording (R151). -/
def buildTreeSorted (f : FreqTable) : Option Tree :=
  (mergeSorted (initialLive f).length (initialLive f).length (initialLive f)).map Live.node

/-- `Des` as R173 writes it, by recursion. The first argument is DEPTH_LIMIT minus the node's depth, the second the next free index. -/
def desNode : Nat → Nat → Micro (Tree × Nat)
  | 0, _ => throw (.err .treeDepth)
  | k + 1, n => do
    demandBits 1
    let b ← bbPeek 0
    bbDrop 1
    if Config.nodeCap ≤ n then throw (.refuse .nodeMemFull)
    else if b then do
      demandBits 8
      let q := (← get).bb.take 8
      bbDrop 8
      pure (.leaf n none (byteOf q), n + 1)
    else do
      let (l, n1) ← desNode k (n + 1)
      let (r, n2) ← desNode k n1
      pure (.branch n none l r, n2)

/-- TreeDes as R173 writes it. -/
def desRecursive : Micro Unit := do
  modify fun s => { s with tree := none, code := none }
  let (t, _) ← desNode Config.depthLimit 0
  if t.isLeaf then throw (.err .treeSingleLeaf)
  else modify fun s => { s with tree := some t }

/-- The buffer's appending micro-operations and its drain, as the FIFO law of R131 mixes them. -/
inductive BufAct where
  | bit (b : Bool)
  | seq (q : Bits)
  | byte (v : Byte)
  | code (v : Byte)
  | fill
  | drain
  deriving DecidableEq, Repr

/-- An act of the FIFO law, answering the bits it is meant to append (R131). -/
def BufAct.perform : BufAct → Micro Bits
  | .bit b => do bbAppendBit b; pure [b]
  | .seq q => do bbAppendBits q; pure q
  | .byte v => do appendByte v; pure (bits8 v)
  | .code v => do
    let c ← needed (← get).code
    appendCode v
    pure (tableGet c v)
  | .fill => do
    let next := (← get).unread.take 1
    match ← bbFill with
    | .filled => pure (bitsOf next)
    | .eos => pure []
  | .drain => do bbDrain; pure []

/-- Acts one after another, answering all bits appended, in order. -/
def performAll : List BufAct → Micro Bits
  | [] => pure []
  | a :: rest => do
    let q ← a.perform
    let q' ← performAll rest
    pure (q ++ q')

/-- `exec` of one instruction after another, as long as each completes with RESULT = OK. -/
def runOk : List Instr → State → Option State
  | [], s => some s
  | i :: rest, s =>
    match exec i s with
    | .next t => if t.result = .ok then runOk rest t else none
    | .fault _ | .refused _ => none

/-- Tokens one after another (R100). -/
def runTokens : List Instr → State → Option State
  | [], s => some s
  | i :: rest, s =>
    match exec i s with
    | .next t => runTokens rest t
    | .fault _ | .refused _ => none

/-- The compression steps as primitive commands (R96). -/
def compressProgram : List Instr :=
  [.freqScan, .treeBuild, .codeGen, .bbClear, .hdrWrite, .treeSer, .bbFlush, .payloadEnc, .bbFlush, .release]

/-- The decompression steps as primitive commands (R96). -/
def decompressProgram : List Instr := [.bbClear, .hdrRead, .treeDes, .bbClear, .payloadDec, .release]

/-! ### Tables of the spec -/

/-- The greatest accepted OPD of the command an opcode selects (tables R92 and R93); none for an opcode table R93 does not list. -/
def operandMax (opc : Nat) : Option Nat :=
  if opc ∈ [0x11] then some 1
  else if opc ∈ [0x12, 0x13, 0x21] then some 255
  else if opc ∈ [0x14] then some 65535
  else if opc ∈ [0x00, 0x01, 0x02, 0x10, 0x15, 0x16, 0x17, 0x20, 0x22, 0x23, 0x24, 0x30, 0x31, 0x40, 0x41, 0x4F, 0x50, 0x51, 0x52, 0x5F] then
    some 0
  else none

end Sys2Proof.Machine

namespace Sys2Proof

open Sys2Proof.Machine

/-- Whether the valid flags a command requires are 1 (table R283, column "requires"). -/
def Instr.flagsMet (i : Instr) (s : State) : Bool :=
  match i with
  | .bbAppendCode _ | .payloadEnc => s.codeValid
  | .freqInc _ | .treeBuild | .hdrWrite => s.freqValid
  | .codeGen | .treeSer | .decSymbol => s.treeValid
  | .payloadDec => s.treeValid && s.countValid
  | .nop | .softReset | .release | .bbClear | .bbAppendBit _ | .bbAppendByte _ | .bbDrop _ | .bbDrain | .bbFlush | .bbFill | .freqClr
  | .freqScan | .treeDes | .compress | .hdrRead | .decompress | .branch | .leaf _ => true

/-- A command's encoding: the word it is encoded as, which decodes to it. -/
abbrev Instr.EncodedAs (i : Instr) (w : Word) : Prop := encode i = .word w ∧ decodeWord w = .ok i

/-- A command of this opcode takes no operand: every other OPD is refused with BAD_OPERAND (R92). -/
abbrev NoOperand (opc : Byte) : Prop := ∀ opd : Opd, opd ≠ 0 → decodeWord (commandWord opc opd) = .reject .badOperand

/-- The codes a command's execution can end in (table R253). -/
def Instr.outcomes : Instr → List ResultCode
  | .nop | .softReset | .release | .bbClear | .freqClr => [.ok]
  | .bbAppendBit _ | .bbAppendByte _ => [.ok, .refuse .badOperand, .fault .bbOverflow]
  | .bbAppendCode _ => [.ok, .refuse .badOperand, .refuse .badSequence, .fault .noCodeword, .fault .bbOverflow]
  | .bbDrop _ => [.ok, .fault .bbUnderflow]
  | .bbDrain | .bbFlush => [.ok, .err .ioSnk]
  | .bbFill => [.ok, .okEos, .err .ioSrc, .fault .bbOverflow]
  | .freqInc _ => [.ok, .refuse .badOperand, .refuse .badSequence, .refuse .inputTooLarge]
  | .freqScan => [.ok, .err .ioSrc, .refuse .inputTooLarge]
  | .treeBuild => [.ok, .refuse .badSequence, .refuse .emptyFreq]
  | .codeGen => [.ok, .refuse .badSequence]
  | .treeSer => [.ok, .refuse .badSequence, .err .ioSnk, .fault .bbOverflow]
  | .treeDes => [.ok, .err .treeDepth, .err .treeSingleLeaf, .err .treeEos, .err .ioSrc, .refuse .nodeMemFull]
  | .hdrWrite => [.ok, .refuse .badSequence, .err .inputTooSmall, .err .ioSnk]
  | .payloadEnc => [.ok, .refuse .badSequence, .err .ioSrc, .err .ioSnk, .fault .noCodeword, .fault .bbOverflow]
  | .compress => [.ok, .err .inputTooSmall, .err .ioSrc, .err .ioSnk, .refuse .inputTooLarge]
  | .hdrRead => [.ok, .err .headerTruncated, .err .ioSrc]
  | .decSymbol | .payloadDec => [.ok, .refuse .badSequence, .err .payloadEmpty, .err .payloadMid, .err .ioSrc, .err .ioSnk]
  | .decompress =>
    [.ok, .err .headerTruncated, .err .treeDepth, .err .treeSingleLeaf, .err .treeEos, .err .payloadEmpty, .err .payloadMid, .err .ioSrc,
      .err .ioSnk, .refuse .nodeMemFull]
  | .branch | .leaf _ => []

end Sys2Proof

namespace Sys2Proof.Machine

/-- Table R241: the result codes, all of them. -/
def resultTable : List (ResultCode × Nat) :=
  [(.ok, 0x00), (.okEos, 0x01), (.err .inputTooSmall, 0x10), (.err .headerTruncated, 0x20), (.err .treeDepth, 0x30), (.err .treeSingleLeaf, 0x31),
    (.err .treeEos, 0x32), (.err .payloadEmpty, 0x40), (.err .payloadMid, 0x41), (.err .ioSrc, 0x50), (.err .ioSnk, 0x51)]
  ++ [(.refuse .illegalCmd, 0x80), (.refuse .badSequence, 0x81), (.refuse .badOperand, 0x82), (.refuse .inputTooLarge, 0x83),
    (.refuse .nodeMemFull, 0x84), (.refuse .emptyFreq, 0x85), (.fault .bbOverflow, 0xF0), (.fault .bbUnderflow, 0xF1), (.fault .noCodeword, 0xF2)]

/-- Whether a result code is a fault's (R240). -/
def ResultCode.isFault : ResultCode → Bool
  | .fault _ => true
  | .ok | .okEos | .err _ | .refuse _ => false

/-! ### Good states -/

/-- What holds at reset and after every step. -/
structure Inv (s : State) : Prop where
  /-- BB_LEN ≤ BB_CAP (R28). -/
  buffer : s.bb.length ≤ Config.bbCap
  /-- TOTAL is the sum of FREQ while FREQ_VALID = 1 (R25). -/
  freqTotal : ∀ f, s.freq = some f → freqSum f = s.total.toNat
  /-- The tree invariants while TREE_VALID = 1 (R38, R283). -/
  treeOk : ∀ t, s.tree = some t → t.Ok
  /-- CODE_VALID = 1 implies TREE_VALID = 1, and CODE is the table of the tree in NODE (R33). -/
  codeOk : ∀ c, s.code = some c → ∃ t, s.tree = some t ∧ c = codeTable t
  /-- SRC.POS is 0..|SRC.DATA| (R45). -/
  sourcePos : s.src.pos ≤ s.src.data.length
  /-- RESULT holds a fault's code exactly in the FAULT state (R23, R247). -/
  faultCode : s.run = .fault ↔ s.result.isFault = true
  /-- No traversal outlives its command (R42). -/
  noTraversal : s.run ≠ .busy → s.des = .idle
  /-- A command that stays BUSY waits for a port, never with a whole token left to act on (R173; log entry 10). -/
  noToken : heldToken s = none

end Sys2Proof.Machine
end

