-- ==== Sys2Proof/Certificates/Slice0/Obligations.lean ====
section
/-! DEFINITION. The statements for the provers, each with the rule or section of spec/ it formalises. A record update `{ s with ... }` on the right of
a conclusion is the statement's frame: every field it does not name is unchanged, the sink's bytes and the source's among them. `s.run = .idle` is
R21's condition for a command to be accepted; the FAULT and BUSY states have statements of their own. Premises `PlanOk (... .take k)` say that the
port operations the command makes are answered without IoErr (R67); what IoErr does is stated beside it. -/

open Sys2Proof Sys2Proof.Machine

/-! ### Encoding and decoding -/

/-- R91 to R93, R99: the decoder gives back every well-formed instruction from its encoding. -/
def Obligations.EncodeThenDecodeGivesTheInstruction : Prop :=
  ∀ i : Instr, i.wellFormed = true → decode (encode i) = .ok i

/-- R91 to R94: a command word that decodes has one meaning, the well-formed command whose encoding it is. -/
def Obligations.DecodedWordIsItsEncoding : Prop :=
  ∀ (w : Word) (i : Instr), decodeWord w = .ok i → i.wellFormed = true ∧ i.isCommand = true ∧ encode i = .word w

/-- R92, R93: the opcode and RSV select the command or none, and then OPD is accepted or not, as tables R92 and R93 say. -/
def Obligations.WordDecoderFollowsTheTables : Prop :=
  ∀ w : Word,
    (rsvField w ≠ 0 ∨ operandMax (opcField w).toNat = none → decodeWord w = .reject .illegalCmd)
    ∧ ∀ m : Nat, rsvField w = 0 → operandMax (opcField w).toNat = some m →
      (m < (opdField w).toNat → decodeWord w = .reject .badOperand)
      ∧ ((opdField w).toNat ≤ m →
          ∃ i, decodeWord w = .ok i ∧ opcodeOf i = some (opcField w) ∧ operandOf i = if m = 0 then 0 else opdField w)

/-- R94: a word written to CMD of an idle engine is refused with ILLEGAL_CMD, BAD_OPERAND or BAD_SEQUENCE, checked in that order, and nothing but
RESULT changes. -/
def Obligations.RefusedWordChangesOnlyResult : Prop :=
  ∀ (s : State) (w : Word) (rest : List HostAct), s.run = .idle → s.host = .writeReg 0 w :: rest →
    (rsvField w ≠ 0 ∨ operandMax (opcField w).toNat = none →
      step s = .next { s with host := rest, result := .refuse .illegalCmd })
    ∧ ∀ m : Nat, rsvField w = 0 → operandMax (opcField w).toNat = some m →
      (m < (opdField w).toNat → step s = .next { s with host := rest, result := .refuse .badOperand })
      ∧ ∀ i : Instr, (opdField w).toNat ≤ m → decodeWord w = .ok i → i.flagsMet s = false →
        step s = .next { s with host := rest, result := .refuse .badSequence }

/-- R93, R95, R99: words and tokens written out bit by bit from the tables decode to their instructions. -/
def Obligations.WrittenOutWordsDecode : Prop :=
  decodeWord 0b00000001_00000000_0000000000000000#32 = .ok .softReset
  ∧ decodeWord 0b00010010_00000000_0000000001100001#32 = .ok (.bbAppendByte 0x61)
  ∧ decodeWord 0b00100001_00000000_0000000001100001#32 = .ok (.freqInc 0x61)
  ∧ decodeWord 0b00100100_00000000_0000000000000000#32 = .ok .codeGen
  ∧ decodeWord 0b00110001_00000000_0000000000000000#32 = .ok .treeDes
  ∧ decodeWord 0b01001111_00000000_0000000000000000#32 = .ok .compress
  ∧ decodeWord 0b01010001_00000000_0000000000000000#32 = .ok .decSymbol
  ∧ decodeToken [false] = .ok .branch
  ∧ decodeToken [true, false, true, true, false, false, false, false, true] = .ok (.leaf 0x61)

/-- A step runs the decoded instruction. R21, R91: a step of an idle engine at which the host writes a decodable word to CMD is `exec` of the decoded
command at the state without that act, and `withFetchWord` stores a word so. A step of a BUSY engine that holds a whole token is `exec` of that
token, while the host's acts wait; the token register is the model's (log entry 10). -/
def Obligations.StepRunsTheDecodedInstruction : Prop :=
  (∀ (s : State) (w : Word) (i : Instr) (rest : List HostAct), s.run = .idle → s.host = .writeReg 0 w :: rest → decodeWord w = .ok i →
    step s = exec i { s with host := rest })
  ∧ (∀ (s : State) (w : Nat) (i : Instr), s.run = .idle → decodeTableWord 32 w = some i → step (s.withFetchWord 32 w) = exec i s)
  ∧ ∀ (s : State) (i : Instr), s.run = .busy → decodeToken s.des.token = .ok i → step s = exec i s

/-- R15: the two conversions between a byte and its 8 bits, most significant first, and that they are inverse. -/
def Obligations.BytesAndBitsAreInverse : Prop :=
  (∀ v : Byte, bits8 v = (List.range 8).map fun k => v.getLsbD (7 - k))
  ∧ (∀ b0 b1 b2 b3 b4 b5 b6 b7 : Bool, (byteOf [b0, b1, b2, b3, b4, b5, b6, b7]).toNat
      = b0.toNat * 128 + b1.toNat * 64 + b2.toNat * 32 + b3.toNat * 16 + b4.toNat * 8 + b5.toNat * 4 + b6.toNat * 2 + b7.toNat)
  ∧ (∀ v : Byte, byteOf (bits8 v) = v)
  ∧ ∀ q : Bits, q.length = 8 → bits8 (byteOf q) = q

/-! ### The host's registers and acts -/

/-- R22: STATUS, field by field, its value after reset, and that a host write to it has no effect. -/
def Obligations.StatusRegisterHoldsItsFields : Prop :=
  (∀ s : State,
    (statusWord s).extractLsb' 0 2 = (match s.run with | .idle => 0#2 | .busy => 1#2 | .fault => 3#2)
    ∧ (statusWord s).extractLsb' 2 2 = 0#2
    ∧ (statusWord s).getLsbD 4 = s.freq.isSome
    ∧ (statusWord s).getLsbD 5 = s.tree.isSome
    ∧ (statusWord s).getLsbD 6 = s.code.isSome
    ∧ (statusWord s).getLsbD 7 = s.countValid
    ∧ (statusWord s).getLsbD 8 = s.srcEos
    ∧ (statusWord s).extractLsb' 9 23 = 0#23)
  ∧ statusWord State.reset = 0
  ∧ ∀ (s : State) (w : Word) (rest : List HostAct), heldToken s = none → s.host = .writeReg 1 w :: rest →
    step s = .next { s with host := rest }

/-- R241, R23, R240: RESULT reads as a code of table R241, one for each outcome and no other, with bits 31:8 zero; the class stands in RESULT[7:4]. -/
def Obligations.ResultCodesTellTheOutcome : Prop :=
  (∀ s : State, (resultWord s).toNat = s.result.toNat)
  ∧ (∀ c : ResultCode, (c, c.toNat) ∈ resultTable)
  ∧ (∀ c d : ResultCode, c.toNat = d.toNat → c = d)
  ∧ ∀ c : ResultCode, c.toNat / 16 =
    (match c with
      | .ok | .okEos => 0x0
      | .err .inputTooSmall => 0x1
      | .err .headerTruncated => 0x2
      | .err .treeDepth | .err .treeSingleLeaf | .err .treeEos => 0x3
      | .err .payloadEmpty | .err .payloadMid => 0x4
      | .err .ioSrc | .err .ioSnk => 0x5
      | .refuse _ => 0x8
      | .fault _ => 0xF)

/-- R46 with R22, R23, R25 to R29: what a host read of each readable register returns while no command runs, and that it changes no engine
state. TREE_INFO has a defined value only while TREE_VALID = 1. That TOTAL and COUNT read as last written also while FREQ_VALID or COUNT_VALID is 0
is the model's reading (log entry 8; U22 leaves COUNT's value open there). The list of values read and the counter `free` are the model's (log
entries 4 and 9). -/
def Obligations.RegisterReadsReturnTheRegisters : Prop :=
  ∀ (s : State) (index : BitVec 3) (rest : List HostAct), s.run ≠ .busy → s.host = .readReg index :: rest →
    ∃ v : Word, step s = .next { s with host := rest, reads := s.reads ++ [v], free := s.free + 1 }
      ∧ (index = 1 → v = statusWord s)
      ∧ (index = 2 → v = resultWord s)
      ∧ (index = 3 → v = s.total)
      ∧ (index = 4 → v = s.count)
      ∧ (index = 5 → v = s.emitted)
      ∧ (index = 6 → s.bb.length ≤ Config.bbCap → v.toNat = s.bb.length)
      ∧ (index = 7 → ∀ t, s.tree = some t → t.index < 2 ^ 9 → t.size < 2 ^ 10 →
          v.extractLsb' 0 9 = BitVec.ofNat 9 t.index ∧ v.extractLsb' 16 10 = BitVec.ofNat 10 t.size
          ∧ v.extractLsb' 9 7 = 0#7 ∧ v.extractLsb' 26 6 = 0#6)

/-- R46, R257 (j), R273: an engine with no act of the host before it waits; a write to a read-only register has no effect; a source or a sink the
host presents changes nothing of the engine. That the acts stand in a list is the model's (log entry 4). -/
def Obligations.HostActsLeaveTheEngineAlone : Prop :=
  ∀ s : State, heldToken s = none →
    (s.host = [] → step s = .next s)
    ∧ (∀ index w rest, index ≠ 0 → s.host = .writeReg index w :: rest → step s = .next { s with host := rest })
    ∧ (∀ data pos plan rewinds rest, s.host = .attachSource data pos plan rewinds :: rest →
        step s = .next { s with host := rest, src := { data := data, pos := min pos data.length, plan := plan, rewinds := rewinds } })
    ∧ ∀ plan rest, s.host = .attachSink plan :: rest →
        step s = .next { s with host := rest, snk := { out := [], plan := plan, inFlight := none } }

/-! ### Reset and the invariant -/

/-- R47: the values table R47 gives for reset; the tables hold no value. -/
def Obligations.ResetStateFollowsTheTable : Prop :=
  State.reset.run = .idle ∧ State.reset.result = .ok ∧ State.reset.freq = none ∧ State.reset.tree = none ∧ State.reset.code = none
  ∧ State.reset.countValid = false ∧ State.reset.srcEos = false ∧ State.reset.total = 0 ∧ State.reset.count = 0 ∧ State.reset.emitted = 0
  ∧ State.reset.bb = []

/-- R270: hard reset, in every run state, puts the engine at the reset values and leaves the source, the bytes the sink accepted and what the
host does next alone; only a byte whose write was never answered may or may not join the sink (U26). -/
def Obligations.HardResetReachesTheResetState : Prop :=
  ∀ (s : State) (rest : List HostAct), heldToken s = none → s.host = .hardReset :: rest →
    ∃ t : State, step s = .next t
      ∧ t = { State.reset with src := s.src, snk := t.snk, host := rest, reads := s.reads, free := t.free }
      ∧ (s.snk.inFlight = none → t.snk = s.snk)
      ∧ ∀ v, s.snk.inFlight = some v →
        t.snk = { s.snk with inFlight := none } ∨ t.snk = { s.snk with out := s.snk.out ++ [v], inFlight := none }

/-- R231, R271: SOFT_RESET is accepted in IDLE and in FAULT and gives the engine's reset state; the environment is untouched. -/
def Obligations.SoftResetReachesTheResetState : Prop :=
  Instr.softReset.EncodedAs 0x01000000#32 ∧ NoOperand 0x01
  ∧ ∀ s : State, s.run ≠ .busy →
    exec .softReset s = .next { State.reset with src := s.src, snk := s.snk, host := s.host, reads := s.reads, free := s.free }

/-- The reset state meets the invariant. -/
def Obligations.ResetMeetsTheInvariant : Prop := Inv State.reset

/-- The invariant (R23, R25, R28, R33, R38, R42, R45): every step from a state that meets it leads to one that does, whatever command words, reads,
resets, sources, sinks, plans and failures the host brings. -/
def Obligations.EveryStepKeepsTheInvariant : Prop :=
  ∀ s t : State, Inv s → step s = .next t → Inv t

/-! ### System commands -/

/-- R230, R232: NOP completes with OK and changes nothing but RESULT; the all-ones word is illegal; RELEASE clears the four valid flags and the bit
buffer and keeps TOTAL, COUNT, EMITTED and SRC_EOS. -/
def Obligations.NopAndReleaseComplete : Prop :=
  Instr.nop.EncodedAs 0x00000000#32 ∧ NoOperand 0x00 ∧ decodeWord 0xFFFFFFFF#32 = .reject .illegalCmd
  ∧ Instr.release.EncodedAs 0x02000000#32 ∧ NoOperand 0x02
  ∧ ∀ s : State, s.run = .idle →
    exec .nop s = .next { s with result := .ok }
    ∧ exec .release s = .next { s with freq := none, tree := none, code := none, countValid := false, bb := [], result := .ok }

/-! ### Bit buffer -/

/-- R121: BB_CLEAR empties the buffer and writes nothing to the sink. -/
def Obligations.BbClearEmptiesTheBuffer : Prop :=
  Instr.bbClear.EncodedAs 0x10000000#32 ∧ NoOperand 0x10
  ∧ ∀ s : State, s.run = .idle → exec .bbClear s = .next { s with bb := [], result := .ok }

/-- R122: BB_APPEND_BIT appends one bit to the tail, faults on a full buffer, and refuses an operand above 1. -/
def Obligations.BbAppendBitAppendsOrFaults : Prop :=
  (∀ b : Bool, (Instr.bbAppendBit (BitVec.ofNat 16 b.toNat)).EncodedAs (0x11000000#32 ||| BitVec.ofNat 32 b.toNat))
  ∧ ∀ s : State, s.run = .idle →
    (∀ b : Bool, s.bb.length + 1 ≤ Config.bbCap →
      exec (.bbAppendBit (BitVec.ofNat 16 b.toNat)) s = .next { s with bb := s.bb ++ [b], result := .ok })
    ∧ (∀ b : Bool, Config.bbCap < s.bb.length + 1 →
      exec (.bbAppendBit (BitVec.ofNat 16 b.toNat)) s = .next { s with run := .fault, result := .fault .bbOverflow })
    ∧ ∀ opd : Opd, 1 < opd.toNat → exec (.bbAppendBit opd) s = .next { s with result := .refuse .badOperand }

/-- R124: BB_APPEND_BYTE appends the 8 bits of its operand, most significant first, all or nothing. -/
def Obligations.BbAppendByteAppendsOrFaults : Prop :=
  (∀ v : Byte, (Instr.bbAppendByte (v.setWidth 16)).EncodedAs (0x12000000#32 ||| v.setWidth 32))
  ∧ ∀ s : State, s.run = .idle →
    (∀ v : Byte, s.bb.length + 8 ≤ Config.bbCap →
      exec (.bbAppendByte (v.setWidth 16)) s = .next { s with bb := s.bb ++ bits8 v, result := .ok })
    ∧ (∀ v : Byte, Config.bbCap < s.bb.length + 8 →
      exec (.bbAppendByte (v.setWidth 16)) s = .next { s with run := .fault, result := .fault .bbOverflow })
    ∧ ∀ opd : Opd, 255 < opd.toNat → exec (.bbAppendByte opd) s = .next { s with result := .refuse .badOperand }

/-- R125: BB_APPEND_CODE appends the symbol's codeword in path order; without a codeword or without room it faults. -/
def Obligations.BbAppendCodeAppendsOrFaults : Prop :=
  (∀ v : Byte, (Instr.bbAppendCode (v.setWidth 16)).EncodedAs (0x13000000#32 ||| v.setWidth 32))
  ∧ ∀ s : State, s.run = .idle →
    (∀ (v : Byte) (c : CodeTable), s.code = some c →
      (tableGet c v = [] → exec (.bbAppendCode (v.setWidth 16)) s = .next { s with run := .fault, result := .fault .noCodeword })
      ∧ (tableGet c v ≠ [] → s.bb.length + (tableGet c v).length ≤ Config.bbCap →
          exec (.bbAppendCode (v.setWidth 16)) s = .next { s with bb := s.bb ++ tableGet c v, result := .ok })
      ∧ (tableGet c v ≠ [] → Config.bbCap < s.bb.length + (tableGet c v).length →
          exec (.bbAppendCode (v.setWidth 16)) s = .next { s with run := .fault, result := .fault .bbOverflow }))
    ∧ (∀ v : Byte, s.code = none → exec (.bbAppendCode (v.setWidth 16)) s = .next { s with result := .refuse .badSequence })
    ∧ ∀ opd : Opd, 255 < opd.toNat → exec (.bbAppendCode opd) s = .next { s with result := .refuse .badOperand }

/-- R127: BB_DROP removes bits from the head; removing more than are present is a fault and removes none. -/
def Obligations.BbDropDropsOrFaults : Prop :=
  (∀ n : Opd, (Instr.bbDrop n).EncodedAs (0x14000000#32 ||| n.setWidth 32))
  ∧ ∀ (s : State) (n : Opd), s.run = .idle →
    (n.toNat ≤ s.bb.length → exec (.bbDrop n) s = .next { s with bb := s.bb.drop n.toNat, result := .ok })
    ∧ (s.bb.length < n.toNat → exec (.bbDrop n) s = .next { s with run := .fault, result := .fault .bbUnderflow })

/-- R128: BB_DRAIN writes every complete group, oldest first, and leaves 0 to 7 bits; a group stays until the sink has accepted its byte. -/
def Obligations.BbDrainWritesTheCompleteGroups : Prop :=
  Instr.bbDrain.EncodedAs 0x15000000#32 ∧ NoOperand 0x15
  ∧ ∀ s : State, s.run = .idle →
    (PlanOk (s.snk.plan.take (s.bb.length / 8)) →
      exec .bbDrain s = .next { s with
        bb := leftover s.bb
        snk := { s.snk with out := s.snk.out ++ fullBytes s.bb, plan := s.snk.plan.drop (s.bb.length / 8) }
        result := .ok })
    ∧ ∀ k p, k < s.bb.length / 8 → s.snk.plan = List.replicate k .answers ++ .ioErr :: p →
      exec .bbDrain s = .next { s with
        bb := s.bb.drop (8 * k)
        snk := { s.snk with out := s.snk.out ++ (fullBytes s.bb).take k, plan := p }
        result := .err .ioSnk }

/-- R129: BB_FLUSH writes all bits, the last 1 to 7 with zeros on the right, and leaves the buffer empty; bits the sink did not accept stay. -/
def Obligations.BbFlushWritesAllBits : Prop :=
  Instr.bbFlush.EncodedAs 0x16000000#32 ∧ NoOperand 0x16
  ∧ ∀ s : State, s.run = .idle →
    (PlanOk (s.snk.plan.take (pack s.bb).length) →
      exec .bbFlush s = .next { s with
        bb := []
        snk := { s.snk with out := s.snk.out ++ pack s.bb, plan := s.snk.plan.drop (pack s.bb).length }
        result := .ok })
    ∧ ∀ k p, k < (pack s.bb).length → s.snk.plan = List.replicate k .answers ++ .ioErr :: p →
      exec .bbFlush s = .next { s with
        bb := s.bb.drop (8 * k)
        snk := { s.snk with out := s.snk.out ++ (pack s.bb).take k, plan := p }
        result := .err .ioSnk }

/-- R130: BB_FILL appends the next source byte, most significant bit first, or reports the end of the source; the capacity is checked before the
source is read. -/
def Obligations.BbFillAppendsTheNextByte : Prop :=
  Instr.bbFill.EncodedAs 0x17000000#32 ∧ NoOperand 0x17
  ∧ ∀ s : State, s.run = .idle →
    (Config.bbCap < s.bb.length + 8 → exec .bbFill s = .next { s with run := .fault, result := .fault .bbOverflow })
    ∧ (s.bb.length + 8 ≤ Config.bbCap →
      (PlanOk (s.src.plan.take 1) → ∀ v, s.src.data[s.src.pos]? = some v →
        exec .bbFill s = .next { s with
          bb := s.bb ++ bits8 v
          src := { s.src with pos := s.src.pos + 1, plan := s.src.plan.drop 1 }
          srcEos := false
          result := .ok })
      ∧ (PlanOk (s.src.plan.take 1) → s.src.data[s.src.pos]? = none →
        exec .bbFill s = .next { s with src := { s.src with plan := s.src.plan.drop 1 }, srcEos := true, result := .okEos })
      ∧ ∀ p, s.src.plan = .ioErr :: p →
        exec .bbFill s = .next { s with src := { s.src with plan := p }, result := .err .ioSrc })

/-- R131: whatever mix of appends, fills and drains starts from an empty buffer and ends with a flush, the sink gets the packed sequence of the
appended bits; filling whole bytes into an empty buffer gives their bits, and filling what a drain wrote restores the drained bits. -/
def Obligations.BitsLeaveInTheOrderTheyEntered : Prop :=
  (∀ (acts : List BufAct) (s t u : State) (q : Bits), s.bb = [] → performAll acts s = .ok q t → bbFlush t = .ok () u →
    u.snk.out = s.snk.out ++ pack q ∧ u.bb = [])
  ∧ (∀ (s t : State) (q : Bits) (l : List Byte), s.bb = [] → l <+: s.unread → PlanOk s.src.plan →
    performAll (List.replicate l.length .fill) s = .ok q t → t.bb = bitsOf l)
  ∧ ∀ q : Bits, bitsOf (fullBytes q) ++ leftover q = q

/-! ### Frequency table and tree builder -/

/-- R141: FREQ_CLR makes the all-zero table and invalidates the tree and the code table. -/
def Obligations.FreqClrMakesTheZeroTable : Prop :=
  Instr.freqClr.EncodedAs 0x20000000#32 ∧ NoOperand 0x20
  ∧ ∀ s : State, s.run = .idle →
    exec .freqClr s = .next { s with freq := some (Vector.replicate 256 0), total := 0, tree := none, code := none, result := .ok }

/-- R142: FREQ_INC counts one occurrence; the 2^32-th byte is refused and nothing changes. -/
def Obligations.FreqIncCountsOneByte : Prop :=
  (∀ v : Byte, (Instr.freqInc (v.setWidth 16)).EncodedAs (0x21000000#32 ||| v.setWidth 32))
  ∧ ∀ s : State, s.run = .idle →
    (∀ (v : Byte) (f : FreqTable), s.freq = some f → s.total.toNat < 2 ^ 32 - 1 →
      ∃ g : FreqTable, exec (.freqInc (v.setWidth 16)) s
          = .next { s with freq := some g, total := s.total + 1, tree := none, code := none, result := .ok }
        ∧ tableGet g v = tableGet f v + 1 ∧ ∀ u, u ≠ v → tableGet g u = tableGet f u)
    ∧ (∀ (v : Byte) (f : FreqTable), s.freq = some f → s.total.toNat = 2 ^ 32 - 1 →
      exec (.freqInc (v.setWidth 16)) s = .next { s with result := .refuse .inputTooLarge })
    ∧ (∀ v : Byte, s.freq = none → exec (.freqInc (v.setWidth 16)) s = .next { s with result := .refuse .badSequence })
    ∧ ∀ opd : Opd, 255 < opd.toNat → exec (.freqInc opd) s = .next { s with result := .refuse .badOperand }

/-- R143: FREQ_SCAN counts every byte from the read position to the end of the source; on a read failure or at the 2^32-th byte it stops with the
table invalid. -/
def Obligations.FreqScanCountsTheSource : Prop :=
  Instr.freqScan.EncodedAs 0x22000000#32 ∧ NoOperand 0x22
  ∧ ∀ s : State, s.run = .idle → s.src.pos ≤ s.src.data.length →
    (s.unread.length < 2 ^ 32 → PlanOk (s.src.plan.take (s.unread.length + 1)) →
      exec .freqScan s = .next { s with
        freq := some (freqOf s.unread), total := BitVec.ofNat 32 s.unread.length, tree := none, code := none
        src := { s.src with pos := s.src.data.length, plan := s.src.plan.drop (s.unread.length + 1) }
        srcEos := true
        result := .ok })
    ∧ (2 ^ 32 ≤ s.unread.length → PlanOk (s.src.plan.take (2 ^ 32)) →
      exec .freqScan s = .next { s with
        freq := none, total := BitVec.ofNat 32 (2 ^ 32 - 1), tree := none, code := none
        src := { s.src with pos := s.src.pos + 2 ^ 32, plan := s.src.plan.drop (2 ^ 32) }
        srcEos := false
        result := .refuse .inputTooLarge })
    ∧ ∀ k p, k ≤ s.unread.length → k < 2 ^ 32 → s.src.plan = List.replicate k .answers ++ .ioErr :: p →
      exec .freqScan s = .next { s with
        freq := none, total := BitVec.ofNat 32 k, tree := none, code := none
        src := { s.src with pos := s.src.pos + k, plan := p }
        srcEos := if k = 0 then s.srcEos else false
        result := .err .ioSrc }

/-- R144, R154: TREE_BUILD succeeds on every table with a positive entry and writes the tree; the all-zero table is refused with EMPTY_FREQ and
nothing changes. That TOTAL is the table's sum is R25's invariant. -/
def Obligations.TreeBuildSucceedsUnlessEmpty : Prop :=
  Instr.treeBuild.EncodedAs 0x23000000#32 ∧ NoOperand 0x23
  ∧ ∀ s : State, s.run = .idle →
    (∀ f, s.freq = some f → freqSum f = s.total.toNat → s.total ≠ 0 →
      ∃ t, buildTree f = some t ∧ exec .treeBuild s = .next { s with tree := some t, code := none, result := .ok })
    ∧ (∀ f, s.freq = some f → s.total = 0 → exec .treeBuild s = .next { s with result := .refuse .emptyFreq })
    ∧ (s.freq = none → exec .treeBuild s = .next { s with result := .refuse .badSequence })

/-- R145 to R150, R152, R153: the tree of a table. Leaves stand at the lowest indices in ascending symbol order with their counts; a single one
is joined by the synthetic leaf; each branch's weight is its children's sum, its index is above theirs and its right child is the lower; the
root is the last entry and its weight is the table's sum; L leaves make 2 L - 1 nodes of depth at most L - 1; R38's invariants hold. -/
def Obligations.BuiltTreeFollowsTheTable : Prop :=
  ∀ (f : FreqTable) (t : Tree) (real : List Byte), freqSum f < 2 ^ 32 → buildTree f = some t →
    real = ((List.range 256).map (BitVec.ofNat 8)).filter (fun v => decide (0 < (tableGet f v).toNat)) →
    t.Ok ∧ t.index + 1 = t.size ∧ t.Built ∧ t.weightOf = freqSum f
    ∧ (∀ k v, real[k]? = some v → t.entry k = some (.leaf v (some (tableGet f v))))
    ∧ t.size + 1 = 2 * t.symbols.length ∧ 2 ≤ t.symbols.length ∧ t.symbols.length ≤ 256 ∧ t.height + 1 ≤ t.symbols.length
    ∧ (∀ v, real = [v] → t.entry 1 = some (.leaf (v + 128#8) (some 0)) ∧ t.symbols.Perm [v, v + 128#8])
    ∧ (2 ≤ real.length → t.symbols.Perm real)

/-- R151: picking the two lowest nodes builds the same tree as the source's wording, a full descending sort in every pass and a merge of the last
two. -/
def Obligations.TwoMinimaBuildTheSortedTree : Prop := ∀ f : FreqTable, buildTree f = buildTreeSorted f

/-! ### Code table -/

/-- R161, R163: CODE_GEN writes the code table of the tree and nothing else; a symbol's codeword is the path of its last leaf in pre-order, and a
symbol without a leaf has none. -/
def Obligations.CodeGenStoresTheLeafPaths : Prop :=
  Instr.codeGen.EncodedAs 0x24000000#32 ∧ NoOperand 0x24
  ∧ ∀ s : State, s.run = .idle →
    (∀ t, s.tree = some t → ∃ c : CodeTable, exec .codeGen s = .next { s with code := some c, result := .ok }
      ∧ ∀ v, tableGet c v = (((t.paths []).reverse.find? fun p => p.1 == v).map Prod.snd).getD [])
    ∧ (s.tree = none → exec .codeGen s = .next { s with result := .refuse .badSequence })

/-- R162: the code table of a built tree. Every counted symbol has a codeword; the lengths are 1 to 255; no codeword is the beginning of
another's; a symbol that is not a leaf has none; the Kraft sum is 1. -/
def Obligations.BuiltCodeIsACompletePrefixCode : Prop :=
  ∀ (f : FreqTable) (t : Tree), buildTree f = some t →
    (∀ v, 0 < (tableGet f v).toNat → tableGet (codeTable t) v ≠ [])
    ∧ (∀ v, tableGet (codeTable t) v ≠ [] → (v, tableGet (codeTable t) v) ∈ t.paths [] ∧ (tableGet (codeTable t) v).length ≤ Config.maxDepth)
    ∧ (∀ u v, tableGet (codeTable t) u ≠ [] → tableGet (codeTable t) u <+: tableGet (codeTable t) v → u = v)
    ∧ (∀ v, v ∉ t.symbols → tableGet (codeTable t) v = [])
    ∧ ((List.range 256).map fun k =>
        let q := tableGet (codeTable t) (BitVec.ofNat 8 k)
        if q = [] then 0 else 2 ^ (Config.maxDepth - q.length)).sum = 2 ^ Config.maxDepth

/-! ### Tree serializer and deserializer -/

/-- R171: TREE_SER appends the serialized tree to the buffer and drains complete bytes, so that the sink and the buffer together gain exactly
its bits; on a sink failure the bits not accepted stay and the tree stays valid; a full buffer faults at once. That a valid tree's root is a branch is
R38 (c). -/
def Obligations.TreeSerWritesTheSerializedTree : Prop :=
  Instr.treeSer.EncodedAs 0x30000000#32 ∧ NoOperand 0x30
  ∧ ∀ s : State, s.run = .idle →
    (∀ t, s.tree = some t → t.isLeaf = false →
      (Config.bbCap < s.bb.length + 1 → exec .treeSer s = .next { s with run := .fault, result := .fault .bbOverflow })
      ∧ (s.bb.length + 1 ≤ Config.bbCap →
        (PlanOk (s.snk.plan.take (fullBytes (s.bb ++ t.ser)).length) →
          exec .treeSer s = .next { s with
            bb := leftover (s.bb ++ t.ser)
            snk := { s.snk with out := s.snk.out ++ fullBytes (s.bb ++ t.ser), plan := s.snk.plan.drop (fullBytes (s.bb ++ t.ser)).length }
            result := .ok })
        ∧ ∀ k p, k < (fullBytes (s.bb ++ t.ser)).length → s.snk.plan = List.replicate k .answers ++ .ioErr :: p →
          ∃ q, q <+: (s.bb ++ t.ser).drop (8 * k) ∧ 8 ≤ q.length
            ∧ exec .treeSer s = .next { s with
              bb := q
              snk := { s.snk with out := s.snk.out ++ (fullBytes (s.bb ++ t.ser)).take k, plan := p }
              result := .err .ioSnk }))
    ∧ (s.tree = none → exec .treeSer s = .next { s with result := .refuse .badSequence })

/-- R173, R42: TREE_DES with its explicit traversal stack does exactly what R173's recursion does, in every state, for every stream and every plan;
only the hidden traversal of a command that stays BUSY differs. -/
def Obligations.TreeDesIsTheRecursion : Prop :=
  Instr.treeDes.EncodedAs 0x31000000#32 ∧ NoOperand 0x31
  ∧ ∀ s : State, s.run = .idle → s.des = .idle →
    ∃ t u : State, exec .treeDes s = .next t ∧ primitive true true (thenOk desRecursive) s = .next u ∧ { t with des := .idle } = u

/-- R175, R177, R179, R180: when the buffered and unread bits begin with the serialized form of a tree the engine can hold, TREE_DES rebuilds it,
numbered in pre-order without weights, reads only the bytes that hold its bits, and leaves the rest of the last byte in the buffer. -/
def Obligations.TreeDesRebuildsTheSerializedTree : Prop :=
  ∀ (s : State) (t : Tree) (need : Nat), s.run = .idle → t.Fits → t.ser <+: s.bb ++ bitsOf s.unread →
    need = (t.ser.length - s.bb.length + 7) / 8 → PlanOk (s.src.plan.take need) →
    exec .treeDes s = .next { s with
      tree := some (t.preorder 0).1, code := none, des := .idle
      bb := (s.bb ++ bitsOf (s.unread.take need)).drop t.ser.length
      src := { s.src with pos := s.src.pos + need, plan := s.src.plan.drop need }
      srcEos := if need = 0 then s.srcEos else false
      result := .ok }

/-- R174, R176 to R178: what ends TREE_DES without a tree. A walk down any path of 256 branches is TREE_DEPTH before a further bit is requested; a tree
that is a single leaf is TREE_SINGLE_LEAF after its symbol is read; the kind bit of a token after NODE_CAP nodes is NODE_MEM_FULL, its symbol not
read; a source that ends where a token is due, or inside a leaf's symbol, is TREE_EOS, the symbol's bits left in the buffer. The tree and the code
table are then invalid, and only the bytes that hold the bits read are consumed. -/
def Obligations.TreeDesRejectsMalformedTrees : Prop :=
  (∀ (s : State) (T : Bits) (need : Nat) (r : ResultCode), s.run = .idle →
    (∃ path, T = descent path ∧ path.length = Config.depthLimit ∧ DescentOk path ∧ descentSize path ≤ Config.nodeCap ∧ r = .err .treeDepth)
      ∨ (∃ v : Byte, T = true :: bits8 v ∧ r = .err .treeSingleLeaf)
      ∨ (∃ (t : Tree) (b : Bool), t.height ≤ Config.maxDepth ∧ Config.nodeCap < t.size
          ∧ T = (t.tokens.take Config.nodeCap).flatMap tokenBits ++ [b] ∧ r = .refuse .nodeMemFull) →
    T <+: s.bb ++ bitsOf s.unread → need = (T.length - s.bb.length + 7) / 8 → PlanOk (s.src.plan.take need) →
    exec .treeDes s = .next { s with
      tree := none, code := none, des := .idle
      bb := (s.bb ++ bitsOf (s.unread.take need)).drop T.length
      src := { s.src with pos := s.src.pos + need, plan := s.src.plan.drop need }
      srcEos := if need = 0 then s.srcEos else false
      result := r })
  ∧ ∀ (s : State) (t : Tree) (toks : List Instr) (cut q : Bits), s.run = .idle → t.height ≤ Config.maxDepth →
    toks <+: t.tokens → toks.length < t.tokens.length →
    s.bb ++ bitsOf s.unread = toks.flatMap tokenBits ++ cut →
    (cut = [] ∧ q = [] ∧ toks.length ≤ Config.nodeCap) ∨ (cut = true :: q ∧ q.length < 8 ∧ toks.length < Config.nodeCap) →
    s.src.pos ≤ s.src.data.length → PlanOk (s.src.plan.take (s.unread.length + 1)) →
    exec .treeDes s = .next { s with
      tree := none, code := none, des := .idle
      bb := q
      src := { s.src with pos := s.src.data.length, plan := s.src.plan.drop (s.unread.length + 1) }
      srcEos := true
      result := .err .treeEos }

/-- R173, R177: what each token does when a running TREE_DES reads it. BRANCH opens a branch with the next free index; LEAF makes a leaf with it and
closes the branches it completes; at depth 256 the token is not entered, and beyond NODE_CAP it is refused. The token register and the traversal
as state are the model's (log entry 10). -/
def Obligations.TokensGrowTheTraversal : Prop :=
  ∀ s : State, s.run = .busy →
    (s.des.stack.length < Config.depthLimit → s.des.next < Config.nodeCap →
      exec .branch s
          = .next { s with des := { token := [], stack := .left s.des.next :: s.des.stack, next := s.des.next + 1, whole := none } }
      ∧ ∀ v, exec (.leaf v) s = .next { s with des := {
          token := [], next := s.des.next + 1
          stack := (plug (.leaf s.des.next none v) s.des.stack).1
          whole := (plug (.leaf s.des.next none v) s.des.stack).2 } })
    ∧ (Config.depthLimit ≤ s.des.stack.length →
      exec .branch s = .next { s with run := .idle, result := .err .treeDepth, des := .idle }
      ∧ ∀ v, exec (.leaf v) s = .next { s with run := .idle, result := .err .treeDepth, des := .idle })
    ∧ (s.des.stack.length < Config.depthLimit → Config.nodeCap ≤ s.des.next →
      exec .branch s = .next { s with run := .idle, result := .refuse .nodeMemFull, des := .idle }
      ∧ ∀ v, exec (.leaf v) s = .next { s with run := .idle, result := .refuse .nodeMemFull, des := .idle })

/-- R99, R100, R177: the tokens of a tree, one after another from an empty traversal, rebuild the whole tree numbered in pre-order, and the bits of
the tokens are the serialized tree. -/
def Obligations.TokensRebuildTheWholeTree : Prop :=
  ∀ t : Tree, (t.tokens.flatMap tokenBits = t.ser)
    ∧ ∀ s : State, s.run = .busy → s.des = .idle → t.height ≤ Config.maxDepth → t.size ≤ Config.nodeCap →
      runTokens t.tokens s
        = some { s with des := { token := [], stack := [], next := t.size, whole := some (t.preorder 0).1 } }

/-! ### Encoder -/

/-- R191, R68: HDR_WRITE writes TOTAL as four bytes, most significant first, straight to the sink; a total below 2 is INPUT_TOO_SMALL and writes
nothing; the bytes before a failing write stay written. -/
def Obligations.HdrWriteWritesTheTotal : Prop :=
  Instr.hdrWrite.EncodedAs 0x40000000#32 ∧ NoOperand 0x40
  ∧ ∀ s : State, s.run = .idle →
    (s.freq.isSome = true → 2 ≤ s.total.toNat → PlanOk (s.snk.plan.take 4) →
      exec .hdrWrite s = .next { s with
        snk := { s.snk with out := s.snk.out ++ bigEndian s.total, plan := s.snk.plan.drop 4 }, result := .ok })
    ∧ (s.freq.isSome = true → s.total.toNat < 2 → exec .hdrWrite s = .next { s with result := .err .inputTooSmall })
    ∧ (∀ k p, s.freq.isSome = true → 2 ≤ s.total.toNat → k < 4 → s.snk.plan = List.replicate k .answers ++ .ioErr :: p →
      exec .hdrWrite s = .next { s with
        snk := { s.snk with out := s.snk.out ++ (bigEndian s.total).take k, plan := p }, result := .err .ioSnk })
    ∧ (s.freq = none → exec .hdrWrite s = .next { s with result := .refuse .badSequence })

/-- R192, R194: PAYLOAD_ENC rewinds the source and appends the codeword of every byte the new pass reads (the same bytes as before, or others if the
host changed them: `Source.rewound`, log entry 18), draining complete bytes; a byte without a codeword is the fault NO_CODEWORD at that byte; a
codeword for which there is no room is BB_OVERFLOW; a failing read or write stops it with what was done standing; TOTAL is not looked at. -/
def Obligations.PayloadEncAppendsTheCodewords : Prop :=
  Instr.payloadEnc.EncodedAs 0x41000000#32 ∧ NoOperand 0x41
  ∧ ∀ s : State, s.run = .idle →
    (∀ (c : CodeTable) (x y : List Byte), s.code = some c → s.src.rewound.data = x ++ y →
      (∀ v ∈ x.head?, s.bb.length + (tableGet c v).length ≤ Config.bbCap) →
      (∀ v ∈ x, tableGet c v ≠ [] ∧ (tableGet c v).length ≤ Config.maxDepth) →
      (PlanOk (s.snk.plan.take (fullBytes (s.bb ++ payloadBits c x)).length) → ∀ encoded : State,
        encoded = { s with
          bb := if x = [] then s.bb else leftover (s.bb ++ payloadBits c x)
          src := { s.src.rewound with pos := x.length, plan := s.src.plan.drop (x.length + 1) }
          srcEos := false
          snk := if x = [] then s.snk else { s.snk with
            out := s.snk.out ++ fullBytes (s.bb ++ payloadBits c x)
            plan := s.snk.plan.drop (fullBytes (s.bb ++ payloadBits c x)).length } } →
        (PlanOk (s.src.plan.take (x.length + 1)) → y = [] → exec .payloadEnc s = .next { encoded with srcEos := true, result := .ok })
        ∧ (PlanOk (s.src.plan.take (x.length + 1)) → ∀ v rest, y = v :: rest → tableGet c v = [] →
          exec .payloadEnc s = .next { encoded with
            src := { encoded.src with pos := x.length + 1 }, run := .fault, result := .fault .noCodeword })
        ∧ ∀ p, s.src.plan = List.replicate x.length .answers ++ .ioErr :: p →
          exec .payloadEnc s = .next { encoded with result := .err .ioSrc })
      ∧ ∀ k p, x ≠ [] → PlanOk (s.src.plan.take x.length) → k < (fullBytes (s.bb ++ payloadBits c x)).length →
        s.snk.plan = List.replicate k .answers ++ .ioErr :: p →
        ∃ u, exec .payloadEnc s = .next u ∧ u.run = .idle ∧ u.result = .err .ioSnk
          ∧ u.snk.out = s.snk.out ++ (fullBytes (s.bb ++ payloadBits c x)).take k
          ∧ u.bb <+: (s.bb ++ payloadBits c x).drop (8 * k) ∧ 8 ≤ u.bb.length)
    ∧ (∀ (c : CodeTable) (v : Byte) (rest : List Byte), s.code = some c → s.src.rewound.data = v :: rest → PlanOk (s.src.plan.take 1) →
      tableGet c v ≠ [] → Config.bbCap < s.bb.length + (tableGet c v).length →
      exec .payloadEnc s = .next { s with
        src := { s.src.rewound with pos := 1, plan := s.src.plan.drop 1 }, srcEos := false, run := .fault, result := .fault .bbOverflow })
    ∧ (s.code = none → exec .payloadEnc s = .next { s with result := .refuse .badSequence })

/-- R196, R197, R105: COMPRESS on an input of 2 to 2^32 - 1 bytes at position 0, constant over the job, appends exactly the input's stream to the
sink: TOTAL, the packed serialized tree, the packed codewords. TOTAL is kept; every flag is released; the buffer is empty. R194, R284: when the
second pass reads other bytes, the header and the tree are the first pass's and the payload is the second's, undetected; a byte without a codeword
is the fault NO_CODEWORD with nothing released. How the two passes' contents stand in State is the model's (log entry 18). -/
def Obligations.CompressWritesTheStream : Prop :=
  Instr.compress.EncodedAs 0x4F000000#32 ∧ NoOperand 0x4F
  ∧ ∀ (s : State) (x : List Byte), s.run = .idle → s.src.data = x → s.src.pos = 0 → 2 ≤ x.length → x.length < 2 ^ 32 → PlanOk s.snk.plan →
    ∃ t, buildTree (freqOf x) = some t
      ∧ (streamWith t x).length = 4 + (10 * t.symbols.length - 1 + 7) / 8 + ((payloadBits (codeTable t) x).length + 7) / 8
      ∧ (s.src.rewound.data = x → PlanOk (s.src.plan.take (2 * (x.length + 1))) →
        exec .compress s = .next { s with
          freq := none, tree := none, code := none, countValid := false, bb := []
          total := BitVec.ofNat 32 x.length
          src := { s.src.rewound with pos := x.length, plan := s.src.plan.drop (2 * (x.length + 1)) }
          srcEos := true
          snk := { s.snk with out := s.snk.out ++ streamWith t x, plan := s.snk.plan.drop (streamWith t x).length }
          result := .ok })
      ∧ ∀ y z : List Byte, s.src.rewound.data = y ++ z → (∀ v ∈ y, tableGet (codeTable t) v ≠ []) →
        PlanOk (s.src.plan.take (x.length + y.length + 2)) →
        (z = [] → exec .compress s = .next { s with
          freq := none, tree := none, code := none, countValid := false, bb := []
          total := BitVec.ofNat 32 x.length
          src := { s.src.rewound with pos := y.length, plan := s.src.plan.drop (x.length + y.length + 2) }
          srcEos := true
          snk := { s.snk with out := s.snk.out ++ streamOf t x y, plan := s.snk.plan.drop (streamOf t x y).length }
          result := .ok })
        ∧ ∀ v rest written, z = v :: rest → tableGet (codeTable t) v = [] →
          written = bigEndian (BitVec.ofNat 32 x.length) ++ pack t.ser ++ fullBytes (payloadBits (codeTable t) y) →
          exec .compress s = .next { s with
            freq := some (freqOf x), tree := some t, code := some (codeTable t)
            bb := leftover (payloadBits (codeTable t) y)
            total := BitVec.ofNat 32 x.length
            src := { s.src.rewound with pos := y.length + 1, plan := s.src.plan.drop (x.length + y.length + 2) }
            srcEos := false
            snk := { s.snk with out := s.snk.out ++ written, plan := s.snk.plan.drop written.length }
            run := .fault
            result := .fault .noCodeword }

/-- R193: COMPRESS of fewer than 2 bytes is INPUT_TOO_SMALL, with Release done and nothing written to the sink; so is HDR_WRITE with TOTAL below 2;
TREE_BUILD does not make the check. -/
def Obligations.TooSmallInputsAreRejected : Prop :=
  ∀ s : State, s.run = .idle →
    (s.src.pos ≤ s.src.data.length → s.unread.length < 2 → PlanOk (s.src.plan.take (s.unread.length + 1)) →
      exec .compress s = .next { s with
        freq := none, tree := none, code := none, countValid := false, bb := []
        total := BitVec.ofNat 32 s.unread.length
        src := { s.src with pos := s.src.data.length, plan := s.src.plan.drop (s.unread.length + 1) }
        srcEos := true
        result := .err .inputTooSmall })
    ∧ (s.freq.isSome = true → s.total.toNat < 2 → exec .hdrWrite s = .next { s with result := .err .inputTooSmall })
    ∧ ∀ f, s.freq = some f → freqSum f = 1 → s.total = 1 →
      ∃ t, exec .treeBuild s = .next { s with tree := some t, code := none, result := .ok }

/-- R198, R78: whatever port operations fail or are never answered, and whatever bytes the second pass reads, what COMPRESS has written to the sink is
the beginning of the stream of its two passes (of the input's stream, when the source is constant). -/
def Obligations.CompressWritesAPrefixOfTheStream : Prop :=
  ∀ (s u : State) (x : List Byte) (t : Tree), s.run = .idle → s.src.data = x → s.src.pos = 0 → 2 ≤ x.length → x.length < 2 ^ 32 →
    buildTree (freqOf x) = some t → exec .compress s = .next u →
    ∃ l, l <+: streamOf t x s.src.rewound.data ∧ u.snk.out = s.snk.out ++ l
      ∧ (u.result = .ok → u.run = .idle → l = streamOf t x s.src.rewound.data)

/-! ### Decoder -/

/-- R211: HDR_READ reads four bytes, most significant first, into COUNT; with fewer it is HEADER_TRUNCATED, COUNT keeps its old value with
COUNT_VALID = 0, and the bytes read stay consumed. -/
def Obligations.HdrReadReadsTheCount : Prop :=
  Instr.hdrRead.EncodedAs 0x50000000#32 ∧ NoOperand 0x50
  ∧ ∀ s : State, s.run = .idle →
    (∀ b0 b1 b2 b3 rest, s.unread = b0 :: b1 :: b2 :: b3 :: rest → PlanOk (s.src.plan.take 4) →
      exec .hdrRead s = .next { s with
        count := b0 ++ b1 ++ b2 ++ b3, countValid := true
        src := { s.src with pos := s.src.pos + 4, plan := s.src.plan.drop 4 }, srcEos := false, result := .ok })
    ∧ (s.unread.length < 4 → PlanOk (s.src.plan.take (s.unread.length + 1)) →
      exec .hdrRead s = .next { s with
        countValid := false
        src := { s.src with pos := s.src.pos + s.unread.length, plan := s.src.plan.drop (s.unread.length + 1) }
        srcEos := true, result := .err .headerTruncated })
    ∧ ∀ k p, k < 4 → k ≤ s.unread.length → s.src.plan = List.replicate k .answers ++ .ioErr :: p →
      exec .hdrRead s = .next { s with
        countValid := false
        src := { s.src with pos := s.src.pos + k, plan := p }
        srcEos := if k = 0 then s.srcEos else false, result := .err .ioSrc }

/-- R212: DEC_SYMBOL tops the buffer up to at least 255 bits or the source's end, walks the tree, writes the leaf's symbol and drops exactly the bits
of its codeword; with no bit, or with the bits used up at a branch, nothing is written or dropped; a failing write leaves the bits and EMITTED; a
failing read stops the top-up. -/
def Obligations.DecSymbolDecodesOneSymbol : Prop :=
  Instr.decSymbol.EncodedAs 0x51000000#32 ∧ NoOperand 0x51
  ∧ ∀ (s : State), s.run = .idle →
    (∀ (t : Tree) (pulled : Nat) (bb : Bits) (topped : State), s.tree = some t → t.isLeaf = false →
      pulled = min s.unread.length ((Config.topUp - s.bb.length + 7) / 8) → bb = s.bb ++ bitsOf (s.unread.take pulled) →
      PlanOk (s.src.plan.take (pulled + 1)) → PlanOk (s.snk.plan.take 1) →
      topped = { s with
        bb := bb
        src := { s.src with
          pos := s.src.pos + pulled
          plan := s.src.plan.drop (if bb.length < Config.topUp then pulled + 1 else pulled) }
        srcEos := if Config.topUp ≤ s.bb.length then s.srcEos else decide (bb.length < Config.topUp) } →
      (bb = [] → exec .decSymbol s = .next { topped with result := .err .payloadEmpty })
      ∧ (bb ≠ [] → walkBits t bb = none → exec .decSymbol s = .next { topped with result := .err .payloadMid })
      ∧ ∀ v rest, walkBits t bb = some (v, rest) → bb ≠ [] →
        exec .decSymbol s = .next { topped with
          bb := rest
          snk := { s.snk with out := s.snk.out ++ [v], plan := s.snk.plan.drop 1 }
          emitted := if s.emitted.toNat = 2 ^ 32 - 1 then s.emitted else s.emitted + 1
          result := .ok })
    ∧ (∀ (t : Tree) (pulled : Nat) (bb : Bits) (v : Byte) (rest : Bits) (p : List PortPlan), s.tree = some t → t.isLeaf = false →
      pulled = min s.unread.length ((Config.topUp - s.bb.length + 7) / 8) → bb = s.bb ++ bitsOf (s.unread.take pulled) →
      PlanOk (s.src.plan.take (pulled + 1)) → s.snk.plan = .ioErr :: p → walkBits t bb = some (v, rest) → bb ≠ [] →
      ∃ u, exec .decSymbol s = .next u ∧ u.result = .err .ioSnk ∧ u.run = .idle ∧ u.snk = { s.snk with plan := p } ∧ u.bb = bb
        ∧ u.emitted = s.emitted)
    ∧ (∀ k p, s.tree.isSome = true → k ≤ s.unread.length → s.bb.length + 8 * k < Config.topUp →
      s.src.plan = List.replicate k .answers ++ .ioErr :: p →
      exec .decSymbol s = .next { s with
        bb := s.bb ++ bitsOf (s.unread.take k)
        src := { s.src with pos := s.src.pos + k, plan := p }
        srcEos := if k = 0 then s.srcEos else false
        result := .err .ioSrc })
    ∧ (s.tree = none → exec .decSymbol s = .next { s with result := .refuse .badSequence })

/-- R213, R215: PAYLOAD_DEC decodes COUNT symbols from the buffered and unread bits, or as many as they hold, and then fails with PAYLOAD_EMPTY or
PAYLOAD_MID; EMITTED is the number written; with COUNT = 0 nothing is read. -/
def Obligations.PayloadDecDecodesCountSymbols : Prop :=
  Instr.payloadDec.EncodedAs 0x52000000#32 ∧ NoOperand 0x52
  ∧ ∀ s : State, s.run = .idle →
    (∀ (t : Tree) (d : List Byte × Bits × DecodeEnd), s.tree = some t → s.countValid = true → t.isLeaf = false → t.height ≤ Config.maxDepth →
      s.PortsOk → d = decodeUpTo s.count.toNat t (s.bb ++ bitsOf s.unread) →
      ∃ u, exec .payloadDec s = .next u
        ∧ u.result = d.2.2.code
        ∧ u.snk.out = s.snk.out ++ d.1
        ∧ u.emitted = BitVec.ofNat 32 d.1.length
        ∧ u.bb ++ bitsOf u.unread = d.2.1
        ∧ u.src.data = s.src.data ∧ u.snk.inFlight = s.snk.inFlight
        ∧ u = { s with bb := u.bb, src := u.src, srcEos := u.srcEos, snk := u.snk, emitted := u.emitted, result := u.result }
        ∧ (s.count = 0 → u = { s with emitted := 0, result := .ok }))
    ∧ (s.tree = none ∨ s.countValid = false → exec .payloadDec s = .next { s with result := .refuse .badSequence })

/-- R216: DECOMPRESS on a header, the packed serialized form of a tree the engine can hold, and a payload: it decodes the declared number of symbols
from the payload's bits, keeps COUNT and EMITTED, and releases every flag. -/
def Obligations.DecompressDecodesTheStream : Prop :=
  Instr.decompress.EncodedAs 0x5F000000#32 ∧ NoOperand 0x5F
  ∧ ∀ (s : State) (c : Count) (t : Tree) (rest : List Byte) (d : List Byte × Bits × DecodeEnd), s.run = .idle → t.Fits → s.PortsOk →
    s.unread = bigEndian c ++ pack t.ser ++ rest → d = decodeUpTo c.toNat t (bitsOf rest) →
    ∃ u, exec .decompress s = .next u
      ∧ u.result = d.2.2.code
      ∧ u.snk.out = s.snk.out ++ d.1
      ∧ u.src.data = s.src.data ∧ u.snk.inFlight = s.snk.inFlight
      ∧ u = { s with
        freq := none, tree := none, code := none, countValid := false, bb := [], des := .idle
        count := c, emitted := BitVec.ofNat 32 d.1.length
        src := u.src, srcEos := u.srcEos, snk := u.snk, result := u.result }

/-- R217: for every input of 2 to 2^32 - 1 bytes, the same in both passes (R65), DECOMPRESS of what COMPRESS wrote gives the input back, with
COUNT = EMITTED = its length and the whole stream consumed. -/
def Obligations.DecompressUndoesCompress : Prop :=
  ∀ (s : State) (x : List Byte), s.run = .idle → s.src.data = x → s.src.rewound.data = x → s.src.pos = 0 → 2 ≤ x.length →
    x.length < 2 ^ 32 → s.PortsOk →
    ∃ (u : State) (stream : List Byte), exec .compress s = .next u ∧ u.result = .ok ∧ u.snk.out = s.snk.out ++ stream
      ∧ ∀ s' : State, s'.run = .idle → s'.src.data = stream → s'.src.pos = 0 → s'.PortsOk →
        ∃ u', exec .decompress s' = .next u' ∧ u'.result = .ok ∧ u'.snk.out = s'.snk.out ++ x
          ∧ u'.count = BitVec.ofNat 32 x.length ∧ u'.emitted = BitVec.ofNat 32 x.length ∧ u'.src.pos = stream.length

/-! ### The whole machine -/

/-- R96, R196, R216: where the primitive commands of a job all complete with OK, the composite command ends in exactly the state they end in. -/
def Obligations.CompositesEqualTheirPrograms : Prop :=
  ∀ s t : State, s.run = .idle →
    (runOk compressProgram s = some t → exec .compress s = .next t)
    ∧ (runOk decompressProgram s = some t → exec .decompress s = .next t)

/-- R281, R282, R196: no input, stream or plan makes a composite command overflow or underflow the bit buffer; DECOMPRESS never faults, nor does
COMPRESS with the source at its start and constant over the job (R194, R284). -/
def Obligations.CompositesNeverBreakTheBuffer : Prop :=
  ∀ s t : State, Inv s → s.run = .idle →
    (exec .compress s = .next t → t.result ≠ .fault .bbOverflow ∧ t.result ≠ .fault .bbUnderflow
      ∧ (s.src.pos = 0 → s.src.rewound.data = s.src.data → t.run ≠ .fault))
    ∧ (exec .decompress s = .next t → t.run ≠ .fault)

/-- R283, R288, R245: a composite command that completes, with success, error or refusal, leaves the four valid flags 0 and the buffer empty. -/
def Obligations.CompositesReleaseTheJob : Prop :=
  ∀ s t : State, s.run = .idle → exec .compress s = .next t ∨ exec .decompress s = .next t → t.run = .idle →
    t.freq = none ∧ t.tree = none ∧ t.code = none ∧ t.countValid = false ∧ t.bb = []

/-- R255: in the FAULT state a word written to CMD other than exactly SOFT_RESET's changes nothing, decodable or not; SOFT_RESET's performs it; hard
reset works; the registers stay readable. -/
def Obligations.FaultStateAcceptsOnlySoftReset : Prop :=
  ∀ (s : State) (rest : List HostAct), s.run = .fault →
    (∀ w : Word, s.host = .writeReg 0 w :: rest →
      (w ≠ 0x01000000#32 → step s = .next { s with host := rest })
      ∧ (w = 0x01000000#32 →
        step s = .next { State.reset with src := s.src, snk := s.snk, host := rest, reads := s.reads, free := s.free }))
    ∧ (s.host = .hardReset :: rest → ∃ t, step s = .next t ∧ t.run = .idle ∧ t.result = .ok ∧ t.bb = [])
    ∧ (s.host = .readReg 2 :: rest →
      step s = .next { s with host := rest, reads := s.reads ++ [resultWord s], free := s.free + 1 })
    ∧ ∀ i : Instr, i.isCommand = true → i ≠ .softReset → exec i s = .next s

/-- R253: a command of an idle engine that ends, ends in one of the outcomes its row of table R253 lists; beyond its row, COMPRESS can end in
NO_CODEWORD when the two passes do not read the same bytes (R194, R284). -/
def Obligations.EveryOutcomeIsInTheMatrix : Prop :=
  ∀ (i : Instr) (s t : State), i.isCommand = true → Inv s → s.run = .idle → exec i s = .next t → t.run ≠ .busy →
    t.result ∈ i.outcomes
    ∨ (i = .compress ∧ t.result = .fault .noCodeword ∧ ¬ (s.src.pos = 0 ∧ s.src.rewound.data = s.src.data))

/-- R289, R233: every command of an idle engine leads to a next state, and ends there, out of BUSY, if the host answers every port operation. -/
def Obligations.EveryCommandEnds : Prop :=
  ∀ (i : Instr) (s : State), i.isCommand = true → s.run = .idle →
    ∃ t, exec i s = .next t ∧ (s.PortsLive → t.run ≠ .busy)

/-- R79, R289, R21, R286 (H1): a command is BUSY after its step exactly when a port operation it came to is never answered. A read so stands where a
failing read would have left the ports and the counts; a write so has its byte, the one the same command would have written next, in flight. An
engine that stays BUSY leaves that state only by hard reset; and a write to CMD in that state has no meaning, so that the model stops there by name,
as every command says. The plans, their silent entry, the byte in flight and the stop are the model's (log entries 5, 6 and 7). -/
def Obligations.UnansweredPortLeavesTheEngineBusy : Prop :=
  (∀ (i : Instr) (s t : State), i.isCommand = true → s.run = .idle → exec i s = .next t →
    (∃ reads writes, s.src.plan = reads ++ t.src.plan ∧ s.snk.plan = writes ++ t.snk.plan
      ∧ (t.run = .busy ↔ .never ∈ reads ∨ .never ∈ writes))
    ∧ (t.run ≠ .busy → t.snk.inFlight = s.snk.inFlight)
    ∧ (∀ before, s.src.plan = before ++ .never :: t.src.plan →
      t.run = .busy ∧ t.snk.inFlight = s.snk.inFlight
      ∧ ∃ u, exec i { s with src := { s.src with plan := before ++ .ioErr :: t.src.plan } } = .next u ∧ u.result = .err .ioSrc
        ∧ u.src = t.src ∧ u.srcEos = t.srcEos ∧ u.snk = t.snk ∧ u.total = t.total ∧ u.count = t.count ∧ u.emitted = t.emitted)
    ∧ ∀ before, s.snk.plan = before ++ .never :: t.snk.plan →
      t.run = .busy
      ∧ ∃ v u, t.snk.inFlight = some v
        ∧ exec i { s with snk := { s.snk with plan := before ++ .answers :: t.snk.plan } } = .next u ∧ t.snk.out ++ [v] <+: u.snk.out)
  ∧ (∀ (s : State) (p : List PortPlan), s.run = .idle → s.bb.length + 8 ≤ Config.bbCap → s.src.plan = .never :: p →
    exec .bbFill s = .next { s with run := .busy, src := { s.src with plan := p } })
  ∧ (∀ (s : State) (p : List PortPlan), s.run = .idle → s.freq.isSome = true → 2 ≤ s.total.toNat → s.snk.plan = .never :: p →
    exec .hdrWrite s = .next { s with run := .busy, snk := { s.snk with plan := p, inFlight := some (s.total.extractLsb' 24 8) } })
  ∧ ∀ s : State, s.run = .busy →
    (∀ t, heldToken s = none → step s = .next t → t.run = .busy ∨ ∃ rest, s.host = .hardReset :: rest)
    ∧ (∀ (w : Word) (rest : List HostAct), heldToken s = none → s.host = .writeReg 0 w :: rest → step s = .fault .cmdWhileBusy)
    ∧ ∀ i : Instr, i.isCommand = true → exec i s = .fault .cmdWhileBusy

/-! ### Frames -/

/-- The frame of the commands that touch neither port: whatever the outcome, each changes at most the fields named for it. -/
def Obligations.PortlessCommandsFrame : Prop :=
  ∀ s t : State,
    (∀ i : Instr, (i = .nop ∨ i = .bbClear ∨ (∃ b, i = .bbAppendBit b) ∨ (∃ v, i = .bbAppendByte v) ∨ (∃ v, i = .bbAppendCode v)
        ∨ ∃ n, i = .bbDrop n) → exec i s = .next t → t = { s with run := t.run, result := t.result, bb := t.bb })
    ∧ (∀ i : Instr, (i = .freqClr ∨ ∃ v, i = .freqInc v) → exec i s = .next t →
        t = { s with run := t.run, result := t.result, freq := t.freq, total := t.total, tree := t.tree, code := t.code })
    ∧ (exec .treeBuild s = .next t → t = { s with run := t.run, result := t.result, tree := t.tree, code := t.code })
    ∧ (exec .codeGen s = .next t → t = { s with run := t.run, result := t.result, code := t.code })
    ∧ (exec .release s = .next t → t = { s with
        run := t.run, result := t.result, bb := t.bb, freq := t.freq, tree := t.tree, code := t.code, countValid := t.countValid })
    ∧ ∀ i : Instr, (i = .branch ∨ ∃ v, i = .leaf v) → exec i s = .next t → t = { s with run := t.run, result := t.result, des := t.des }

/-- The frame of the commands that touch one port: each changes at most the fields named for it; the source's bytes never change and what the
sink has accepted stays (R45, R78). -/
def Obligations.OnePortCommandsFrame : Prop :=
  ∀ s t : State,
    (∀ i : Instr, (i = .bbDrain ∨ i = .bbFlush ∨ i = .treeSer) → exec i s = .next t →
        t = { s with run := t.run, result := t.result, bb := t.bb, snk := t.snk } ∧ s.snk.out <+: t.snk.out)
    ∧ (exec .hdrWrite s = .next t → t = { s with run := t.run, result := t.result, snk := t.snk } ∧ s.snk.out <+: t.snk.out)
    ∧ (exec .bbFill s = .next t →
        t = { s with run := t.run, result := t.result, bb := t.bb, src := t.src, srcEos := t.srcEos } ∧
          t.src.data = s.src.data ∧ t.src.rewinds = s.src.rewinds)
    ∧ (exec .freqScan s = .next t → t = { s with
        run := t.run, result := t.result, src := t.src, srcEos := t.srcEos
        freq := t.freq, total := t.total, tree := t.tree, code := t.code } ∧ t.src.data = s.src.data ∧ t.src.rewinds = s.src.rewinds)
    ∧ (exec .treeDes s = .next t → t = { s with
        run := t.run, result := t.result, bb := t.bb, src := t.src, srcEos := t.srcEos
        tree := t.tree, code := t.code, des := t.des } ∧ t.src.data = s.src.data ∧ t.src.rewinds = s.src.rewinds)
    ∧ (exec .hdrRead s = .next t → t = { s with
        run := t.run, result := t.result, src := t.src, srcEos := t.srcEos
        count := t.count, countValid := t.countValid } ∧ t.src.data = s.src.data ∧ t.src.rewinds = s.src.rewinds)

/-- The frame of the commands that touch both ports: each changes at most the fields named for it; what the sink has accepted stays (R78), and the
source's bytes change only where a rewind starts a pass for which the host presents others (R45, R284; log entry 18). -/
def Obligations.TwoPortCommandsFrame : Prop :=
  ∀ s t : State,
    (exec .payloadEnc s = .next t → t = { s with
      run := t.run, result := t.result, bb := t.bb, src := t.src, srcEos := t.srcEos, snk := t.snk })
    ∧ (∀ i : Instr, (i = .decSymbol ∨ i = .payloadDec) → exec i s = .next t → t = { s with
      run := t.run, result := t.result, bb := t.bb, src := t.src, srcEos := t.srcEos, snk := t.snk, emitted := t.emitted })
    ∧ (exec .compress s = .next t → t = { s with
      run := t.run, result := t.result, bb := t.bb, src := t.src, srcEos := t.srcEos, snk := t.snk
      freq := t.freq, total := t.total, tree := t.tree, code := t.code, countValid := t.countValid })
    ∧ (exec .decompress s = .next t → t = { s with
      run := t.run, result := t.result, bb := t.bb, src := t.src, srcEos := t.srcEos, snk := t.snk
      freq := t.freq, tree := t.tree, code := t.code, countValid := t.countValid, count := t.count, emitted := t.emitted, des := t.des })
    ∧ (∀ i : Instr, (i = .payloadEnc ∨ i = .decSymbol ∨ i = .payloadDec ∨ i = .compress ∨ i = .decompress) → exec i s = .next t →
      s.snk.out <+: t.snk.out)
    ∧ (∀ i : Instr, (i = .decSymbol ∨ i = .payloadDec ∨ i = .decompress) → exec i s = .next t →
      t.src.data = s.src.data ∧ t.src.rewinds = s.src.rewinds)
    ∧ ∀ i : Instr, (i = .payloadEnc ∨ i = .compress) → exec i s = .next t →
      (t.src.data = s.src.data ∧ t.src.rewinds = s.src.rewinds)
      ∨ (t.src.data = s.src.rewound.data ∧ t.src.rewinds = s.src.rewound.rewinds)
end

