-- ==== Sys2Proof/Laws/Bits.lean ====
section
/-! SUPPORT. Laws of bit sequences, of the groups a drain writes, and of the 256-entry tables. -/

namespace Sys2Proof.Machine

/-! ### Bits of bytes -/

@[simp] theorem bits8_length (v : Byte) : (bits8 v).length = 8 := rfl

theorem bits8_ne_nil (v : Byte) : bits8 v ≠ [] := by simp [bits8]

@[simp] theorem bitsOf_nil : bitsOf [] = [] := rfl

@[simp] theorem bitsOf_cons (v : Byte) (l : List Byte) : bitsOf (v :: l) = bits8 v ++ bitsOf l := rfl

@[simp] theorem bitsOf_append (l m : List Byte) : bitsOf (l ++ m) = bitsOf l ++ bitsOf m := by simp [bitsOf]

@[simp] theorem bitsOf_length (l : List Byte) : (bitsOf l).length = 8 * l.length := by
  induction l with
  | nil => rfl
  | cons v l ih => simp [ih]; omega

/-- A number of `n` bits is below `2 ^ n`. -/
theorem bitsVal_lt (q : Bits) : bitsVal q < 2 ^ q.length := by
  induction q with
  | nil => simp [bitsVal]
  | cons b q ih =>
    have : b.toNat ≤ 1 := by cases b <;> simp
    have h : b.toNat * 2 ^ q.length ≤ 1 * 2 ^ q.length := Nat.mul_le_mul_right _ this
    simp only [bitsVal, List.length_cons, pow_succ]
    omega

/-! ### Groups of 8 -/

@[simp] theorem fullBytes_length (q : Bits) : (fullBytes q).length = q.length / 8 := by simp [fullBytes]

theorem fullBytes_short {q : Bits} (h : q.length < 8) : fullBytes q = [] := by
  have : q.length / 8 = 0 := by omega
  simp [fullBytes, this]

/-- The first group of a sequence that has one is the first byte (R128). -/
theorem fullBytes_long {q : Bits} (h : 8 ≤ q.length) : fullBytes q = byteOf (q.take 8) :: fullBytes (q.drop 8) := by
  have e : q.length / 8 = (q.length - 8) / 8 + 1 := by omega
  simp only [fullBytes, e, List.range_succ_eq_map, List.map_cons, List.map_map, List.length_drop, Nat.mul_zero, List.drop_zero]
  congr 1
  apply List.map_congr_left
  intro k _
  simp only [Function.comp, List.drop_drop]
  congr 3
  omega

/-- A whole group in front is a byte in front. -/
theorem fullBytes_group {g : Bits} (h : g.length = 8) (q : Bits) : fullBytes (g ++ q) = byteOf g :: fullBytes q := by
  rw [fullBytes_long (by simp [h])]
  simp [← h]

theorem leftover_length (q : Bits) : (leftover q).length = q.length % 8 := by
  simp [leftover]; omega

theorem leftover_lt (q : Bits) : (leftover q).length < 8 := by
  rw [leftover_length]; omega

theorem leftover_short {q : Bits} (h : q.length < 8) : leftover q = q := by
  have : q.length / 8 = 0 := by omega
  simp [leftover, this]

theorem leftover_long {q : Bits} (h : 8 ≤ q.length) : leftover q = leftover (q.drop 8) := by
  simp only [leftover, List.length_drop, List.drop_drop]
  congr 1
  omega

theorem leftover_group {g : Bits} (h : g.length = 8) (q : Bits) : leftover (g ++ q) = leftover q := by
  rw [leftover_long (by simp [h])]
  simp [← h]

/-- Draining what is already there first changes neither the bytes nor the rest (R128, R131). -/
theorem fullBytes_append (p q : Bits) : fullBytes (p ++ q) = fullBytes p ++ fullBytes (leftover p ++ q) := by
  induction h : p.length / 8 generalizing p with
  | zero =>
    have hp : p.length < 8 := by omega
    rw [fullBytes_short hp, leftover_short hp, List.nil_append]
  | succ n ih =>
    have hp : 8 ≤ p.length := by omega
    have hd : (p.drop 8).length / 8 = n := by simp; omega
    rw [fullBytes_long (q := p ++ q) (by simp; omega), List.take_append_of_le_length hp, List.drop_append_of_le_length hp, ih _ hd,
      fullBytes_long hp, leftover_long hp, List.cons_append]

theorem leftover_append (p q : Bits) : leftover (p ++ q) = leftover (leftover p ++ q) := by
  induction h : p.length / 8 generalizing p with
  | zero => rw [leftover_short (q := p) (by omega)]
  | succ n ih =>
    have hp : 8 ≤ p.length := by omega
    have hd : (p.drop 8).length / 8 = n := by simp; omega
    rw [leftover_long (q := p ++ q) (by simp; omega), List.drop_append_of_le_length hp, ih _ hd, leftover_long hp]

theorem padLength_lt (n : Nat) : padLength n < 8 := by unfold padLength; omega

theorem padLength_spec (n : Nat) : (n + padLength n) % 8 = 0 := by unfold padLength; omega

@[simp] theorem pack_length (q : Bits) : (pack q).length = (q.length + 7) / 8 := by
  simp [pack, padLength]; omega

/-- Packing is draining and then padding what is left (R129, R131). -/
theorem pack_eq (q : Bits) : pack q = fullBytes q ++ pack (leftover q) := by
  have e : padLength (leftover q).length = padLength q.length := by
    rw [leftover_length]; unfold padLength; omega
  rw [pack, fullBytes_append, pack, e]

theorem pack_nil : pack [] = [] := rfl

/-- One to seven bits are packed as one byte with zeros on the right (R129). -/
theorem pack_short {q : Bits} (h : q ≠ []) (h8 : q.length < 8) : pack q = [paddedByte q] := by
  have h0 : 0 < q.length := List.length_pos_iff.mpr h
  have e : padLength q.length = 8 - q.length := by unfold padLength; omega
  rw [pack, e]
  have := fullBytes_group (g := q ++ List.replicate (8 - q.length) false) (by simp; omega) []
  rw [List.append_nil] at this
  rw [this]
  rfl

/-! ### Tables -/

@[simp] theorem tableGet_tableSet {α : Type} (t : Vector α 256) (v : Byte) (x : α) : tableGet (tableSet t v x) v = x := by
  simp [tableGet, tableSet]

theorem tableGet_tableSet_ne {α : Type} (t : Vector α 256) {u v : Byte} (h : u ≠ v) (x : α) : tableGet (tableSet t v x) u = tableGet t u := by
  have : v.toNat ≠ u.toNat := fun e => h (BitVec.eq_of_toNat_eq e.symm)
  simp [tableGet, tableSet, this]

@[simp] theorem tableGet_zero (v : Byte) : tableGet FreqTable.zero v = 0 := by simp [tableGet, FreqTable.zero]

@[simp] theorem tableGet_empty (v : Byte) : tableGet CodeTable.empty v = [] := by simp [tableGet, CodeTable.empty]

/-- Tables with equal entries are equal. -/
theorem table_ext {α : Type} {t u : Vector α 256} (h : ∀ v : Byte, tableGet t v = tableGet u v) : t = u := by
  apply Vector.ext
  intro i hi
  have := h (BitVec.ofNat 8 i)
  simpa [tableGet, Nat.mod_eq_of_lt hi] using this

end Sys2Proof.Machine
end

