-- ==== Sys2Proof/Laws/State.lean ====
section
/-! SUPPORT. One lemma per field and named update of the state (true by rfl), so that no proof unfolds a record update; and that the updates a command
completes with commute or absorb one another. -/

namespace Sys2Proof.Machine

/-! ### `started` -/

@[simp] theorem started_run (s : State) : s.started.run = .busy := rfl
@[simp] theorem started_result (s : State) : s.started.result = s.result := rfl
@[simp] theorem started_total (s : State) : s.started.total = s.total := rfl
@[simp] theorem started_count (s : State) : s.started.count = s.count := rfl
@[simp] theorem started_emitted (s : State) : s.started.emitted = s.emitted := rfl
@[simp] theorem started_countValid (s : State) : s.started.countValid = s.countValid := rfl
@[simp] theorem started_srcEos (s : State) : s.started.srcEos = s.srcEos := rfl
@[simp] theorem started_bb (s : State) : s.started.bb = s.bb := rfl
@[simp] theorem started_freq (s : State) : s.started.freq = s.freq := rfl
@[simp] theorem started_tree (s : State) : s.started.tree = s.tree := rfl
@[simp] theorem started_code (s : State) : s.started.code = s.code := rfl
@[simp] theorem started_des (s : State) : s.started.des = s.des := rfl
@[simp] theorem started_src (s : State) : s.started.src = s.src := rfl
@[simp] theorem started_snk (s : State) : s.started.snk = s.snk := rfl
@[simp] theorem started_host (s : State) : s.started.host = s.host := rfl
@[simp] theorem started_reads (s : State) : s.started.reads = s.reads := rfl
@[simp] theorem started_free (s : State) : s.started.free = s.free := rfl

/-! ### `completed` -/

@[simp] theorem completed_run (c : ResultCode) (s : State) : (s.completed c).run = .idle := rfl
@[simp] theorem completed_result (c : ResultCode) (s : State) : (s.completed c).result = c := rfl
@[simp] theorem completed_total (c : ResultCode) (s : State) : (s.completed c).total = s.total := rfl
@[simp] theorem completed_count (c : ResultCode) (s : State) : (s.completed c).count = s.count := rfl
@[simp] theorem completed_emitted (c : ResultCode) (s : State) : (s.completed c).emitted = s.emitted := rfl
@[simp] theorem completed_countValid (c : ResultCode) (s : State) : (s.completed c).countValid = s.countValid := rfl
@[simp] theorem completed_srcEos (c : ResultCode) (s : State) : (s.completed c).srcEos = s.srcEos := rfl
@[simp] theorem completed_bb (c : ResultCode) (s : State) : (s.completed c).bb = s.bb := rfl
@[simp] theorem completed_freq (c : ResultCode) (s : State) : (s.completed c).freq = s.freq := rfl
@[simp] theorem completed_tree (c : ResultCode) (s : State) : (s.completed c).tree = s.tree := rfl
@[simp] theorem completed_code (c : ResultCode) (s : State) : (s.completed c).code = s.code := rfl
@[simp] theorem completed_des (c : ResultCode) (s : State) : (s.completed c).des = s.des := rfl
@[simp] theorem completed_src (c : ResultCode) (s : State) : (s.completed c).src = s.src := rfl
@[simp] theorem completed_snk (c : ResultCode) (s : State) : (s.completed c).snk = s.snk := rfl
@[simp] theorem completed_host (c : ResultCode) (s : State) : (s.completed c).host = s.host := rfl
@[simp] theorem completed_reads (c : ResultCode) (s : State) : (s.completed c).reads = s.reads := rfl
@[simp] theorem completed_free (c : ResultCode) (s : State) : (s.completed c).free = s.free := rfl

/-! ### `faulted` -/

@[simp] theorem faulted_run (f : FaultCode) (s : State) : (s.faulted f).run = .fault := rfl
@[simp] theorem faulted_result (f : FaultCode) (s : State) : (s.faulted f).result = .fault f := rfl
@[simp] theorem faulted_total (f : FaultCode) (s : State) : (s.faulted f).total = s.total := rfl
@[simp] theorem faulted_count (f : FaultCode) (s : State) : (s.faulted f).count = s.count := rfl
@[simp] theorem faulted_emitted (f : FaultCode) (s : State) : (s.faulted f).emitted = s.emitted := rfl
@[simp] theorem faulted_countValid (f : FaultCode) (s : State) : (s.faulted f).countValid = s.countValid := rfl
@[simp] theorem faulted_srcEos (f : FaultCode) (s : State) : (s.faulted f).srcEos = s.srcEos := rfl
@[simp] theorem faulted_bb (f : FaultCode) (s : State) : (s.faulted f).bb = s.bb := rfl
@[simp] theorem faulted_freq (f : FaultCode) (s : State) : (s.faulted f).freq = s.freq := rfl
@[simp] theorem faulted_tree (f : FaultCode) (s : State) : (s.faulted f).tree = s.tree := rfl
@[simp] theorem faulted_code (f : FaultCode) (s : State) : (s.faulted f).code = s.code := rfl
@[simp] theorem faulted_des (f : FaultCode) (s : State) : (s.faulted f).des = s.des := rfl
@[simp] theorem faulted_src (f : FaultCode) (s : State) : (s.faulted f).src = s.src := rfl
@[simp] theorem faulted_snk (f : FaultCode) (s : State) : (s.faulted f).snk = s.snk := rfl
@[simp] theorem faulted_host (f : FaultCode) (s : State) : (s.faulted f).host = s.host := rfl
@[simp] theorem faulted_reads (f : FaultCode) (s : State) : (s.faulted f).reads = s.reads := rfl
@[simp] theorem faulted_free (f : FaultCode) (s : State) : (s.faulted f).free = s.free := rfl

/-! ### `released` -/

@[simp] theorem released_run (s : State) : s.released.run = s.run := rfl
@[simp] theorem released_result (s : State) : s.released.result = s.result := rfl
@[simp] theorem released_total (s : State) : s.released.total = s.total := rfl
@[simp] theorem released_count (s : State) : s.released.count = s.count := rfl
@[simp] theorem released_emitted (s : State) : s.released.emitted = s.emitted := rfl
@[simp] theorem released_countValid (s : State) : s.released.countValid = false := rfl
@[simp] theorem released_srcEos (s : State) : s.released.srcEos = s.srcEos := rfl
@[simp] theorem released_bb (s : State) : s.released.bb = [] := rfl
@[simp] theorem released_freq (s : State) : s.released.freq = none := rfl
@[simp] theorem released_tree (s : State) : s.released.tree = none := rfl
@[simp] theorem released_code (s : State) : s.released.code = none := rfl
@[simp] theorem released_des (s : State) : s.released.des = s.des := rfl
@[simp] theorem released_src (s : State) : s.released.src = s.src := rfl
@[simp] theorem released_snk (s : State) : s.released.snk = s.snk := rfl
@[simp] theorem released_host (s : State) : s.released.host = s.host := rfl
@[simp] theorem released_reads (s : State) : s.released.reads = s.reads := rfl
@[simp] theorem released_free (s : State) : s.released.free = s.free := rfl

/-! ### `engineReset` -/

@[simp] theorem engineReset_run (s : State) : s.engineReset.run = .idle := rfl
@[simp] theorem engineReset_result (s : State) : s.engineReset.result = .ok := rfl
@[simp] theorem engineReset_total (s : State) : s.engineReset.total = 0 := rfl
@[simp] theorem engineReset_count (s : State) : s.engineReset.count = 0 := rfl
@[simp] theorem engineReset_emitted (s : State) : s.engineReset.emitted = 0 := rfl
@[simp] theorem engineReset_countValid (s : State) : s.engineReset.countValid = false := rfl
@[simp] theorem engineReset_srcEos (s : State) : s.engineReset.srcEos = false := rfl
@[simp] theorem engineReset_bb (s : State) : s.engineReset.bb = [] := rfl
@[simp] theorem engineReset_freq (s : State) : s.engineReset.freq = none := rfl
@[simp] theorem engineReset_tree (s : State) : s.engineReset.tree = none := rfl
@[simp] theorem engineReset_code (s : State) : s.engineReset.code = none := rfl
@[simp] theorem engineReset_des (s : State) : s.engineReset.des = .idle := rfl
@[simp] theorem engineReset_src (s : State) : s.engineReset.src = s.src := rfl
@[simp] theorem engineReset_snk (s : State) : s.engineReset.snk = s.snk := rfl
@[simp] theorem engineReset_host (s : State) : s.engineReset.host = s.host := rfl
@[simp] theorem engineReset_reads (s : State) : s.engineReset.reads = s.reads := rfl
@[simp] theorem engineReset_free (s : State) : s.engineReset.free = s.free := rfl

/-! ### `hostRead` -/

@[simp] theorem hostRead_run (index : BitVec 3) (s : State) : (hostRead index s).run = s.run := rfl
@[simp] theorem hostRead_result (index : BitVec 3) (s : State) : (hostRead index s).result = s.result := rfl
@[simp] theorem hostRead_total (index : BitVec 3) (s : State) : (hostRead index s).total = s.total := rfl
@[simp] theorem hostRead_count (index : BitVec 3) (s : State) : (hostRead index s).count = s.count := rfl
@[simp] theorem hostRead_emitted (index : BitVec 3) (s : State) : (hostRead index s).emitted = s.emitted := rfl
@[simp] theorem hostRead_countValid (index : BitVec 3) (s : State) : (hostRead index s).countValid = s.countValid := rfl
@[simp] theorem hostRead_srcEos (index : BitVec 3) (s : State) : (hostRead index s).srcEos = s.srcEos := rfl
@[simp] theorem hostRead_bb (index : BitVec 3) (s : State) : (hostRead index s).bb = s.bb := rfl
@[simp] theorem hostRead_freq (index : BitVec 3) (s : State) : (hostRead index s).freq = s.freq := rfl
@[simp] theorem hostRead_tree (index : BitVec 3) (s : State) : (hostRead index s).tree = s.tree := rfl
@[simp] theorem hostRead_code (index : BitVec 3) (s : State) : (hostRead index s).code = s.code := rfl
@[simp] theorem hostRead_des (index : BitVec 3) (s : State) : (hostRead index s).des = s.des := rfl
@[simp] theorem hostRead_src (index : BitVec 3) (s : State) : (hostRead index s).src = s.src := rfl
@[simp] theorem hostRead_snk (index : BitVec 3) (s : State) : (hostRead index s).snk = s.snk := rfl
@[simp] theorem hostRead_host (index : BitVec 3) (s : State) : (hostRead index s).host = s.host := rfl
@[simp] theorem hostRead_reads (index : BitVec 3) (s : State) : (hostRead index s).reads = s.reads ++ [readReg index s] := rfl
@[simp] theorem hostRead_free (index : BitVec 3) (s : State) : (hostRead index s).free = s.free + 1 := rfl

/-! ### Laws between updates -/

@[simp] theorem completed_started (c : ResultCode) (s : State) : s.started.completed c = s.completed c := rfl

@[simp] theorem faulted_started (f : FaultCode) (s : State) : s.started.faulted f = s.faulted f := rfl

@[simp] theorem completed_completed (c d : ResultCode) (s : State) : (s.completed c).completed d = s.completed d := rfl

@[simp] theorem released_released (s : State) : s.released.released = s.released := rfl

theorem released_completed (c : ResultCode) (s : State) : (s.completed c).released = s.released.completed c := rfl

theorem released_started (s : State) : s.started.released = s.released.started := rfl

@[simp] theorem engineReset_engineReset (s : State) : s.engineReset.engineReset = s.engineReset := rfl

/-! ### What a raise leaves -/

@[simp] theorem raised_false_err (e : ErrCode) (s : State) : s.raised false (.err e) = s.completed (.err e) := rfl

@[simp] theorem raised_false_refuse (r : RefuseCode) (s : State) : s.raised false (.refuse r) = s.completed (.refuse r) := rfl

@[simp] theorem raised_true_err (e : ErrCode) (s : State) : s.raised true (.err e) = s.released.completed (.err e) := rfl

@[simp] theorem raised_true_refuse (r : RefuseCode) (s : State) : s.raised true (.refuse r) = s.released.completed (.refuse r) := rfl

@[simp] theorem raised_fault (composite : Bool) (f : FaultCode) (s : State) : s.raised composite (.fault f) = s.faulted f := rfl

@[simp] theorem raised_hang (composite : Bool) (s : State) : s.raised composite .hang = s := rfl

/-! ### Reset -/

@[simp] theorem reset_run : State.reset.run = .idle := rfl
@[simp] theorem reset_result : State.reset.result = .ok := rfl
@[simp] theorem reset_total : State.reset.total = 0 := rfl
@[simp] theorem reset_count : State.reset.count = 0 := rfl
@[simp] theorem reset_emitted : State.reset.emitted = 0 := rfl
@[simp] theorem reset_countValid : State.reset.countValid = false := rfl
@[simp] theorem reset_srcEos : State.reset.srcEos = false := rfl
@[simp] theorem reset_bb : State.reset.bb = [] := rfl
@[simp] theorem reset_freq : State.reset.freq = none := rfl
@[simp] theorem reset_tree : State.reset.tree = none := rfl
@[simp] theorem reset_code : State.reset.code = none := rfl
@[simp] theorem reset_des : State.reset.des = .idle := rfl
@[simp] theorem reset_host : State.reset.host = [] := rfl
@[simp] theorem reset_reads : State.reset.reads = [] := rfl
@[simp] theorem reset_free : State.reset.free = 0 := rfl

end Sys2Proof.Machine
end

