-- ==== Sys2Proof/Laws/Micro.lean ====
section
/-! SUPPORT. How micro-operations run: sequencing, branching and raising, each as an equation on the state it is given, so that no proof unfolds the
monad; and how a command's body becomes the command's outcome. -/

namespace Sys2Proof.Machine

variable {α β : Type}

/-! ### Sequencing -/

@[simp] theorem micro_pure (a : α) (s : State) : (pure a : Micro α) s = .ok a s := rfl

@[simp] theorem micro_get (s : State) : (get : Micro State) s = .ok s s := rfl

@[simp] theorem micro_modify (f : State → State) (s : State) : (modify f : Micro Unit) s = .ok () (f s) := rfl

@[simp] theorem micro_throw (r : Raise) (s : State) : (throw r : Micro α) s = .error r s := rfl

/-- Sequencing: the second part runs from where the first ends, and a raise stops the sequence with its state (R17). -/
theorem micro_bind (m : Micro α) (f : α → Micro β) (s : State) :
    (m >>= f) s = match m s with
      | .ok a t => f a t
      | .error r t => .error r t := by
  show EStateM.bind m f s = _
  unfold EStateM.bind
  cases m s <;> rfl

/-- A sequence whose first part succeeds. -/
theorem micro_bind_ok {m : Micro α} {s t : State} {a : α} (h : m s = .ok a t) (f : α → Micro β) : (m >>= f) s = f a t := by
  rw [micro_bind, h]

/-- A sequence whose first part raises. -/
theorem micro_bind_error {m : Micro α} {s t : State} {r : Raise} (h : m s = .error r t) (f : α → Micro β) : (m >>= f) s = .error r t := by
  rw [micro_bind, h]

@[simp] theorem micro_pure_bind (a : α) (f : α → Micro β) (s : State) : (pure a >>= f) s = f a s := rfl

@[simp] theorem micro_get_bind (f : State → Micro β) (s : State) : ((get : Micro State) >>= f) s = f s s := rfl

@[simp] theorem micro_modify_bind (g : State → State) (f : Unit → Micro β) (s : State) : ((modify g : Micro Unit) >>= f) s = f () (g s) := rfl

@[simp] theorem micro_throw_bind (r : Raise) (f : α → Micro β) (s : State) : ((throw r : Micro α) >>= f) s = .error r s := rfl

/-- A sequence ends well exactly when both parts do. -/
theorem micro_bind_eq_ok {m : Micro α} {f : α → Micro β} {s u : State} {b : β} :
    (m >>= f) s = .ok b u ↔ ∃ a t, m s = .ok a t ∧ f a t = .ok b u := by
  rw [micro_bind]
  cases h : m s with
  | ok a t => simp
  | error r t => simp

/-- A sequence raises when its first part does, or when its second part does after it. -/
theorem micro_bind_eq_error {m : Micro α} {f : α → Micro β} {s u : State} {r : Raise} :
    (m >>= f) s = .error r u ↔ m s = .error r u ∨ ∃ a t, m s = .ok a t ∧ f a t = .error r u := by
  rw [micro_bind]
  cases h : m s with
  | ok a t => simp
  | error r t => simp

theorem micro_ite (p : Prop) [Decidable p] (m n : Micro α) (s : State) : (if p then m else n) s = if p then m s else n s := by
  split <;> rfl

@[simp] theorem needed_some (a : α) (s : State) : needed (some a) s = .ok a s := rfl

@[simp] theorem needed_none (s : State) : needed (none : Option α) s = .error (.refuse .badSequence) s := rfl

theorem onRaise_ok {g : Raise → State → State} {m : Micro α} {s t : State} {a : α} (h : m s = .ok a t) : onRaise g m s = .ok a t := by
  rw [onRaise, h]

theorem onRaise_error {g : Raise → State → State} {m : Micro α} {s t : State} {r : Raise} (h : m s = .error r t) :
    onRaise g m s = .error r (g r t) := by
  rw [onRaise, h]

theorem thenOk_ok {m : Micro Unit} {s t : State} (h : m s = .ok () t) : thenOk m s = .ok .ok t := by
  rw [thenOk, micro_bind_ok h, micro_pure]

theorem thenOk_error {m : Micro Unit} {s t : State} {r : Raise} (h : m s = .error r t) : thenOk m s = .error r t := by
  rw [thenOk, micro_bind_error h]

/-! ### From a body to an outcome -/

theorem accept_idle {s : State} (h : s.run = .idle) (t : State) : accept s t = .next t := by simp [accept, h]

theorem accept_fault {s : State} (h : s.run = .fault) (t : State) : accept s t = .next s := by simp [accept, h]

theorem accept_busy {s : State} (h : s.run = .busy) (t : State) : accept s t = .fault .cmdWhileBusy := by simp [accept, h]

/-- Everything acceptance can do. -/
theorem accept_eq_next {s t u : State} : accept s t = .next u ↔ (s.run = .idle ∧ t = u) ∨ (s.run = .fault ∧ s = u) := by
  unfold accept
  cases h : s.run <;> simp

theorem settle_ok {composite : Bool} {body : Micro ResultCode} {s t : State} {c : ResultCode} (h : body s.started = .ok c t) :
    settle composite body s = t.completed c := by
  rw [settle, h]

theorem settle_error {composite : Bool} {body : Micro ResultCode} {s t : State} {r : Raise} (h : body s.started = .error r t) :
    settle composite body s = t.raised composite r := by
  rw [settle, h]

/-- A primitive command of an idle engine whose operand and flags are accepted. -/
theorem primitive_runs {s : State} (h : s.run = .idle) (body : Micro ResultCode) :
    primitive true true body s = .next (settle false body s) := by
  rw [primitive, accept_idle h]
  rfl

/-- An operand out of range is refused before the flags are looked at (R94, R246). -/
theorem primitive_badOperand {s : State} (h : s.run = .idle) (required : Bool) (body : Micro ResultCode) :
    primitive false required body s = .next (s.completed (.refuse .badOperand)) := by
  rw [primitive, accept_idle h]
  rfl

/-- A missing flag is refused before the pseudocode starts (R94, R246). -/
theorem primitive_badSequence {s : State} (h : s.run = .idle) (body : Micro ResultCode) :
    primitive true false body s = .next (s.completed (.refuse .badSequence)) := by
  rw [primitive, accept_idle h]
  rfl

theorem primitive_fault {s : State} (h : s.run = .fault) (operandOk required : Bool) (body : Micro ResultCode) :
    primitive operandOk required body s = .next s := by
  rw [primitive, accept_fault h]

theorem primitive_busy {s : State} (h : s.run = .busy) (operandOk required : Bool) (body : Micro ResultCode) :
    primitive operandOk required body s = .fault .cmdWhileBusy := by
  rw [primitive, accept_busy h]

/-- Everything a primitive command that answers a next state can do. -/
theorem primitive_cases {operandOk required : Bool} {body : Micro ResultCode} {s t : State} (h : primitive operandOk required body s = .next t) :
    (s.run = .fault ∧ t = s)
    ∨ (s.run = .idle ∧ operandOk = false ∧ t = s.completed (.refuse .badOperand))
    ∨ (s.run = .idle ∧ operandOk = true ∧ required = false ∧ t = s.completed (.refuse .badSequence))
    ∨ (s.run = .idle ∧ operandOk = true ∧ required = true ∧ t = settle false body s) := by
  rw [primitive, accept_eq_next] at h
  obtain ⟨hr, h⟩ | ⟨hr, h⟩ := h
  · cases operandOk <;> cases required <;> simp_all
  · exact .inl ⟨hr, h.symm⟩

/-- A primitive command whose body is a micro-operation that succeeds. -/
theorem primitive_thenOk_ok {m : Micro Unit} {s t : State} (hr : s.run = .idle) (h : m s.started = .ok () t) :
    primitive true true (thenOk m) s = .next (t.completed .ok) := by
  rw [primitive_runs hr, settle_ok (thenOk_ok h)]

/-- A primitive command whose body is a micro-operation that raises. -/
theorem primitive_thenOk_error {m : Micro Unit} {s t : State} {r : Raise} (hr : s.run = .idle) (h : m s.started = .error r t) :
    primitive true true (thenOk m) s = .next (t.raised false r) := by
  rw [primitive_runs hr, settle_error (thenOk_error h)]

/-- A composite command of an idle engine whose steps succeed: Release, then OK. -/
theorem composite_ok {m : Micro Unit} {s t : State} (hr : s.run = .idle) (h : m s.started = .ok () t) :
    composite m s = .next (t.released.completed .ok) := by
  have h' : (do m; modify State.released; pure ResultCode.ok : Micro ResultCode) s.started = .ok .ok t.released := by
    rw [micro_bind_ok h, micro_modify_bind, micro_pure]
  rw [composite, accept_idle hr, settle_ok h']

/-- A composite command of an idle engine whose steps raise. -/
theorem composite_error {m : Micro Unit} {s t : State} {r : Raise} (hr : s.run = .idle) (h : m s.started = .error r t) :
    composite m s = .next (t.raised true r) := by
  have h' : (do m; modify State.released; pure ResultCode.ok : Micro ResultCode) s.started = .error r t := micro_bind_error h _
  rw [composite, accept_idle hr, settle_error h']

theorem composite_fault {s : State} (h : s.run = .fault) (m : Micro Unit) : composite m s = .next s := by
  rw [composite, accept_fault h]

theorem composite_busy {s : State} (h : s.run = .busy) (m : Micro Unit) : composite m s = .fault .cmdWhileBusy := by
  rw [composite, accept_busy h]

end Sys2Proof.Machine
end

