-- ==== Sys2Proof/Laws/Ops.lean ====
section
/-! SUPPORT. For each shared operation, everything it can do, said once: an equation for each way it can go, and for the ports and the drain the
complete case analysis. Callers cite these and never unfold the operation. There is no addressable memory in this machine, so there is no
canonical form of a memory to keep; the buffer's bound is `bbAppendBits_bound`. -/

namespace Sys2Proof.Machine

/-! ### Plans -/

/-- A plan without failures or silences answers again after any of its entries. -/
theorem planOk_drop {p : List PortPlan} (h : PlanOk p) (n : Nat) : PlanOk (p.drop n) := fun a ha => h a (List.mem_of_mem_drop ha)

theorem planOk_take {p : List PortPlan} (h : PlanOk p) (n : Nat) : PlanOk (p.take n) := fun a ha => h a (List.mem_of_mem_take ha)

/-- If the next `n + 1` operations are answered, the next one is, and `n` more after it. -/
theorem planOk_step {p : List PortPlan} {n : Nat} (h : PlanOk (p.take (n + 1))) : PlanOk ((p.drop 1).take n) := by
  cases p with
  | nil => simp [PlanOk]
  | cons a p =>
    intro b hb
    exact h b (by simpa using Or.inr hb)

/-! ### The source -/

/-- SrcRead of a byte (R63). -/
theorem srcRead_byte {s : State} {v : Byte} (h : PlanOk (s.src.plan.take 1)) (hv : s.src.data[s.src.pos]? = some v) :
    srcRead s = .ok (.byte v) { s with src := { s.src with pos := s.src.pos + 1, plan := s.src.plan.drop 1 }, srcEos := false } := by
  unfold srcRead
  rcases hp : s.src.plan with _ | ⟨a, p⟩
  · simp only [srcTake, hv, List.drop_nil]
    rw [← hp]
  · have : a = .answers := h a (by simp [hp])
    subst this
    simp [srcTake, hv]

/-- SrcRead at the source's end (R63, R64). -/
theorem srcRead_eos {s : State} (h : PlanOk (s.src.plan.take 1)) (hv : s.src.data[s.src.pos]? = none) :
    srcRead s = .ok .eos { s with src := { s.src with plan := s.src.plan.drop 1 }, srcEos := true } := by
  unfold srcRead
  rcases hp : s.src.plan with _ | ⟨a, p⟩
  · simp only [srcTake, hv, List.drop_nil]
    rw [← hp]
  · have : a = .answers := h a (by simp [hp])
    subst this
    simp [srcTake, hv]

/-- A failing SrcRead changes neither the position nor SRC_EOS (R63, R67). -/
theorem srcRead_ioErr {s : State} {p : List PortPlan} (h : s.src.plan = .ioErr :: p) :
    srcRead s = .ok .ioErr { s with src := { s.src with plan := p } } := by
  unfold srcRead
  rw [h]

/-- A SrcRead that is never answered (R79). -/
theorem srcRead_never {s : State} {p : List PortPlan} (h : s.src.plan = .never :: p) :
    srcRead s = .error .hang { s with src := { s.src with plan := p } } := by
  unfold srcRead
  rw [h]

/-- The next read is planned in one of four ways, and these are the outcomes: everything SrcRead can do. -/
theorem srcRead_cases (s : State) :
    (∃ v, PlanOk (s.src.plan.take 1) ∧ s.src.data[s.src.pos]? = some v ∧ srcRead s
      = .ok (.byte v) { s with src := { s.src with pos := s.src.pos + 1, plan := s.src.plan.drop 1 }, srcEos := false })
    ∨ (PlanOk (s.src.plan.take 1) ∧ s.src.data[s.src.pos]? = none ∧ srcRead s
      = .ok .eos { s with src := { s.src with plan := s.src.plan.drop 1 }, srcEos := true })
    ∨ (∃ p, s.src.plan = .ioErr :: p ∧ srcRead s = .ok .ioErr { s with src := { s.src with plan := p } })
    ∨ ∃ p, s.src.plan = .never :: p ∧ srcRead s = .error .hang { s with src := { s.src with plan := p } } := by
  rcases hp : s.src.plan with _ | ⟨_ | _ | _, p⟩
  · have h : PlanOk (s.src.plan.take 1) := by simp [hp, PlanOk]
    rw [← hp]
    cases hv : s.src.data[s.src.pos]? with
    | some v => exact .inl ⟨v, h, rfl, srcRead_byte h hv⟩
    | none => exact .inr (.inl ⟨h, rfl, srcRead_eos h hv⟩)
  · have h : PlanOk (s.src.plan.take 1) := by simp [hp, PlanOk]
    rw [← hp]
    cases hv : s.src.data[s.src.pos]? with
    | some v => exact .inl ⟨v, h, rfl, srcRead_byte h hv⟩
    | none => exact .inr (.inl ⟨h, rfl, srcRead_eos h hv⟩)
  · exact .inr (.inr (.inl ⟨p, rfl, srcRead_ioErr hp⟩))
  · exact .inr (.inr (.inr ⟨p, rfl, srcRead_never hp⟩))

/-! ### The rewind -/

@[simp] theorem rewound_pos (a : Source) : a.rewound.pos = 0 := by
  rcases a with ⟨_, _, _, _ | _⟩ <;> rfl

@[simp] theorem rewound_plan (a : Source) : a.rewound.plan = a.plan := by
  rcases a with ⟨_, _, _, _ | _⟩ <;> rfl

/-- The contents of the new pass: the next ones the host presents, or the same ones (R65, R284). -/
@[simp] theorem rewound_data (a : Source) : a.rewound.data = a.rewinds.head?.getD a.data := by
  rcases a with ⟨_, _, _, _ | _⟩ <;> rfl

@[simp] theorem rewound_rewinds (a : Source) : a.rewound.rewinds = a.rewinds.tail := by
  rcases a with ⟨_, _, _, _ | _⟩ <;> rfl

/-- A host that keeps the source constant (H3, R65): a rewind only goes back to the first byte. -/
theorem rewound_constant {a : Source} (h : a.rewinds = []) : a.rewound = { a with pos := 0 } := by
  rcases a with ⟨_, _, _, _ | _⟩
  · rfl
  · cases h

/-- SrcRewind (R65). -/
@[simp] theorem srcRewind_eq (s : State) : srcRewind s = .ok () { s with src := s.src.rewound, srcEos := false } := rfl

theorem readByte_byte {s : State} {v : Byte} (h : PlanOk (s.src.plan.take 1)) (hv : s.src.data[s.src.pos]? = some v) :
    readByte s = .ok (some v) { s with src := { s.src with pos := s.src.pos + 1, plan := s.src.plan.drop 1 }, srcEos := false } := by
  rw [readByte, micro_bind_ok (srcRead_byte h hv)]
  rfl

theorem readByte_eos {s : State} (h : PlanOk (s.src.plan.take 1)) (hv : s.src.data[s.src.pos]? = none) :
    readByte s = .ok none { s with src := { s.src with plan := s.src.plan.drop 1 }, srcEos := true } := by
  rw [readByte, micro_bind_ok (srcRead_eos h hv)]
  rfl

/-- R254: IoErr on a read raises Err(IO_SRC). -/
theorem readByte_ioErr {s : State} {p : List PortPlan} (h : s.src.plan = .ioErr :: p) :
    readByte s = .error (.err .ioSrc) { s with src := { s.src with plan := p } } := by
  rw [readByte, micro_bind_ok (srcRead_ioErr h)]
  rfl

theorem readByte_never {s : State} {p : List PortPlan} (h : s.src.plan = .never :: p) :
    readByte s = .error .hang { s with src := { s.src with plan := p } } := by
  rw [readByte, micro_bind_error (srcRead_never h)]

/-- Everything a read of a byte can do. -/
theorem readByte_cases (s : State) :
    (∃ v, PlanOk (s.src.plan.take 1) ∧ s.src.data[s.src.pos]? = some v ∧ readByte s
      = .ok (some v) { s with src := { s.src with pos := s.src.pos + 1, plan := s.src.plan.drop 1 }, srcEos := false })
    ∨ (PlanOk (s.src.plan.take 1) ∧ s.src.data[s.src.pos]? = none ∧ readByte s
      = .ok none { s with src := { s.src with plan := s.src.plan.drop 1 }, srcEos := true })
    ∨ (∃ p, s.src.plan = .ioErr :: p ∧ readByte s = .error (.err .ioSrc) { s with src := { s.src with plan := p } })
    ∨ ∃ p, s.src.plan = .never :: p ∧ readByte s = .error .hang { s with src := { s.src with plan := p } } := by
  obtain ⟨v, h, hv, _⟩ | ⟨h, hv, _⟩ | ⟨p, hp, _⟩ | ⟨p, hp, _⟩ := srcRead_cases s
  · exact .inl ⟨v, h, hv, readByte_byte h hv⟩
  · exact .inr (.inl ⟨h, hv, readByte_eos h hv⟩)
  · exact .inr (.inr (.inl ⟨p, hp, readByte_ioErr hp⟩))
  · exact .inr (.inr (.inr ⟨p, hp, readByte_never hp⟩))

/-! ### The sink -/

/-- A SnkWrite that is answered without failing (R66), as the write of a byte. -/
theorem writeByte_ok {s : State} (v : Byte) (h : PlanOk (s.snk.plan.take 1)) :
    writeByte v s = .ok () { s with snk := { s.snk with out := s.snk.out ++ [v], plan := s.snk.plan.drop 1 } } := by
  unfold writeByte
  rw [micro_bind]
  unfold snkWrite
  rcases hp : s.snk.plan with _ | ⟨a, p⟩
  · simp only [micro_pure, List.drop_nil]
    rw [← hp]
  · have : a = .answers := h a (by simp [hp])
    subst this
    simp

/-- R254: IoErr on a write raises Err(IO_SNK); the byte is not accepted. -/
theorem writeByte_ioErr {s : State} {p : List PortPlan} (v : Byte) (h : s.snk.plan = .ioErr :: p) :
    writeByte v s = .error (.err .ioSnk) { s with snk := { s.snk with plan := p } } := by
  unfold writeByte
  rw [micro_bind]
  unfold snkWrite
  simp [h]

/-- A write that is never answered leaves its byte in flight (R79, U26). -/
theorem writeByte_never {s : State} {p : List PortPlan} (v : Byte) (h : s.snk.plan = .never :: p) :
    writeByte v s = .error .hang { s with snk := { s.snk with plan := p, inFlight := some v } } := by
  unfold writeByte
  rw [micro_bind]
  unfold snkWrite
  simp [h]

/-- Everything a write of a byte can do. -/
theorem writeByte_cases (v : Byte) (s : State) :
    (PlanOk (s.snk.plan.take 1) ∧ writeByte v s
      = .ok () { s with snk := { s.snk with out := s.snk.out ++ [v], plan := s.snk.plan.drop 1 } })
    ∨ (∃ p, s.snk.plan = .ioErr :: p ∧ writeByte v s = .error (.err .ioSnk) { s with snk := { s.snk with plan := p } })
    ∨ ∃ p, s.snk.plan = .never :: p ∧ writeByte v s = .error .hang { s with snk := { s.snk with plan := p, inFlight := some v } } := by
  rcases hp : s.snk.plan with _ | ⟨_ | _ | _, p⟩
  · exact .inl ⟨by simp [PlanOk], by rw [writeByte_ok v (by simp [hp, PlanOk]), hp]⟩
  · exact .inl ⟨by simp [PlanOk], by rw [writeByte_ok v (by simp [hp, PlanOk]), hp]⟩
  · exact .inr (.inl ⟨p, rfl, writeByte_ioErr v hp⟩)
  · exact .inr (.inr ⟨p, rfl, writeByte_never v hp⟩)

/-! ### The bit buffer -/

/-- BbClear (R121). -/
@[simp] theorem bbClear_eq (s : State) : bbClear s = .ok () { s with bb := [] } := rfl

/-- Appending where there is room (R123). -/
theorem bbAppendBits_ok {s : State} {q : Bits} (h : s.bb.length + q.length ≤ Config.bbCap) :
    bbAppendBits q s = .ok () { s with bb := s.bb ++ q } := by
  unfold bbAppendBits
  rw [if_neg (by omega)]

/-- Appending where there is none appends nothing (R123). -/
theorem bbAppendBits_overflow {s : State} {q : Bits} (h : Config.bbCap < s.bb.length + q.length) :
    bbAppendBits q s = .error (.fault .bbOverflow) s := by
  unfold bbAppendBits
  rw [if_pos h]

/-- Appending never fills the buffer beyond its capacity (R28, R281). -/
theorem bbAppendBits_bound {s t : State} {q : Bits} (h : bbAppendBits q s = .ok () t) : t.bb.length ≤ Config.bbCap := by
  by_cases hq : s.bb.length + q.length ≤ Config.bbCap
  · rw [bbAppendBits_ok hq] at h
    cases h
    simpa using hq
  · rw [bbAppendBits_overflow (by omega)] at h
    cases h

/-- AppendCode of a symbol that has a codeword is an append of it (R125). -/
theorem appendCode_eq {s : State} {c : CodeTable} {v : Byte} (hc : s.code = some c) (hv : tableGet c v ≠ []) :
    appendCode v s = bbAppendBits (tableGet c v) s := by
  unfold appendCode
  simp only [micro_get_bind, hc, micro_bind_ok (needed_some c s)]
  cases h : tableGet c v with
  | nil => exact absurd h hv
  | cons b q => rfl

/-- AppendCode of a symbol without a codeword (R125). -/
theorem appendCode_none {s : State} {c : CodeTable} {v : Byte} (hc : s.code = some c) (hv : tableGet c v = []) :
    appendCode v s = .error (.fault .noCodeword) s := by
  unfold appendCode
  simp only [micro_get_bind, hc, micro_bind_ok (needed_some c s), hv, micro_throw]

theorem bbPeek_ok {s : State} {i : Nat} {b : Bool} (h : s.bb[i]? = some b) : bbPeek i s = .ok b s := by
  unfold bbPeek
  rw [h]

theorem bbPeek_underflow {s : State} {i : Nat} (h : s.bb.length ≤ i) : bbPeek i s = .error (.fault .bbUnderflow) s := by
  unfold bbPeek
  rw [List.getElem?_eq_none h]

theorem bbDrop_ok {s : State} {n : Nat} (h : n ≤ s.bb.length) : bbDrop n s = .ok () { s with bb := s.bb.drop n } := by
  unfold bbDrop
  rw [if_neg (by omega)]

theorem bbDrop_underflow {s : State} {n : Nat} (h : s.bb.length < n) : bbDrop n s = .error (.fault .bbUnderflow) s := by
  unfold bbDrop
  rw [if_pos h]

/-! ### Draining -/

/-- The state after `k` complete groups have left for the sink (R128). -/
def State.drained (k : Nat) (s : State) : State :=
  { s with
    bb := s.bb.drop (8 * k)
    snk := { s.snk with out := s.snk.out ++ (fullBytes s.bb).take k, plan := s.snk.plan.drop k } }

@[simp] theorem drained_zero (s : State) : s.drained 0 = s := by simp [State.drained]

@[simp] theorem drained_bb (k : Nat) (s : State) : (s.drained k).bb = s.bb.drop (8 * k) := rfl

@[simp] theorem drained_out (k : Nat) (s : State) : (s.drained k).snk.out = s.snk.out ++ (fullBytes s.bb).take k := rfl

@[simp] theorem drained_plan (k : Nat) (s : State) : (s.drained k).snk.plan = s.snk.plan.drop k := rfl

/-- One group more. -/
theorem drained_succ {s : State} (h : 8 ≤ s.bb.length) (k : Nat) :
    (s.drained 1).drained k = s.drained (k + 1) := by
  simp only [State.drained, List.drop_drop, fullBytes_long h, List.take_succ_cons, List.take_zero, List.append_assoc, List.singleton_append,
    Nat.mul_one, Nat.mul_add, Nat.add_comm]

/-- A pass of the drain whose write is answered. -/
theorem bbDrainPasses_succ {s : State} (n : Nat) (h : 8 ≤ s.bb.length) (hp : PlanOk (s.snk.plan.take 1)) :
    bbDrainPasses (n + 1) s = bbDrainPasses n (s.drained 1) := by
  rw [bbDrainPasses, micro_get_bind, micro_bind_ok (writeByte_ok _ hp)]
  have hd : (8 : Nat) ≤ ({ s with snk := { s.snk with out := s.snk.out ++ [byteOf (s.bb.take 8)], plan := s.snk.plan.drop 1 } } : State).bb.length := h
  rw [micro_bind_ok (bbDrop_ok hd)]
  simp only [State.drained, fullBytes_long h, List.take_succ_cons, List.take_zero, Nat.mul_one]

/-- Everything the drain's passes can do: the first `k` groups leave, and then all are done, or the next write fails or is never answered. -/
theorem bbDrainPasses_cases (n : Nat) (s : State) (h : 8 * n ≤ s.bb.length) :
    (PlanOk (s.snk.plan.take n) ∧ bbDrainPasses n s = .ok () (s.drained n))
    ∨ (∃ k p, k < n ∧ PlanOk (s.snk.plan.take k) ∧ s.snk.plan.drop k = .ioErr :: p ∧ bbDrainPasses n s
        = .error (.err .ioSnk) { s.drained k with snk := { (s.drained k).snk with plan := p } })
    ∨ ∃ k p v, k < n ∧ PlanOk (s.snk.plan.take k) ∧ s.snk.plan.drop k = .never :: p ∧ (fullBytes s.bb)[k]? = some v ∧ bbDrainPasses n s
        = .error .hang { s.drained k with snk := { (s.drained k).snk with plan := p, inFlight := some v } } := by
  induction n generalizing s with
  | zero => exact .inl ⟨by simp [PlanOk], by rw [drained_zero]; rfl⟩
  | succ n ih =>
    have h8 : 8 ≤ s.bb.length := by omega
    obtain ⟨hp, _⟩ | ⟨p, hp, hw⟩ | ⟨p, hp, hw⟩ := writeByte_cases (byteOf (s.bb.take 8)) s
    · have step := bbDrainPasses_succ n h8 hp
      have more : ∀ k, PlanOk ((s.drained 1).snk.plan.take k) → PlanOk (s.snk.plan.take (k + 1)) := by
        intro k hk
        rcases hs : s.snk.plan with _ | ⟨a, q⟩
        · simp [PlanOk]
        · rw [hs] at hp
          simp only [drained_plan, hs, List.drop_succ_cons, List.drop_zero] at hk
          intro b hb
          rw [List.take_succ_cons, List.mem_cons] at hb
          rcases hb with rfl | hb
          · exact hp _ (by simp)
          · exact hk b hb
      obtain ⟨hk, e⟩ | ⟨k, p, hkn, hk, hd, e⟩ | ⟨k, p, v, hkn, hk, hd, hv, e⟩ := ih (s.drained 1) (by simp; omega)
      · exact .inl ⟨more n hk, by rw [step, e, drained_succ h8]⟩
      · refine .inr (.inl ⟨k + 1, p, by omega, more k hk, by simpa [List.drop_drop, Nat.add_comm] using hd, ?_⟩)
        rw [step, e, drained_succ h8]
      · refine .inr (.inr ⟨k + 1, p, v, by omega, more k hk, by simpa [List.drop_drop, Nat.add_comm] using hd, ?_, ?_⟩)
        · rw [fullBytes_long h8]; simpa using hv
        · rw [step, e, drained_succ h8]
    · refine .inr (.inl ⟨0, p, by omega, by simp [PlanOk], by simpa using hp, ?_⟩)
      rw [bbDrainPasses, micro_get_bind, micro_bind_error hw, drained_zero]
    · refine .inr (.inr ⟨0, p, byteOf (s.bb.take 8), by omega, by simp [PlanOk], by simpa using hp, by simp [fullBytes_long h8], ?_⟩)
      rw [bbDrainPasses, micro_get_bind, micro_bind_error hw, drained_zero]

/-- BbDrain makes one pass for each complete group (R128). -/
theorem bbDrain_eq (s : State) : bbDrain s = bbDrainPasses (s.bb.length / 8) s := rfl

/-- A buffer of fewer than 8 bits has nothing to drain (R128). -/
theorem bbDrain_short {s : State} (h : s.bb.length < 8) : bbDrain s = .ok () s := by
  have e : s.bb.length / 8 = 0 := by omega
  rw [bbDrain_eq, e]
  rfl

/-- A drain that ends well leaves the 0 to 7 bits after the complete groups (R128). -/
theorem bbDrain_ok {s : State} (h : PlanOk (s.snk.plan.take (s.bb.length / 8))) :
    bbDrain s = .ok () { s with
      bb := leftover s.bb
      snk := { s.snk with out := s.snk.out ++ fullBytes s.bb, plan := s.snk.plan.drop (s.bb.length / 8) } } := by
  have all : (fullBytes s.bb).take (s.bb.length / 8) = fullBytes s.bb := List.take_of_length_le (by simp)
  have bad : ∀ k p (a : PortPlan), k < s.bb.length / 8 → s.snk.plan.drop k = a :: p → a = .answers := by
    intro k p a hk hd
    apply h
    have hget : s.snk.plan[k]? = some a := by
      have := congrArg (fun l => l[0]?) hd
      simpa using this
    have hget' : (s.snk.plan.take (s.bb.length / 8))[k]? = some a := by rw [List.getElem?_take_of_lt hk, hget]
    exact List.mem_of_getElem? hget'
  rw [bbDrain_eq]
  obtain ⟨_, e⟩ | ⟨k, p, hk, _, hd, _⟩ | ⟨k, p, _, hk, _, hd, _⟩ := bbDrainPasses_cases (s.bb.length / 8) s (by omega)
  · rw [e]
    simp only [State.drained, all, leftover]
  · exact absurd (bad k p _ hk hd) (by simp)
  · exact absurd (bad k p _ hk hd) (by simp)

/-! ### Flushing -/

/-- The state after the first `k` bytes of the packed buffer have left for the sink (R129). -/
def State.flushed (k : Nat) (s : State) : State :=
  { s with
    bb := s.bb.drop (8 * k)
    snk := { s.snk with out := s.snk.out ++ (pack s.bb).take k, plan := s.snk.plan.drop k } }

/-- As long as only complete groups have left, flushing is draining. -/
theorem flushed_eq_drained {s : State} {k : Nat} (h : k ≤ s.bb.length / 8) : s.flushed k = s.drained k := by
  have e : (pack s.bb).take k = (fullBytes s.bb).take k := by
    rw [pack_eq, List.take_append_of_le_length (by simpa using h)]
  simp only [State.flushed, State.drained, e]

/-- The state a flush that ends well leaves: the buffer is empty and the sink has all of it (R129). -/
theorem flushed_all (s : State) :
    s.flushed (pack s.bb).length
      = { s with bb := [], snk := { s.snk with out := s.snk.out ++ pack s.bb, plan := s.snk.plan.drop (pack s.bb).length } } := by
  have e : s.bb.drop (8 * (pack s.bb).length) = [] := List.drop_eq_nil_of_le (by simp; omega)
  simp only [State.flushed, e, List.take_length]

/-- Everything BbFlush can do (R129): all bytes leave, or the write of one of them fails or is never answered and its bits stay. -/
theorem bbFlush_cases (s : State) :
    (PlanOk (s.snk.plan.take (pack s.bb).length) ∧ bbFlush s = .ok () (s.flushed (pack s.bb).length))
    ∨ (∃ k p, k < (pack s.bb).length ∧ PlanOk (s.snk.plan.take k) ∧ s.snk.plan.drop k = .ioErr :: p ∧ bbFlush s
        = .error (.err .ioSnk) { s.flushed k with snk := { (s.flushed k).snk with plan := p } })
    ∨ ∃ k p v, k < (pack s.bb).length ∧ PlanOk (s.snk.plan.take k) ∧ s.snk.plan.drop k = .never :: p ∧ (pack s.bb)[k]? = some v
        ∧ bbFlush s = .error .hang { s.flushed k with snk := { (s.flushed k).snk with plan := p, inFlight := some v } } := by
  have hle : s.bb.length / 8 ≤ (pack s.bb).length := by simp; omega
  have drain := bbDrainPasses_cases (s.bb.length / 8) s (by omega)
  rw [← bbDrain_eq] at drain
  obtain ⟨hp, e⟩ | ⟨k, p, hk, hp, hd, e⟩ | ⟨k, p, v, hk, hp, hd, hv, e⟩ := drain
  · have ef : bbFlush s = (match (s.drained (s.bb.length / 8)).bb with
        | [] => pure ()
        | b :: bs => do
          writeByte (paddedByte (b :: bs))
          bbDrop (b :: bs).length : Micro Unit) (s.drained (s.bb.length / 8)) := by
      unfold bbFlush
      exact (micro_bind_ok e _).trans rfl
    have el : (s.drained (s.bb.length / 8)).bb = leftover s.bb := rfl
    rw [el] at ef
    cases hl : leftover s.bb with
    | nil =>
      rw [hl] at ef
      have h0 := leftover_length s.bb
      rw [hl, List.length_nil] at h0
      have en : (pack s.bb).length = s.bb.length / 8 := by simp; omega
      exact .inl ⟨by rw [en]; exact hp, by rw [ef, en, flushed_eq_drained (Nat.le_refl _)]; rfl⟩
    | cons b bs =>
      rw [hl] at ef
      have ef : bbFlush s = (do writeByte (paddedByte (b :: bs)); bbDrop (b :: bs).length : Micro Unit) (s.drained (s.bb.length / 8)) := ef
      have h8 := leftover_lt s.bb
      have h0 := leftover_length s.bb
      rw [hl] at h8 h0
      rw [List.length_cons] at h0
      have en : (pack s.bb).length = s.bb.length / 8 + 1 := by simp; omega
      have epk : pack s.bb = fullBytes s.bb ++ [paddedByte (b :: bs)] := by
        rw [pack_eq, hl, pack_short (by simp) h8]
      obtain ⟨hw, ew⟩ | ⟨p, hw, ew⟩ | ⟨p, hw, ew⟩ := writeByte_cases (paddedByte (b :: bs)) (s.drained (s.bb.length / 8))
      · refine .inl ⟨?_, ?_⟩
        · rw [en, List.take_add]
          intro a ha
          rw [List.mem_append] at ha
          rcases ha with ha | ha
          · exact hp a ha
          · exact hw a ha
        · rw [ef, micro_bind_ok ew, bbDrop_ok (by rw [← hl]; exact Nat.le_refl _), flushed_all, en, epk]
          have efull : (fullBytes s.bb).take (s.bb.length / 8) = fullBytes s.bb := List.take_of_length_le (by simp)
          have ed : (s.drained (s.bb.length / 8)).bb.drop (b :: bs).length = [] := by rw [el, hl]; simp
          simp only [ed, drained_out, drained_plan, efull, List.append_assoc, List.drop_drop]
          rfl
      · refine .inr (.inl ⟨s.bb.length / 8, p, by omega, hp, hw, ?_⟩)
        rw [ef, micro_bind_error ew, flushed_eq_drained (Nat.le_refl _)]
      · refine .inr (.inr ⟨s.bb.length / 8, p, paddedByte (b :: bs), by omega, hp, hw, by simp [epk], ?_⟩)
        rw [ef, micro_bind_error ew, flushed_eq_drained (Nat.le_refl _)]
  · refine .inr (.inl ⟨k, p, by omega, hp, hd, ?_⟩)
    rw [bbFlush, micro_bind_error e, flushed_eq_drained (by omega)]
  · refine .inr (.inr ⟨k, p, v, by omega, hp, hd, ?_, ?_⟩)
    · rw [pack_eq, List.getElem?_append_left (by simpa using hk), hv]
    · rw [bbFlush, micro_bind_error e, flushed_eq_drained (by omega)]

/-! ### Filling -/

/-- BbFill on a buffer without room faults before the source is read (R130). -/
theorem bbFill_overflow {s : State} (h : Config.bbCap < s.bb.length + 8) : bbFill s = .error (.fault .bbOverflow) s := by
  unfold bbFill
  rw [micro_get_bind, if_pos h]
  rfl

/-- Everything BbFill can do with room in the buffer (R130). -/
theorem bbFill_cases {s : State} (h : s.bb.length + 8 ≤ Config.bbCap) :
    (∃ v, PlanOk (s.src.plan.take 1) ∧ s.src.data[s.src.pos]? = some v ∧ bbFill s = .ok .filled { s with
        bb := s.bb ++ bits8 v, src := { s.src with pos := s.src.pos + 1, plan := s.src.plan.drop 1 }, srcEos := false })
    ∨ (PlanOk (s.src.plan.take 1) ∧ s.src.data[s.src.pos]? = none ∧ bbFill s
        = .ok .eos { s with src := { s.src with plan := s.src.plan.drop 1 }, srcEos := true })
    ∨ (∃ p, s.src.plan = .ioErr :: p ∧ bbFill s = .error (.err .ioSrc) { s with src := { s.src with plan := p } })
    ∨ ∃ p, s.src.plan = .never :: p ∧ bbFill s = .error .hang { s with src := { s.src with plan := p } } := by
  have hn : ¬ s.bb.length + 8 > Config.bbCap := by omega
  have e : bbFill s = (readByte >>= fun r => match r with
      | none => pure .eos
      | some v => do bbAppendBits (bits8 v); pure .filled) s := by
    unfold bbFill
    exact (micro_get_bind _ _).trans ((congrFun (if_neg hn) s).trans rfl)
  obtain ⟨v, hp, hv, er⟩ | ⟨hp, hv, er⟩ | ⟨p, hp, er⟩ | ⟨p, hp, er⟩ := readByte_cases s
  · refine .inl ⟨v, hp, hv, ?_⟩
    rw [e, micro_bind_ok er]
    exact micro_bind_ok (bbAppendBits_ok (by simpa using h)) _
  · refine .inr (.inl ⟨hp, hv, ?_⟩)
    rw [e, micro_bind_ok er]
    rfl
  · refine .inr (.inr (.inl ⟨p, hp, ?_⟩))
    rw [e, micro_bind_error er]
  · refine .inr (.inr (.inr ⟨p, hp, ?_⟩))
    rw [e, micro_bind_error er]

end Sys2Proof.Machine
end

