-- ==== Sys2Proof/Laws/PerInstr.lean ====
section
/-! SUPPORT. Laws of the instructions as syntax, one lemma per constructor. Family `Carried`: a command's word has the opcode, a zero RSV and the operand in their
fields (R91); a token is carried by 1 or 9 bits, whose first bit tells which (R99). -/

namespace Sys2Proof.Laws

/-- The number a command word is (R91, R95). -/
theorem commandWord_toNat (opc : Byte) (opd : Opd) : (commandWord opc opd).toNat = opc.toNat * 2 ^ 24 + opd.toNat := by
  have h : (commandWord opc opd).toNat = ((opc.toNat <<< 8 ||| (0 : Byte).toNat) <<< 16) ||| opd.toNat := by
    unfold commandWord
    rw [← BitVec.toNat_append, ← BitVec.toNat_append]
  rw [h, ← Nat.shiftLeft_add_eq_or_of_lt opd.isLt]
  simp [Nat.shiftLeft_eq]
  omega

@[simp] theorem opcField_commandWord (opc : Byte) (opd : Opd) : opcField (commandWord opc opd) = opc := by
  apply BitVec.eq_of_toNat_eq
  simp only [opcField, BitVec.extractLsb'_toNat, commandWord_toNat, Nat.shiftRight_eq_div_pow]
  have h1 := opd.isLt
  have h2 := opc.isLt
  omega

@[simp] theorem rsvField_commandWord (opc : Byte) (opd : Opd) : rsvField (commandWord opc opd) = 0 := by
  apply BitVec.eq_of_toNat_eq
  simp only [rsvField, BitVec.extractLsb'_toNat, commandWord_toNat, Nat.shiftRight_eq_div_pow]
  have h1 := opd.isLt
  have h0 : (0 : Byte).toNat = 0 := rfl
  omega

@[simp] theorem opdField_commandWord (opc : Byte) (opd : Opd) : opdField (commandWord opc opd) = opd := by
  apply BitVec.eq_of_toNat_eq
  simp only [opdField, BitVec.extractLsb'_toNat, commandWord_toNat, Nat.shiftRight_eq_div_pow]
  have h1 := opd.isLt
  omega

end Sys2Proof.Laws

namespace Sys2Proof.Laws.Carried

/-- What carries an instruction. -/
def Statement (i : Instr) : Prop :=
  match encode i with
  | .word w => i.isCommand = true ∧ opcodeOf i = some (opcField w) ∧ rsvField w = 0 ∧ opdField w = operandOf i
  | .token q => i.isCommand = false ∧ operandOf i = 0 ∧ (q = [false] ∨ (q.head? = some true ∧ q.length = 9))

/-- A command with an opcode is carried by its word. -/
theorem of_opcode {i : Instr} {opc : Byte} (hc : i.isCommand = true) (h : opcodeOf i = some opc) : Statement i := by
  simp [Statement, encode, h, hc]

theorem nop : Statement .nop := of_opcode rfl rfl

theorem softReset : Statement .softReset := of_opcode rfl rfl

theorem release : Statement .release := of_opcode rfl rfl

theorem bbClear : Statement .bbClear := of_opcode rfl rfl

theorem bbAppendBit (b : Opd) : Statement (.bbAppendBit b) := of_opcode rfl rfl

theorem bbAppendByte (v : Opd) : Statement (.bbAppendByte v) := of_opcode rfl rfl

theorem bbAppendCode (s : Opd) : Statement (.bbAppendCode s) := of_opcode rfl rfl

theorem bbDrop (n : Opd) : Statement (.bbDrop n) := of_opcode rfl rfl

theorem bbDrain : Statement .bbDrain := of_opcode rfl rfl

theorem bbFlush : Statement .bbFlush := of_opcode rfl rfl

theorem bbFill : Statement .bbFill := of_opcode rfl rfl

theorem freqClr : Statement .freqClr := of_opcode rfl rfl

theorem freqInc (s : Opd) : Statement (.freqInc s) := of_opcode rfl rfl

theorem freqScan : Statement .freqScan := of_opcode rfl rfl

theorem treeBuild : Statement .treeBuild := of_opcode rfl rfl

theorem codeGen : Statement .codeGen := of_opcode rfl rfl

theorem treeSer : Statement .treeSer := of_opcode rfl rfl

theorem treeDes : Statement .treeDes := of_opcode rfl rfl

theorem hdrWrite : Statement .hdrWrite := of_opcode rfl rfl

theorem payloadEnc : Statement .payloadEnc := of_opcode rfl rfl

theorem compress : Statement .compress := of_opcode rfl rfl

theorem hdrRead : Statement .hdrRead := of_opcode rfl rfl

theorem decSymbol : Statement .decSymbol := of_opcode rfl rfl

theorem payloadDec : Statement .payloadDec := of_opcode rfl rfl

theorem decompress : Statement .decompress := of_opcode rfl rfl

theorem branch : Statement .branch := by simp [Statement, encode, opcodeOf, tokenBits, operandOf, Instr.isCommand]

theorem leaf (s : Byte) : Statement (.leaf s) := by simp [Statement, encode, opcodeOf, tokenBits, operandOf, Instr.isCommand]

end Sys2Proof.Laws.Carried
end

