-- ==== Sys2Proof/Tests/Slice0.lean ====
section
/-! SUPPORT. The model's own tests. Expected words come from tables R91 to R93 and R99 of spec/30_encoding.md, expected results from spec/95_test_vectors.md
(the section is named at each test). The witnesses at the end show, for every statement that has hypotheses, states and operands that meet them. -/

set_option Elab.async false

namespace Sys2Proof.Tests

open Sys2Proof.Machine

/-! ### Helpers -/

/-- A bit sequence from zeros and ones, head first. -/
def bin (l : List Nat) : Bits := l.map (· == 1)

/-- The next state an outcome holds. -/
def nextOf (o : Outcome) : Option State :=
  match o with
  | .next t => some t
  | .fault _ | .refused _ => none

/-- A view of the state one instruction leads to. -/
def see {α : Type} (i : Instr) (s : State) (f : State → α) : Option α := (nextOf (exec i s)).map f

/-- Just reset, with a buffer. -/
def withBits (l : List Nat) : State := { State.reset with bb := bin l }

/-- Just reset, with a source at position 0. -/
def withSource (data : List Byte) : State := { State.reset with src := { data := data, pos := 0, plan := [] } }

/-- Just reset, with host acts. -/
def withHost (l : List HostAct) : State := { State.reset with host := l }

/-- The tree of "aaab" (95 section 1.1). -/
def treeAB : Tree := .branch 2 (some 4) (.leaf 0 (some 3) 0x61) (.leaf 1 (some 1) 0x62)

/-- The same shape as TreeDes numbers it (95 section 1.1). -/
def treeDesAB : Tree := .branch 0 none (.leaf 1 none 0x61) (.leaf 2 none 0x62)

/-- The frequency table of "aaab". -/
def freqAB : FreqTable := tableSet (tableSet .zero 0x61 3) 0x62 1

/-- After FREQ_SCAN, TREE_BUILD and CODE_GEN of "aaab" (95 program P1). -/
def job : State :=
  { withSource [0x61, 0x61, 0x61, 0x62] with
    total := 4, freq := some freqAB, tree := some treeAB, code := some (codeTable treeAB), srcEos := true
    src := { data := [0x61, 0x61, 0x61, 0x62], pos := 4, plan := [] } }

/-- The serialized tree of "aaab", 19 bits (95 section 1.1). -/
def serAB : List Nat := [0, 1, 0, 1, 1, 0, 0, 0, 0, 1, 1, 0, 1, 1, 0, 0, 0, 1, 0]

/-- The stream of "aaab" (95 section 1.1). -/
def streamAB : List Byte := [0x00, 0x00, 0x00, 0x04, 0x58, 0x6C, 0x40, 0x10]

/-- The source of "aaab" whose second pass reads "aaxb" instead (R194, R284). -/
def changing : State :=
  { withSource [0x61, 0x61, 0x61, 0x62] with
    src := { data := [0x61, 0x61, 0x61, 0x62], pos := 0, plan := [], rewinds := [[0x61, 0x61, 0x78, 0x62]] } }

/-! ### Well-formedness: an ill-formed term for each check -/

theorem test_wellFormed_refuses_bbAppendBit : (Instr.bbAppendBit 2).wellFormed = false := by decide

theorem test_wellFormed_refuses_bbAppendByte : (Instr.bbAppendByte 256).wellFormed = false := by decide

theorem test_wellFormed_refuses_bbAppendCode : (Instr.bbAppendCode 256).wellFormed = false := by decide

theorem test_wellFormed_refuses_freqInc : (Instr.freqInc 0xFFFF).wellFormed = false := by decide

/-- BB_DROP's range is the whole operand field: it has no ill-formed term. -/
theorem test_wellFormed_bbDrop_all : (Instr.bbDrop 0xFFFF).wellFormed = true := by decide

/-! ### Decoding: a word or a token of each constructor, written out from tables R91 to R93 and R99 -/

theorem test_decode_system :
    decodeWord 0b00000000_00000000_0000000000000000#32 = .ok .nop
    ∧ decodeWord 0b00000001_00000000_0000000000000000#32 = .ok .softReset
    ∧ decodeWord 0b00000010_00000000_0000000000000000#32 = .ok .release := by decide

theorem test_decode_bitBuffer :
    decodeWord 0b00010000_00000000_0000000000000000#32 = .ok .bbClear
    ∧ decodeWord 0b00010001_00000000_0000000000000001#32 = .ok (.bbAppendBit 1)
    ∧ decodeWord 0b00010010_00000000_0000000001100001#32 = .ok (.bbAppendByte 0x61)
    ∧ decodeWord 0b00010011_00000000_0000000001100010#32 = .ok (.bbAppendCode 0x62)
    ∧ decodeWord 0b00010100_00000000_1000000000000010#32 = .ok (.bbDrop 0x8002)
    ∧ decodeWord 0b00010101_00000000_0000000000000000#32 = .ok .bbDrain
    ∧ decodeWord 0b00010110_00000000_0000000000000000#32 = .ok .bbFlush
    ∧ decodeWord 0b00010111_00000000_0000000000000000#32 = .ok .bbFill := by decide

theorem test_decode_treeBuilder :
    decodeWord 0b00100000_00000000_0000000000000000#32 = .ok .freqClr
    ∧ decodeWord 0b00100001_00000000_0000000010000001#32 = .ok (.freqInc 0x81)
    ∧ decodeWord 0b00100010_00000000_0000000000000000#32 = .ok .freqScan
    ∧ decodeWord 0b00100011_00000000_0000000000000000#32 = .ok .treeBuild
    ∧ decodeWord 0b00100100_00000000_0000000000000000#32 = .ok .codeGen
    ∧ decodeWord 0b00110000_00000000_0000000000000000#32 = .ok .treeSer
    ∧ decodeWord 0b00110001_00000000_0000000000000000#32 = .ok .treeDes := by decide

theorem test_decode_codec :
    decodeWord 0b01000000_00000000_0000000000000000#32 = .ok .hdrWrite
    ∧ decodeWord 0b01000001_00000000_0000000000000000#32 = .ok .payloadEnc
    ∧ decodeWord 0b01001111_00000000_0000000000000000#32 = .ok .compress
    ∧ decodeWord 0b01010000_00000000_0000000000000000#32 = .ok .hdrRead
    ∧ decodeWord 0b01010001_00000000_0000000000000000#32 = .ok .decSymbol
    ∧ decodeWord 0b01010010_00000000_0000000000000000#32 = .ok .payloadDec
    ∧ decodeWord 0b01011111_00000000_0000000000000000#32 = .ok .decompress := by decide

/-- The symbol 0xB1 = 1011 0001, most significant bit first, told apart from its mirror image. -/
theorem test_decode_tokens :
    decodeToken [false] = .ok .branch
    ∧ decodeToken (bin [1, 1, 0, 1, 1, 0, 0, 0, 1]) = .ok (.leaf 0xB1)
    ∧ decodeToken [true] = .reject .badToken
    ∧ decodeToken (bin [0, 1]) = .reject .badToken := by decide

/-- 95 section 2.1: the refusals made when a word is decoded. -/
theorem test_decode_rejects :
    decodeWord 0x00000001 = .reject .badOperand ∧ decodeWord 0x10000001 = .reject .badOperand
    ∧ decodeWord 0x03000000 = .reject .illegalCmd ∧ decodeWord 0x00010000 = .reject .illegalCmd
    ∧ decodeWord 0xFFFFFFFF = .reject .illegalCmd ∧ decodeWord 0x11000002 = .reject .badOperand
    ∧ decodeWord 0x12000100 = .reject .badOperand ∧ decodeWord 0x21000100 = .reject .badOperand := by decide

/-- The opcode table's own numbering: command words, and the tokens `0` and `1ssssssss`. -/
theorem test_decode_tableWord :
    decodeTableWord 32 0x4F000000 = some .compress ∧ decodeTableWord 8 0 = some .branch ∧ decodeTableWord 16 0x161 = some (.leaf 0x61)
    ∧ decodeTableWord 32 0x03000000 = none := by decide

/-! ### System commands (95 section 2.9, program P5) -/

theorem test_nop : see .nop { State.reset with result := .refuse .badSequence } id = some State.reset := by decide

theorem test_nop_in_fault :
    see .nop { withBits [1] with run := .fault, result := .fault .bbUnderflow } id
      = some { withBits [1] with run := .fault, result := .fault .bbUnderflow } := by decide

theorem test_softReset : see .softReset { withBits [1] with run := .fault, result := .fault .bbUnderflow } id = some State.reset := by decide

theorem test_release :
    see .release { job with bb := bin [0, 1, 0] } (fun t => (statusWord t, t.bb.length, t.total, t.result)) = some (0x100, 0, 4, .ok) := by
  decide +kernel

/-! ### Bit buffer (95 section 2.2) -/

theorem test_bbClear : see .bbClear (withBits [1, 0, 1]) id = some State.reset := by decide

theorem test_bbAppendBit : see (.bbAppendBit 1) (withBits [1, 0]) State.bb = some (bin [1, 0, 1]) := by decide

theorem test_bbAppendBit_full :
    see (.bbAppendBit 0) { State.reset with bb := List.replicate 512 true } (fun t => (t.run, t.result, t.bb.length))
      = some (.fault, .fault .bbOverflow, 512) := by decide +kernel

theorem test_bbAppendByte : see (.bbAppendByte 0x61) (withBits [1]) State.bb = some (bin [1, 0, 1, 1, 0, 0, 0, 0, 1]) := by decide

theorem test_bbAppendByte_full :
    see (.bbAppendByte 0xFF) { State.reset with bb := List.replicate 511 true } (fun t => (t.run, t.result, t.bb.length))
      = some (.fault, .fault .bbOverflow, 511) := by decide +kernel

theorem test_bbAppendCode : see (.bbAppendCode 0x62) { job with bb := [true] } State.bb = some (bin [1, 1]) := by decide +kernel

theorem test_bbAppendCode_none :
    see (.bbAppendCode 0x7A) { job with bb := [true] } (fun t => (t.run, t.result, t.bb)) = some (.fault, .fault .noCodeword, [true]) := by
  decide +kernel

theorem test_bbDrop : see (.bbDrop 2) (withBits [1, 0, 1, 1, 0]) State.bb = some (bin [1, 1, 0]) := by decide

theorem test_bbDrop_underflow :
    see (.bbDrop 6) (withBits [1, 0, 1, 1, 0]) (fun t => (t.run, t.result, t.bb)) = some (.fault, .fault .bbUnderflow, bin [1, 0, 1, 1, 0]) := by
  decide

theorem test_bbDrain : see .bbDrain (withBits serAB) (fun t => (t.bb, t.snk.out)) = some (bin [0, 1, 0], [0x58, 0x6C]) := by decide +kernel

theorem test_bbDrain_ioErr :
    see .bbDrain { withBits serAB with snk := { out := [], plan := [.answers, .ioErr], inFlight := none } }
        (fun t => (t.run, t.result, t.bb, t.snk.out))
      = some (.idle, .err .ioSnk, bin [0, 1, 1, 0, 1, 1, 0, 0, 0, 1, 0], [0x58]) := by decide +kernel

theorem test_bbFlush : see .bbFlush (withBits serAB) (fun t => (t.bb, t.snk.out)) = some ([], [0x58, 0x6C, 0x40]) := by decide +kernel

theorem test_bbFlush_whole :
    see .bbFlush (withBits [0, 1, 0, 1, 1, 0, 0, 0]) (fun t => (t.bb, t.snk.out)) = some ([], [0x58]) := by decide +kernel

theorem test_bbFill :
    see .bbFill { withSource [0x10] with bb := bin [0, 1, 0] } (fun t => (t.bb, t.result, t.srcEos, t.src.pos))
      = some (bin [0, 1, 0, 0, 0, 0, 1, 0, 0, 0, 0], .ok, false, 1) := by decide +kernel

theorem test_bbFill_full :
    see .bbFill { withSource [0x10] with bb := List.replicate 505 true } (fun t => (t.run, t.result, t.src.pos, t.bb.length))
      = some (.fault, .fault .bbOverflow, 0, 505) := by decide +kernel

/-! ### Frequency table, tree and code (95 sections 2.3, 2.4, 2.6, 2.8, programs P1 and P6) -/

theorem test_freqClr :
    see .freqClr job (fun t => (statusWord t, t.total, t.freq.map freqSum)) = some (0x110, 0, some 0) := by decide +kernel

theorem test_freqInc :
    see (.freqInc 0x61) job (fun t => (statusWord t, t.total, t.freq.map (tableGet · 0x61))) = some (0x110, 5, some 4) := by decide +kernel

theorem test_freqInc_last :
    see (.freqInc 0x61) { job with total := 0xFFFFFFFF } (fun t => (t.result, t.total, statusWord t))
      = some (.refuse .inputTooLarge, 0xFFFFFFFF, 0x170) := by decide +kernel

theorem test_freqScan :
    see .freqScan (withSource [0x61, 0x61, 0x61, 0x62]) (fun t => (statusWord t, t.total, t.src.pos)) = some (0x110, 4, 4)
    ∧ see .freqScan (withSource [0x61, 0x61, 0x61, 0x62]) (fun t => t.freq.map fun f => (tableGet f 0x61, tableGet f 0x62, freqSum f))
      = some (some (3, 1, 4)) := by decide +kernel

theorem test_freqScan_ioErr :
    see .freqScan { withSource [0x61, 0x61] with src := { data := [0x61, 0x61], pos := 0, plan := [.answers, .ioErr] } }
        (fun t => (t.result, t.total, statusWord t, t.src.pos))
      = some (.err .ioSrc, 1, 0, 1) := by decide +kernel

/-- "aabbc": a tie broken by index, a branch merged with a leaf. -/
theorem test_treeBuild :
    see .treeBuild { State.reset with freq := some (tableSet (tableSet (tableSet .zero 0x61 2) 0x62 2) 0x63 1), total := 5 } State.tree
      = some (some (.branch 4 (some 5) (.branch 3 (some 3) (.leaf 0 (some 2) 0x61) (.leaf 2 (some 1) 0x63)) (.leaf 1 (some 2) 0x62))) := by
  decide +kernel

/-- FF FF: the synthetic symbol is 0x7F. -/
theorem test_treeBuild_synthetic :
    see .treeBuild { State.reset with freq := some (tableSet .zero 0xFF 2), total := 2 } State.tree
      = some (some (.branch 2 (some 2) (.leaf 0 (some 2) 0xFF) (.leaf 1 (some 0) 0x7F))) := by decide +kernel

theorem test_codeGen :
    see .codeGen { job with code := none } (fun t => t.code.map fun c => (tableGet c 0x61, tableGet c 0x62, tableGet c 0x63))
      = some (some ([false], [true], [])) := by decide +kernel

/-- B(L(a), L(a)): the last leaf in pre-order wins. -/
theorem test_codeGen_repeated :
    see .codeGen { State.reset with tree := some (.branch 0 none (.leaf 1 none 0x61) (.leaf 2 none 0x61)) }
        (fun t => t.code.map fun c => tableGet c 0x61)
      = some (some [true]) := by decide +kernel

/-! ### Tree serializer and deserializer (95 sections 2.5, 2.7, program P2) -/

theorem test_treeSer : see .treeSer job (fun t => (t.bb, t.snk.out)) = some (bin [0, 1, 0], [0x58, 0x6C]) := by decide +kernel

theorem test_treeDes :
    see .treeDes (withSource [0x58, 0x6C, 0x40, 0x10]) (fun t => (t.tree, t.bb, t.src.pos, readReg 7 t))
      = some (some treeDesAB, bin [0, 0, 0, 0, 0], 3, 0x00030000) := by decide +kernel

theorem test_treeDes_singleLeaf :
    see .treeDes (withSource [0xB0, 0x80]) (fun t => (t.tree, t.result, t.run)) = some (none, .err .treeSingleLeaf, .idle) := by decide +kernel

theorem test_branch :
    see .branch { State.reset with run := .busy } State.des
      = some { token := [], stack := [.left 0], next := 1, whole := none } := by decide +kernel

theorem test_leaf :
    see (.leaf 0x62) { State.reset with run := .busy, des := { token := [], stack := [.right 0 (.leaf 1 none 0x61)], next := 2, whole := none } }
        State.des
      = some { token := [], stack := [], next := 3, whole := some treeDesAB } := by decide +kernel

/-! ### Encoder and decoder (95 sections 1.1, 2.6, 2.7, 2.8, program P3) -/

theorem test_hdrWrite : see .hdrWrite { job with total := 500 } (fun t => t.snk.out) = some [0x00, 0x00, 0x01, 0xF4] := by decide +kernel

theorem test_hdrWrite_small :
    see .hdrWrite { job with total := 1 } (fun t => (t.result, t.snk.out)) = some (.err .inputTooSmall, []) := by decide +kernel

theorem test_payloadEnc :
    see .payloadEnc job (fun t => (t.bb, t.snk.out, t.src.pos, t.srcEos)) = some (bin [0, 0, 0, 1], [], 4, true) := by decide +kernel

theorem test_payloadEnc_noCodeword :
    see .payloadEnc { job with src := { data := [0x61, 0x61, 0x78, 0x62], pos := 4, plan := [] } } (fun t => (t.run, t.result, t.bb, t.src.pos))
      = some (.fault, .fault .noCodeword, bin [0, 0], 3) := by decide +kernel

/-- The second part: a second pass that reads "aaxb" faults at its third byte (95 section 2.6, R194), with nothing released (R247). -/
theorem test_compress :
    see .compress (withSource [0x61, 0x61, 0x61, 0x62]) (fun t => (t.snk.out, statusWord t, t.total, t.result))
      = some (streamAB, 0x100, 4, .ok)
    ∧ see .compress changing (fun t => (t.snk.out, t.run, t.result, t.bb))
      = some ([0x00, 0x00, 0x00, 0x04, 0x58, 0x6C, 0x40], .fault, .fault .noCodeword, bin [0, 0])
    ∧ see .compress changing (fun t => (t.src.pos, statusWord t)) = some (3, 0x073) := by decide +kernel

theorem test_compress_writeFails :
    see .compress { withSource [0x61, 0x61, 0x61, 0x62] with snk := { out := [], plan := [.answers, .answers, .ioErr], inFlight := none } }
        (fun t => (t.snk.out, t.result, t.total, statusWord t))
      = some ([0x00, 0x00], .err .ioSnk, 4, 0x100) := by decide +kernel

theorem test_hdrRead :
    see .hdrRead (withSource [0x00, 0x00, 0x01, 0xF4]) (fun t => (t.count, statusWord t, t.src.pos)) = some (500, 0x80, 4) := by decide +kernel

theorem test_hdrRead_truncated :
    see .hdrRead { withSource [0x00, 0x00, 0x00] with count := 7 } (fun t => (t.result, t.count, t.src.pos))
      = some (.err .headerTruncated, 7, 3) := by decide +kernel

theorem test_decSymbol :
    see .decSymbol { withSource [0x10] with tree := some treeDesAB } (fun t => (t.bb, t.snk.out, t.emitted))
      = some (bin [0, 0, 1, 0, 0, 0, 0], [0x61], 1) := by decide +kernel

theorem test_decSymbol_empty :
    see .decSymbol { State.reset with tree := some treeDesAB, emitted := 8 } (fun t => (t.result, t.emitted, t.srcEos))
      = some (.err .payloadEmpty, 8, true) := by decide +kernel

theorem test_payloadDec :
    see .payloadDec { withSource [0x10] with tree := some treeDesAB, count := 4, countValid := true, emitted := 9 }
        (fun t => (t.snk.out, t.emitted, t.bb, statusWord t))
      = some ([0x61, 0x61, 0x61, 0x62], 4, bin [0, 0, 0, 0], 0x1A0) := by decide +kernel

/-- r = "000", b = "001", a = "1": the payload "000 000 00" ends at a branch. -/
theorem test_payloadDec_mid :
    see .payloadDec { withSource [0x00] with
          count := 3, countValid := true
          tree := some (.branch 0 none (.branch 1 none (.branch 2 none (.leaf 3 none 0x72) (.leaf 4 none 0x62)) (.leaf 5 none 0x64)) (.leaf 6 none 0x61)) }
        (fun t => (t.snk.out, t.emitted, t.bb, t.result))
      = some ([0x72, 0x72], 2, bin [0, 0], .err .payloadMid) := by decide +kernel

theorem test_decompress :
    see .decompress (withSource streamAB) (fun t => (t.snk.out, t.count, t.emitted, statusWord t)) = some ([0x61, 0x61, 0x61, 0x62], 4, 4, 0x100) := by
  decide +kernel

theorem test_decompress_oneTooMany :
    see .decompress (withSource [0x00, 0x00, 0x00, 0x09, 0x58, 0x6C, 0x40, 0x10]) (fun t => (t.snk.out.length, t.emitted, t.result, t.bb.length))
      = some (8, 8, .err .payloadEmpty, 0) := by decide +kernel

/-! ### The step -/

/-- 95 program P5: SOFT_RESET with OPD = 1 is ignored in the FAULT state. -/
theorem test_step_fault_ignores :
    (nextOf (step { withHost [.writeReg 0 0x01000001] with run := .fault, result := .fault .bbUnderflow })).map (fun t => (t.run, t.result, t.host))
      = some (.fault, .fault .bbUnderflow, []) := by decide

/-- 95 program P1: TREE_INFO and STATUS after TREE_BUILD of "aaab". -/
theorem test_step_reads :
    (nextOf (step { job with code := none, host := [.readReg 7] })).map State.reads = some [0x00030002]
    ∧ (nextOf (step { job with code := none, host := [.readReg 1] })).map State.reads = some [0x00000130] := by decide +kernel

theorem test_step_runs_tableWord :
    (nextOf (step (State.reset.withFetchWord 32 0x12000061))).map State.bb = some (bin [0, 1, 1, 0, 0, 0, 0, 1])
    ∧ (nextOf (step (State.reset.withFetchWord 16 0x161))).map (fun t => t.des.whole) = some (some (.leaf 0 none 0x61)) := by decide +kernel

/-! ### Witnesses: for each statement with hypotheses, states and operands that meet them, clause by clause -/

/-- A source and a sink whose plans hold one answered operation and then a failing one. -/
def failing : State :=
  { job with
    bb := bin serAB
    src := { data := [0x61, 0x62], pos := 0, plan := [.answers, .ioErr] }
    snk := { out := [], plan := [.answers, .ioErr], inFlight := none } }

/-- A source of one byte whose port is never answered. -/
def silent : State :=
  { job with
    src := { data := [0x61, 0x62], pos := 0, plan := [.never] }
    snk := { out := [], plan := [.never], inFlight := none } }

/-- A BUSY engine. -/
def busy : State := { State.reset with run := .busy }

/-- A BUSY engine that holds the token BRANCH. -/
def busyToken : State := { busy with des := { token := [false], stack := [], next := 0, whole := none } }

theorem witness_EncodeThenDecodeGivesTheInstruction :
    (Instr.bbAppendByte 255).wellFormed = true ∧ (Instr.bbAppendBit 1).wellFormed = true ∧ (Instr.leaf 0xFF).wellFormed = true := by decide

theorem witness_DecodedWordIsItsEncoding : decodeWord 0x120000FF = .ok (.bbAppendByte 0xFF) := by decide

theorem witness_WordDecoderFollowsTheTables :
    rsvField 0x00010000 ≠ 0
    ∧ operandMax (opcField 0x03000000).toNat = none
    ∧ (rsvField 0x00000001 = 0 ∧ operandMax (opcField 0x00000001).toNat = some 0 ∧ 0 < (opdField 0x00000001).toNat)
    ∧ (rsvField 0x11000002 = 0 ∧ operandMax (opcField 0x11000002).toNat = some 1 ∧ 1 < (opdField 0x11000002).toNat)
    ∧ (rsvField 0x120000FF = 0 ∧ operandMax (opcField 0x120000FF).toNat = some 255 ∧ (opdField 0x120000FF).toNat ≤ 255)
    ∧ (rsvField 0x1400FFFF = 0 ∧ operandMax (opcField 0x1400FFFF).toNat = some 65535 ∧ (opdField 0x1400FFFF).toNat ≤ 65535)
    ∧ (operandMax (opcField 0x5F000000).toNat = some 0 ∧ (opdField 0x5F000000).toNat ≤ 0) := by decide

theorem witness_RefusedWordChangesOnlyResult :
    ((withHost [.writeReg 0 0x23000000]).run = .idle ∧ (withHost [.writeReg 0 0x23000000]).host = .writeReg 0 0x23000000 :: [])
    ∧ (rsvField 0x23000000 = 0 ∧ operandMax (opcField 0x23000000).toNat = some 0 ∧ (opdField 0x23000000).toNat ≤ 0)
    ∧ decodeWord 0x23000000 = .ok .treeBuild ∧ Instr.treeBuild.flagsMet (withHost [.writeReg 0 0x23000000]) = false
    ∧ (operandMax (opcField 0x21000100).toNat = some 255 ∧ 255 < (opdField 0x21000100).toNat)
    ∧ operandMax (opcField 0xFF000000).toNat = none := by decide

theorem witness_StepRunsTheDecodedInstruction :
    ((withHost [.writeReg 0 0x24000000]).run = .idle ∧ decodeWord 0x24000000 = .ok .codeGen)
    ∧ (State.reset.run = .idle ∧ decodeTableWord 32 0x24000000 = some .codeGen)
    ∧ (busyToken.run = .busy ∧ decodeToken busyToken.des.token = .ok .branch) := by decide

theorem witness_BytesAndBitsAreInverse : (bin [1, 0, 1, 1, 0, 0, 0, 1]).length = 8 := by decide

theorem witness_StatusRegisterHoldsItsFields :
    heldToken (withHost [.writeReg 1 0xFFFFFFFF]) = none ∧ (withHost [.writeReg 1 0xFFFFFFFF]).host = .writeReg 1 0xFFFFFFFF :: [] := by decide

theorem witness_RegisterReadsReturnTheRegisters :
    ({ job with host := [.readReg 7], bb := List.replicate 512 true } : State).run ≠ .busy
    ∧ (List.replicate 512 true).length ≤ Config.bbCap
    ∧ (job.tree = some treeAB ∧ treeAB.index < 2 ^ 9 ∧ treeAB.size < 2 ^ 10) := by decide +kernel

theorem witness_HostActsLeaveTheEngineAlone :
    (heldToken State.reset = none ∧ State.reset.host = [])
    ∧ ((1 : BitVec 3) ≠ 0 ∧ heldToken (withHost [.writeReg 1 5]) = none)
    ∧ heldToken (withHost [.attachSource [0x61] 1 [] []]) = none
    ∧ heldToken (withHost [.attachSink [.ioErr]]) = none := by decide

theorem witness_HardResetReachesTheResetState :
    (heldToken { busy with host := [.hardReset] } = none ∧ ({ busy with host := [.hardReset] } : State).snk.inFlight = none)
    ∧ (heldToken { busy with host := [.hardReset], snk := { out := [], plan := [], inFlight := some 0x61 } } = none) := by decide

theorem witness_SoftResetReachesTheResetState :
    State.reset.run ≠ .busy ∧ ({ State.reset with run := .fault, result := .fault .bbUnderflow } : State).run ≠ .busy := by decide

/-- A state in the middle of a job meets the invariant. -/
theorem job_inv (host : List HostAct) (bb : Bits) (h : bb.length ≤ 512) : Inv { job with host := host, bb := bb } where
  buffer := h
  freqTotal f hf := by
    cases hf
    show freqSum freqAB = (4 : Count).toNat
    decide +kernel
  treeOk t ht := by
    cases ht
    decide
  codeOk c hc := by
    cases hc
    exact ⟨treeAB, rfl, rfl⟩
  sourcePos := by
    show 4 ≤ 4
    decide
  faultCode := by
    show RunState.idle = .fault ↔ ResultCode.ok.isFault = true
    decide
  noTraversal _ := rfl
  noToken := rfl

theorem witness_EveryStepKeepsTheInvariant :
    Inv { job with host := [.writeReg 0 0x10000000], bb := [true] }
    ∧ step { job with host := [.writeReg 0 0x10000000], bb := [true] } = .next { job with host := [], bb := [] } :=
  ⟨job_inv _ _ (by decide), rfl⟩

theorem witness_NopAndReleaseComplete : State.reset.run = .idle ∧ job.run = .idle := by decide

theorem witness_BbClearEmptiesTheBuffer : (withBits [1, 0, 1]).run = .idle := by decide

theorem witness_BbAppendBitAppendsOrFaults :
    State.reset.run = .idle
    ∧ (List.replicate 511 true).length + 1 ≤ Config.bbCap
    ∧ Config.bbCap < (List.replicate 512 true).length + 1
    ∧ 1 < (2 : Opd).toNat := by decide +kernel

theorem witness_BbAppendByteAppendsOrFaults :
    State.reset.run = .idle
    ∧ (List.replicate 504 true).length + 8 ≤ Config.bbCap
    ∧ Config.bbCap < (List.replicate 505 true).length + 8
    ∧ 255 < (256 : Opd).toNat := by decide +kernel

theorem witness_BbAppendCodeAppendsOrFaults :
    (job.run = .idle ∧ job.code = some (codeTable treeAB))
    ∧ tableGet (codeTable treeAB) 0x63 = []
    ∧ (tableGet (codeTable treeAB) 0x62 ≠ [] ∧ (List.replicate 511 true).length + (tableGet (codeTable treeAB) 0x62).length ≤ Config.bbCap)
    ∧ Config.bbCap < (List.replicate 512 true).length + (tableGet (codeTable treeAB) 0x62).length
    ∧ State.reset.code = none
    ∧ 255 < (256 : Opd).toNat := ⟨⟨rfl, rfl⟩, by decide +kernel⟩

theorem witness_BbDropDropsOrFaults :
    (withBits [1, 0]).run = .idle ∧ (2 : Opd).toNat ≤ (withBits [1, 0]).bb.length ∧ (withBits [1, 0]).bb.length < (3 : Opd).toNat := by decide

theorem witness_BbDrainWritesTheCompleteGroups :
    (withBits serAB).run = .idle ∧ PlanOk ((withBits serAB).snk.plan.take 2)
    ∧ (1 < failing.bb.length / 8 ∧ failing.snk.plan = List.replicate 1 .answers ++ .ioErr :: []) := by decide +kernel

theorem witness_BbFlushWritesAllBits :
    (withBits serAB).run = .idle ∧ PlanOk ((withBits serAB).snk.plan.take 3)
    ∧ (1 < (pack failing.bb).length ∧ failing.snk.plan = List.replicate 1 .answers ++ .ioErr :: []) := by decide +kernel

theorem witness_BbFillAppendsTheNextByte :
    State.reset.run = .idle
    ∧ Config.bbCap < (List.replicate 505 true).length + 8
    ∧ (List.replicate 504 true).length + 8 ≤ Config.bbCap
    ∧ (PlanOk ((withSource [0x10]).src.plan.take 1) ∧ (withSource [0x10]).src.data[0]? = some 0x10)
    ∧ (PlanOk (State.reset.src.plan.take 1) ∧ State.reset.src.data[0]? = none)
    ∧ ({ data := [0x10], pos := 0, plan := [.ioErr] } : Source).plan = .ioErr :: [] := by decide +kernel

/-- The drain, the flush and the fill of the FIFO law all happen. -/
theorem witness_BitsLeaveInTheOrderTheyEntered :
    State.reset.bb = []
    ∧ performAll [.bit true, .seq [false, true], .drain] State.reset = .ok [true, false, true] { State.reset with bb := [true, false, true] }
    ∧ bbFlush { State.reset with bb := [true, false, true] }
        = .ok () { State.reset with bb := [], snk := { out := [0xA0], plan := [], inFlight := none } }
    ∧ ([0x10] : List Byte) <+: (withSource [0x10]).unread
    ∧ performAll (List.replicate 1 .fill) (withSource [0x10])
        = .ok (bits8 0x10) { withSource [0x10] with bb := bits8 0x10, src := { data := [0x10], pos := 1, plan := [] } } :=
  ⟨rfl, rfl, rfl, by decide, rfl⟩

theorem witness_FreqClrMakesTheZeroTable : job.run = .idle := by decide

theorem witness_FreqIncCountsOneByte :
    (job.run = .idle ∧ job.freq = some freqAB)
    ∧ (0xFFFFFFFE : Count).toNat < 2 ^ 32 - 1 ∧ (0xFFFFFFFF : Count).toNat = 2 ^ 32 - 1
    ∧ State.reset.freq = none ∧ 255 < (256 : Opd).toNat ∧ (0x61 : Byte) ≠ 0x62 := ⟨⟨rfl, rfl⟩, by decide +kernel⟩

/-- A source of any length can be attached. -/
theorem longSource (n : Nat) :
    n ≤ (withSource (List.replicate n 0x61)).unread.length ∧ PlanOk ((withSource (List.replicate n 0x61)).src.plan.take n) := by
  simp [withSource, State.unread, PlanOk]

theorem witness_FreqScanCountsTheSource :
    (State.reset.run = .idle ∧ (withSource [0x61, 0x61]).src.pos ≤ (withSource [0x61, 0x61]).src.data.length)
    ∧ ((withSource [0x61, 0x61]).unread.length < 2 ^ 32 ∧ PlanOk ((withSource [0x61, 0x61]).src.plan.take 3))
    ∧ (1 ≤ failing.unread.length ∧ failing.src.plan = List.replicate 1 .answers ++ .ioErr :: []) := by decide +kernel

theorem witness_FreqScanCountsTheSource_tooLarge :
    ∃ s : State, 2 ^ 32 ≤ s.unread.length ∧ PlanOk (s.src.plan.take (2 ^ 32)) := ⟨_, longSource (2 ^ 32)⟩

theorem witness_TreeBuildSucceedsUnlessEmpty :
    (job.run = .idle ∧ job.freq = some freqAB)
    ∧ (freqSum freqAB = job.total.toNat ∧ job.total ≠ 0)
    ∧ ({ job with freq := some .zero, total := 0 } : State).total = 0
    ∧ State.reset.freq = none := ⟨⟨rfl, rfl⟩, by decide +kernel, rfl, rfl⟩

theorem witness_BuiltTreeFollowsTheTable :
    (freqSum freqAB < 2 ^ 32 ∧ buildTree freqAB = some treeAB)
    ∧ (∃ real, real = ((List.range 256).map (BitVec.ofNat 8)).filter (fun v => decide (0 < (tableGet freqAB v).toNat)) ∧ 2 ≤ real.length)
    ∧ (buildTree (tableSet FreqTable.zero 0xFF 2)).isSome = true
    ∧ ∃ real, real = ((List.range 256).map (BitVec.ofNat 8)).filter (fun v => decide (0 < (tableGet (tableSet FreqTable.zero 0xFF 2) v).toNat))
      ∧ real = [0xFF] :=
  ⟨by decide +kernel, ⟨_, rfl, by decide +kernel⟩, by decide +kernel, ⟨_, rfl, by decide +kernel⟩⟩

theorem witness_CodeGenStoresTheLeafPaths : job.run = .idle ∧ job.tree = some treeAB ∧ State.reset.tree = none := by decide +kernel

theorem witness_BuiltCodeIsACompletePrefixCode :
    buildTree freqAB = some treeAB ∧ 0 < (tableGet freqAB 0x61).toNat ∧ tableGet (codeTable treeAB) 0x61 ≠ []
    ∧ tableGet (codeTable treeAB) 0x61 <+: tableGet (codeTable treeAB) 0x61 ∧ 0x63 ∉ treeAB.symbols := by decide +kernel

theorem witness_TreeSerWritesTheSerializedTree :
    (job.run = .idle ∧ job.tree = some treeAB ∧ treeAB.isLeaf = false ∧ job.bb.length + 1 ≤ Config.bbCap ∧ PlanOk (job.snk.plan.take 2))
    ∧ (List.replicate 511 true).length + 1 ≤ Config.bbCap
    ∧ Config.bbCap < (List.replicate 512 true).length + 1
    ∧ (1 < (fullBytes (failing.bb ++ treeAB.ser)).length ∧ failing.snk.plan = List.replicate 1 .answers ++ .ioErr :: [])
    ∧ State.reset.tree = none := by decide +kernel

theorem witness_TreeDesIsTheRecursion : failing.run = .idle ∧ failing.des = .idle := by decide +kernel

theorem witness_TreeDesRebuildsTheSerializedTree :
    (withSource [0x58, 0x6C, 0x40]).run = .idle ∧ treeDesAB.Fits
    ∧ treeDesAB.ser <+: (withSource [0x58, 0x6C, 0x40]).bb ++ bitsOf (withSource [0x58, 0x6C, 0x40]).unread
    ∧ (treeDesAB.ser.length - 0 + 7) / 8 = 3 ∧ PlanOk ((withSource [0x58, 0x6C, 0x40]).src.plan.take 3) := by decide +kernel

/-- A tree of 512 leaves, all of depth 9. -/
def deepFull : Nat → Tree
  | 0 => .leaf 0 none 0
  | n + 1 => .branch 0 none (deepFull n) (deepFull n)

theorem witness_TreeDesRejectsMalformedTrees_depth :
    descent (List.replicate 256 none) <+: (withSource (List.replicate 32 0)).bb ++ bitsOf (withSource (List.replicate 32 0)).unread
    ∧ (List.replicate 256 none : List (Option Tree)).length = Config.depthLimit
    ∧ (List.replicate 256 none : List (Option Tree)).all Option.isNone = true
    ∧ descentSize (List.replicate 256 none) ≤ Config.nodeCap
    ∧ PlanOk ((withSource (List.replicate 32 0)).src.plan.take 32) := by decide +kernel

/-- A comb: `n` branches whose left child is a leaf, and one more branch. -/
def comb (n : Nat) : List (Option Tree) := List.replicate n (some (.leaf 0 none 0x61)) ++ [none]

theorem comb_turn (n k : Nat) (l : Tree) (h : (comb n)[k]? = some (some l)) : k < n ∧ l.height = 0 := by
  rw [comb, List.getElem?_append] at h
  split at h
  · rename_i hk
    rw [List.getElem?_replicate, if_pos (by simpa using hk)] at h
    cases h
    exact ⟨by simpa using hk, rfl⟩
  · have := List.mem_of_getElem? h
    simp at this

/-- The right comb of 256 branches, 511 nodes. -/
def rightComb : List (Option Tree) := comb 255

theorem rightComb_ok : DescentOk rightComb := by
  intro k l h
  obtain ⟨hk, hl⟩ := comb_turn 255 k l h
  show k + 1 + l.height ≤ 255
  omega

theorem witness_TreeDesRejectsMalformedTrees_rightComb :
    rightComb.length = Config.depthLimit ∧ descentSize rightComb = Config.nodeCap ∧ DescentOk rightComb
    ∧ descent rightComb <+: (State.bb { State.reset with bb := descent rightComb }) ++ bitsOf State.reset.unread :=
  ⟨by decide +kernel, by decide +kernel, rightComb_ok, List.prefix_append _ _⟩

theorem witness_TreeDesRejectsMalformedTrees :
    true :: bits8 0x61 <+: (withSource [0xB0, 0x80]).bb ++ bitsOf (withSource [0xB0, 0x80]).unread
    ∧ ((deepFull 9).height ≤ Config.maxDepth ∧ Config.nodeCap < (deepFull 9).size)
    ∧ (treeDesAB.height ≤ Config.maxDepth ∧ [Instr.branch, Instr.leaf 0x61] <+: treeDesAB.tokens ∧ 2 < treeDesAB.tokens.length
      ∧ (withSource [0x58, 0x6C]).bb ++ bitsOf (withSource [0x58, 0x6C]).unread
        = [Instr.branch, Instr.leaf 0x61].flatMap tokenBits ++ true :: bin [0, 1, 1, 0, 0] ∧ (bin [0, 1, 1, 0, 0]).length < 8
      ∧ PlanOk ((withSource [0x58, 0x6C]).src.plan.take 3))
    ∧ ([] <+: treeDesAB.tokens ∧ State.reset.bb ++ bitsOf State.reset.unread = ([] : List Instr).flatMap tokenBits ++ []) := by decide +kernel

theorem witness_TreeDesRejectsMalformedTrees_oversized :
    ((deepFull 9).tokens.take Config.nodeCap).flatMap tokenBits ++ [true]
      <+: (State.bb { State.reset with bb := ((deepFull 9).tokens.take Config.nodeCap).flatMap tokenBits ++ [true] }) ++ bitsOf State.reset.unread :=
  List.prefix_append _ _

theorem witness_TokensGrowTheTraversal :
    (busy.run = .busy ∧ busy.des.stack.length < Config.depthLimit ∧ busy.des.next < Config.nodeCap)
    ∧ Config.depthLimit ≤ (List.replicate 256 (Frame.left 0)).length
    ∧ ((List.replicate 255 (Frame.left 0)).length < Config.depthLimit ∧ Config.nodeCap ≤ 511) := by decide +kernel

theorem witness_TokensRebuildTheWholeTree :
    busy.run = .busy ∧ busy.des = .idle ∧ treeDesAB.height ≤ Config.maxDepth ∧ treeDesAB.size ≤ Config.nodeCap := by decide +kernel

theorem witness_HdrWriteWritesTheTotal :
    (job.run = .idle ∧ job.freq.isSome = true ∧ 2 ≤ job.total.toNat ∧ PlanOk (job.snk.plan.take 4))
    ∧ ({ job with total := 1 } : State).total.toNat < 2
    ∧ (1 < 4 ∧ 2 ≤ failing.total.toNat ∧ failing.snk.plan = List.replicate 1 .answers ++ .ioErr :: [])
    ∧ State.reset.freq = none := by decide +kernel

theorem witness_PayloadEncAppendsTheCodewords :
    (job.run = .idle ∧ job.code = some (codeTable treeAB) ∧ job.src.rewound.data = [0x61, 0x61, 0x61, 0x62] ++ [])
    ∧ ((∀ v ∈ ([0x61, 0x61, 0x61, 0x62] : List Byte).head?, job.bb.length + (tableGet (codeTable treeAB) v).length ≤ Config.bbCap)
      ∧ (∀ v ∈ ([0x61, 0x61, 0x61, 0x62] : List Byte), tableGet (codeTable treeAB) v ≠ [] ∧ (tableGet (codeTable treeAB) v).length ≤ Config.maxDepth)
      ∧ PlanOk (job.snk.plan.take 0) ∧ PlanOk (job.src.plan.take 5))
    ∧ tableGet (codeTable treeAB) 0x78 = []
    ∧ (failing.src.rewound.data = [0x61] ++ [0x62] ∧ failing.src.plan = List.replicate ([0x61] : List Byte).length .answers ++ .ioErr :: [])
    ∧ (PlanOk (failing.src.plan.take 1) ∧ 1 < (fullBytes (failing.bb ++ payloadBits (codeTable treeAB) [0x61])).length
      ∧ failing.snk.plan = List.replicate 1 .answers ++ .ioErr :: [])
    ∧ Config.bbCap < (List.replicate 512 true).length + (tableGet (codeTable treeAB) 0x61).length
    ∧ State.reset.code = none := ⟨⟨rfl, rfl, rfl⟩, by decide +kernel⟩

theorem witness_CompressWritesTheStream :
    (withSource [0x61, 0x61]).run = .idle ∧ (withSource [0x61, 0x61]).src.data = [0x61, 0x61] ∧ (withSource [0x61, 0x61]).src.pos = 0
    ∧ 2 ≤ ([0x61, 0x61] : List Byte).length ∧ ([0x61, 0x61] : List Byte).length < 2 ^ 32
    ∧ PlanOk (withSource [0x61, 0x61]).snk.plan
    ∧ ((withSource [0x61, 0x61]).src.rewound.data = [0x61, 0x61] ∧ PlanOk ((withSource [0x61, 0x61]).src.plan.take 6))
    ∧ (buildTree (freqOf changing.src.data) = some treeAB ∧ changing.src.rewound.data = [0x61, 0x61] ++ 0x78 :: [0x62]
      ∧ (∀ v ∈ ([0x61, 0x61] : List Byte), tableGet (codeTable treeAB) v ≠ []) ∧ tableGet (codeTable treeAB) 0x78 = []
      ∧ PlanOk (changing.src.plan.take 8)) := by decide +kernel

theorem witness_TooSmallInputsAreRejected :
    ({ job with total := 1 } : State).total.toNat < 2 ∧ freqSum (tableSet .zero 0x61 1) = 1
    ∧ (withSource [0x61]).run = .idle ∧ (withSource [0x61]).src.pos ≤ (withSource [0x61]).src.data.length ∧ (withSource [0x61]).unread.length < 2
    ∧ PlanOk ((withSource [0x61]).src.plan.take 2) := by decide +kernel

theorem witness_CompressWritesAPrefixOfTheStream :
    (withSource [0x61, 0x61, 0x61, 0x62]).run = .idle ∧ buildTree (freqOf [0x61, 0x61, 0x61, 0x62]) = some treeAB
    ∧ (nextOf (exec .compress (withSource [0x61, 0x61, 0x61, 0x62]))).isSome = true := by decide +kernel

theorem witness_HdrReadReadsTheCount :
    ((withSource [0, 0, 1, 2]).run = .idle ∧ (withSource [0, 0, 1, 2]).unread = 0 :: 0 :: 1 :: 2 :: [] ∧ PlanOk ((withSource [0, 0, 1, 2]).src.plan.take 4))
    ∧ ((withSource [0, 0, 1]).unread.length < 4 ∧ PlanOk ((withSource [0, 0, 1]).src.plan.take 4))
    ∧ (1 < 4 ∧ 1 ≤ failing.unread.length ∧ failing.src.plan = List.replicate 1 .answers ++ .ioErr :: []) := by decide +kernel

theorem witness_DecSymbolDecodesOneSymbol :
    ({ withSource [0x10] with tree := some treeDesAB } : State).run = .idle ∧ treeDesAB.isLeaf = false
    ∧ min (withSource [0x10]).unread.length ((Config.topUp - 0 + 7) / 8) = 1
    ∧ PlanOk ((withSource [0x10]).src.plan.take 2) ∧ PlanOk ((withSource [0x10]).snk.plan.take 1)
    ∧ walkBits treeDesAB (bitsOf [0x10]) = some (0x61, bin [0, 0, 1, 0, 0, 0, 0])
    ∧ State.reset.bb ++ bitsOf (State.reset.unread.take 0) = []
    ∧ (({ withSource [0x10] with snk := { out := [], plan := [.ioErr], inFlight := none } } : State).snk.plan = .ioErr :: [] ∧ bitsOf [0x10] ≠ [])
    ∧ (failing.tree.isSome = true ∧ 1 ≤ failing.unread.length ∧ failing.bb.length + 8 * 1 < Config.topUp
      ∧ failing.src.plan = List.replicate 1 .answers ++ .ioErr :: [])
    ∧ (bin [0] ≠ [] ∧ walkBits (.branch 0 none (.branch 0 none (.leaf 0 none 0) (.leaf 0 none 1)) (.leaf 0 none 2)) (bin [0]) = none)
    ∧ State.reset.tree = none := by decide +kernel

theorem witness_PayloadDecDecodesCountSymbols :
    ({ withSource [0x10] with tree := some treeDesAB, countValid := true, count := 4 } : State).run = .idle
    ∧ treeDesAB.isLeaf = false ∧ treeDesAB.height ≤ Config.maxDepth
    ∧ (withSource [0x10]).PortsOk
    ∧ decodeUpTo 4 treeDesAB ((withSource [0x10]).bb ++ bitsOf (withSource [0x10]).unread)
      = ([0x61, 0x61, 0x61, 0x62], bin [0, 0, 0, 0], .done)
    ∧ State.reset.count = 0 ∧ State.reset.countValid = false := by decide +kernel

theorem witness_DecompressDecodesTheStream :
    (withSource streamAB).run = .idle ∧ treeAB.Fits ∧ (withSource streamAB).PortsOk
    ∧ (withSource streamAB).unread = bigEndian 4 ++ pack treeAB.ser ++ [0x10]
    ∧ decodeUpTo 4 treeAB (bitsOf [0x10]) = ([0x61, 0x61, 0x61, 0x62], bin [0, 0, 0, 0], .done) := by decide +kernel

theorem witness_DecompressUndoesCompress :
    (withSource [0x61, 0x61]).run = .idle ∧ (withSource [0x61, 0x61]).src.data = [0x61, 0x61] ∧ (withSource [0x61, 0x61]).src.pos = 0
    ∧ (withSource [0x61, 0x61]).src.rewound.data = [0x61, 0x61]
    ∧ 2 ≤ ([0x61, 0x61] : List Byte).length ∧ ([0x61, 0x61] : List Byte).length < 2 ^ 32
    ∧ (withSource [0x61, 0x61]).PortsOk
    ∧ ((withSource streamAB).run = .idle ∧ (withSource streamAB).src.pos = 0 ∧ (withSource streamAB).PortsOk) := by decide +kernel

theorem witness_CompositesEqualTheirPrograms :
    (withSource [0x61, 0x61]).run = .idle ∧ (runOk compressProgram (withSource [0x61, 0x61])).isSome = true
    ∧ (runOk decompressProgram (withSource streamAB)).isSome = true := by decide +kernel

theorem witness_CompositesNeverBreakTheBuffer :
    Inv { job with host := [], bb := [] } ∧ job.run = .idle ∧ (nextOf (exec .compress job)).isSome = true
    ∧ (nextOf (exec .decompress job)).isSome = true
    ∧ (State.reset.src.pos = 0 ∧ State.reset.src.rewound.data = State.reset.src.data) :=
  ⟨job_inv _ _ (by decide), by decide, by decide +kernel, by decide +kernel, by decide⟩

theorem witness_CompositesReleaseTheJob :
    job.run = .idle ∧ see .compress (withSource [0x61]) (fun t => t.run) = some .idle := by decide +kernel

theorem witness_FaultStateAcceptsOnlySoftReset :
    ({ withHost [.writeReg 0 0x01000001] with run := .fault, result := .fault .noCodeword } : State).run = .fault
    ∧ (withHost [.hardReset]).host = .hardReset :: [] ∧ (withHost [.readReg 2]).host = .readReg 2 :: []
    ∧ (0x01000001 : Word) ≠ 0x01000000#32 ∧ Instr.nop.isCommand = true ∧ Instr.nop ≠ .softReset := by decide

theorem witness_EveryOutcomeIsInTheMatrix :
    Instr.bbClear.isCommand = true ∧ Inv { job with host := [], bb := [] } ∧ job.run = .idle
    ∧ exec .bbClear { job with host := [], bb := [] } = .next { job with host := [], bb := [] } ∧ job.run ≠ .busy :=
  ⟨rfl, job_inv _ _ (by decide), rfl, rfl, by decide⟩

theorem witness_EveryCommandEnds : Instr.decompress.isCommand = true ∧ failing.run = .idle ∧ failing.PortsLive := by decide +kernel

theorem witness_UnansweredPortLeavesTheEngineBusy :
    (silent.run = .idle ∧ silent.bb.length + 8 ≤ Config.bbCap ∧ silent.src.plan = .never :: [])
    ∧ (silent.freq.isSome = true ∧ 2 ≤ silent.total.toNat ∧ silent.snk.plan = .never :: [])
    ∧ (see .bbFill silent (fun t => (t.run, t.src.plan, t.snk.inFlight)) = some (.busy, [], none) ∧ silent.src.plan = [] ++ .never :: [])
    ∧ (see .treeSer { silent with snk := { out := [], plan := [.answers, .never, .ioErr], inFlight := none } }
        (fun t => (t.run, t.snk.plan, t.snk.inFlight)) = some (.busy, [.ioErr], some 0x6C))
    ∧ (busy.run = .busy ∧ heldToken busy = none)
    ∧ (heldToken { busy with host := [.writeReg 0 0] } = none ∧ Instr.nop.isCommand = true) := by decide +kernel

theorem witness_PortlessCommandsFrame :
    exec .nop State.reset = .next State.reset
    ∧ exec .freqClr State.reset = .next { State.reset with freq := some .zero }
    ∧ exec .treeBuild State.reset = .next { State.reset with result := .refuse .badSequence }
    ∧ exec .codeGen State.reset = .next { State.reset with result := .refuse .badSequence }
    ∧ exec .release State.reset = .next State.reset
    ∧ exec .branch busy = .next { busy with des := { token := [], stack := [.left 0], next := 1, whole := none } } :=
  ⟨rfl, rfl, rfl, rfl, rfl, rfl⟩

theorem witness_OnePortCommandsFrame :
    exec .bbDrain State.reset = .next State.reset
    ∧ exec .hdrWrite State.reset = .next { State.reset with result := .refuse .badSequence }
    ∧ exec .bbFill State.reset = .next { State.reset with result := .okEos, srcEos := true }
    ∧ exec .hdrRead State.reset = .next { State.reset with result := .err .headerTruncated, srcEos := true }
    ∧ (nextOf (exec .freqScan State.reset)).isSome = true
    ∧ (nextOf (exec .treeDes State.reset)).isSome = true :=
  ⟨rfl, rfl, rfl, rfl, by decide +kernel, by decide +kernel⟩

theorem witness_TwoPortCommandsFrame :
    exec .payloadEnc State.reset = .next { State.reset with result := .refuse .badSequence }
    ∧ exec .decSymbol State.reset = .next { State.reset with result := .refuse .badSequence }
    ∧ (nextOf (exec .compress State.reset)).isSome = true
    ∧ (nextOf (exec .decompress State.reset)).isSome = true :=
  ⟨rfl, rfl, by decide +kernel, by decide +kernel⟩

end Sys2Proof.Tests
end

section
/-! PROOF. Bytes and their 8 bits (R15): what each conversion gives, and that they are inverse. -/

namespace Sys2Proof.Machine

/-! ### Bits of the number a sequence writes -/

/-- The first bit of a sequence is the most significant one of its number. -/
theorem testBit_bitsVal (q : Bits) (k : Nat) (h : k < q.length) : (bitsVal q).testBit k = q[q.length - 1 - k] := by
  induction q with
  | nil => simp at h
  | cons b q ih =>
    have hsplit : (bitsVal (b :: q)).testBit k = if k < q.length then (bitsVal q).testBit k else b.toNat.testBit (k - q.length) := by
      rw [bitsVal, Nat.mul_comm, Nat.testBit_two_pow_mul_add _ (bitsVal_lt q)]
    rw [List.length_cons] at h
    rw [hsplit]
    split
    case isTrue hk =>
      have hpos : (b :: q).length - 1 - k = (q.length - 1 - k) + 1 := by rw [List.length_cons]; omega
      simp only [ih hk, hpos, List.getElem_cons_succ]
    case isFalse hk =>
      have hk : k = q.length := by omega
      cases b <;> simp [hk]

/-! ### One byte -/

theorem bits8_eq_map_range (v : Byte) : bits8 v = (List.range 8).map fun k => v.getLsbD (7 - k) := rfl

@[simp] theorem getElem_bits8 (v : Byte) (k : Nat) (h : k < (bits8 v).length) : (bits8 v)[k] = v.getLsbD (7 - k) := by
  simp only [bits8_eq_map_range, List.getElem_map, List.getElem_range]

/-- 8 bits always fit into their byte. -/
theorem toNat_byteOf {q : Bits} (hq : q.length = 8) : (byteOf q).toNat = bitsVal q := by
  have hlt : bitsVal q < 2 ^ 8 := hq ▸ bitsVal_lt q
  rw [byteOf, BitVec.toNat_ofNat, Nat.mod_eq_of_lt hlt]

theorem getLsbD_byteOf {q : Bits} (hq : q.length = 8) (k : Nat) (hk : k < 8) : (byteOf q).getLsbD k = q[7 - k] := by
  have hbit := testBit_bitsVal q k (by omega)
  simpa only [BitVec.getLsbD, toNat_byteOf hq, hq] using hbit

@[simp] theorem byteOf_bits8 (v : Byte) : byteOf (bits8 v) = v := by
  refine BitVec.eq_of_getLsbD_eq fun k hk => ?_
  rw [getLsbD_byteOf (bits8_length v) k hk, getElem_bits8, Nat.sub_sub_self (by omega)]

theorem bits8_byteOf {q : Bits} (hq : q.length = 8) : bits8 (byteOf q) = q := by
  refine List.ext_getElem (by rw [bits8_length, hq]) fun k _ hk => ?_
  have hback : 7 - (7 - k) = k := by omega
  simp only [getElem_bits8, getLsbD_byteOf hq (7 - k) (by omega), hback]

/-- Settles O7: a byte is determined by its 8 bits, and bit `k` of `byteOf q` is entry `7 - k` of `q`. -/
theorem bytesAndBitsAreInverse : Obligations.BytesAndBitsAreInverse := by
  refine ⟨bits8_eq_map_range, fun b0 b1 b2 b3 b4 b5 b6 b7 => ?weights, byteOf_bits8, fun _ => bits8_byteOf⟩
  case weights =>
    rw [toNat_byteOf rfl]
    simp [bitsVal, Nat.add_assoc]

end Sys2Proof.Machine
end

section
/-! PROOF. Triples of micro-operations: what holds before, what holds after success, what holds at a raise (R17, R245). -/

namespace Sys2Proof.Machine

variable {α β : Type} {P P' : State → Prop} {Q Q' : α → State → Prop} {R : β → State → Prop} {E E' : Raise → State → Prop}

/-- From every state that meets `pre`, `m` ends well in `post` or raises in `exit`. -/
def Triple (pre : State → Prop) (m : Micro α) (post : α → State → Prop) (exit : Raise → State → Prop) : Prop :=
  ∀ s, pre s → match m s with
    | .ok a t => post a t
    | .error r t => exit r t

/-- `m` ends in a state that meets `P` when it starts in one, whether it succeeds or raises. -/
abbrev Keeps (P : State → Prop) (m : Micro α) : Prop := Triple P m (fun _ => P) fun _ => P

theorem Triple.of_ok {m : Micro α} {s t : State} {a : α} (h : Triple P m Q E) (hs : P s) (hm : m s = .ok a t) : Q a t := by
  simpa only [hm] using h s hs

theorem Triple.of_error {m : Micro α} {s t : State} {r : Raise} (h : Triple P m Q E) (hs : P s) (hm : m s = .error r t) : E r t := by
  simpa only [hm] using h s hs

theorem Triple.mono {m : Micro α} (h : Triple P m Q E) (hP : ∀ s, P' s → P s) (hQ : ∀ a s, Q a s → Q' a s)
    (hE : ∀ r s, E r s → E' r s) : Triple P' m Q' E' := by
  intro s hs
  cases hm : m s with
  | ok a t => exact hQ a t (h.of_ok (hP s hs) hm)
  | error r t => exact hE r t (h.of_error (hP s hs) hm)

/-- More is known before than the triple needs. -/
theorem Triple.pre {m : Micro α} (h : Triple P m Q E) (hP : ∀ s, P' s → P s) : Triple P' m Q E :=
  fun s hs => h s (hP s hs)

theorem triple_pure {a : α} (h : ∀ s, P s → Q a s) : Triple P (pure a) Q E := h

theorem triple_throw {r : Raise} (h : ∀ s, P s → E r s) : Triple P (throw r : Micro α) Q E := h

theorem triple_modify {f : State → State} {Q : Unit → State → Prop} (h : ∀ s, P s → Q () (f s)) :
    Triple P (modify f : Micro Unit) Q E := h

theorem Triple.bind {m : Micro α} {f : α → Micro β} (hm : Triple P m Q E) (hf : ∀ a, Triple (Q a) (f a) R E) :
    Triple P (m >>= f) R E := by
  intro s hs
  cases h : m s with
  | ok a t => rw [micro_bind_ok h]; exact hf a t (hm.of_ok hs h)
  | error r t => rw [micro_bind_error h]; exact hm.of_error hs h

/-- What is read from the state is known of the state it is read from. -/
theorem triple_get_bind {f : State → Micro α} (h : ∀ u, Triple (fun s => s = u ∧ P s) (f u) Q E) :
    Triple P ((get : Micro State) >>= f) Q E :=
  fun s hs => h s s ⟨rfl, hs⟩

theorem triple_ite {c : Prop} [Decidable c] {m n : Micro α} (hm : c → Triple P m Q E) (hn : ¬ c → Triple P n Q E) :
    Triple P (if c then m else n) Q E := by
  split
  case isTrue h => exact hm h
  case isFalse h => exact hn h

/-- A table that is needed holds the value its command works with, or refuses the command (R30). -/
theorem triple_needed_bind {x : Option α} {f : α → Micro β} (hnone : x = none → ∀ s, P s → E (.refuse .badSequence) s)
    (hsome : ∀ a, x = some a → Triple P (f a) R E) : Triple P (needed x >>= f) R E := by
  cases x with
  | none => exact hnone rfl
  | some a => exact hsome a rfl

theorem Triple.onRaise {m : Micro α} {g : Raise → State → State} (h : Triple P m Q E) (hg : ∀ r s, E r s → E' r (g r s)) :
    Triple P (onRaise g m) Q E' := by
  intro s hs
  cases hm : m s with
  | ok a t => rw [onRaise_ok hm]; exact h.of_ok hs hm
  | error r t => rw [onRaise_error hm]; exact hg r t (h.of_error hs hm)

/-! ### What keeps a predicate -/

theorem keeps_pure (a : α) : Keeps P (pure a) := triple_pure fun _ hs => hs

theorem keeps_throw (r : Raise) : Keeps P (throw r : Micro α) := triple_throw fun _ hs => hs

theorem Keeps.bind {m : Micro α} {f : α → Micro β} (hm : Keeps P m) (hf : ∀ a, Keeps P (f a)) : Keeps P (m >>= f) :=
  Triple.bind hm hf

theorem keeps_get_bind {f : State → Micro α} (h : ∀ u, Keeps P (f u)) : Keeps P ((get : Micro State) >>= f) :=
  fun s hs => h s s hs

theorem keeps_ite {c : Prop} [Decidable c] {m n : Micro α} (hm : Keeps P m) (hn : Keeps P n) : Keeps P (if c then m else n) :=
  triple_ite (fun _ => hm) fun _ => hn

theorem keeps_needed (x : Option α) : Keeps P (needed x) := by
  cases x with
  | none => exact keeps_throw _
  | some a => exact keeps_pure a

end Sys2Proof.Machine
end

section
/-! PROOF. The trees the engine can hold meet R38: the facts of every full tree, the trees TreeBuild makes (R145 to R150), and the traversal
of TreeDes (R42, R173). -/

namespace Sys2Proof.Machine

/-! ### Full trees -/

theorem Tree.length_indices (t : Tree) : t.indices.length = t.size := by
  induction t with
  | leaf => rfl
  | branch i w l r ihl ihr => simp only [indices, size, List.length_cons, List.length_append, ihl, ihr]

/-- Every branch on the longest path has a second child, so a full tree has more than two nodes for each level. -/
theorem Tree.two_mul_height_lt_size (t : Tree) : 2 * t.height < t.size := by
  induction t with
  | leaf => exact Nat.one_pos
  | branch i w l r ihl ihr => simp only [height, size]; omega

theorem Tree.size_eq_of_indices {t : Tree} {n : Nat} (h : t.indices.Perm (List.range n)) : t.size = n := by
  rw [← t.length_indices, h.length_eq, List.length_range]

/-- In a tree of at most NODE_CAP nodes every depth is valid (R38 (b)). -/
theorem Tree.height_le_maxDepth {t : Tree} (h : t.size ≤ Config.nodeCap) : t.height ≤ Config.maxDepth := by
  have hlt := t.two_mul_height_lt_size
  simp only [Config.nodeCap, Config.maxDepth] at h ⊢
  omega

/-! ### The leaves and the merge loop of TreeBuild -/

/-- The indices of all nodes under a live set. -/
def liveIndices (live : List Live) : List Nat := live.flatMap fun a => a.node.indices

@[simp] theorem liveIndices_nil : liveIndices [] = [] := rfl

@[simp] theorem liveIndices_cons (a : Live) (live : List Live) : liveIndices (a :: live) = a.node.indices ++ liveIndices live := rfl

theorem liveIndices_perm {live live' : List Live} (h : live.Perm live') : (liveIndices live).Perm (liveIndices live') :=
  h.flatMap_right _

theorem takeLowest_eq_none {live : List Live} (h : takeLowest live = none) : live = [] := by
  cases live with
  | nil => rfl
  | cons a rest =>
    rw [takeLowest] at h
    split at h
    · cases h
    · split at h <;> cases h

theorem takeLowest_perm {live rest : List Live} {m : Live} (h : takeLowest live = some (m, rest)) : live.Perm (m :: rest) := by
  induction live generalizing m rest with
  | nil => cases h
  | cons a others ih =>
    rw [takeLowest] at h
    split at h
    next hlow =>
      cases h
      rw [takeLowest_eq_none hlow]
    next hlow =>
      have hperm := (ih hlow).cons a
      split at h
      · cases h; exact hperm
      · cases h; exact hperm.trans (.swap ..)

/-- A live set whose next free index is `n`: its nodes use the entries 0 to `n` - 1 of NODE, each once; the merges still to come keep to NODE_CAP
entries; and a node that stands alone is a branch at the last entry. -/
structure LiveOk (n : Nat) (live : List Live) : Prop where
  indices : (liveIndices live).Perm (List.range n)
  room : n + live.length ≤ Config.nodeCap + 1
  root : ∀ m, live = [m] → m.node.isLeaf = false ∧ m.node.index + 1 = n

/-- A merge keeps it: two nodes leave, the branch over them comes in at index `n` (R147). -/
theorem LiveOk.merge {n : Nat} {live rest : List Live} {m1 m2 : Live} (h : LiveOk n live) (hperm : live.Perm (m1 :: m2 :: rest)) :
    LiveOk (n + 1) (mergeNodes n m1 m2 :: rest) where
  indices := by
    have hall : (n :: liveIndices (m2 :: m1 :: rest)).Perm (n :: List.range n) :=
      ((liveIndices_perm (hperm.trans (.swap ..))).symm.trans h.indices).cons n
    rw [List.range_succ]
    simpa [mergeNodes, Tree.indices] using hall.trans (List.perm_append_singleton n _).symm
  room := by
    have hroom := h.room
    rw [hperm.length_eq] at hroom
    simp only [List.length_cons] at hroom ⊢
    omega
  root m hm := by
    cases hm
    exact ⟨rfl, rfl⟩

/-- The node that remains is the root of a tree that meets R38, at the last entry (R29, R150). -/
theorem mergePasses_ok {fuel n : Nat} {live : List Live} {m : Live} (h : LiveOk n live) (hm : mergePasses fuel n live = some m) :
    m.node.Ok ∧ m.node.index + 1 = m.node.size := by
  induction fuel generalizing n live with
  | zero => cases hm
  | succ fuel ih =>
    rw [mergePasses] at hm
    split at hm
    next => cases hm
    next m1 rest hlow =>
      have hperm := takeLowest_perm hlow
      split at hm
      next hlast =>
        cases hm
        rw [takeLowest_eq_none hlast, List.perm_singleton] at hperm
        subst hperm
        obtain ⟨hbranch, hindex⟩ := h.root m rfl
        have hroom := h.room
        have hind : m.node.indices.Perm (List.range n) := by simpa using h.indices
        have hsize : m.node.size = n := Tree.size_eq_of_indices hind
        have hcap : m.node.size ≤ Config.nodeCap := by rw [hsize]; simpa using hroom
        rw [← hsize] at hind hindex
        exact ⟨⟨⟨hbranch, Tree.height_le_maxDepth hcap, hcap⟩, hind, .inr hindex⟩, hindex⟩
      next m2 others hlow2 => exact ih (h.merge (hperm.trans ((takeLowest_perm hlow2).cons m1))) hm

theorem makeLeaves_isLeaf (sym n : Nat) (cs : List Count) : ∀ a ∈ makeLeaves sym n cs, a.node.isLeaf = true := by
  induction cs generalizing sym n with
  | nil => simp [makeLeaves]
  | cons c cs ih =>
    rw [makeLeaves]
    split
    · simpa [Tree.isLeaf] using ih (sym + 1) (n + 1)
    · exact ih (sym + 1) n

/-- The leaves stand at consecutive indices (R145). -/
theorem liveIndices_makeLeaves (sym n : Nat) (cs : List Count) :
    liveIndices (makeLeaves sym n cs) = List.range' n (makeLeaves sym n cs).length := by
  induction cs generalizing sym n with
  | nil => rfl
  | cons c cs ih =>
    rw [makeLeaves]
    split
    · rw [liveIndices_cons, ih, List.length_cons, List.range'_succ]
      rfl
    · exact ih (sym + 1) n

theorem length_makeLeaves_le (sym n : Nat) (cs : List Count) : (makeLeaves sym n cs).length ≤ cs.length := by
  induction cs generalizing sym n with
  | nil => exact Nat.le_refl _
  | cons c cs ih =>
    rw [makeLeaves]
    split
    · exact Nat.succ_le_succ (ih (sym + 1) (n + 1))
    · exact Nat.le_succ_of_le (ih (sym + 1) n)

/-- A single leaf at index 0 gets the synthetic one at index 1, any other live set stays (R146). -/
theorem addSynthetic_ok {live : List Live} (hleaf : ∀ a ∈ live, a.node.isLeaf = true) (hind : liveIndices live = List.range live.length)
    (hlen : live.length ≤ 256) : LiveOk (addSynthetic live).length (addSynthetic live) := by
  match live, hleaf, hind, hlen with
  | [], _, _, _ => exact ⟨.refl _, by decide, by simp [addSynthetic]⟩
  | [⟨w, .branch i c l r⟩], hleaf, _, _ => simp [Tree.isLeaf] at hleaf
  | [⟨w, .leaf i c v⟩], _, hind, _ =>
    have hi : i = 0 := by simpa [Tree.indices] using hind
    subst hi
    exact ⟨.refl _, by simp [addSynthetic, Config.nodeCap], by simp [addSynthetic]⟩
  | a :: b :: rest, _, hind, hlen =>
    refine ⟨by simp [addSynthetic, hind], ?_, by simp [addSynthetic]⟩
    simp only [addSynthetic, Config.nodeCap]
    omega

theorem initialLive_ok (f : FreqTable) : LiveOk (initialLive f).length (initialLive f) :=
  addSynthetic_ok (makeLeaves_isLeaf 0 0 _) (by rw [liveIndices_makeLeaves, List.range_eq_range'])
    (by simpa using length_makeLeaves_le 0 0 f.toList)

/-- A built tree meets R38, with ROOT at the last entry. -/
theorem buildTree_ok {f : FreqTable} {t : Tree} (h : buildTree f = some t) : t.Ok ∧ t.index + 1 = t.size := by
  obtain ⟨m, hm, rfl⟩ := Option.map_eq_some_iff.mp h
  exact mergePasses_ok (initialLive_ok f) hm

/-! ### The traversal of TreeDes -/

def Frame.index : Frame → Nat
  | .left i => i
  | .right i _ => i

/-- The indices of the open branch and of its left subtree, once that is read. -/
def Frame.indices : Frame → List Nat
  | .left i => [i]
  | .right i l => i :: l.indices

/-- The left subtree of an open branch at depth `depth` keeps to the valid depths (R174). -/
def Frame.FitsAt (depth : Nat) : Frame → Prop
  | .left _ => True
  | .right _ l => depth + 1 + l.height ≤ Config.maxDepth

/-- Every left subtree on the stack keeps to the valid depths; the depth of an open branch is the number of branches under it. -/
def StackFits : List Frame → Prop
  | [] => True
  | fr :: stack => fr.FitsAt stack.length ∧ StackFits stack

def stackIndices (stack : List Frame) : List Nat := stack.flatMap Frame.indices

/-- The root's index: the bottom open branch's, or `j` when no branch is open. -/
def rootIndex (j : Nat) (stack : List Frame) : Nat := stack.foldl (fun _ fr => fr.index) j

@[simp] theorem stackIndices_nil : stackIndices [] = [] := rfl

@[simp] theorem stackIndices_cons (fr : Frame) (stack : List Frame) : stackIndices (fr :: stack) = fr.indices ++ stackIndices stack := rfl

@[simp] theorem rootIndex_nil (j : Nat) : rootIndex j [] = j := rfl

@[simp] theorem rootIndex_cons (j : Nat) (fr : Frame) (stack : List Frame) : rootIndex j (fr :: stack) = rootIndex fr.index stack := rfl

/-- Closing branches loses no index and makes none. -/
theorem plug_indices (t : Tree) (stack : List Frame) :
    ((plug t stack).2.toList.flatMap Tree.indices ++ stackIndices (plug t stack).1).Perm (t.indices ++ stackIndices stack) := by
  induction stack generalizing t with
  | nil => simp [plug]
  | cons fr stack ih =>
    cases fr with
    | left i => simpa [plug, Frame.indices] using List.perm_middle.symm
    | right i l =>
      refine (ih (.branch i none l t)).trans ?_
      simp only [Tree.indices, stackIndices_cons, Frame.indices, List.cons_append, List.append_assoc]
      refine (List.Perm.cons i ?_).trans List.perm_middle.symm
      rw [← List.append_assoc, ← List.append_assoc]
      exact List.perm_append_comm.append_right _

theorem plug_rootIndex (t : Tree) (stack : List Frame) (j : Nat) :
    rootIndex ((plug t stack).2.elim j Tree.index) (plug t stack).1 = rootIndex t.index stack := by
  induction stack generalizing t with
  | nil => rfl
  | cons fr stack ih =>
    cases fr with
    | left i => rfl
    | right i l => exact ih (.branch i none l t)

/-- The whole tree leaves no branch open. -/
theorem plug_whole {t u : Tree} {stack : List Frame} (h : (plug t stack).2 = some u) : (plug t stack).1 = [] := by
  induction stack generalizing t with
  | nil => rfl
  | cons fr stack ih =>
    cases fr with
    | left i => cases h
    | right i l => exact ih h

/-- A subtree that keeps to the valid depths in its place leads to a stack and a whole tree that do. -/
theorem plug_fits {t : Tree} {stack : List Frame} (hs : StackFits stack) (ht : stack.length + t.height ≤ Config.maxDepth) :
    StackFits (plug t stack).1 ∧ ∀ u, (plug t stack).2 = some u → u.height ≤ Config.maxDepth := by
  induction stack generalizing t with
  | nil => simpa [plug, StackFits] using ht
  | cons fr stack ih =>
    obtain ⟨hfr, hs⟩ := hs
    rw [List.length_cons] at ht
    cases fr with
    | left i => exact ⟨⟨ht, hs⟩, nofun⟩
    | right i l =>
      have hl : stack.length + 1 + l.height ≤ Config.maxDepth := hfr
      exact ih hs (by simp only [Tree.height]; omega)

/-- A traversal that has given out the entries 0 to `next` - 1 of NODE, each once, with entry 0 at the root, valid depths, and no branch open
once the tree is whole. -/
structure Traversal.Ok (d : Traversal) : Prop where
  indices : (d.whole.toList.flatMap Tree.indices ++ stackIndices d.stack).Perm (List.range d.next)
  root : rootIndex (d.whole.elim d.next Tree.index) d.stack = 0
  depths : StackFits d.stack ∧ ∀ t, d.whole = some t → t.height ≤ Config.maxDepth
  room : d.next ≤ Config.nodeCap
  closed : ∀ t, d.whole = some t → d.stack = []

theorem Traversal.idle_ok : Traversal.idle.Ok where
  indices := .refl _
  root := rfl
  depths := ⟨trivial, nofun⟩
  room := Nat.zero_le _
  closed := nofun

/-- The token bits read so far play no part. -/
theorem Traversal.Ok.withToken {d : Traversal} (h : d.Ok) (q : Bits) : Traversal.Ok { d with token := q } :=
  ⟨h.indices, h.root, h.depths, h.room, h.closed⟩

theorem Traversal.Ok.openBranch {d : Traversal} (h : d.Ok) (hw : d.whole = none) (hn : d.next < Config.nodeCap) : d.openBranch.Ok where
  indices := by
    have hind : (stackIndices d.stack).Perm (List.range d.next) := by simpa [hw] using h.indices
    simpa [Traversal.openBranch, Frame.indices, List.range_succ] using (hind.cons d.next).trans (List.perm_append_singleton ..).symm
  root := by
    have hroot : rootIndex d.next d.stack = 0 := by simpa [hw] using h.root
    exact hroot
  depths := ⟨⟨trivial, h.depths.1⟩, nofun⟩
  room := hn
  closed := nofun

theorem Traversal.Ok.addLeaf {d : Traversal} (h : d.Ok) (hw : d.whole = none) (hn : d.next < Config.nodeCap)
    (hd : d.stack.length < Config.depthLimit) (v : Byte) : (d.addLeaf v).Ok where
  indices := by
    have hind : (stackIndices d.stack).Perm (List.range d.next) := by simpa [hw] using h.indices
    refine (plug_indices (.leaf d.next none v) d.stack).trans ?_
    simpa [Traversal.addLeaf, Tree.indices, List.range_succ] using (hind.cons d.next).trans (List.perm_append_singleton ..).symm
  root := by
    have hroot : rootIndex d.next d.stack = 0 := by simpa [hw] using h.root
    exact (plug_rootIndex (.leaf d.next none v) d.stack (d.next + 1)).trans hroot
  depths := plug_fits h.depths.1 (Nat.le_of_lt_succ hd)
  room := hn
  closed _ := plug_whole

/-- The whole tree of a traversal meets R38 once it is not a lone leaf (R176), with ROOT at the first entry. -/
theorem Traversal.Ok.tree {d : Traversal} {t : Tree} (h : d.Ok) (hw : d.whole = some t) (hb : t.isLeaf = false) : t.Ok := by
  have hstack := h.closed t hw
  have hind : t.indices.Perm (List.range d.next) := by simpa [hw, hstack] using h.indices
  have hroot : t.index = 0 := by simpa [hw, hstack] using h.root
  have hsize : t.size = d.next := Tree.size_eq_of_indices hind
  rw [← hsize] at hind
  exact ⟨⟨hb, h.depths.2 t hw, hsize ▸ h.room⟩, hind, .inl hroot⟩

end Sys2Proof.Machine
end

section
/-! PROOF. What a running command keeps (R281): the invariant's clauses about registers, tables, buffer and source hold between any two
micro-operations of any command, wherever it stops. -/

namespace Sys2Proof.Machine

/-- The state of a running command between two of its micro-operations, with `D` said of the traversal and of NODE. -/
structure Running (D : Traversal → Option Tree → Prop) (s : State) : Prop where
  buffer : s.bb.length ≤ Config.bbCap
  freqTotal : ∀ f, s.freq = some f → freqSum f = s.total.toNat
  treeOk : ∀ t, s.tree = some t → t.Ok
  codeOk : ∀ c, s.code = some c → ∃ t, s.tree = some t ∧ c = codeTable t
  sourcePos : s.src.pos ≤ s.src.data.length
  busy : s.run = .busy
  noFault : s.result.isFault = false
  traversal : D s.des s.tree

/-- No traversal is under way. -/
def AtRest (d : Traversal) (_ : Option Tree) : Prop := d = .idle

variable {α β : Type} {D D' : Traversal → Option Tree → Prop} {s : State}

/-! ### One rule per part of the state -/

theorem Running.setBuffer (h : Running D s) {q : Bits} (hq : q.length ≤ Config.bbCap) : Running D { s with bb := q } :=
  { h with buffer := hq }

theorem Running.setSource (h : Running D s) {a : Source} (ha : a.pos ≤ a.data.length) (e : Bool) :
    Running D { s with src := a, srcEos := e } :=
  { h with sourcePos := ha }

theorem Running.setSink (h : Running D s) (a : Sink) : Running D { s with snk := a } := { h with }

theorem Running.setCount (h : Running D s) (c : Count) (v : Bool) : Running D { s with count := c, countValid := v } := { h with }

theorem Running.setEmitted (h : Running D s) (c : Count) : Running D { s with emitted := c } := { h with }

/-- A new frequency table comes with its total, and makes tree and code invalid. -/
theorem Running.setFreq (h : Running AtRest s) {f : FreqTable} {n : Count} (hf : freqSum f = n.toNat) :
    Running AtRest { s with freq := some f, total := n, tree := none, code := none } :=
  { h with
    freqTotal := fun _ hg => Option.some.inj hg ▸ hf
    treeOk := nofun
    codeOk := nofun }

theorem Running.dropFreq (h : Running D s) : Running D { s with freq := none } := { h with freqTotal := nofun }

/-- A new tree makes the code invalid. -/
theorem Running.setTree (h : Running AtRest s) {x : Option Tree} (hx : ∀ t, x = some t → t.Ok) :
    Running AtRest { s with tree := x, code := none } :=
  { h with
    treeOk := hx
    codeOk := nofun }

theorem Running.setCode (h : Running D s) {t : Tree} (ht : s.tree = some t) : Running D { s with code := some (codeTable t) } :=
  { h with codeOk := fun _ hc => ⟨t, ht, (Option.some.inj hc).symm⟩ }

theorem Running.setTraversal (h : Running D s) {d : Traversal} (hd : D' d s.tree) : Running D' { s with des := d } :=
  { h with traversal := hd }

theorem Running.mono (h : Running D s) (hD : ∀ d x, D d x → D' d x) : Running D' s := { h with traversal := hD _ _ h.traversal }

theorem Running.release (h : Running AtRest s) : Running AtRest s.released :=
  { h with
    buffer := Nat.zero_le _
    freqTotal := nofun
    treeOk := nofun
    codeOk := nofun }

/-! ### Ports -/

theorem keeps_readByte : Keeps (Running D) readByte := by
  intro s hs
  obtain ⟨v, _, hv, e⟩ | ⟨_, _, e⟩ | ⟨p, _, e⟩ | ⟨p, _, e⟩ := readByte_cases s <;> rw [e] <;> refine hs.setSource ?_ _
  case inl => exact (List.getElem?_eq_some_iff.mp hv).1
  all_goals exact hs.sourcePos

theorem keeps_srcRewind : Keeps (Running D) srcRewind :=
  triple_modify fun s hs => hs.setSource (by rw [rewound_pos]; exact Nat.zero_le _) false

theorem keeps_writeByte (v : Byte) : Keeps (Running D) (writeByte v) := by
  intro s hs
  obtain ⟨_, e⟩ | ⟨p, _, e⟩ | ⟨p, _, e⟩ := writeByte_cases v s <;> rw [e] <;> exact hs.setSink _

/-! ### Bit buffer -/

theorem keeps_bbClear : Keeps (Running D) bbClear := triple_modify fun _ hs => hs.setBuffer (Nat.zero_le _)

theorem keeps_bbAppendBits (q : Bits) : Keeps (Running D) (bbAppendBits q) := by
  intro s hs
  by_cases hq : s.bb.length + q.length ≤ Config.bbCap
  · rw [bbAppendBits_ok hq]
    exact hs.setBuffer (by rw [List.length_append]; exact hq)
  · rw [bbAppendBits_overflow (by omega)]
    exact hs

theorem keeps_appendByte (v : Byte) : Keeps (Running D) (appendByte v) := keeps_bbAppendBits (bits8 v)

theorem keeps_appendCode (v : Byte) : Keeps (Running D) (appendCode v) := by
  refine keeps_get_bind fun s => (keeps_needed s.code).bind fun c => ?_
  cases tableGet c v with
  | nil => exact keeps_throw _
  | cons b q => exact keeps_bbAppendBits (b :: q)

theorem keeps_bbPeek (i : Nat) : Keeps (Running D) (bbPeek i) := by
  intro s hs
  by_cases hi : i < s.bb.length
  · rw [bbPeek_ok (List.getElem?_eq_getElem hi)]; exact hs
  · rw [bbPeek_underflow (by omega)]; exact hs

theorem keeps_bbDrop (n : Nat) : Keeps (Running D) (bbDrop n) := by
  intro s hs
  by_cases hn : n ≤ s.bb.length
  · rw [bbDrop_ok hn]
    exact hs.setBuffer ((List.drop_sublist n s.bb).length_le.trans hs.buffer)
  · rw [bbDrop_underflow (by omega)]; exact hs

theorem keeps_bbDrainPasses (n : Nat) : Keeps (Running D) (bbDrainPasses n) := by
  induction n with
  | zero => exact keeps_pure ()
  | succ n ih => exact keeps_get_bind fun s => (keeps_writeByte _).bind fun _ => (keeps_bbDrop 8).bind fun _ => ih

theorem keeps_bbDrain : Keeps (Running D) bbDrain := keeps_get_bind fun _ => keeps_bbDrainPasses _

theorem keeps_bbFlush : Keeps (Running D) bbFlush := by
  refine keeps_bbDrain.bind fun _ => keeps_get_bind fun s => ?_
  cases s.bb with
  | nil => exact keeps_pure ()
  | cons b bs => exact (keeps_writeByte _).bind fun _ => keeps_bbDrop _

theorem keeps_bbFill : Keeps (Running D) bbFill := by
  refine keeps_get_bind fun s => keeps_ite (keeps_throw _) (keeps_readByte.bind fun r => ?_)
  cases r with
  | none => exact keeps_pure _
  | some v => exact (keeps_bbAppendBits _).bind fun _ => keeps_pure _

/-! ### Frequency table and tree builder -/

@[simp] theorem freqSum_zero : freqSum FreqTable.zero = 0 := by
  rw [freqSum, FreqTable.zero, Vector.toList_replicate, List.map_replicate, List.sum_replicate]
  rfl

theorem sum_set_add_getElem (l : List Nat) {k : Nat} (h : k < l.length) (c : Nat) : (l.set k c).sum + l[k] = l.sum + c := by
  rw [List.sum_set, if_pos h, ← List.sum_take_add_sum_drop l k, List.drop_eq_getElem_cons h, List.sum_cons]
  omega

/-- Replacing an entry changes the sum by the difference. -/
theorem freqSum_tableSet (f : FreqTable) (v : Byte) (c : Count) :
    freqSum (tableSet f v c) + (tableGet f v).toNat = freqSum f + c.toNat := by
  have hlen : v.toNat < (f.toList.map BitVec.toNat).length := by simpa using v.isLt
  have hset := sum_set_add_getElem (f.toList.map BitVec.toNat) hlen c.toNat
  have hlist : (tableSet f v c).toList = f.toList.set v.toNat c :=
    Array.toList_set (h := by simpa using v.isLt) ..
  simpa [freqSum, hlist, tableGet, List.map_set] using hset

theorem tableGet_le_freqSum (f : FreqTable) (v : Byte) : (tableGet f v).toNat ≤ freqSum f := by
  have hset := freqSum_tableSet f v 0
  have hzero : (0 : Count).toNat = 0 := rfl
  omega

/-- Counting one byte more adds 1 to the sum, as long as the sum fits TOTAL (R142). -/
theorem freqSum_increment {f : FreqTable} (v : Byte) (h : freqSum f + 1 < 2 ^ 32) :
    freqSum (tableSet f v (tableGet f v + 1)) = freqSum f + 1 := by
  have hset := freqSum_tableSet f v (tableGet f v + 1)
  have hle := tableGet_le_freqSum f v
  have hone : (1 : Count).toNat = 1 := rfl
  rw [BitVec.toNat_add_of_lt (by omega)] at hset
  omega

theorem keeps_freqClr : Keeps (Running AtRest) freqClr := triple_modify fun _ hs => hs.setFreq (by simp)

theorem keeps_freqInc (v : Byte) : Keeps (Running AtRest) (freqInc v) := by
  refine triple_get_bind fun u => triple_needed_bind (fun _ _ hs => hs.2) fun f hf => triple_get_bind fun u' =>
    triple_ite (fun _ => triple_throw fun _ hs => hs.2.2) fun hfull => triple_modify ?_
  rintro s ⟨rfl, rfl, hs⟩
  have hsum : freqSum f = s.total.toNat := hs.freqTotal f hf
  have hroom : s.total.toNat + 1 < 2 ^ 32 := by have := s.total.isLt; omega
  refine hs.setFreq ?_
  rw [freqSum_increment v (hsum ▸ hroom), BitVec.toNat_add_of_lt hroom, hsum]
  rfl

theorem keeps_freqScanPasses (n : Nat) : Keeps (Running AtRest) (freqScanPasses n) := by
  induction n with
  | zero => exact keeps_pure ()
  | succ n ih =>
    refine keeps_readByte.bind fun r => ?_
    cases r with
    | none => exact keeps_pure ()
    | some v => exact (keeps_freqInc v).bind fun _ => ih

theorem Running.freqScanStopped (h : Running D s) (r : Raise) : Running D (freqScanStopped r s) := by
  cases r with
  | err | refuse => exact h.dropFreq
  | fault | hang => exact h

theorem keeps_freqScan : Keeps (Running AtRest) freqScan :=
  keeps_freqClr.bind fun _ => keeps_get_bind fun _ => (keeps_freqScanPasses _).onRaise fun r _ hs => hs.freqScanStopped r

theorem keeps_treeBuild : Keeps (Running AtRest) treeBuild := by
  refine keeps_get_bind fun s => (keeps_needed s.freq).bind fun f => keeps_get_bind fun s' => keeps_ite (keeps_throw _) ?_
  cases hb : buildTree f with
  | none => exact keeps_throw _
  | some t => exact triple_modify fun _ hs => hs.setTree fun _ ht => Option.some.inj ht ▸ (buildTree_ok hb).1

/-! ### Code table -/

theorem keeps_codeGen : Keeps (Running D) codeGen := by
  refine triple_get_bind fun u => triple_needed_bind (fun _ _ hs => hs.2) fun t ht => triple_modify ?_
  rintro s ⟨rfl, hs⟩
  exact hs.setCode ht

/-! ### Serializer and encoder -/

theorem keeps_serNodes (t : Tree) : Keeps (Running D) (serNodes t) := by
  induction t with
  | leaf i w v => exact (keeps_bbAppendBits _).bind fun _ => (keeps_bbAppendBits _).bind fun _ => keeps_bbDrain
  | branch i w l r ihl ihr => exact (keeps_bbAppendBits _).bind fun _ => keeps_bbDrain.bind fun _ => ihl.bind fun _ => ihr

theorem keeps_treeSer : Keeps (Running D) treeSer := keeps_get_bind fun s => (keeps_needed s.tree).bind fun t => keeps_serNodes t

theorem keeps_checkInputSize : Keeps (Running D) checkInputSize := keeps_get_bind fun _ => keeps_ite (keeps_throw _) (keeps_pure ())

theorem keeps_hdrBytesOut (c : Count) : Keeps (Running D) (hdrBytesOut c) :=
  (keeps_writeByte _).bind fun _ => (keeps_writeByte _).bind fun _ => (keeps_writeByte _).bind fun _ => keeps_writeByte _

theorem keeps_hdrWrite : Keeps (Running D) hdrWrite := keeps_checkInputSize.bind fun _ => keeps_get_bind fun _ => keeps_hdrBytesOut _

theorem keeps_payloadEncPasses (n : Nat) : Keeps (Running D) (payloadEncPasses n) := by
  induction n with
  | zero => exact keeps_pure ()
  | succ n ih =>
    refine keeps_readByte.bind fun r => ?_
    cases r with
    | none => exact keeps_pure ()
    | some v => exact (keeps_appendCode v).bind fun _ => keeps_bbDrain.bind fun _ => ih

theorem keeps_payloadEnc : Keeps (Running D) payloadEnc :=
  keeps_srcRewind.bind fun _ => keeps_get_bind fun _ => keeps_payloadEncPasses _

theorem keeps_compressSteps : Keeps (Running AtRest) compressSteps :=
  keeps_freqScan.bind fun _ => keeps_checkInputSize.bind fun _ => keeps_treeBuild.bind fun _ => keeps_codeGen.bind fun _ =>
    keeps_bbClear.bind fun _ => keeps_hdrWrite.bind fun _ => keeps_treeSer.bind fun _ => keeps_bbFlush.bind fun _ =>
    keeps_payloadEnc.bind fun _ => keeps_bbFlush

/-! ### Decoder -/

theorem keeps_hdrReadPasses (n c : Nat) : Keeps (Running D) (hdrReadPasses n c) := by
  induction n generalizing c with
  | zero => exact keeps_pure c
  | succ n ih =>
    refine keeps_readByte.bind fun r => ?_
    cases r with
    | none => exact keeps_throw _
    | some v => exact ih _

theorem keeps_hdrRead : Keeps (Running D) hdrRead :=
  Keeps.bind (triple_modify fun s hs => hs.setCount s.count false) fun _ => (keeps_hdrReadPasses _ 0).bind fun _ =>
    triple_modify fun _ hs => hs.setCount _ true

theorem keeps_topUpPasses (n : Nat) : Keeps (Running D) (topUpPasses n) := by
  induction n with
  | zero => exact keeps_pure ()
  | succ n ih =>
    refine keeps_get_bind fun s => keeps_ite (keeps_bbFill.bind fun r => ?_) (keeps_pure ())
    cases r with
    | filled => exact ih
    | eos => exact keeps_pure ()

theorem keeps_walkTree (t : Tree) (k : Nat) : Keeps (Running D) (walkTree t k) := by
  induction t generalizing k with
  | leaf i w v => exact keeps_pure (v, k)
  | branch i w l r ihl ihr =>
    exact keeps_get_bind fun s => keeps_ite (keeps_throw _) ((keeps_bbPeek k).bind fun b => keeps_ite (ihr _) (ihl _))

theorem keeps_decSymbol : Keeps (Running D) decSymbol :=
  keeps_get_bind fun s => (keeps_needed s.tree).bind fun t => (keeps_topUpPasses 32).bind fun _ => keeps_get_bind fun _ =>
    keeps_ite (keeps_throw _) <| (keeps_walkTree t 0).bind fun _ => (keeps_writeByte _).bind fun _ => (keeps_bbDrop _).bind fun _ =>
    triple_modify fun _ hs => hs.setEmitted _

theorem keeps_payloadDecPasses (n : Nat) : Keeps (Running D) (payloadDecPasses n) := by
  induction n with
  | zero => exact keeps_pure ()
  | succ n ih => exact keeps_get_bind fun _ => keeps_get_bind fun _ => keeps_ite (keeps_decSymbol.bind fun _ => ih) (keeps_pure ())

theorem keeps_payloadDec : Keeps (Running D) payloadDec :=
  Keeps.bind (triple_modify fun _ hs => hs.setEmitted 0) fun _ => keeps_get_bind fun _ => keeps_payloadDecPasses _

end Sys2Proof.Machine
end

section
/-! PROOF. TREE_DES keeps the invariant (R173, R176, R281): its traversal is well formed between any two tokens, wherever it stops, and the tree it
leaves meets R38. -/

namespace Sys2Proof.Machine

/-- The token register holds no whole token (log entry 10). -/
def Traversal.Tokenless (d : Traversal) : Prop := ∀ i, decodeToken d.token ≠ .ok i

/-- A running TreeDes: a well formed traversal of which `C` holds, and no valid tree (R173). -/
structure Descends (C : Traversal → Prop) (d : Traversal) (x : Option Tree) : Prop where
  ok : d.Ok
  progress : C d
  noTree : x = none

/-- No whole tree yet: the next token is still to be read, the register holds `q`. -/
structure Awaits (q : Bits) (d : Traversal) : Prop where
  unfinished : d.whole = none
  token : d.token = q

/-- No whole tree yet: the next token has been read. -/
def Unfinished (d : Traversal) : Prop := d.whole = none

/-- What is left of the traversal where a token's micro-operations raise: a port that is never answered finds no whole token. -/
def TokenStops (r : Raise) (d : Traversal) (_ : Option Tree) : Prop := r = .hang → d.Tokenless

/-- What a command that raises leaves of the traversal: nothing, unless a port is never answered. -/
def Stops (r : Raise) (d : Traversal) (_ : Option Tree) : Prop := (r = .hang → d.Tokenless) ∧ (r ≠ .hang → d = .idle)

variable {α : Type} {C : Traversal → Prop} {D : Traversal → Option Tree → Prop} {q : Bits}

/-- `m` ends with no traversal under way, or stops with what `Stops` says of it. -/
abbrev EndsAtRest (m : Micro α) : Prop := Triple (Running AtRest) m (fun _ => Running AtRest) fun r => Running (Stops r)

/-- A token's micro-operations lead from a traversal of which `C` holds to one whose token register is empty. -/
abbrev ActsOnToken (C : Traversal → Prop) (m : Micro Unit) : Prop :=
  Triple (Running (Descends C)) m (fun _ => Running (Descends fun d => d.token = [])) fun r => Running (TokenStops r)

theorem Traversal.idle_tokenless : Traversal.idle.Tokenless := nofun

theorem Awaits.tokenless {d : Traversal} (h : Awaits q d) (hq : decodeToken q = .reject .badToken) : d.Tokenless := by
  intro i
  rw [h.token, hq]
  exact nofun

theorem Descends.unfinished {d : Traversal} {x : Option Tree} (h : Descends (Awaits q) d x) : Descends Unfinished d x :=
  { h with progress := h.progress.unfinished }

theorem AtRest.stops {d : Traversal} {x : Option Tree} (h : AtRest d x) (r : Raise) : Stops r d x := by
  cases h
  exact ⟨fun _ => Traversal.idle_tokenless, fun _ => rfl⟩

/-- An operation of the ports and the buffer while the token register holds part of a token. -/
theorem Keeps.awaiting {m : Micro α} (h : Keeps (Running (Descends (Awaits q))) m) (hq : decodeToken q = .reject .badToken) :
    Triple (Running (Descends (Awaits q))) m (fun _ => Running (Descends (Awaits q))) fun r => Running (TokenStops r) :=
  Triple.mono h (fun _ hs => hs) (fun _ _ hs => hs) fun _ _ hs => hs.mono fun _ _ hd _ => hd.progress.tokenless hq

theorem keeps_demandBits (n : Nat) : Keeps (Running D) (demandBits n) := by
  refine keeps_get_bind fun _ => keeps_ite (keeps_bbFill.bind fun r => ?_) (keeps_pure ())
  cases r <;> exact keeps_get_bind fun _ => keeps_ite (keeps_throw _) (keeps_pure ())

theorem triple_enterNode :
    Triple (Running D) enterNode (fun _ => Running fun d x => D d x ∧ d.stack.length < Config.depthLimit)
      fun r => Running (TokenStops r) := by
  refine triple_get_bind fun u => triple_ite (fun _ => triple_throw fun _ hs => hs.2.mono fun _ _ _ => nofun) fun hroom => triple_pure ?_
  rintro s ⟨rfl, hs⟩
  exact { hs with traversal := ⟨hs.traversal, Nat.lt_of_not_le hroom⟩ }

theorem triple_checkNodeFree :
    Triple (Running D) checkNodeFree (fun _ => Running fun d x => D d x ∧ d.next < Config.nodeCap) fun r => Running (TokenStops r) := by
  refine triple_get_bind fun u => triple_ite (fun _ => triple_throw fun _ hs => hs.2.mono fun _ _ _ => nofun) fun hroom => triple_pure ?_
  rintro s ⟨rfl, hs⟩
  exact { hs with traversal := ⟨hs.traversal, Nat.lt_of_not_le hroom⟩ }

/-- A token is acted on once it is read (R173), and its register is empty then. -/
theorem actsOnToken_tokenBranch : ActsOnToken Unfinished tokenBranch := by
  refine triple_enterNode.bind fun _ => triple_checkNodeFree.bind fun _ => triple_modify fun s hs => ?_
  obtain ⟨⟨⟨hok, hw, hx⟩, _⟩, hnext⟩ := hs.traversal
  exact hs.setTraversal ⟨hok.openBranch hw hnext, rfl, hx⟩

theorem actsOnToken_tokenLeaf (v : Byte) : ActsOnToken Unfinished (tokenLeaf v) := by
  refine triple_enterNode.bind fun _ => triple_checkNodeFree.bind fun _ => triple_modify fun s hs => ?_
  obtain ⟨⟨⟨hok, hw, hx⟩, hdepth⟩, hnext⟩ := hs.traversal
  exact hs.setTraversal ⟨hok.addLeaf hw hnext hdepth v, rfl, hx⟩

theorem triple_holdToken (hD : ∀ d x, D d x → Descends Unfinished d x) {E : Raise → State → Prop} :
    Triple (Running D) (holdToken q) (fun _ => Running (Descends (Awaits q))) E :=
  triple_modify fun s hs => by
    obtain ⟨hok, hw, hx⟩ := hD _ _ hs.traversal
    exact hs.setTraversal ⟨hok.withToken q, ⟨hw, rfl⟩, hx⟩

/-- Reading one token keeps the traversal; no port is asked while the register holds a whole token. -/
theorem actsOnToken_desToken : ActsOnToken (Awaits []) desToken := by
  refine triple_enterNode.bind fun _ => Triple.pre (P := Running (Descends (Awaits []))) ?_ fun _ hs => hs.mono fun _ _ hd => hd.1
  refine ((keeps_demandBits 1).awaiting rfl).bind fun _ => ((keeps_bbPeek 0).awaiting rfl).bind fun b =>
    ((keeps_bbDrop 1).awaiting rfl).bind fun _ => (triple_holdToken fun _ _ hd => hd.unfinished).bind fun _ => triple_checkNodeFree.bind fun _ => ?_
  cases b with
  | false => exact Triple.pre actsOnToken_tokenBranch fun _ hs => hs.mono fun _ _ hd => hd.1.unfinished
  | true =>
    refine Triple.pre (P := Running (Descends (Awaits [true]))) ?_ fun _ hs => hs.mono fun _ _ hd => hd.1
    refine ((keeps_demandBits 8).awaiting rfl).bind fun _ => triple_get_bind fun u =>
      Triple.pre (P := Running (Descends (Awaits [true]))) ?_ fun _ hs => hs.2
    exact ((keeps_bbDrop 8).awaiting rfl).bind fun _ => (triple_holdToken fun _ _ hd => hd.unfinished).bind fun _ =>
      (actsOnToken_tokenLeaf _).pre fun _ hs => hs.mono fun _ _ hd => hd.unfinished

theorem triple_desPasses (n : Nat) :
    Triple (Running (Descends (Awaits []))) (desPasses n) (fun t => Running (Descends fun d => d.whole = some t))
      fun r => Running (TokenStops r) := by
  induction n with
  | zero => exact triple_throw fun _ hs => hs.mono fun _ _ _ => nofun
  | succ n ih =>
    refine Triple.bind actsOnToken_desToken fun _ => triple_get_bind fun u => ?_
    cases hw : u.des.whole with
    | some t =>
      refine triple_pure ?_
      rintro s ⟨rfl, hs⟩
      exact { hs with traversal := { hs.traversal with progress := hw } }
    | none =>
      refine ih.pre ?_
      rintro s ⟨rfl, hs⟩
      exact { hs with traversal := { hs.traversal with progress := ⟨hw, hs.traversal.progress⟩ } }

theorem Running.dropTraversal {s : State} {r : Raise} (h : Running (TokenStops r) s) : Running (Stops r) (dropTraversal r s) := by
  cases r with
  | err | refuse | fault => exact h.setTraversal ⟨nofun, fun _ => rfl⟩
  | hang => exact h.mono fun _ _ hd => ⟨hd, fun hr => absurd rfl hr⟩

/-- NODE holds no valid tree while TreeDes reads one, so there is no valid code either (R33). -/
theorem Running.code_eq_none {s : State} (h : Running D s) (hx : s.tree = none) : s.code = none := by
  cases hc : s.code with
  | none => rfl
  | some c =>
    obtain ⟨t, ht, _⟩ := h.codeOk c hc
    rw [hx] at ht
    cases ht

theorem Running.storeTree {s : State} (h : Running AtRest s) (hc : s.code = none) {t : Tree} (ht : t.Ok) :
    Running AtRest { s with tree := some t } := by
  have hset := h.setTree (x := some t) fun u hu => Option.some.inj hu ▸ ht
  rwa [← hc] at hset

theorem endsAtRest_treeDes : EndsAtRest treeDes := by
  refine Triple.bind (Q := fun _ => Running (Descends (Awaits []))) (triple_modify fun s hs => ?start) fun _ =>
    ((triple_desPasses _).onRaise fun r _ hs => hs.dropTraversal).bind fun t =>
    Triple.bind (Q := fun _ s => Running AtRest s ∧ s.code = none ∧ (t.isLeaf = false → t.Ok)) (triple_modify fun s hs => ?finish) fun _ =>
    triple_ite (fun _ => triple_throw fun _ hs => hs.1.mono fun _ _ hd => hd.stops _) fun hbranch => triple_modify fun s hs => ?store
  case start =>
    have hs : Running AtRest { s with tree := none, code := none } := hs.setTree nofun
    exact hs.setTraversal ⟨Traversal.idle_ok, ⟨rfl, rfl⟩, rfl⟩
  case finish =>
    obtain ⟨hok, hwhole, hx⟩ := hs.traversal
    exact ⟨hs.setTraversal rfl, hs.code_eq_none hx, hok.tree hwhole⟩
  case store =>
    obtain ⟨hs, hcode, ht⟩ := hs
    exact hs.storeTree hcode (ht (by simpa using hbranch))

/-- A micro-operation that leaves the traversal alone leaves none behind. -/
theorem Keeps.endsAtRest {m : Micro α} (h : Keeps (Running AtRest) m) : EndsAtRest m :=
  Triple.mono h (fun _ hs => hs) (fun _ _ hs => hs) fun r _ hs => hs.mono fun _ _ hd => hd.stops r

theorem endsAtRest_decompressSteps : EndsAtRest decompressSteps :=
  keeps_bbClear.endsAtRest.bind fun _ => keeps_hdrRead.endsAtRest.bind fun _ => endsAtRest_treeDes.bind fun _ =>
    keeps_bbClear.endsAtRest.bind fun _ => keeps_payloadDec.endsAtRest

end Sys2Proof.Machine
end

section
/-! PROOF. What the host sees and does (R21, R22, R46, R273): the images of the registers, where a step takes its instruction from, and the reset
state. -/

namespace Sys2Proof.Machine

/-! ### Register images -/

/-- STATUS as the numbers and flags of table R22, every encoding that can occur. -/
def statusBits (run : RunState) (freq tree code count eos : Bool) : Word :=
  BitVec.ofNat 32 (run.toNat + 16 * freq.toNat + 32 * tree.toNat + 64 * code.toNat + 128 * count.toNat + 256 * eos.toNat)

theorem statusWord_eq (s : State) :
    statusWord s = statusBits s.run s.freq.isSome s.tree.isSome s.code.isSome s.countValid s.srcEos := rfl

/-- The layout of STATUS (table R22). -/
theorem statusBits_fields (run : RunState) (freq tree code count eos : Bool) :
    (statusBits run freq tree code count eos).extractLsb' 0 2 = (match run with | .idle => 0#2 | .busy => 1#2 | .fault => 3#2)
    ∧ (statusBits run freq tree code count eos).extractLsb' 2 2 = 0#2
    ∧ (statusBits run freq tree code count eos).getLsbD 4 = freq
    ∧ (statusBits run freq tree code count eos).getLsbD 5 = tree
    ∧ (statusBits run freq tree code count eos).getLsbD 6 = code
    ∧ (statusBits run freq tree code count eos).getLsbD 7 = count
    ∧ (statusBits run freq tree code count eos).getLsbD 8 = eos
    ∧ (statusBits run freq tree code count eos).extractLsb' 9 23 = 0#23 := by
  cases run <;> decide +revert

theorem toNat_bbLenWord {s : State} (h : s.bb.length ≤ Config.bbCap) : (bbLenWord s).toNat = s.bb.length := by
  rw [bbLenWord, BitVec.toNat_ofNat, Nat.mod_eq_of_lt]
  simp only [Config.bbCap] at h
  omega

theorem toNat_treeInfoWord (t : Tree) :
    (treeInfoWord t).toNat = (BitVec.ofNat 10 t.size).toNat * 2 ^ 16 + (BitVec.ofNat 9 t.index).toNat := by
  rw [treeInfoWord]
  generalize BitVec.ofNat 9 t.index = root
  generalize BitVec.ofNat 10 t.size = count
  have hroot : root.toNat < 2 ^ 16 := root.isLt.trans (by decide)
  have hcount : count.toNat * 2 ^ 16 < 2 ^ 32 := by have := count.isLt; omega
  rw [BitVec.or_comm, BitVec.toNat_or, BitVec.toNat_shiftLeft, BitVec.toNat_setWidth_of_le (by decide),
    BitVec.toNat_setWidth_of_le (by decide), Nat.shiftLeft_eq, Nat.mod_eq_of_lt hcount, ← Nat.shiftLeft_eq,
    ← Nat.shiftLeft_add_eq_or_of_lt hroot, Nat.shiftLeft_eq]

/-- The layout of TREE_INFO (R29). -/
theorem treeInfoWord_fields (t : Tree) :
    (treeInfoWord t).extractLsb' 0 9 = BitVec.ofNat 9 t.index ∧ (treeInfoWord t).extractLsb' 16 10 = BitVec.ofNat 10 t.size
    ∧ (treeInfoWord t).extractLsb' 9 7 = 0#7 ∧ (treeInfoWord t).extractLsb' 26 6 = 0#6 := by
  have hword := toNat_treeInfoWord t
  generalize BitVec.ofNat 9 t.index = root at hword ⊢
  generalize BitVec.ofNat 10 t.size = count at hword ⊢
  have hroot := root.isLt
  have hcount := count.isLt
  refine ⟨?_, ?_, ?_, ?_⟩ <;> apply BitVec.eq_of_toNat_eq <;>
    simp only [BitVec.extractLsb'_toNat, hword, Nat.shiftRight_eq_div_pow, BitVec.toNat_ofNat] <;> omega

theorem readReg_eq_readIdle {s : State} (h : s.run ≠ .busy) (index : BitVec 3) :
    readReg index s = readIdle index (Config.freeWord s.free) s := by
  cases hr : s.run with
  | idle | fault => rw [readReg, hr]
  | busy => exact absurd hr h

/-! ### Where a step takes its instruction from -/

theorem heldToken_of_not_busy {s : State} (h : s.run ≠ .busy) : heldToken s = none := by
  cases hr : s.run with
  | idle | fault => rw [heldToken, hr]
  | busy => exact absurd hr h

theorem heldToken_busy {s : State} {i : Instr} (hr : s.run = .busy) (hd : decodeToken s.des.token = .ok i) : heldToken s = some i := by
  rw [heldToken, hr, hd]

theorem step_heldToken {s : State} {i : Instr} (h : heldToken s = some i) : step s = exec i s := by rw [step, h]

theorem step_waits {s : State} (ht : heldToken s = none) (hh : s.host = []) : step s = .next s := by rw [step, ht, hh]

theorem step_hostAct {s : State} {a : HostAct} {rest : List HostAct} (ht : heldToken s = none) (hh : s.host = a :: rest) :
    step s = hostAct exec a { s with host := rest } := by rw [step, ht, hh]

/-- A write to a read-only register has no effect (R46). -/
theorem step_write_readOnly {s : State} {index : BitVec 3} {w : Word} {rest : List HostAct} (ht : heldToken s = none)
    (hh : s.host = .writeReg index w :: rest) (hi : index ≠ 0) : step s = .next { s with host := rest } := by
  rw [step_hostAct ht hh, hostAct, if_neg hi]

/-- A decodable word the host writes to CMD of an idle engine is its next instruction (R21). -/
theorem step_command {s : State} {w : Word} {i : Instr} {rest : List HostAct} (hr : s.run = .idle) (hh : s.host = .writeReg 0 w :: rest)
    (hw : decodeWord w = .ok i) : step s = exec i { s with host := rest } := by
  have hact : hostAct exec (.writeReg 0 w) { s with host := rest } = writeCmd exec w { s with host := rest } := rfl
  rw [step_hostAct (heldToken_of_not_busy (by rw [hr]; exact nofun)) hh, hact, writeCmd, hr, hw]

theorem decodeWord_of_tableWord {w : Nat} {i : Instr} (h : decodeTableWord 32 w = some i) : decodeWord (BitVec.ofNat 32 w) = .ok i := by
  have hc : decode (tableCarrier 32 w) = decodeWord (BitVec.ofNat 32 w) := rfl
  rw [decodeTableWord, hc] at h
  split at h
  next hd => rw [hd, Option.some.inj h]
  next => cases h

/-- Settles O6: the three places a step takes an instruction from. -/
theorem stepRunsTheDecodedInstruction : Obligations.StepRunsTheDecodedInstruction := by
  refine ⟨fun s w i rest => step_command, fun s w i hr hw => ?_, fun s i hr hd => step_heldToken (heldToken_busy hr hd)⟩
  exact step_command (s := s.withFetchWord 32 w) hr rfl (decodeWord_of_tableWord hw)

/-- Settles O8, by the layout of STATUS; index 1 is a read-only register. -/
theorem statusRegisterHoldsItsFields : Obligations.StatusRegisterHoldsItsFields :=
  ⟨fun s => statusBits_fields s.run s.freq.isSome s.tree.isSome s.code.isSome s.countValid s.srcEos, rfl,
    fun _ _ _ ht hh => step_write_readOnly ht hh (by decide)⟩

/-- Settles O10: a read appends `readIdle`'s value, which is the register of the index. -/
theorem registerReadsReturnTheRegisters : Obligations.RegisterReadsReturnTheRegisters := by
  intro s index rest hr hh
  refine ⟨readReg index s, ?read, ?_⟩
  case read => exact step_hostAct (heldToken_of_not_busy hr) hh
  rw [readReg_eq_readIdle hr]
  refine ⟨?status, ?result, ?total, ?count, ?emitted, ?bbLen, ?treeInfo⟩ <;> rintro rfl
  case bbLen => exact toNat_bbLenWord
  case treeInfo =>
    intro t ht _ _
    have hread : readIdle 7 (Config.freeWord s.free) s = treeInfoWord t := by simp [readIdle, ht]
    rw [hread]
    exact treeInfoWord_fields t
  all_goals rfl

/-- Settles O11, act by act. -/
theorem hostActsLeaveTheEngineAlone : Obligations.HostActsLeaveTheEngineAlone := by
  intro s ht
  refine ⟨step_waits ht, fun index w rest hi hh => step_write_readOnly ht hh hi, ?source, ?sink⟩
  case source => exact fun data pos plan rewinds rest hh => step_hostAct ht hh
  case sink => exact fun plan rest hh => step_hostAct ht hh

/-- Settles O12: `State.reset` field by field. -/
theorem resetStateFollowsTheTable : Obligations.ResetStateFollowsTheTable :=
  ⟨reset_run, reset_result, reset_freq, reset_tree, reset_code, reset_countValid, reset_srcEos, reset_total, reset_count, reset_emitted, reset_bb⟩

end Sys2Proof.Machine
end

section
/-! PROOF. The invariant (R281): a command's running state meets it up to its completion, whatever its outcome, and so does every act of the host. -/

namespace Sys2Proof.Machine

variable {s t : State}

/-! ### Into a command and out of it -/

theorem Inv.started (h : Inv s) (hr : s.run = .idle) : Running AtRest s.started where
  buffer := h.buffer
  freqTotal := h.freqTotal
  treeOk := h.treeOk
  codeOk := h.codeOk
  sourcePos := h.sourcePos
  busy := rfl
  noFault := by
    have hfault := h.faultCode
    simpa [hr] using hfault
  traversal := h.noTraversal (by rw [hr]; exact nofun)

/-- The clauses about RUN_STATE, RESULT and the traversal are what an outcome has to add (R244 to R247). -/
theorem Running.inv {D : Traversal → Option Tree → Prop} (h : Running D s) {run : RunState} {result : ResultCode}
    (hf : run = .fault ↔ result.isFault = true) (hd : run ≠ .busy → s.des = .idle)
    (ht : heldToken { s with run := run, result := result } = none) : Inv { s with run := run, result := result } where
  buffer := h.buffer
  freqTotal := h.freqTotal
  treeOk := h.treeOk
  codeOk := h.codeOk
  sourcePos := h.sourcePos
  faultCode := hf
  noTraversal := hd
  noToken := ht

theorem Running.completed_inv (h : Running AtRest s) {c : ResultCode} (hc : c.isFault = false) : Inv (s.completed c) :=
  h.inv (by simp [hc]) (fun _ => h.traversal) rfl

theorem Running.faulted_inv (h : Running AtRest s) (f : FaultCode) : Inv (s.faulted f) :=
  h.inv (by simp [ResultCode.isFault]) (fun _ => h.traversal) rfl

theorem heldToken_of_tokenless (h : s.des.Tokenless) : heldToken s = none := by
  rw [heldToken]
  split
  next =>
    split
    next i hd => exact absurd hd (h i)
    next => rfl
  all_goals rfl

/-- A command whose port operation is never answered stays BUSY (R79). -/
theorem Running.hanging_inv (h : Running (Stops .hang) s) : Inv s :=
  h.inv (run := s.run) (result := s.result) (by simp [h.busy, h.noFault]) (fun hr => absurd h.busy hr)
    (heldToken_of_tokenless (h.traversal.1 rfl))

theorem Running.raised_inv {r : Raise} (h : Running (Stops r) s) (composite : Bool) : Inv (s.raised composite r) := by
  have hrest (hr : r ≠ .hang) : Running AtRest s := h.mono fun _ _ hd => hd.2 hr
  have hbase (hr : r ≠ .hang) : Running AtRest (if composite then s.released else s) := by
    split
    · exact (hrest hr).release
    · exact hrest hr
  cases r with
  | err e => exact (hbase nofun).completed_inv rfl
  | refuse c => exact (hbase nofun).completed_inv rfl
  | fault f => exact (hrest nofun).faulted_inv f
  | hang => exact h.hanging_inv

/-! ### Commands -/

/-- A command's body: run in any state of `Running`, it succeeds with a code that is no fault's, or raises with its traversal dropped. -/
abbrev BodyOk (body : Micro ResultCode) : Prop :=
  Triple (Running AtRest) body (fun c s => c.isFault = false ∧ Running AtRest s) fun r => Running (Stops r)

theorem bodyOk_thenOk {m : Micro Unit} (h : EndsAtRest m) : BodyOk (thenOk m) :=
  h.bind fun _ => triple_pure fun _ hs => ⟨rfl, hs⟩

theorem bodyOk_bbFillCommand : BodyOk bbFillCommand := by
  refine keeps_bbFill.endsAtRest.bind fun r => ?_
  cases r <;> exact triple_pure fun _ hs => ⟨rfl, hs⟩

theorem settle_keeps_inv (h : Inv s) (hr : s.run = .idle) {body : Micro ResultCode} (hb : BodyOk body) (composite : Bool) :
    Inv (settle composite body s) := by
  cases hm : body s.started with
  | ok c t =>
    obtain ⟨hc, ht⟩ := hb.of_ok (h.started hr) hm
    rw [settle_ok hm]
    exact ht.completed_inv hc
  | error r t =>
    rw [settle_error hm]
    exact (hb.of_error (h.started hr) hm).raised_inv composite

theorem Inv.refused (h : Inv s) (hr : s.run = .idle) (c : RefuseCode) : Inv (s.completed (.refuse c)) :=
  (h.started hr).completed_inv rfl

theorem primitive_keeps_inv (h : Inv s) {operandOk required : Bool} {body : Micro ResultCode} (hb : BodyOk body)
    (he : primitive operandOk required body s = .next t) : Inv t := by
  obtain ⟨_, rfl⟩ | ⟨hr, _, rfl⟩ | ⟨hr, _, _, rfl⟩ | ⟨hr, _, _, rfl⟩ := primitive_cases he
  · exact h
  · exact h.refused hr _
  · exact h.refused hr _
  · exact settle_keeps_inv h hr hb false

theorem primitive_thenOk_keeps_inv (h : Inv s) {operandOk required : Bool} {m : Micro Unit} (hm : Keeps (Running AtRest) m)
    (he : primitive operandOk required (thenOk m) s = .next t) : Inv t :=
  primitive_keeps_inv h (bodyOk_thenOk hm.endsAtRest) he

theorem composite_keeps_inv (h : Inv s) {m : Micro Unit} (hm : EndsAtRest m) (he : composite m s = .next t) : Inv t := by
  have hb : BodyOk (do m; modify State.released; pure .ok) :=
    hm.bind fun _ => Triple.bind (Q := fun _ => Running AtRest) (triple_modify fun _ hs => hs.release) fun _ =>
      triple_pure fun _ hs => ⟨rfl, hs⟩
  rw [composite, accept_eq_next] at he
  obtain ⟨hr, rfl⟩ | ⟨_, rfl⟩ := he
  · exact settle_keeps_inv h hr hb true
  · exact h

theorem engineReset_keeps_inv (h : Inv s) : Inv s.engineReset where
  buffer := Nat.zero_le _
  freqTotal := nofun
  treeOk := nofun
  codeOk := nofun
  sourcePos := h.sourcePos
  faultCode := by simp [ResultCode.isFault]
  noTraversal _ := rfl
  noToken := rfl

/-- Outside a running command a token does nothing (R90). -/
theorem runToken_of_not_busy (h : s.run ≠ .busy) (body : Micro Unit) : runToken body s = .next s := by
  cases hr : s.run with
  | idle | fault => rw [runToken, hr]
  | busy => exact absurd hr h

theorem exec_keeps_inv (h : Inv s) (hr : s.run ≠ .busy) {i : Instr} (he : exec i s = .next t) : Inv t := by
  cases i with
  | nop => exact primitive_keeps_inv h (triple_pure fun _ hs => ⟨rfl, hs⟩) he
  | softReset =>
    have hreset : execSoftReset s = .next s.engineReset := by
      cases hs : s.run with
      | idle | fault => rw [execSoftReset, hs]
      | busy => exact absurd hs hr
    cases hreset.symm.trans he
    exact engineReset_keeps_inv h
  | release => exact primitive_thenOk_keeps_inv h (triple_modify fun _ hs => hs.release) he
  | bbClear => exact primitive_thenOk_keeps_inv h keeps_bbClear he
  | bbAppendBit b => exact primitive_thenOk_keeps_inv h (keeps_bbAppendBits _) he
  | bbAppendByte v => exact primitive_thenOk_keeps_inv h (keeps_appendByte _) he
  | bbAppendCode v => exact primitive_thenOk_keeps_inv h (keeps_appendCode _) he
  | bbDrop n => exact primitive_thenOk_keeps_inv h (keeps_bbDrop _) he
  | bbDrain => exact primitive_thenOk_keeps_inv h keeps_bbDrain he
  | bbFlush => exact primitive_thenOk_keeps_inv h keeps_bbFlush he
  | bbFill => exact primitive_keeps_inv h bodyOk_bbFillCommand he
  | freqClr => exact primitive_thenOk_keeps_inv h keeps_freqClr he
  | freqInc v => exact primitive_thenOk_keeps_inv h (keeps_freqInc _) he
  | freqScan => exact primitive_thenOk_keeps_inv h keeps_freqScan he
  | treeBuild => exact primitive_thenOk_keeps_inv h keeps_treeBuild he
  | codeGen => exact primitive_thenOk_keeps_inv h keeps_codeGen he
  | treeSer => exact primitive_thenOk_keeps_inv h keeps_treeSer he
  | treeDes => exact primitive_keeps_inv h (bodyOk_thenOk endsAtRest_treeDes) he
  | hdrWrite => exact primitive_thenOk_keeps_inv h keeps_hdrWrite he
  | payloadEnc => exact primitive_thenOk_keeps_inv h keeps_payloadEnc he
  | compress => exact composite_keeps_inv h keeps_compressSteps.endsAtRest he
  | hdrRead => exact primitive_thenOk_keeps_inv h keeps_hdrRead he
  | decSymbol => exact primitive_thenOk_keeps_inv h keeps_decSymbol he
  | payloadDec => exact primitive_thenOk_keeps_inv h keeps_payloadDec he
  | decompress => exact composite_keeps_inv h endsAtRest_decompressSteps he
  | branch => cases (runToken_of_not_busy hr _).symm.trans he; exact h
  | leaf v => cases (runToken_of_not_busy hr _).symm.trans he; exact h

/-! ### Acts of the host -/

/-- The host's acts, the values it has read, the sink and the counter of free values play no part. -/
theorem Inv.withHost (h : Inv s) (host : List HostAct) (reads : List Word) (snk : Sink) (free : Nat) :
    Inv { s with host := host, reads := reads, snk := snk, free := free } :=
  { h with }

theorem Inv.withSource (h : Inv s) {a : Source} (ha : a.pos ≤ a.data.length) : Inv { s with src := a } :=
  { h with sourcePos := ha }

theorem hardReset_keeps_inv (h : Inv s) : Inv s.hardReset := by
  rw [State.hardReset]
  split
  next => exact engineReset_keeps_inv h
  next => exact (engineReset_keeps_inv h).withHost s.host s.reads _ _

theorem writeCmd_keeps_inv (h : Inv s) {w : Word} (he : writeCmd exec w s = .next t) : Inv t := by
  rw [writeCmd] at he
  split at he
  next hr =>
    split at he
    next => exact exec_keeps_inv h (by rw [hr]; exact nofun) he
    next => cases he; exact h.refused hr _
  next hr =>
    split at he
    next => exact exec_keeps_inv h (by rw [hr]; exact nofun) he
    next => cases he; exact h
  next => cases he

theorem hostAct_keeps_inv (h : Inv s) {a : HostAct} (he : hostAct exec a s = .next t) : Inv t := by
  cases a with
  | writeReg index w =>
    rw [hostAct] at he
    split at he
    next => exact writeCmd_keeps_inv h he
    next => cases he; exact h
  | readReg index => cases he; exact h.withHost ..
  | hardReset => cases he; exact hardReset_keeps_inv h
  | attachSource data pos plan rewinds => cases he; exact h.withSource (Nat.min_le_right ..)
  | attachSink plan => cases he; exact h.withHost ..

/-- Settles O15: `State.reset` is an engine at its reset values. -/
theorem resetMeetsTheInvariant : Obligations.ResetMeetsTheInvariant where
  buffer := Nat.zero_le _
  freqTotal := nofun
  treeOk := nofun
  codeOk := nofun
  sourcePos := Nat.le_refl _
  faultCode := by simp [ResultCode.isFault]
  noTraversal _ := rfl
  noToken := rfl

/-- Settles O16: no token is held, so a step waits or performs an act of the host, and every act keeps the invariant. -/
theorem everyStepKeepsTheInvariant : Obligations.EveryStepKeepsTheInvariant := by
  intro s t h he
  cases hh : s.host with
  | nil =>
    rw [step_waits h.noToken hh] at he
    cases he
    exact h
  | cons a rest =>
    rw [step_hostAct h.noToken hh] at he
    exact hostAct_keeps_inv (h.withHost rest s.reads s.snk s.free) he

end Sys2Proof.Machine
end

section
/-! PROOF. How micro-operations reach the ports (R79): which of them are built from reads and writes of a byte, and an induction over how they
are built. -/

namespace Sys2Proof.Machine

/-! ### The two plans -/

/-- The state with other plans for the next reads and writes. -/
def State.withPlans (reads writes : List PortPlan) (s : State) : State :=
  { s with src := { s.src with plan := reads }, snk := { s.snk with plan := writes } }

@[simp] theorem withPlans_srcPlan (p q : List PortPlan) (s : State) : (s.withPlans p q).src.plan = p := rfl

@[simp] theorem withPlans_snkPlan (p q : List PortPlan) (s : State) : (s.withPlans p q).snk.plan = q := rfl

@[simp] theorem withPlans_same (s : State) : s.withPlans s.src.plan s.snk.plan = s := rfl

/-- An update that neither uses nor changes what the host plans, and leaves the sink and RUN_STATE alone. -/
structure PlanBlind (g : State → State) : Prop where
  plans : ∀ p q s, g (s.withPlans p q) = (g s).withPlans p q := by intros; rfl
  sink : ∀ s, (g s).snk = s.snk := by intros; rfl
  running : ∀ s, (g s).run = s.run := by intros; rfl

theorem PlanBlind.srcPlan {g : State → State} (h : PlanBlind g) (s : State) : (g s).src.plan = s.src.plan :=
  congrArg (·.src.plan) (h.plans s.src.plan s.snk.plan s)

/-- Two states that agree on the ports, SRC_EOS and the counts. -/
structure SamePorts (s t : State) : Prop where
  src : t.src = s.src := by rfl
  srcEos : t.srcEos = s.srcEos := by rfl
  snk : t.snk = s.snk := by rfl
  total : t.total = s.total := by rfl
  count : t.count = s.count := by rfl
  emitted : t.emitted = s.emitted := by rfl

theorem SamePorts.symm {s t : State} (h : SamePorts s t) : SamePorts t s :=
  ⟨h.src.symm, h.srcEos.symm, h.snk.symm, h.total.symm, h.count.symm, h.emitted.symm⟩

theorem SamePorts.trans {s t u : State} (h : SamePorts s t) (h' : SamePorts t u) : SamePorts s u :=
  ⟨h'.src.trans h.src, h'.srcEos.trans h.srcEos, h'.snk.trans h.snk, h'.total.trans h.total, h'.count.trans h.count,
    h'.emitted.trans h.emitted⟩

/-- What a command does to the state where it stops: it touches neither the ports nor the counts. -/
structure Cleanup (g : Raise → State → State) : Prop where
  blind : ∀ r, PlanBlind (g r)
  same : ∀ r s, SamePorts s (g r s)

/-! ### Micro-operations that reach the ports through `readByte` and `writeByte` only -/

/-- `m` is built from reads and writes of a byte and from steps that do not see the plans. -/
inductive ThroughPorts : {α : Type} → Micro α → Prop
  | done {α : Type} (a : α) : ThroughPorts (pure a)
  | raises {α : Type} {r : Raise} (hr : r ≠ .hang) : ThroughPorts (throw r : Micro α)
  | update {g : State → State} (hg : PlanBlind g) : ThroughPorts (modify g : Micro Unit)
  | read : ThroughPorts readByte
  | write (v : Byte) : ThroughPorts (writeByte v)
  | inspect {α : Type} {f : State → Micro α} (hblind : ∀ p q s, f (s.withPlans p q) = f s) (hf : ∀ s, ThroughPorts (f s)) :
      ThroughPorts ((get : Micro State) >>= f)
  | seq {α β : Type} {m : Micro α} {f : α → Micro β} (hm : ThroughPorts m) (hf : ∀ a, ThroughPorts (f a)) : ThroughPorts (m >>= f)
  | cleanup {α : Type} {g : Raise → State → State} {m : Micro α} (hg : Cleanup g) (hm : ThroughPorts m) : ThroughPorts (onRaise g m)

variable {α β : Type}

theorem ThroughPorts.ite {c : Prop} [Decidable c] {m n : Micro α} (hm : ThroughPorts m) (hn : ThroughPorts n) :
    ThroughPorts (if c then m else n) := by
  split
  · exact hm
  · exact hn

theorem ThroughPorts.needed (x : Option α) : ThroughPorts (needed x) := by
  cases x with
  | none => exact .raises nofun
  | some a => exact .done a

/-- What holds at every point of a run: it is kept by the reads, the writes and the steps in between. -/
theorem ThroughPorts.triple {P : State → Prop} {E : Raise → State → Prop} (hread : Triple P readByte (fun _ => P) E)
    (hwrite : ∀ v, Triple P (writeByte v) (fun _ => P) E) (hupdate : ∀ g, PlanBlind g → ∀ s, P s → P (g s))
    (hraise : ∀ r s, r ≠ .hang → P s → E r s) (hcleanup : ∀ g, Cleanup g → ∀ r s, E r s → E r (g r s)) {m : Micro α}
    (hm : ThroughPorts m) : Triple P m (fun _ => P) E := by
  induction hm with
  | done a => exact triple_pure fun _ hs => hs
  | raises hr => exact triple_throw fun s hs => hraise _ s hr hs
  | update hg => exact triple_modify (hupdate _ hg)
  | read => exact hread
  | write v => exact hwrite v
  | inspect _ _ ih => exact triple_get_bind fun u => (ih u).pre fun _ hs => hs.2
  | seq _ _ ihm ihf => exact ihm.bind ihf
  | cleanup hg _ ih => exact ih.onRaise (hcleanup _ hg)

/-! ### Bit buffer -/

theorem bbAppendBits_eq_do (q : Bits) : bbAppendBits q = (do
    if (← get).bb.length + q.length > Config.bbCap then throw (.fault .bbOverflow)
    else modify fun s => { s with bb := s.bb ++ q }) := by
  funext s
  rw [bbAppendBits, micro_get_bind, micro_ite]
  rfl

theorem bbDrop_eq_do (n : Nat) : bbDrop n = (do
    if n > (← get).bb.length then throw (.fault .bbUnderflow)
    else modify fun s => { s with bb := s.bb.drop n }) := by
  funext s
  rw [bbDrop, micro_get_bind, micro_ite]
  rfl

theorem bbPeek_eq_do (i : Nat) : bbPeek i = (do
    match (← get).bb[i]? with
    | some b => pure b
    | none => throw (.fault .bbUnderflow)) := by
  funext s
  rw [bbPeek, micro_get_bind]
  cases s.bb[i]? <;> rfl

theorem throughPorts_bbClear : ThroughPorts bbClear := .update {}

theorem throughPorts_bbAppendBits (q : Bits) : ThroughPorts (bbAppendBits q) := by
  rw [bbAppendBits_eq_do]
  exact .inspect (fun _ _ _ => rfl) fun _ => .ite (.raises nofun) (.update {})

theorem throughPorts_appendCode (v : Byte) : ThroughPorts (appendCode v) := by
  refine .inspect (fun _ _ _ => rfl) fun s => (ThroughPorts.needed s.code).seq fun c => ?_
  cases tableGet c v with
  | nil => exact .raises nofun
  | cons b q => exact throughPorts_bbAppendBits (b :: q)

theorem throughPorts_bbPeek (i : Nat) : ThroughPorts (bbPeek i) := by
  rw [bbPeek_eq_do]
  refine .inspect (fun _ _ _ => rfl) fun s => ?_
  cases s.bb[i]? with
  | some b => exact .done b
  | none => exact .raises nofun

theorem throughPorts_bbDrop (n : Nat) : ThroughPorts (bbDrop n) := by
  rw [bbDrop_eq_do]
  exact .inspect (fun _ _ _ => rfl) fun _ => .ite (.raises nofun) (.update {})

theorem throughPorts_bbDrainPasses (n : Nat) : ThroughPorts (bbDrainPasses n) := by
  induction n with
  | zero => exact .done ()
  | succ n ih => exact .inspect (fun _ _ _ => rfl) fun _ => (ThroughPorts.write _).seq fun _ => (throughPorts_bbDrop 8).seq fun _ => ih

theorem throughPorts_bbDrain : ThroughPorts bbDrain := .inspect (fun _ _ _ => rfl) fun _ => throughPorts_bbDrainPasses _

theorem throughPorts_bbFlush : ThroughPorts bbFlush := by
  refine throughPorts_bbDrain.seq fun _ => .inspect (fun _ _ _ => rfl) fun s => ?_
  cases s.bb with
  | nil => exact .done ()
  | cons b bs => exact (ThroughPorts.write _).seq fun _ => throughPorts_bbDrop _

theorem throughPorts_bbFill : ThroughPorts bbFill := by
  refine .inspect (fun _ _ _ => rfl) fun _ => .ite (.raises nofun) (ThroughPorts.read.seq fun r => ?_)
  cases r with
  | none => exact .done _
  | some v => exact (throughPorts_bbAppendBits _).seq fun _ => .done _

theorem throughPorts_bbFillCommand : ThroughPorts bbFillCommand := by
  refine throughPorts_bbFill.seq fun r => ?_
  cases r <;> exact .done _

/-! ### Frequency table, trees and codes -/

theorem throughPorts_freqClr : ThroughPorts freqClr := .update {}

theorem throughPorts_freqInc (v : Byte) : ThroughPorts (freqInc v) :=
  .inspect (fun _ _ _ => rfl) fun s => (ThroughPorts.needed s.freq).seq fun _ => .inspect (fun _ _ _ => rfl) fun _ =>
    .ite (.raises nofun) (.update {})

theorem throughPorts_freqScanPasses (n : Nat) : ThroughPorts (freqScanPasses n) := by
  induction n with
  | zero => exact .done ()
  | succ n ih =>
    refine ThroughPorts.read.seq fun r => ?_
    cases r with
    | none => exact .done ()
    | some v => exact (throughPorts_freqInc v).seq fun _ => ih

theorem cleanup_freqScanStopped : Cleanup freqScanStopped where
  blind r := by cases r <;> exact {}
  same r s := by cases r <;> exact {}

theorem throughPorts_freqScan : ThroughPorts freqScan :=
  throughPorts_freqClr.seq fun _ => .inspect (fun _ _ _ => rfl) fun _ => (throughPorts_freqScanPasses _).cleanup cleanup_freqScanStopped

theorem throughPorts_treeBuild : ThroughPorts treeBuild := by
  refine .inspect (fun _ _ _ => rfl) fun s => (ThroughPorts.needed s.freq).seq fun f => .inspect (fun _ _ _ => rfl) fun _ =>
    .ite (.raises nofun) ?_
  cases buildTree f with
  | none => exact .raises nofun
  | some t => exact .update {}

theorem throughPorts_codeGen : ThroughPorts codeGen :=
  .inspect (fun _ _ _ => rfl) fun s => (ThroughPorts.needed s.tree).seq fun _ => .update {}

/-! ### Serializer and deserializer -/

theorem throughPorts_serNodes (t : Tree) : ThroughPorts (serNodes t) := by
  induction t with
  | leaf i w v => exact (throughPorts_bbAppendBits _).seq fun _ => (throughPorts_bbAppendBits _).seq fun _ => throughPorts_bbDrain
  | branch i w l r ihl ihr => exact (throughPorts_bbAppendBits _).seq fun _ => throughPorts_bbDrain.seq fun _ => ihl.seq fun _ => ihr

theorem throughPorts_treeSer : ThroughPorts treeSer :=
  .inspect (fun _ _ _ => rfl) fun s => (ThroughPorts.needed s.tree).seq throughPorts_serNodes

theorem throughPorts_enterNode : ThroughPorts enterNode := .inspect (fun _ _ _ => rfl) fun _ => .ite (.raises nofun) (.done ())

theorem throughPorts_checkNodeFree : ThroughPorts checkNodeFree := .inspect (fun _ _ _ => rfl) fun _ => .ite (.raises nofun) (.done ())

theorem throughPorts_holdToken (q : Bits) : ThroughPorts (holdToken q) := .update {}

theorem throughPorts_tokenBranch : ThroughPorts tokenBranch :=
  throughPorts_enterNode.seq fun _ => throughPorts_checkNodeFree.seq fun _ => .update {}

theorem throughPorts_tokenLeaf (v : Byte) : ThroughPorts (tokenLeaf v) :=
  throughPorts_enterNode.seq fun _ => throughPorts_checkNodeFree.seq fun _ => .update {}

theorem throughPorts_demandBits (n : Nat) : ThroughPorts (demandBits n) := by
  refine .inspect (fun _ _ _ => rfl) fun _ => .ite (throughPorts_bbFill.seq fun r => ?_) (.done ())
  cases r <;> exact .inspect (fun _ _ _ => rfl) fun _ => .ite (.raises nofun) (.done ())

theorem throughPorts_desToken : ThroughPorts desToken :=
  throughPorts_enterNode.seq fun _ => (throughPorts_demandBits 1).seq fun _ => (throughPorts_bbPeek 0).seq fun _ =>
    (throughPorts_bbDrop 1).seq fun _ => (throughPorts_holdToken _).seq fun _ => throughPorts_checkNodeFree.seq fun _ =>
    .ite ((throughPorts_demandBits 8).seq fun _ => .inspect (fun _ _ _ => rfl) fun _ => (throughPorts_bbDrop 8).seq fun _ =>
      (throughPorts_holdToken _).seq fun _ => throughPorts_tokenLeaf _) throughPorts_tokenBranch

theorem throughPorts_desPasses (n : Nat) : ThroughPorts (desPasses n) := by
  induction n with
  | zero => exact .raises nofun
  | succ n ih =>
    refine throughPorts_desToken.seq fun _ => .inspect (fun _ _ _ => rfl) fun s => ?_
    cases s.des.whole with
    | some t => exact .done t
    | none => exact ih

theorem cleanup_dropTraversal : Cleanup dropTraversal where
  blind r := by cases r <;> exact {}
  same r s := by cases r <;> exact {}

theorem throughPorts_treeDes : ThroughPorts treeDes :=
  .seq (.update {}) fun _ => ((throughPorts_desPasses _).cleanup cleanup_dropTraversal).seq fun _ => .seq (.update {}) fun _ =>
    .ite (.raises nofun) (.update {})

/-! ### Encoder -/

theorem throughPorts_checkInputSize : ThroughPorts checkInputSize :=
  .inspect (fun _ _ _ => rfl) fun _ => .ite (.raises nofun) (.done ())

theorem throughPorts_hdrWrite : ThroughPorts hdrWrite :=
  throughPorts_checkInputSize.seq fun _ => .inspect (fun _ _ _ => rfl) fun _ => (ThroughPorts.write _).seq fun _ =>
    (ThroughPorts.write _).seq fun _ => (ThroughPorts.write _).seq fun _ => .write _

theorem throughPorts_payloadEncPasses (n : Nat) : ThroughPorts (payloadEncPasses n) := by
  induction n with
  | zero => exact .done ()
  | succ n ih =>
    refine ThroughPorts.read.seq fun r => ?_
    cases r with
    | none => exact .done ()
    | some v => exact (throughPorts_appendCode v).seq fun _ => throughPorts_bbDrain.seq fun _ => ih

/-- The contents of the new pass do not depend on the plan of its reads (R65). -/
theorem rewound_withPlan (a : Source) (p : List PortPlan) : Source.rewound { a with plan := p } = { a.rewound with plan := p } := by
  rcases a with ⟨_, _, _, _ | _⟩ <;> rfl

theorem planBlind_rewound : PlanBlind fun s => { s with src := s.src.rewound, srcEos := false } where
  plans p q s := by simp only [State.withPlans, rewound_withPlan]

theorem throughPorts_payloadEnc : ThroughPorts payloadEnc :=
  (ThroughPorts.update planBlind_rewound).seq fun _ => .inspect (fun _ _ _ => rfl) fun _ => throughPorts_payloadEncPasses _

theorem throughPorts_compressSteps : ThroughPorts compressSteps :=
  throughPorts_freqScan.seq fun _ => throughPorts_checkInputSize.seq fun _ => throughPorts_treeBuild.seq fun _ =>
    throughPorts_codeGen.seq fun _ => throughPorts_bbClear.seq fun _ => throughPorts_hdrWrite.seq fun _ => throughPorts_treeSer.seq fun _ =>
    throughPorts_bbFlush.seq fun _ => throughPorts_payloadEnc.seq fun _ => throughPorts_bbFlush

/-! ### Decoder -/

theorem throughPorts_hdrReadPasses (n c : Nat) : ThroughPorts (hdrReadPasses n c) := by
  induction n generalizing c with
  | zero => exact .done c
  | succ n ih =>
    refine ThroughPorts.read.seq fun r => ?_
    cases r with
    | none => exact .raises nofun
    | some v => exact ih _

theorem throughPorts_hdrRead : ThroughPorts hdrRead :=
  .seq (.update {}) fun _ => (throughPorts_hdrReadPasses _ 0).seq fun _ => .update {}

theorem throughPorts_topUpPasses (n : Nat) : ThroughPorts (topUpPasses n) := by
  induction n with
  | zero => exact .done ()
  | succ n ih =>
    refine .inspect (fun _ _ _ => rfl) fun _ => .ite (throughPorts_bbFill.seq fun r => ?_) (.done ())
    cases r with
    | filled => exact ih
    | eos => exact .done ()

theorem throughPorts_walkTree (t : Tree) (k : Nat) : ThroughPorts (walkTree t k) := by
  induction t generalizing k with
  | leaf i w v => exact .done (v, k)
  | branch i w l r ihl ihr =>
    exact .inspect (fun _ _ _ => rfl) fun _ => .ite (.raises nofun) ((throughPorts_bbPeek k).seq fun _ => .ite (ihr _) (ihl _))

theorem throughPorts_decSymbol : ThroughPorts decSymbol :=
  .inspect (fun _ _ _ => rfl) fun s => (ThroughPorts.needed s.tree).seq fun t => (throughPorts_topUpPasses 32).seq fun _ =>
    .inspect (fun _ _ _ => rfl) fun _ => .ite (.raises nofun) <| (throughPorts_walkTree t 0).seq fun _ => (ThroughPorts.write _).seq fun _ =>
    (throughPorts_bbDrop _).seq fun _ => .update {}

theorem throughPorts_payloadDecPasses (n : Nat) : ThroughPorts (payloadDecPasses n) := by
  induction n with
  | zero => exact .done ()
  | succ n ih =>
    exact .inspect (fun _ _ _ => rfl) fun _ => .inspect (fun _ _ _ => rfl) fun _ => .ite (throughPorts_decSymbol.seq fun _ => ih) (.done ())

theorem throughPorts_payloadDec : ThroughPorts payloadDec :=
  .seq (.update {}) fun _ => .inspect (fun _ _ _ => rfl) fun _ => throughPorts_payloadDecPasses _

theorem throughPorts_decompressSteps : ThroughPorts decompressSteps :=
  throughPorts_bbClear.seq fun _ => throughPorts_hdrRead.seq fun _ => throughPorts_treeDes.seq fun _ => throughPorts_bbClear.seq fun _ =>
    throughPorts_payloadDec

/-! ### Commands -/

theorem ThroughPorts.thenOk {m : Micro Unit} (hm : ThroughPorts m) : ThroughPorts (thenOk m) := hm.seq fun _ => .done _

/-- SOFT_RESET as an update of a running command. -/
def State.softCleared (s : State) : State := { s.engineReset with run := s.run }

/-- The command `i` of the idle engine `s` runs a body that is built from reads and writes of a byte, the same body whatever the plans. -/
def RunsBody (i : Instr) (s : State) : Prop :=
  ∃ composite body, ThroughPorts body ∧ ∀ p q, exec i (s.withPlans p q) = .next (settle composite body (s.withPlans p q))

/-- A refused command runs a body that only raises the refusal. -/
theorem runsBody_of_primitive {i : Instr} {s : State} (hr : s.run = .idle) (operandOk required : Bool) {body : Micro ResultCode}
    (hb : ThroughPorts body) (he : ∀ p q, exec i (s.withPlans p q) = primitive operandOk required body (s.withPlans p q)) : RunsBody i s := by
  have hidle : ∀ p q, (s.withPlans p q).run = .idle := fun _ _ => hr
  cases operandOk with
  | false => exact ⟨false, throw (.refuse .badOperand), .raises nofun, fun p q => by rw [he, primitive_badOperand (hidle p q)]; rfl⟩
  | true =>
    cases required with
    | false => exact ⟨false, throw (.refuse .badSequence), .raises nofun, fun p q => by rw [he, primitive_badSequence (hidle p q)]; rfl⟩
    | true => exact ⟨false, body, hb, fun p q => by rw [he, primitive_runs (hidle p q)]⟩

theorem runsBody_of_composite {i : Instr} {s : State} (hr : s.run = .idle) {m : Micro Unit} (hm : ThroughPorts m)
    (he : ∀ p q, exec i (s.withPlans p q) = composite m (s.withPlans p q)) : RunsBody i s :=
  ⟨true, do m; modify State.released; pure .ok, hm.seq fun _ => .seq (.update {}) fun _ => .done _,
    fun p q => by rw [he, composite, accept_idle (by exact hr)]⟩

theorem runsBody_softReset {s : State} (hr : s.run = .idle) : RunsBody .softReset s := by
  refine ⟨false, thenOk (modify State.softCleared), (ThroughPorts.update {}).thenOk, fun p q => ?_⟩
  have hidle : (s.withPlans p q).run = .idle := hr
  have he : exec .softReset (s.withPlans p q) = execSoftReset (s.withPlans p q) := rfl
  rw [he, execSoftReset, hidle]
  rfl

theorem command_runsBody {i : Instr} {s : State} (hc : i.isCommand = true) (hr : s.run = .idle) : RunsBody i s := by
  cases i with
  | nop => exact runsBody_of_primitive hr true true (.done .ok) fun _ _ => rfl
  | softReset => exact runsBody_softReset hr
  | release => exact runsBody_of_primitive hr true true (ThroughPorts.update {}).thenOk fun _ _ => rfl
  | bbClear => exact runsBody_of_primitive hr true true throughPorts_bbClear.thenOk fun _ _ => rfl
  | bbAppendBit b => exact runsBody_of_primitive hr (bitOperandOk b) true (throughPorts_bbAppendBits _).thenOk fun _ _ => rfl
  | bbAppendByte v => exact runsBody_of_primitive hr (byteOperandOk v) true (throughPorts_bbAppendBits _).thenOk fun _ _ => rfl
  | bbAppendCode v => exact runsBody_of_primitive hr (byteOperandOk v) s.codeValid (throughPorts_appendCode _).thenOk fun _ _ => rfl
  | bbDrop n => exact runsBody_of_primitive hr (countOperandOk n) true (throughPorts_bbDrop _).thenOk fun _ _ => rfl
  | bbDrain => exact runsBody_of_primitive hr true true throughPorts_bbDrain.thenOk fun _ _ => rfl
  | bbFlush => exact runsBody_of_primitive hr true true throughPorts_bbFlush.thenOk fun _ _ => rfl
  | bbFill => exact runsBody_of_primitive hr true true throughPorts_bbFillCommand fun _ _ => rfl
  | freqClr => exact runsBody_of_primitive hr true true throughPorts_freqClr.thenOk fun _ _ => rfl
  | freqInc v => exact runsBody_of_primitive hr (byteOperandOk v) s.freqValid (throughPorts_freqInc _).thenOk fun _ _ => rfl
  | freqScan => exact runsBody_of_primitive hr true true throughPorts_freqScan.thenOk fun _ _ => rfl
  | treeBuild => exact runsBody_of_primitive hr true s.freqValid throughPorts_treeBuild.thenOk fun _ _ => rfl
  | codeGen => exact runsBody_of_primitive hr true s.treeValid throughPorts_codeGen.thenOk fun _ _ => rfl
  | treeSer => exact runsBody_of_primitive hr true s.treeValid throughPorts_treeSer.thenOk fun _ _ => rfl
  | treeDes => exact runsBody_of_primitive hr true true throughPorts_treeDes.thenOk fun _ _ => rfl
  | hdrWrite => exact runsBody_of_primitive hr true s.freqValid throughPorts_hdrWrite.thenOk fun _ _ => rfl
  | payloadEnc => exact runsBody_of_primitive hr true s.codeValid throughPorts_payloadEnc.thenOk fun _ _ => rfl
  | compress => exact runsBody_of_composite hr throughPorts_compressSteps fun _ _ => rfl
  | hdrRead => exact runsBody_of_primitive hr true true throughPorts_hdrRead.thenOk fun _ _ => rfl
  | decSymbol => exact runsBody_of_primitive hr true s.treeValid throughPorts_decSymbol.thenOk fun _ _ => rfl
  | payloadDec => exact runsBody_of_primitive hr true (s.treeValid && s.countValid) throughPorts_payloadDec.thenOk fun _ _ => rfl
  | decompress => exact runsBody_of_composite hr throughPorts_decompressSteps fun _ _ => rfl
  | branch | leaf => cases hc

end Sys2Proof.Machine
end

section
/-! PROOF. A port operation that is never answered (R79, R289): what is planned and done until a command ends, and how the command goes on when the
host answers that operation. -/

namespace Sys2Proof.Machine

variable {α β : Type} {s t : State} {port : Port} {rest p p' q q' : List PortPlan}

/-! ### What a run uses of the plans -/

/-- From the plan `p` to the plan `p'` every operation is answered, or fails. -/
def UsedUp (p p' : List PortPlan) : Prop := ∃ used, p = used ++ p' ∧ .never ∉ used

theorem UsedUp.refl (p : List PortPlan) : UsedUp p p := ⟨[], rfl, nofun⟩

theorem UsedUp.trans {p p' p'' : List PortPlan} (h : UsedUp p p') (h' : UsedUp p' p'') : UsedUp p p'' := by
  obtain ⟨l, rfl, hl⟩ := h
  obtain ⟨l', rfl, hl'⟩ := h'
  exact ⟨l ++ l', by simp, by simp [hl, hl']⟩

theorem usedUp_answered (h : PlanOk (p.take 1)) : UsedUp p (p.drop 1) :=
  ⟨p.take 1, (List.take_append_drop 1 p).symm, fun hn => nomatch h _ hn⟩

theorem usedUp_ioErr (p : List PortPlan) : UsedUp (.ioErr :: p) p := ⟨[.ioErr], rfl, by simp⟩

/-- Where every operation was answered, the last entry used is no silent one. -/
theorem UsedUp.no_silent_end (h : UsedUp p p') (before : List PortPlan) : p ≠ before ++ .never :: p' := by
  obtain ⟨used, rfl, hn⟩ := h
  intro e
  rw [← List.singleton_append, ← List.append_assoc] at e
  exact hn (List.append_cancel_right e ▸ by simp)

/-- The sink has accepted no less, and RUN_STATE is the same. -/
structure Onward (s t : State) : Prop where
  running : t.run = s.run
  out : s.snk.out <+: t.snk.out

/-- All port operations on the way are answered. -/
structure Answered (s t : State) : Prop where
  reads : UsedUp s.src.plan t.src.plan
  writes : UsedUp s.snk.plan t.snk.plan
  inFlight : t.snk.inFlight = s.snk.inFlight

/-- The last port operation is a read or a write that is never answered, those before it are answered. -/
inductive Unanswered (s t : State) : Prop
  | read (reads : UsedUp s.src.plan (.never :: t.src.plan)) (writes : UsedUp s.snk.plan t.snk.plan)
      (inFlight : t.snk.inFlight = s.snk.inFlight)
  | write (reads : UsedUp s.src.plan t.src.plan) (writes : UsedUp s.snk.plan (.never :: t.snk.plan))

/-- At a raise, only a hang leaves an operation unanswered. -/
def Stopped (s : State) (r : Raise) (t : State) : Prop := if r = .hang then Unanswered s t else Answered s t

theorem ThroughPorts.onward {m : Micro α} (hm : ThroughPorts m) (s : State) : Keeps (Onward s) m := by
  refine hm.triple ?read ?write ?update (fun _ _ _ h => h) ?cleanup
  case read =>
    intro t h
    obtain ⟨v, _, _, e⟩ | ⟨_, _, e⟩ | ⟨p, _, e⟩ | ⟨p, _, e⟩ := readByte_cases t <;> rw [e] <;> exact ⟨h.running, h.out⟩
  case write =>
    intro v t h
    obtain ⟨_, e⟩ | ⟨p, _, e⟩ | ⟨p, _, e⟩ := writeByte_cases v t <;> rw [e]
    · exact ⟨h.running, h.out.trans (List.prefix_append _ _)⟩
    · exact ⟨h.running, h.out⟩
    · exact ⟨h.running, h.out⟩
  case update => exact fun g hg t h => ⟨(hg.running t).trans h.running, (hg.sink t).symm ▸ h.out⟩
  case cleanup => exact fun g hg r t h => ⟨((hg.blind r).running t).trans h.running, ((hg.blind r).sink t).symm ▸ h.out⟩

theorem Answered.update {g : State → State} (hg : PlanBlind g) (h : Answered s t) : Answered s (g t) :=
  ⟨(hg.srcPlan t).symm ▸ h.reads, (hg.sink t).symm ▸ h.writes, (hg.sink t).symm ▸ h.inFlight⟩

theorem Unanswered.update {g : State → State} (hg : PlanBlind g) (h : Unanswered s t) : Unanswered s (g t) := by
  cases h with
  | read hr hw hf => exact .read ((hg.srcPlan t).symm ▸ hr) ((hg.sink t).symm ▸ hw) ((hg.sink t).symm ▸ hf)
  | write hr hw => exact .write ((hg.srcPlan t).symm ▸ hr) ((hg.sink t).symm ▸ hw)

/-- A run that does not hang has all its operations answered; one that hangs has not. -/
theorem ThroughPorts.stopped {m : Micro α} (hm : ThroughPorts m) (s : State) : Triple (Answered s) m (fun _ => Answered s) (Stopped s) := by
  refine hm.triple ?read ?write (fun g hg t h => h.update hg) ?raise ?cleanup
  case read =>
    intro t ⟨hr, hw, hf⟩
    obtain ⟨v, hp, _, e⟩ | ⟨hp, _, e⟩ | ⟨p, hp, e⟩ | ⟨p, hp, e⟩ := readByte_cases t <;> rw [e]
    · exact ⟨hr.trans (usedUp_answered hp), hw, hf⟩
    · exact ⟨hr.trans (usedUp_answered hp), hw, hf⟩
    · exact ⟨hr.trans (hp ▸ usedUp_ioErr p), hw, hf⟩
    · exact .read (hp ▸ hr) hw hf
  case write =>
    intro v t ⟨hr, hw, hf⟩
    obtain ⟨hp, e⟩ | ⟨p, hp, e⟩ | ⟨p, hp, e⟩ := writeByte_cases v t <;> rw [e]
    · exact ⟨hr, hw.trans (usedUp_answered hp), hf⟩
    · exact ⟨hr, hw.trans (hp ▸ usedUp_ioErr p), hf⟩
    · exact .write hr (hp ▸ hw)
  case raise =>
    intro r t hr h
    rwa [Stopped, if_neg hr]
  case cleanup =>
    intro g hg r t h
    by_cases hr : r = .hang
    · rw [Stopped, if_pos hr] at h ⊢
      exact h.update (hg.blind r)
    · rw [Stopped, if_neg hr] at h ⊢
      exact h.update (hg.blind r)

/-! ### The run in which the host answers -/

inductive Port where
  | source
  | sink

/-- The plans `p'` and `q'` are `p` and `q` with a silent entry of one port, `rest` behind it, made a failing read or an answered write. -/
inductive PlansMended (rest : List PortPlan) : Port → (p q p' q' : List PortPlan) → Prop
  | read (before q : List PortPlan) : PlansMended rest .source (before ++ .never :: rest) q (before ++ .ioErr :: rest) q
  | write (p before : List PortPlan) : PlansMended rest .sink p (before ++ .never :: rest) p (before ++ .answers :: rest)

/-- A state and the same state with mended plans. -/
inductive Mended (rest : List PortPlan) (port : Port) (s : State) : State → Prop
  | intro {p q : List PortPlan} (h : PlansMended rest port s.src.plan s.snk.plan p q) : Mended rest port s (s.withPlans p q)

/-- The state in which a micro-operation ends. -/
def endState : EStateM.Result Raise State α → State
  | .ok _ t => t
  | .error _ t => t

/-- How the runs from a state and from its mended state end: alike as long as the mended entry is not reached; at the entry the first hangs, and the
second fails, or writes the byte that is in flight in the first. -/
inductive Paired (rest : List PortPlan) : Port → (x x' : EStateM.Result Raise State α) → Prop
  | ok {port : Port} {a : α} {t t' : State} (h : Mended rest port t t') : Paired rest port (.ok a t) (.ok a t')
  | error {port : Port} {r : Raise} {t t' : State} (h : Mended rest port t t') : Paired rest port (.error r t) (.error r t')
  | failed {t u : State} (h : SamePorts t u) : Paired rest .source (.error .hang t) (.error (.err .ioSrc) u)
  | written {t : State} {x' : EStateM.Result Raise State α} {v : Byte} (hv : t.snk.inFlight = some v)
      (h : t.snk.out ++ [v] <+: (endState x').snk.out) : Paired rest .sink (.error .hang t) x'

/-- From a state and its mended state `m` runs to paired ends. -/
def Pairs (m : Micro α) : Prop := ∀ rest port s s', Mended rest port s s' → Paired rest port (m s) (m s')

theorem Mended.update {g : State → State} {s' : State} (hg : PlanBlind g) (h : Mended rest port s s') : Mended rest port (g s) (g s') := by
  obtain @⟨p, q, h⟩ := h
  rw [hg.plans]
  exact .intro (by rwa [hg.srcPlan, hg.sink])

/-- The next read is the mended one, or it is planned alike in both runs. -/
theorem PlansMended.nextRead (h : PlansMended rest port p q p' q') :
    (port = .source ∧ p = .never :: rest ∧ p' = .ioErr :: rest ∧ q' = q)
    ∨ (p'.take 1 = p.take 1 ∧ PlansMended rest port (p.drop 1) q (p'.drop 1) q') := by
  cases h with
  | read before =>
    cases before with
    | nil => exact .inl ⟨rfl, rfl, rfl, rfl⟩
    | cons a before => exact .inr ⟨rfl, .read before q⟩
  | write _ before => exact .inr ⟨rfl, .write _ before⟩

/-- The next write is the mended one, or it is planned alike in both runs. -/
theorem PlansMended.nextWrite (h : PlansMended rest port p q p' q') :
    (port = .sink ∧ q = .never :: rest ∧ q' = .answers :: rest ∧ p' = p)
    ∨ (q'.take 1 = q.take 1 ∧ PlansMended rest port p (q.drop 1) p' (q'.drop 1)) := by
  cases h with
  | read before => exact .inr ⟨rfl, .read before _⟩
  | write _ before =>
    cases before with
    | nil => exact .inl ⟨rfl, rfl, rfl, rfl⟩
    | cons a before => exact .inr ⟨rfl, .write p before⟩

theorem eq_cons_drop_of_take {a : PortPlan} (h : p'.take 1 = p.take 1) (hp : p = a :: q) : p' = a :: p'.drop 1 := by
  subst hp
  rw [← List.take_append_drop 1 p', h]
  rfl

theorem pairs_readByte : Pairs readByte := by
  rintro rest port s _ @⟨p, q, h⟩
  obtain ⟨rfl, hp, rfl, rfl⟩ | ⟨htake, h⟩ := h.nextRead
  · rw [readByte_never hp, readByte_ioErr rfl]
    exact .failed {}
  · obtain ⟨v, hp, hv, e⟩ | ⟨hp, hv, e⟩ | ⟨l, hp, e⟩ | ⟨l, hp, e⟩ := readByte_cases s <;> rw [e]
    · rw [readByte_byte (s := s.withPlans p q) (htake ▸ hp) hv]
      exact .ok (.intro h)
    · rw [readByte_eos (s := s.withPlans p q) (htake ▸ hp) hv]
      exact .ok (.intro h)
    · rw [readByte_ioErr (s := s.withPlans p q) (eq_cons_drop_of_take htake hp)]
      exact .error (.intro (by simpa [hp] using h))
    · rw [readByte_never (s := s.withPlans p q) (eq_cons_drop_of_take htake hp)]
      exact .error (.intro (by simpa [hp] using h))

theorem pairs_writeByte (v : Byte) : Pairs (writeByte v) := by
  rintro rest port s _ @⟨p, q, h⟩
  obtain ⟨rfl, hq, rfl, rfl⟩ | ⟨htake, h⟩ := h.nextWrite
  · rw [writeByte_never v hq, writeByte_ok (s := s.withPlans _ _) v (by simp [State.withPlans, PlanOk])]
    exact .written rfl (List.prefix_refl _)
  · obtain ⟨hq, e⟩ | ⟨l, hq, e⟩ | ⟨l, hq, e⟩ := writeByte_cases v s <;> rw [e]
    · rw [writeByte_ok (s := s.withPlans p q) v (htake ▸ hq)]
      exact .ok (.intro h)
    · rw [writeByte_ioErr (s := s.withPlans p q) v (eq_cons_drop_of_take htake hq)]
      exact .error (.intro (by simpa [hq] using h))
    · rw [writeByte_never (s := s.withPlans p q) v (eq_cons_drop_of_take htake hq)]
      exact .error (.intro (by simpa [hq] using h))

theorem ThroughPorts.out_prefix {m : Micro α} (hm : ThroughPorts m) (s : State) : s.snk.out <+: (endState (m s)).snk.out := by
  have h := hm.onward s s ⟨rfl, List.prefix_refl _⟩
  cases hs : m s with
  | ok a t => exact (hs ▸ h).out
  | error r t => exact (hs ▸ h).out

/-- After a hang nothing follows; the run in which the host answers goes on, and the sink keeps what it has. -/
theorem Pairs.seq {m : Micro α} {f : α → Micro β} (hm : Pairs m) (hf : ∀ a, Pairs (f a)) (hports : ∀ a, ThroughPorts (f a)) :
    Pairs (m >>= f) := by
  intro rest port s s' h
  have hpair := hm rest port s s' h
  rw [micro_bind, micro_bind]
  generalize m s = x at hpair ⊢
  generalize m s' = x' at hpair ⊢
  cases hpair with
  | ok h => exact hf _ rest port _ _ h
  | error h => exact .error h
  | failed hsame => exact .failed hsame
  | written hv hout =>
    refine .written hv ?_
    cases x' with
    | ok a u => exact hout.trans ((hports a).out_prefix u)
    | error r u => exact hout

theorem Pairs.cleanup {g : Raise → State → State} {m : Micro α} (hg : Cleanup g) (hm : Pairs m) : Pairs (onRaise g m) := by
  intro rest port s s' h
  have hpair := hm rest port s s' h
  rw [onRaise, onRaise]
  generalize m s = x at hpair ⊢
  generalize m s' = x' at hpair ⊢
  cases hpair with
  | ok h => exact .ok h
  | error h => exact .error (h.update (hg.blind _))
  | failed hsame => exact .failed (((hg.same _ _).symm.trans hsame).trans (hg.same _ _))
  | @written t _ v hv hout =>
    refine .written (v := v) (by rwa [(hg.blind .hang).sink t]) ?_
    rw [(hg.blind .hang).sink t]
    cases x' with
    | ok a u => exact hout
    | error r u => exact ((hg.blind r).sink u).symm ▸ hout

theorem ThroughPorts.pairs {m : Micro α} (hm : ThroughPorts m) : Pairs m := by
  induction hm with
  | done a => exact fun _ _ _ _ h => .ok h
  | raises _ => exact fun _ _ _ _ h => .error h
  | update hg => exact fun _ _ _ _ h => .ok (h.update hg)
  | read => exact pairs_readByte
  | write v => exact pairs_writeByte v
  | inspect hblind _ ih =>
    rintro rest port s _ @⟨p, q, h⟩
    rw [micro_get_bind, micro_get_bind, hblind]
    exact ih s rest port s _ (.intro h)
  | seq _ hf ihm ihf => exact ihm.seq ihf hf
  | cleanup hg _ ih => exact ih.cleanup hg

/-! ### Where the mended entry is reached -/

theorem append_silent_ne (before rest : List PortPlan) : before ++ .never :: rest ≠ rest := by
  intro e
  have hlen := congrArg List.length e
  rw [List.length_append, List.length_cons] at hlen
  omega

/-- While the mended entry is ahead, more is planned than what stands behind it. -/
theorem PlansMended.reads_ne_rest (h : PlansMended rest .source p q p' q') : p ≠ rest := by
  cases h with
  | read before => exact append_silent_ne before rest

theorem PlansMended.writes_ne_rest (h : PlansMended rest .sink p q p' q') : q ≠ rest := by
  cases h with
  | write _ before => exact append_silent_ne before rest

/-- Once the mended read is reached, it fails. -/
theorem Paired.failed_of_reached {x' : EStateM.Result Raise State α} (h : Paired t.src.plan .source (.error .hang t) x') :
    ∃ u, x' = .error (.err .ioSrc) u ∧ SamePorts t u := by
  cases h with
  | error h =>
    obtain @⟨_, _, h⟩ := h
    exact absurd rfl h.reads_ne_rest
  | failed hsame => exact ⟨_, rfl, hsame⟩

/-- Once the mended write is reached, the sink accepts the byte in flight. -/
theorem Paired.written_of_reached {x' : EStateM.Result Raise State α} (h : Paired t.snk.plan .sink (.error .hang t) x') :
    ∃ v, t.snk.inFlight = some v ∧ t.snk.out ++ [v] <+: (endState x').snk.out := by
  cases h with
  | error h =>
    obtain @⟨_, _, h⟩ := h
    exact absurd rfl h.writes_ne_rest
  | written hv hout => exact ⟨_, hv, hout⟩

end Sys2Proof.Machine
end

section
/-! PROOF. Commands whose port operation is never answered (R79, R289), and the BUSY engine they leave (R21, R286). -/

namespace Sys2Proof.Machine

variable {s t : State} {r : Raise} {port : Port} {rest p q : List PortPlan} {composite : Bool} {body : Micro ResultCode}

/-! ### What a command leaves -/

/-- Completing a command touches neither the ports nor the counts. -/
theorem samePorts_raised (composite : Bool) (r : Raise) (s : State) : SamePorts s (s.raised composite r) := by
  cases composite <;> cases r <;> exact {}

theorem settle_snk (composite : Bool) (body : Micro ResultCode) (s : State) :
    (settle composite body s).snk = (endState (body s.started)).snk := by
  rw [settle]
  cases body s.started with
  | ok c t => rfl
  | error r t => exact (samePorts_raised composite r t).snk

theorem raised_run_ne_busy (hr : r ≠ .hang) : (s.raised composite r).run ≠ .busy := by
  cases r with
  | err | refuse | fault => exact nofun
  | hang => exact absurd rfl hr

/-- A command either leaves BUSY with every port operation answered, or hangs at an unanswered one. -/
theorem settle_ends (hb : ThroughPorts body) (ht : settle composite body s = t) :
    (t.run ≠ .busy ∧ Answered s t) ∨ (t.run = .busy ∧ Unanswered s t ∧ body s.started = .error .hang t) := by
  have hstart : Answered s s.started := ⟨.refl _, .refl _, rfl⟩
  rw [← ht, settle]
  cases hm : body s.started with
  | ok c t =>
    have hans := (hb.stopped s).of_ok hstart hm
    exact .inl ⟨nofun, hans.reads, hans.writes, hans.inFlight⟩
  | error r t =>
    have hstop := (hb.stopped s).of_error hstart hm
    by_cases hr : r = .hang
    · subst hr
      exact .inr ⟨((hb.onward s.started).of_error ⟨rfl, List.prefix_refl _⟩ hm).running, hstop, rfl⟩
    · rw [Stopped, if_neg hr] at hstop
      have hsame := samePorts_raised composite r t
      exact .inl ⟨raised_run_ne_busy hr, hsame.src.symm ▸ hstop.reads, hsame.snk.symm ▸ hstop.writes, hsame.snk.symm ▸ hstop.inFlight⟩

theorem paired_of_hang (hb : ThroughPorts body) (hm : body s.started = .error .hang t)
    (h : PlansMended rest port s.src.plan s.snk.plan p q) :
    Paired rest port (.error .hang t) (body (s.withPlans p q).started) := by
  rw [← hm]
  exact hb.pairs rest port s.started _ (.intro h)

/-- A command whose last read is never answered, and the same command with that read failing. -/
theorem settle_silentRead (hb : ThroughPorts body) {before : List PortPlan} (ht : settle composite body s = t)
    (hs : s.src.plan = before ++ .never :: t.src.plan) :
    t.run = .busy ∧ t.snk.inFlight = s.snk.inFlight
    ∧ (settle composite body (s.withPlans (before ++ .ioErr :: t.src.plan) s.snk.plan)).result = .err .ioSrc
    ∧ SamePorts t (settle composite body (s.withPlans (before ++ .ioErr :: t.src.plan) s.snk.plan)) := by
  obtain ⟨_, hans⟩ | ⟨hrun, hun, hm⟩ := settle_ends hb ht
  · exact absurd hs (hans.reads.no_silent_end before)
  cases hun with
  | write hreads _ => exact absurd hs (hreads.no_silent_end before)
  | read _ _ hflight =>
    have hmend : PlansMended t.src.plan .source s.src.plan s.snk.plan (before ++ .ioErr :: t.src.plan) s.snk.plan := hs ▸ .read before _
    obtain ⟨u, hu, hsame⟩ := (paired_of_hang hb hm hmend).failed_of_reached
    rw [settle_error hu]
    exact ⟨hrun, hflight, by cases composite <;> rfl, hsame.trans (samePorts_raised composite _ u)⟩

/-- A command whose last write is never answered, and the same command with that write answered. -/
theorem settle_silentWrite (hb : ThroughPorts body) {before : List PortPlan} (ht : settle composite body s = t)
    (hs : s.snk.plan = before ++ .never :: t.snk.plan) :
    t.run = .busy ∧ ∃ v, t.snk.inFlight = some v
      ∧ t.snk.out ++ [v] <+: (settle composite body (s.withPlans s.src.plan (before ++ .answers :: t.snk.plan))).snk.out := by
  obtain ⟨_, hans⟩ | ⟨hrun, _, hm⟩ := settle_ends hb ht
  · exact absurd hs (hans.writes.no_silent_end before)
  have hmend : PlansMended t.snk.plan .sink s.src.plan s.snk.plan s.src.plan (before ++ .answers :: t.snk.plan) := hs ▸ .write _ before
  rw [settle_snk]
  exact ⟨hrun, (paired_of_hang hb hm hmend).written_of_reached⟩

/-! ### The first operation of BB_FILL and HDR_WRITE -/

theorem bbFill_never (hroom : s.bb.length + 8 ≤ Config.bbCap) (hp : s.src.plan = .never :: p) :
    bbFill s = .error .hang { s with src := { s.src with plan := p } } := by
  have hfree : ¬ s.bb.length + 8 > Config.bbCap := by omega
  rw [bbFill, micro_get_bind, if_neg hfree, micro_bind_error (readByte_never hp)]

theorem exec_bbFill_never (hr : s.run = .idle) (hroom : s.bb.length + 8 ≤ Config.bbCap) (hp : s.src.plan = .never :: p) :
    exec .bbFill s = .next { s with run := .busy, src := { s.src with plan := p } } := by
  have hbody : bbFillCommand s.started = _ := micro_bind_error (bbFill_never (s := s.started) hroom hp) _
  have he : exec .bbFill s = primitive true true bbFillCommand s := rfl
  rw [he, primitive_runs hr, settle_error hbody]
  rfl

theorem hdrWrite_never (hsize : Config.minInput ≤ s.total.toNat) (hp : s.snk.plan = .never :: p) :
    hdrWrite s = .error .hang { s with snk := { s.snk with plan := p, inFlight := some (countByte s.total 3) } } := by
  have hcheck : checkInputSize s = .ok () s := by
    rw [checkInputSize, micro_get_bind, if_neg (by omega), micro_pure]
  rw [hdrWrite, micro_bind_ok hcheck, micro_get_bind, hdrBytesOut, micro_bind_error (writeByte_never _ hp)]

theorem exec_hdrWrite_never (hr : s.run = .idle) (hfreq : s.freq.isSome = true) (hsize : 2 ≤ s.total.toNat)
    (hp : s.snk.plan = .never :: p) :
    exec .hdrWrite s
      = .next { s with run := .busy, snk := { s.snk with plan := p, inFlight := some (s.total.extractLsb' 24 8) } } := by
  have he : exec .hdrWrite s = primitive true s.freq.isSome (thenOk hdrWrite) s := rfl
  rw [he, hfreq, primitive_thenOk_error hr (hdrWrite_never (s := s.started) hsize hp)]
  rfl

/-! ### A BUSY engine -/

theorem exec_busy {i : Instr} (hc : i.isCommand = true) (hr : s.run = .busy) : exec i s = .fault .cmdWhileBusy := by
  cases i with
  | softReset =>
    have he : exec .softReset s = execSoftReset s := rfl
    rw [he, execSoftReset, hr]
  | compress | decompress => exact composite_busy hr _
  | branch | leaf => cases hc
  | _ => exact primitive_busy hr _ _ _

theorem step_writeCmd_busy {w : Word} {acts : List HostAct} (hr : s.run = .busy) (htoken : heldToken s = none)
    (hh : s.host = .writeReg 0 w :: acts) : step s = .fault .cmdWhileBusy := by
  have hact : hostAct exec (.writeReg 0 w) { s with host := acts } = writeCmd exec w { s with host := acts } := rfl
  rw [step_hostAct htoken hh, hact, writeCmd, hr]

/-- No act of the host but hard reset leads out of BUSY (R289). -/
theorem step_stays_busy (hr : s.run = .busy) (htoken : heldToken s = none) (he : step s = .next t) :
    t.run = .busy ∨ ∃ acts, s.host = .hardReset :: acts := by
  cases hh : s.host with
  | nil =>
    rw [step_waits htoken hh] at he
    cases he
    exact .inl hr
  | cons a acts =>
    cases a with
    | hardReset => exact .inr ⟨acts, rfl⟩
    | writeReg index w =>
      by_cases hi : index = 0
      · subst hi
        rw [step_writeCmd_busy hr htoken hh] at he
        cases he
      · rw [step_write_readOnly htoken hh hi] at he
        cases he
        exact .inl hr
    | readReg | attachSource | attachSink =>
      rw [step_hostAct htoken hh] at he
      cases he
      exact .inl hr

/-! ### The obligation -/

/-- The plans' entries a command of an idle engine has used, and that it is BUSY exactly when one of them is silent. -/
theorem settle_plansUsed (hb : ThroughPorts body) (ht : settle composite body s = t) :
    ∃ reads writes, s.src.plan = reads ++ t.src.plan ∧ s.snk.plan = writes ++ t.snk.plan
      ∧ (t.run = .busy ↔ .never ∈ reads ∨ .never ∈ writes) := by
  obtain ⟨hrun, ⟨reads, hreads, hnr⟩, ⟨writes, hwrites, hnw⟩, _⟩ | ⟨hrun, hun, _⟩ := settle_ends hb ht
  · exact ⟨reads, writes, hreads, hwrites, by simp [hrun, hnr, hnw]⟩
  obtain ⟨⟨reads, hreads, _⟩, ⟨writes, hwrites, _⟩, _⟩ | ⟨⟨reads, hreads, _⟩, ⟨writes, hwrites, _⟩⟩ := hun
  · exact ⟨reads ++ [.never], writes, by simpa using hreads, hwrites, by simp [hrun]⟩
  · exact ⟨reads, writes ++ [.never], hreads, by simpa using hwrites, by simp [hrun]⟩

theorem settle_inFlight (hb : ThroughPorts body) (ht : settle composite body s = t) (hrun : t.run ≠ .busy) :
    t.snk.inFlight = s.snk.inFlight := by
  obtain ⟨_, hans⟩ | ⟨hbusy, _⟩ := settle_ends hb ht
  · exact hans.inFlight
  · exact absurd hbusy hrun

/-- Settles O57: every command runs a body that reaches the ports through reads and writes of a byte. -/
theorem unansweredPortLeavesTheEngineBusy : Obligations.UnansweredPortLeavesTheEngineBusy := by
  refine ⟨fun i s t hc hr he => ?command, fun s p => exec_bbFill_never, fun s p => exec_hdrWrite_never, fun s hr => ?busy⟩
  case command =>
    obtain ⟨composite, body, hb, hexec⟩ := command_runsBody hc hr
    have ht : settle composite body s = t := by
      have hself := hexec s.src.plan s.snk.plan
      rw [withPlans_same, he] at hself
      exact (Host.Outcome.next.inj hself).symm
    refine ⟨settle_plansUsed hb ht, settle_inFlight hb ht, fun before hs => ?read, fun before hs => ?write⟩
    case read =>
      obtain ⟨hrun, hflight, hresult, hsame⟩ := settle_silentRead hb ht hs
      exact ⟨hrun, hflight, _, hexec _ _, hresult, hsame.src, hsame.srcEos, hsame.snk, hsame.total, hsame.count, hsame.emitted⟩
    case write =>
      obtain ⟨hrun, v, hv, hout⟩ := settle_silentWrite hb ht hs
      exact ⟨hrun, v, _, hv, hexec _ _, hout⟩
  case busy =>
    exact ⟨fun t htoken => step_stays_busy hr htoken, fun w acts htoken => step_writeCmd_busy hr htoken, fun i hc => exec_busy hc hr⟩

end Sys2Proof.Machine
end

section
/-! PROOF. The command words (R91 to R94): which word each command is, and what the decoder answers on every word. -/

namespace Sys2Proof

open Sys2Proof.Machine Sys2Proof.Laws

variable {w : Word} {i : Instr} {opc : Byte} {m : Nat}

/-! ### Tables R92 and R93 -/

theorem isCommand_of_opcode (h : opcodeOf i = some opc) : i.isCommand = true := by
  cases i with
  | branch | leaf => cases h
  | _ => rfl

/-- Well-formedness is the range that the opcode's row of table R92 accepts. -/
theorem wellFormed_iff_operand_le (h : opcodeOf i = some opc) (hm : operandMax opc.toNat = some m) :
    i.wellFormed = true ↔ (operandOf i).toNat ≤ m := by
  cases i with
  | branch | leaf => cases h
  | _ =>
    cases h
    cases hm
    simp [Instr.wellFormed, operandOf]

/-! ### The fields of a word -/

/-- A word is its three fields (table R91). -/
theorem commandWord_of_rsv_zero (h : rsvField w = 0) : commandWord (opcField w) (opdField w) = w := by
  have hrsv : (rsvField w).toNat = 0 := by rw [h]; rfl
  apply BitVec.eq_of_toNat_eq
  simp only [rsvField, BitVec.extractLsb'_toNat, Nat.shiftRight_eq_div_pow] at hrsv
  simp only [commandWord_toNat, opcField, opdField, BitVec.extractLsb'_toNat, Nat.shiftRight_eq_div_pow]
  have hw := w.isLt
  omega

theorem encode_of_opcode (h : opcodeOf i = some opc) : encode i = .word (commandWord opc (operandOf i)) := by
  rw [encode, h]

/-! ### The decoder on every word -/

/-- The command `i` that tables R92 and R93 give the opcode and the operand of `w`, and the greatest operand `m` it accepts. -/
structure Selects (w : Word) (m : Nat) (i : Instr) : Prop where
  range : operandMax (opcField w).toNat = some m
  opcode : opcodeOf i = some (opcField w)
  operand : operandOf i = if m = 0 then 0 else opdField w

theorem selects_of_opcode (hi : opcodeOf i = some opc) (hopc : (opcField w).toNat = opc.toNat) (hm : operandMax opc.toNat = some m)
    (hopd : operandOf i = if m = 0 then 0 else opdField w) : Selects w m i :=
  ⟨hopc ▸ hm, BitVec.eq_of_toNat_eq hopc ▸ hi, hopd⟩

/-- Everything the decoder can do: no row of table R93 for the word, or the range check of the command it selects. -/
theorem decodeWord_cases (w : Word) :
    ((rsvField w ≠ 0 ∨ operandMax (opcField w).toNat = none) ∧ decodeWord w = .reject .illegalCmd)
    ∨ (rsvField w = 0 ∧ ∃ m i, decodeWord w = withOperand (opdField w) m i ∧ Selects w m i) := by
  unfold decodeWord
  split
  next hrsv => exact .inl ⟨.inl hrsv, rfl⟩
  next hrsv =>
    have hrsv : rsvField w = 0 := by simpa using hrsv
    split
    case h_26 =>
      have hunlisted : operandMax (opcField w).toNat = none := by simp_all [operandMax]
      exact .inl ⟨.inr hunlisted, rfl⟩
    all_goals
      next hopc => exact .inr ⟨hrsv, _, _, rfl, selects_of_opcode rfl hopc rfl rfl⟩

theorem Selects.isCommand (h : Selects w m i) : i.isCommand = true := isCommand_of_opcode h.opcode

theorem Selects.wellFormed (h : Selects w m i) (hle : (opdField w).toNat ≤ m) : i.wellFormed = true := by
  rw [wellFormed_iff_operand_le h.opcode h.range, h.operand]
  split
  · exact Nat.zero_le m
  · exact hle

/-- An operand in range is the selected command's, also where it must be 0. -/
theorem Selects.operandOf_eq (h : Selects w m i) (hle : (opdField w).toNat ≤ m) : operandOf i = opdField w := by
  rw [h.operand]
  split
  next hm => exact (BitVec.eq_of_toNat_eq (Nat.le_zero.mp (hm ▸ hle))).symm
  next => rfl

theorem withOperand_eq_ok {opd : Opd} {j : Instr} (h : withOperand opd m j = .ok i) : opd.toNat ≤ m ∧ j = i := by
  rw [withOperand] at h
  split at h
  next hle => exact ⟨hle, Decoded.ok.inj h⟩
  next => cases h

theorem decodeWord_illegal (h : rsvField w ≠ 0 ∨ operandMax (opcField w).toNat = none) : decodeWord w = .reject .illegalCmd := by
  obtain ⟨_, hd⟩ | ⟨hrsv, _, _, _, hsel⟩ := decodeWord_cases w
  · exact hd
  · simp [hrsv, hsel.range] at h

theorem decodeWord_listed (hrsv : rsvField w = 0) (hm : operandMax (opcField w).toNat = some m) :
    ∃ i, decodeWord w = withOperand (opdField w) m i ∧ Selects w m i := by
  obtain ⟨hbad, _⟩ | ⟨_, n, i, hd, hsel⟩ := decodeWord_cases w
  · simp [hrsv, hm] at hbad
  · cases hm.symm.trans hsel.range
    exact ⟨i, hd, hsel⟩

theorem decodeWord_badOperand (hrsv : rsvField w = 0) (hm : operandMax (opcField w).toNat = some m) (hlt : m < (opdField w).toNat) :
    decodeWord w = .reject .badOperand := by
  obtain ⟨i, hd, _⟩ := decodeWord_listed hrsv hm
  rw [hd, withOperand, if_neg (Nat.not_le.mpr hlt)]

/-- Everything a word that decodes says of its command. -/
theorem decodeWord_eq_ok (h : decodeWord w = .ok i) : rsvField w = 0 ∧ ∃ m, (opdField w).toNat ≤ m ∧ Selects w m i := by
  obtain ⟨_, hd⟩ | ⟨hrsv, m, j, hd, hsel⟩ := decodeWord_cases w
  · cases hd.symm.trans h
  · obtain ⟨hle, rfl⟩ := withOperand_eq_ok (hd.symm.trans h)
    exact ⟨hrsv, m, hle, hsel⟩

/-- A command's word decodes to it, row by row of table R93. -/
theorem decodeWord_commandWord (h : opcodeOf i = some opc) (hwf : i.wellFormed = true) :
    decodeWord (commandWord opc (operandOf i)) = .ok i := by
  cases i with
  | branch | leaf => cases h
  | bbAppendBit n | bbAppendByte n | bbAppendCode n | bbDrop n | freqInc n =>
    cases h
    have hle := of_decide_eq_true hwf
    simp [decodeWord, withOperand, operandOf, hle]
  | _ =>
    cases h
    rfl

/-! ### The obligations -/

/-- Settles O1: a command by the decoder on its word, a token by its bits. -/
theorem encodeThenDecodeGivesTheInstruction : Obligations.EncodeThenDecodeGivesTheInstruction := by
  intro i hwf
  cases hopc : opcodeOf i with
  | some opc =>
    rw [encode_of_opcode hopc]
    exact decodeWord_commandWord hopc hwf
  | none =>
    cases i with
    | branch => rfl
    | leaf v => exact congrArg (fun u => Decoded.ok (.leaf u)) (byteOf_bits8 v)
    | _ => cases hopc

/-- Settles O2: the word's opcode and operand are those of the command it selects, so they make up its encoding. -/
theorem decodedWordIsItsEncoding : Obligations.DecodedWordIsItsEncoding := by
  intro w i hd
  obtain ⟨hrsv, m, hle, hsel⟩ := decodeWord_eq_ok hd
  refine ⟨hsel.wellFormed hle, hsel.isCommand, ?_⟩
  rw [encode_of_opcode hsel.opcode, hsel.operandOf_eq hle, commandWord_of_rsv_zero hrsv]

/-- Settles O3, by the three answers of the decoder. -/
theorem wordDecoderFollowsTheTables : Obligations.WordDecoderFollowsTheTables := by
  refine fun w => ⟨decodeWord_illegal, fun m hrsv hm => ⟨decodeWord_badOperand hrsv hm, fun hle => ?_⟩⟩
  obtain ⟨i, hd, hsel⟩ := decodeWord_listed hrsv hm
  rw [withOperand, if_pos hle] at hd
  exact ⟨i, hd, hsel.opcode, hsel.operand⟩

/-- Settles O5, by running the decoders. -/
theorem writtenOutWordsDecode : Obligations.WrittenOutWordsDecode := by
  unfold Obligations.WrittenOutWordsDecode
  decide

end Sys2Proof
end

section
/-! PROOF. A refused command word (R94): what the step that meets it does. -/

namespace Sys2Proof.Machine

variable {s : State} {w : Word} {i : Instr} {rest : List HostAct}

theorem completed_of_idle (h : s.run = .idle) (c : ResultCode) : s.completed c = { s with result := c } := by
  rw [State.completed, ← h]

/-- A word that does not decode, written to CMD of an idle engine (R21, R94). -/
theorem writeCmd_refused {meaning : Instr → State → Outcome} {r : Reject} (hr : s.run = .idle) (hw : decodeWord w = .reject r) :
    writeCmd meaning w s = .next { s with result := .refuse (rejectCode r) } := by
  rw [← completed_of_idle hr, writeCmd, hr, hw]

theorem step_refusedWord {r : Reject} (hr : s.run = .idle) (hh : s.host = .writeReg 0 w :: rest) (hw : decodeWord w = .reject r) :
    step s = .next { s with host := rest, result := .refuse (rejectCode r) } :=
  (step_hostAct (heldToken_of_not_busy (by rw [hr]; exact nofun)) hh).trans (writeCmd_refused (s := { s with host := rest }) hr hw)

theorem primitive_flagMissing {operandOk required : Bool} (hr : s.run = .idle) (hok : operandOk = true) (hreq : required = false)
    (body : Micro ResultCode) : primitive operandOk required body s = .next (s.completed (.refuse .badSequence)) := by
  subst hok hreq
  exact primitive_badSequence hr body

/-- A command with a valid operand whose flags are not all 1 (R94, R246, table R283). -/
theorem exec_flagsMissing (hr : s.run = .idle) (hwf : i.wellFormed = true) (hf : i.flagsMet s = false) :
    exec i s = .next { s with result := .refuse .badSequence } := by
  rw [← completed_of_idle hr]
  cases i with
  | bbAppendCode v | freqInc v => exact primitive_flagMissing hr hwf hf _
  | payloadEnc | treeBuild | hdrWrite | codeGen | treeSer | decSymbol | payloadDec => exact primitive_flagMissing hr rfl hf _
  | _ => cases hf

theorem flagsMet_withHost (i : Instr) (s : State) (host : List HostAct) : i.flagsMet { s with host := host } = i.flagsMet s := by
  cases i <;> rfl

/-- Settles O4: the decoder refuses the word, or the command it selects is refused before its pseudocode. -/
theorem refusedWordChangesOnlyResult : Obligations.RefusedWordChangesOnlyResult := by
  intro s w rest hr hh
  refine ⟨fun hbad => step_refusedWord hr hh (decodeWord_illegal hbad), fun m hrsv hm =>
    ⟨fun hlt => step_refusedWord hr hh (decodeWord_badOperand hrsv hm hlt), fun i _ hd hf => ?_⟩⟩
  obtain ⟨hwf, _, _⟩ := decodedWordIsItsEncoding w i hd
  rw [step_command hr hh hd]
  exact exec_flagsMissing (s := { s with host := rest }) hr hwf ((flagsMet_withHost i s rest).trans hf)

end Sys2Proof.Machine
end

section
/-! PROOF. The tokens of the serialized tree as instructions (R99, R173, R177): what each does to the traversal, and what the tokens of a tree do
one after another. -/

namespace Sys2Proof.Machine

variable {s : State} {g : Traversal → Traversal}

/-! ### One token -/

/-- What both tokens do: the checks of a new node, then the token's change `g` of the traversal. -/
def takeNode (g : Traversal → Traversal) : Micro Unit := do
  enterNode
  checkNodeFree
  modify fun s => { s with des := g s.des }

theorem exec_branch_eq (s : State) : exec .branch s = runToken (takeNode Traversal.openBranch) s := rfl

theorem exec_leaf_eq (v : Byte) (s : State) : exec (.leaf v) s = runToken (takeNode (Traversal.addLeaf v)) s := rfl

theorem enterNode_ok (h : s.des.stack.length < Config.depthLimit) : enterNode s = .ok () s := by
  rw [enterNode, micro_get_bind, if_neg (Nat.not_le.mpr h), micro_pure]

theorem enterNode_tooDeep (h : Config.depthLimit ≤ s.des.stack.length) : enterNode s = .error (.err .treeDepth) s := by
  rw [enterNode, micro_get_bind, if_pos h, micro_throw]

theorem checkNodeFree_ok (h : s.des.next < Config.nodeCap) : checkNodeFree s = .ok () s := by
  rw [checkNodeFree, micro_get_bind, if_neg (Nat.not_le.mpr h), micro_pure]

theorem checkNodeFree_full (h : Config.nodeCap ≤ s.des.next) : checkNodeFree s = .error (.refuse .nodeMemFull) s := by
  rw [checkNodeFree, micro_get_bind, if_pos h, micro_throw]

theorem runToken_ok {body : Micro Unit} {t : State} (hr : s.run = .busy) (h : body s = .ok () t) : runToken body s = .next t := by
  rw [runToken, hr, onRaise_ok h]

/-- A raise ends TREE_DES (R245, R246). -/
theorem runToken_error {body : Micro Unit} {t : State} {r : Raise} (hr : s.run = .busy) (h : body s = .error r t) :
    runToken body s = .next ((dropTraversal r t).raised false r) := by
  rw [runToken, hr, onRaise_error h]

theorem runToken_takeNode (hr : s.run = .busy) (hd : s.des.stack.length < Config.depthLimit) (hn : s.des.next < Config.nodeCap) :
    runToken (takeNode g) s = .next { s with des := g s.des } :=
  runToken_ok hr ((micro_bind_ok (enterNode_ok hd) _).trans (micro_bind_ok (checkNodeFree_ok hn) _))

theorem runToken_takeNode_tooDeep (hr : s.run = .busy) (hd : Config.depthLimit ≤ s.des.stack.length) :
    runToken (takeNode g) s = .next { s with run := .idle, result := .err .treeDepth, des := .idle } :=
  runToken_error hr (micro_bind_error (enterNode_tooDeep hd) _)

theorem runToken_takeNode_full (hr : s.run = .busy) (hd : s.des.stack.length < Config.depthLimit) (hn : Config.nodeCap ≤ s.des.next) :
    runToken (takeNode g) s = .next { s with run := .idle, result := .refuse .nodeMemFull, des := .idle } :=
  have hbody : takeNode g s = .error (.refuse .nodeMemFull) s :=
    (micro_bind_ok (enterNode_ok hd) _).trans (micro_bind_error (checkNodeFree_full hn) _)
  runToken_error hr hbody

/-- Settles O39: both tokens take a node, each with its own change of the traversal. -/
theorem tokensGrowTheTraversal : Obligations.TokensGrowTheTraversal := by
  intro s hr
  simp only [exec_branch_eq, exec_leaf_eq]
  exact ⟨fun hd hn => ⟨runToken_takeNode hr hd hn, fun _ => runToken_takeNode hr hd hn⟩,
    fun hd => ⟨runToken_takeNode_tooDeep hr hd, fun _ => runToken_takeNode_tooDeep hr hd⟩,
    fun hd hn => ⟨runToken_takeNode_full hr hd hn, fun _ => runToken_takeNode_full hr hd hn⟩⟩

/-! ### All tokens of a tree -/

theorem Tree.size_pos (t : Tree) : 0 < t.size := Nat.zero_lt_of_lt t.two_mul_height_lt_size

theorem Tree.preorder_next (t : Tree) (n : Nat) : (t.preorder n).2 = n + t.size := by
  induction t generalizing n with
  | leaf => rfl
  | branch i w l r ihl ihr =>
    simp only [preorder, size, ihl, ihr]
    omega

/-- The traversal once all tokens of a subtree `t` have been read at its current place. -/
def Traversal.addTree (t : Tree) (d : Traversal) : Traversal :=
  let p := plug (t.preorder d.next).1 d.stack
  { token := [], stack := p.1, next := d.next + t.size, whole := p.2 }

/-- The left subtree of an open branch leaves the branch waiting for its right one. -/
theorem addTree_openBranch (l : Tree) (d : Traversal) :
    d.openBranch.addTree l
      = { token := [], stack := .right d.next (l.preorder (d.next + 1)).1 :: d.stack, next := d.next + 1 + l.size, whole := none } := rfl

theorem addTree_idle (t : Tree) :
    Traversal.idle.addTree t = { token := [], stack := [], next := t.size, whole := some (t.preorder 0).1 } := by
  simp only [Traversal.addTree, Traversal.idle, plug, Nat.zero_add]

/-- A branch is its token and its two subtrees (R99). -/
theorem addTree_branch (i : Nat) (w : Option Count) (l r : Tree) (d : Traversal) :
    d.addTree (.branch i w l r) = (d.openBranch.addTree l).addTree r := by
  have hnext : d.next + (l.size + r.size + 1) = d.next + 1 + l.size + r.size := by omega
  simp only [Traversal.addTree, Traversal.openBranch, plug, Tree.preorder, Tree.preorder_next, Tree.size, hnext]

theorem runTokens_cons {i : Instr} {t : State} (h : exec i s = .next t) (rest : List Instr) : runTokens (i :: rest) s = runTokens rest t := by
  rw [runTokens, h]

theorem runTokens_append (l m : List Instr) (s : State) : runTokens (l ++ m) s = (runTokens l s).bind (runTokens m) := by
  induction l generalizing s with
  | nil => rfl
  | cons i l ih =>
    rw [List.cons_append, runTokens, runTokens]
    cases exec i s with
    | next t => exact ih t
    | fault | refused => rfl

/-- The state with another traversal. -/
def State.withTraversal (d : Traversal) (s : State) : State := { s with des := d }

/-- Where a whole tree fits, its first token does. -/
theorem room_of_fits {depth next : Nat} (t : Tree) (hd : depth + t.height ≤ Config.maxDepth) (hn : next + t.size ≤ Config.nodeCap) :
    depth < Config.depthLimit ∧ next < Config.nodeCap := by
  have hsize := t.size_pos
  exact ⟨Nat.lt_succ_of_le (Nat.le_of_add_right_le hd), by omega⟩

/-- The tokens of a tree that fits below the current place add the tree to the traversal. -/
theorem runTokens_tokens (t : Tree) (hr : s.run = .busy) (hd : s.des.stack.length + t.height ≤ Config.maxDepth)
    (hn : s.des.next + t.size ≤ Config.nodeCap) : runTokens t.tokens s = some (s.withTraversal (s.des.addTree t)) := by
  induction t generalizing s with
  | leaf i w v =>
    obtain ⟨hdepth, hfree⟩ := room_of_fits _ hd hn
    have hleaf : exec (.leaf v) s = .next (s.withTraversal (s.des.addLeaf v)) :=
      (exec_leaf_eq v s).trans (runToken_takeNode hr hdepth hfree)
    exact runTokens_cons hleaf []
  | branch i w l r ihl ihr =>
    obtain ⟨hdepth, hfree⟩ := room_of_fits _ hd hn
    simp only [Tree.height] at hd
    simp only [Tree.size] at hn
    have hopen : exec .branch s = .next (s.withTraversal s.des.openBranch) :=
      (exec_branch_eq s).trans (runToken_takeNode hr hdepth hfree)
    have hleft := ihl (s := s.withTraversal s.des.openBranch) hr
      (by simp only [State.withTraversal, Traversal.openBranch, List.length_cons]; omega)
      (by simp only [State.withTraversal, Traversal.openBranch]; omega)
    have hright := ihr (s := s.withTraversal (s.des.openBranch.addTree l)) hr
      (by simp only [State.withTraversal, addTree_openBranch, List.length_cons]; omega)
      (by simp only [State.withTraversal, addTree_openBranch]; omega)
    rw [Tree.tokens, runTokens_cons hopen, runTokens_append, hleft, addTree_branch]
    exact hright

theorem flatMap_tokenBits_tokens (t : Tree) : t.tokens.flatMap tokenBits = t.ser := by
  induction t with
  | leaf => rfl
  | branch i w l r ihl ihr => simp [Tree.tokens, Tree.ser, tokenBits, ihl, ihr]

/-- Settles O40: the tokens of the whole tree, read from the empty traversal. -/
theorem tokensRebuildTheWholeTree : Obligations.TokensRebuildTheWholeTree := by
  refine fun t => ⟨flatMap_tokenBits_tokens t, fun s hr hdes hd hn => ?_⟩
  have hdepth : s.des.stack.length + t.height ≤ Config.maxDepth := by simpa [hdes, Traversal.idle] using hd
  have hfree : s.des.next + t.size ≤ Config.nodeCap := by simpa [hdes, Traversal.idle] using hn
  rw [runTokens_tokens t hr hdepth hfree, hdes, addTree_idle, State.withTraversal]

end Sys2Proof.Machine
end

section
/-! PROOF. Micro-operations neither use nor change RUN_STATE and RESULT (R22, R23): these are written where a command starts and completes. -/

namespace Sys2Proof.Machine

variable {α β : Type}

/-- The state with other values of RUN_STATE and RESULT. -/
def State.withOutcome (run : RunState) (c : ResultCode) (s : State) : State := { s with run := run, result := c }

/-- The same end with `g` applied to the state it leaves. -/
def atEnd (g : State → State) : EStateM.Result Raise State α → EStateM.Result Raise State α
  | .ok a t => .ok a (g t)
  | .error r t => .error r (g t)

/-- `m` does the same whatever RUN_STATE and RESULT hold, and leaves them as they are. -/
def OutcomeBlind (m : Micro α) : Prop := ∀ run c s, m (s.withOutcome run c) = atEnd (State.withOutcome run c) (m s)

/-! ### How blind micro-operations are built -/

theorem outcomeBlind_pure (a : α) : OutcomeBlind (pure a) := fun _ _ _ => rfl

theorem outcomeBlind_throw (r : Raise) : OutcomeBlind (throw r : Micro α) := fun _ _ _ => rfl

theorem outcomeBlind_modify {g : State → State} (hg : ∀ run c s, g (s.withOutcome run c) = (g s).withOutcome run c := by intros; rfl) :
    OutcomeBlind (modify g) := fun run c s => congrArg (EStateM.Result.ok ()) (hg run c s)

theorem OutcomeBlind.bind {m : Micro α} {f : α → Micro β} (hm : OutcomeBlind m) (hf : ∀ a, OutcomeBlind (f a)) :
    OutcomeBlind (m >>= f) := by
  intro run c s
  rw [micro_bind, micro_bind, hm run c s]
  cases m s with
  | ok a t => exact hf a run c t
  | error r t => rfl

/-- What is read from the state is no part of the outcome. -/
theorem outcomeBlind_get_bind {f : State → Micro α} (hf : ∀ s, OutcomeBlind (f s))
    (hread : ∀ run c s, f (s.withOutcome run c) = f s := by intros; rfl) : OutcomeBlind ((get : Micro State) >>= f) := by
  intro run c s
  rw [micro_get_bind, micro_get_bind, hread]
  exact hf s run c s

theorem outcomeBlind_ite {p : Prop} [Decidable p] {m n : Micro α} (hm : OutcomeBlind m) (hn : OutcomeBlind n) :
    OutcomeBlind (if p then m else n) := by
  split
  · exact hm
  · exact hn

theorem outcomeBlind_needed (x : Option α) : OutcomeBlind (needed x) := by
  cases x with
  | none => exact outcomeBlind_throw _
  | some a => exact outcomeBlind_pure a

theorem OutcomeBlind.onRaise {g : Raise → State → State} {m : Micro α} (hm : OutcomeBlind m)
    (hg : ∀ r run c s, g r (s.withOutcome run c) = (g r s).withOutcome run c) : OutcomeBlind (onRaise g m) := by
  intro run c s
  rw [Machine.onRaise, Machine.onRaise, hm run c s]
  cases m s with
  | ok a t => rfl
  | error r t => exact congrArg (EStateM.Result.error r) (hg r run c t)

/-! ### Ports -/

theorem outcomeBlind_srcRead : OutcomeBlind srcRead := by
  intro run c s
  obtain ⟨v, h, hv, e⟩ | ⟨h, hv, e⟩ | ⟨p, hp, e⟩ | ⟨p, hp, e⟩ := srcRead_cases s
  · rw [e]; exact srcRead_byte h hv
  · rw [e]; exact srcRead_eos h hv
  · rw [e]; exact srcRead_ioErr hp
  · rw [e]; exact srcRead_never hp

theorem outcomeBlind_readByte : OutcomeBlind readByte := by
  refine outcomeBlind_srcRead.bind fun r => ?_
  cases r with
  | byte v => exact outcomeBlind_pure _
  | eos => exact outcomeBlind_pure _
  | ioErr => exact outcomeBlind_throw _

theorem outcomeBlind_writeByte (v : Byte) : OutcomeBlind (writeByte v) := by
  intro run c s
  obtain ⟨h, e⟩ | ⟨p, hp, e⟩ | ⟨p, hp, e⟩ := writeByte_cases v s
  · rw [e]; exact writeByte_ok v h
  · rw [e]; exact writeByte_ioErr v hp
  · rw [e]; exact writeByte_never v hp

/-! ### Bit buffer -/

theorem outcomeBlind_bbClear : OutcomeBlind bbClear := outcomeBlind_modify

theorem outcomeBlind_bbAppendBits (q : Bits) : OutcomeBlind (bbAppendBits q) := by
  rw [bbAppendBits_eq_do]
  exact outcomeBlind_get_bind fun _ => outcomeBlind_ite (outcomeBlind_throw _) outcomeBlind_modify

theorem outcomeBlind_appendCode (v : Byte) : OutcomeBlind (appendCode v) := by
  refine outcomeBlind_get_bind fun s => (outcomeBlind_needed s.code).bind fun code => ?_
  cases tableGet code v with
  | nil => exact outcomeBlind_throw _
  | cons b q => exact outcomeBlind_bbAppendBits _

theorem outcomeBlind_bbPeek (i : Nat) : OutcomeBlind (bbPeek i) := by
  rw [bbPeek_eq_do]
  refine outcomeBlind_get_bind fun s => ?_
  cases s.bb[i]? with
  | none => exact outcomeBlind_throw _
  | some b => exact outcomeBlind_pure b

theorem outcomeBlind_bbDrop (n : Nat) : OutcomeBlind (bbDrop n) := by
  rw [bbDrop_eq_do]
  exact outcomeBlind_get_bind fun _ => outcomeBlind_ite (outcomeBlind_throw _) outcomeBlind_modify

theorem outcomeBlind_bbDrainPasses (n : Nat) : OutcomeBlind (bbDrainPasses n) := by
  induction n with
  | zero => exact outcomeBlind_pure ()
  | succ n ih =>
    exact outcomeBlind_get_bind fun _ => (outcomeBlind_writeByte _).bind fun _ => (outcomeBlind_bbDrop 8).bind fun _ => ih

theorem outcomeBlind_bbDrain : OutcomeBlind bbDrain := outcomeBlind_get_bind fun _ => outcomeBlind_bbDrainPasses _

theorem outcomeBlind_bbFlush : OutcomeBlind bbFlush := by
  refine outcomeBlind_bbDrain.bind fun _ => outcomeBlind_get_bind fun s => ?_
  cases s.bb with
  | nil => exact outcomeBlind_pure ()
  | cons b bs => exact (outcomeBlind_writeByte _).bind fun _ => outcomeBlind_bbDrop _

theorem outcomeBlind_bbFill : OutcomeBlind bbFill := by
  refine outcomeBlind_get_bind fun _ => outcomeBlind_ite (outcomeBlind_throw _) (outcomeBlind_readByte.bind fun r => ?_)
  cases r with
  | none => exact outcomeBlind_pure _
  | some v => exact (outcomeBlind_bbAppendBits _).bind fun _ => outcomeBlind_pure _

/-! ### Frequency table, trees and codes -/

theorem outcomeBlind_freqClr : OutcomeBlind freqClr := outcomeBlind_modify

theorem outcomeBlind_freqInc (v : Byte) : OutcomeBlind (freqInc v) :=
  outcomeBlind_get_bind fun s => (outcomeBlind_needed s.freq).bind fun _ => outcomeBlind_get_bind fun _ =>
    outcomeBlind_ite (outcomeBlind_throw _) outcomeBlind_modify

theorem outcomeBlind_freqScanPasses (n : Nat) : OutcomeBlind (freqScanPasses n) := by
  induction n with
  | zero => exact outcomeBlind_pure ()
  | succ n ih =>
    refine outcomeBlind_readByte.bind fun r => ?_
    cases r with
    | none => exact outcomeBlind_pure ()
    | some v => exact (outcomeBlind_freqInc v).bind fun _ => ih

theorem outcomeBlind_freqScan : OutcomeBlind freqScan :=
  outcomeBlind_freqClr.bind fun _ => outcomeBlind_get_bind fun _ =>
    (outcomeBlind_freqScanPasses _).onRaise fun r _ _ _ => by cases r <;> rfl

theorem outcomeBlind_treeBuild : OutcomeBlind treeBuild := by
  refine outcomeBlind_get_bind fun s => (outcomeBlind_needed s.freq).bind fun f =>
    outcomeBlind_get_bind fun _ => outcomeBlind_ite (outcomeBlind_throw _) ?_
  cases buildTree f with
  | none => exact outcomeBlind_throw _
  | some t => exact outcomeBlind_modify

theorem outcomeBlind_codeGen : OutcomeBlind codeGen :=
  outcomeBlind_get_bind fun s => (outcomeBlind_needed s.tree).bind fun _ => outcomeBlind_modify

/-! ### Serializer and deserializer -/

theorem outcomeBlind_serNodes (t : Tree) : OutcomeBlind (serNodes t) := by
  induction t with
  | leaf i w v => exact (outcomeBlind_bbAppendBits _).bind fun _ => (outcomeBlind_bbAppendBits _).bind fun _ => outcomeBlind_bbDrain
  | branch i w l r ihl ihr =>
    exact (outcomeBlind_bbAppendBits _).bind fun _ => outcomeBlind_bbDrain.bind fun _ => ihl.bind fun _ => ihr

theorem outcomeBlind_treeSer : OutcomeBlind treeSer :=
  outcomeBlind_get_bind fun s => (outcomeBlind_needed s.tree).bind fun t => outcomeBlind_serNodes t

theorem outcomeBlind_enterNode : OutcomeBlind enterNode :=
  outcomeBlind_get_bind fun _ => outcomeBlind_ite (outcomeBlind_throw _) (outcomeBlind_pure ())

theorem outcomeBlind_checkNodeFree : OutcomeBlind checkNodeFree :=
  outcomeBlind_get_bind fun _ => outcomeBlind_ite (outcomeBlind_throw _) (outcomeBlind_pure ())

theorem outcomeBlind_holdToken (q : Bits) : OutcomeBlind (holdToken q) := outcomeBlind_modify

theorem outcomeBlind_tokenBranch : OutcomeBlind tokenBranch :=
  outcomeBlind_enterNode.bind fun _ => outcomeBlind_checkNodeFree.bind fun _ => outcomeBlind_modify

theorem outcomeBlind_tokenLeaf (v : Byte) : OutcomeBlind (tokenLeaf v) :=
  outcomeBlind_enterNode.bind fun _ => outcomeBlind_checkNodeFree.bind fun _ => outcomeBlind_modify

theorem outcomeBlind_demandBits (n : Nat) : OutcomeBlind (demandBits n) := by
  refine outcomeBlind_get_bind fun _ => outcomeBlind_ite (outcomeBlind_bbFill.bind fun r => ?_) (outcomeBlind_pure ())
  cases r <;> exact outcomeBlind_get_bind fun _ => outcomeBlind_ite (outcomeBlind_throw _) (outcomeBlind_pure ())

theorem outcomeBlind_desToken : OutcomeBlind desToken :=
  outcomeBlind_enterNode.bind fun _ => (outcomeBlind_demandBits 1).bind fun _ => (outcomeBlind_bbPeek 0).bind fun _ =>
    (outcomeBlind_bbDrop 1).bind fun _ => (outcomeBlind_holdToken _).bind fun _ => outcomeBlind_checkNodeFree.bind fun _ =>
    outcomeBlind_ite
      ((outcomeBlind_demandBits 8).bind fun _ => outcomeBlind_get_bind fun _ => (outcomeBlind_bbDrop 8).bind fun _ =>
        (outcomeBlind_holdToken _).bind fun _ => outcomeBlind_tokenLeaf _)
      outcomeBlind_tokenBranch

theorem outcomeBlind_desPasses (n : Nat) : OutcomeBlind (desPasses n) := by
  induction n with
  | zero => exact outcomeBlind_throw _
  | succ n ih =>
    refine outcomeBlind_desToken.bind fun _ => outcomeBlind_get_bind fun s => ?_
    cases s.des.whole with
    | none => exact ih
    | some t => exact outcomeBlind_pure t

theorem outcomeBlind_treeDes : OutcomeBlind treeDes :=
  OutcomeBlind.bind outcomeBlind_modify fun _ =>
    ((outcomeBlind_desPasses _).onRaise fun r _ _ _ => by cases r <;> rfl).bind fun _ =>
    OutcomeBlind.bind outcomeBlind_modify fun _ =>
    outcomeBlind_ite (outcomeBlind_throw _) outcomeBlind_modify

/-! ### Encoder -/

theorem outcomeBlind_checkInputSize : OutcomeBlind checkInputSize :=
  outcomeBlind_get_bind fun _ => outcomeBlind_ite (outcomeBlind_throw _) (outcomeBlind_pure ())

theorem outcomeBlind_hdrWrite : OutcomeBlind hdrWrite :=
  outcomeBlind_checkInputSize.bind fun _ => outcomeBlind_get_bind fun _ => (outcomeBlind_writeByte _).bind fun _ =>
    (outcomeBlind_writeByte _).bind fun _ => (outcomeBlind_writeByte _).bind fun _ => outcomeBlind_writeByte _

theorem outcomeBlind_payloadEncPasses (n : Nat) : OutcomeBlind (payloadEncPasses n) := by
  induction n with
  | zero => exact outcomeBlind_pure ()
  | succ n ih =>
    refine outcomeBlind_readByte.bind fun r => ?_
    cases r with
    | none => exact outcomeBlind_pure ()
    | some v => exact (outcomeBlind_appendCode v).bind fun _ => outcomeBlind_bbDrain.bind fun _ => ih

theorem outcomeBlind_payloadEnc : OutcomeBlind payloadEnc :=
  OutcomeBlind.bind outcomeBlind_modify fun _ => outcomeBlind_get_bind fun _ =>
    outcomeBlind_payloadEncPasses _

/-! ### Decoder -/

theorem outcomeBlind_hdrReadPasses (n c : Nat) : OutcomeBlind (hdrReadPasses n c) := by
  induction n generalizing c with
  | zero => exact outcomeBlind_pure c
  | succ n ih =>
    refine outcomeBlind_readByte.bind fun r => ?_
    cases r with
    | none => exact outcomeBlind_throw _
    | some v => exact ih _

theorem outcomeBlind_hdrRead : OutcomeBlind hdrRead :=
  OutcomeBlind.bind outcomeBlind_modify fun _ => (outcomeBlind_hdrReadPasses _ 0).bind fun _ =>
    outcomeBlind_modify

theorem outcomeBlind_topUpPasses (n : Nat) : OutcomeBlind (topUpPasses n) := by
  induction n with
  | zero => exact outcomeBlind_pure ()
  | succ n ih =>
    refine outcomeBlind_get_bind fun _ => outcomeBlind_ite (outcomeBlind_bbFill.bind fun r => ?_) (outcomeBlind_pure ())
    cases r with
    | filled => exact ih
    | eos => exact outcomeBlind_pure ()

theorem outcomeBlind_walkTree (t : Tree) (k : Nat) : OutcomeBlind (walkTree t k) := by
  induction t generalizing k with
  | leaf i w v => exact outcomeBlind_pure _
  | branch i w l r ihl ihr =>
    exact outcomeBlind_get_bind fun _ => outcomeBlind_ite (outcomeBlind_throw _)
      ((outcomeBlind_bbPeek k).bind fun _ => outcomeBlind_ite (ihr _) (ihl _))

theorem outcomeBlind_decSymbol : OutcomeBlind decSymbol :=
  outcomeBlind_get_bind fun s => (outcomeBlind_needed s.tree).bind fun t => (outcomeBlind_topUpPasses 32).bind fun _ =>
    outcomeBlind_get_bind fun _ => outcomeBlind_ite (outcomeBlind_throw _) <|
    (outcomeBlind_walkTree t 0).bind fun _ => (outcomeBlind_writeByte _).bind fun _ => (outcomeBlind_bbDrop _).bind fun _ =>
    outcomeBlind_modify

theorem outcomeBlind_payloadDecPasses (n : Nat) : OutcomeBlind (payloadDecPasses n) := by
  induction n with
  | zero => exact outcomeBlind_pure ()
  | succ n ih =>
    exact outcomeBlind_get_bind fun _ => outcomeBlind_get_bind fun _ =>
      outcomeBlind_ite (outcomeBlind_decSymbol.bind fun _ => ih) (outcomeBlind_pure ())

theorem outcomeBlind_payloadDec : OutcomeBlind payloadDec :=
  OutcomeBlind.bind outcomeBlind_modify fun _ => outcomeBlind_get_bind fun _ =>
    outcomeBlind_payloadDecPasses _

end Sys2Proof.Machine
end

section
/-! PROOF. Composite commands and their programs (R96): a program whose commands all complete with OK runs the composite's micro-operations. -/

namespace Sys2Proof.Machine

variable {i : Instr} {m : Micro Unit} {s t : State} {c : ResultCode}

/-! ### One command of a program -/

/-- `i` is the primitive command with the pseudocode `m`. -/
structure Performs (i : Instr) (m : Micro Unit) : Prop where
  command : i.isCommand = true := by rfl
  primitive : ∀ s, ∃ operandOk required, exec i s = primitive operandOk required (thenOk m) s := by exact fun _ => ⟨_, _, rfl⟩
  blind : OutcomeBlind m

theorem OutcomeBlind.withOutcome_eq_ok (hm : OutcomeBlind m) {run : RunState} (h : m (s.withOutcome run c) = .ok () t) :
    ∃ u, m s = .ok () u ∧ t = u.withOutcome run c := by
  rw [hm run c s] at h
  cases hms : m s with
  | ok a u =>
    rw [hms] at h
    cases h
    exact ⟨u, rfl, rfl⟩
  | error r u =>
    rw [hms] at h
    cases h

theorem OutcomeBlind.run_of_error (hm : OutcomeBlind m) {r : Raise} (h : m s.started = .error r t) : t.run = .busy := by
  have hstart : m s.started = atEnd (State.withOutcome .busy s.result) (m s) := hm .busy s.result s
  rw [h] at hstart
  cases hms : m s with
  | ok a u =>
    rw [hms] at hstart
    cases hstart
  | error r u =>
    rw [hms] at hstart
    cases hstart
    rfl

/-- A command that leaves OK has run its pseudocode to the end, or waits for a port. -/
theorem Performs.exec_eq_ok (hi : Performs i m) (he : exec i (s.withOutcome .idle c) = .next t) (hok : t.result = .ok) :
    (∃ u, m s = .ok () u ∧ t = u.withOutcome .idle .ok) ∨ t.run = .busy := by
  obtain ⟨operandOk, required, hprim⟩ := hi.primitive (s.withOutcome .idle c)
  rw [hprim] at he
  obtain ⟨hr, _⟩ | ⟨_, _, rfl⟩ | ⟨_, _, _, rfl⟩ | ⟨_, _, _, rfl⟩ := primitive_cases he
  · cases hr
  · cases hok
  · cases hok
  cases hbody : m (s.withOutcome .idle c).started with
  | ok a v =>
    obtain ⟨u, hu, rfl⟩ := hi.blind.withOutcome_eq_ok (s := s) (run := .busy) (c := c) hbody
    rw [settle_ok (thenOk_ok hbody)]
    exact .inl ⟨u, hu, rfl⟩
  | error r v =>
    rw [settle_error (thenOk_error hbody)] at hok ⊢
    cases r with
    | err | refuse | fault => cases hok
    | hang => exact .inr (hi.blind.run_of_error hbody)

/-! ### A program -/

/-- `ms` run one after another from `s` succeed and lead to `t`. -/
def RunsTo : List (Micro Unit) → State → State → Prop
  | [], s, t => t = s
  | m :: ms, s, t => ∃ u, m s = .ok () u ∧ RunsTo ms u t

theorem runOk_busy {rest : List Instr} (hi : i.isCommand = true) (hr : s.run = .busy) : runOk (i :: rest) s = none := by
  rw [runOk, exec_busy hi hr]

/-- A command that is not the last one of its program does not wait for a port: the next one would be written while BUSY. -/
theorem Performs.runOk_cons (hi : Performs i m) {j : Instr} (hj : j.isCommand = true) {rest : List Instr}
    (h : runOk (i :: j :: rest) (s.withOutcome .idle c) = some t) :
    ∃ u, m s = .ok () u ∧ runOk (j :: rest) (u.withOutcome .idle .ok) = some t := by
  rw [runOk] at h
  split at h
  next v he =>
    split at h
    next hok =>
      obtain ⟨u, hu, rfl⟩ | hbusy := hi.exec_eq_ok he hok
      · exact ⟨u, hu, h⟩
      · cases (runOk_busy hj hbusy).symm.trans h
    next => cases h
  next => cases h
  next => cases h

theorem runOk_release (h : runOk [.release] (s.withOutcome .idle c) = some t) : t = s.released.completed .ok :=
  (Option.some.inj h).symm

/-- A program that ends with RELEASE runs the pseudocode of all its commands. -/
theorem runOk_program (l : List (Instr × Micro Unit)) (hl : ∀ p ∈ l, Performs p.1 p.2)
    (h : runOk (l.map Prod.fst ++ [.release]) (s.withOutcome .idle c) = some t) :
    ∃ u, RunsTo (l.map Prod.snd) s u ∧ t = u.released.completed .ok := by
  induction l generalizing s c with
  | nil => exact ⟨s, rfl, runOk_release h⟩
  | cons p l ih =>
    have hp := hl p List.mem_cons_self
    have hl := fun q hq => hl q (List.mem_cons_of_mem p hq)
    have hnext : ∃ j rest, j.isCommand = true ∧ l.map Prod.fst ++ [.release] = j :: rest := by
      cases l with
      | nil => exact ⟨.release, [], rfl, rfl⟩
      | cons q l => exact ⟨q.1, _, (hl q List.mem_cons_self).command, rfl⟩
    obtain ⟨j, rest, hj, hrest⟩ := hnext
    rw [List.map_cons, List.cons_append, hrest] at h
    obtain ⟨u, hu, h⟩ := hp.runOk_cons hj h
    rw [← hrest] at h
    obtain ⟨v, hv, rfl⟩ := ih hl h
    exact ⟨v, ⟨u, hu, hv⟩, rfl⟩

/-! ### The two programs -/

/-- The commands of compression before RELEASE, each with its pseudocode. -/
def compressParts : List (Instr × Micro Unit) :=
  [(.freqScan, freqScan), (.treeBuild, treeBuild), (.codeGen, codeGen), (.bbClear, bbClear), (.hdrWrite, hdrWrite), (.treeSer, treeSer),
    (.bbFlush, bbFlush), (.payloadEnc, payloadEnc), (.bbFlush, bbFlush)]

/-- The commands of decompression before RELEASE, each with its pseudocode. -/
def decompressParts : List (Instr × Micro Unit) :=
  [(.bbClear, bbClear), (.hdrRead, hdrRead), (.treeDes, treeDes), (.bbClear, bbClear), (.payloadDec, payloadDec)]

theorem compressParts_performs : ∀ p ∈ compressParts, Performs p.1 p.2 := by
  simp only [compressParts, List.forall_mem_cons]
  exact ⟨{ blind := outcomeBlind_freqScan }, { blind := outcomeBlind_treeBuild }, { blind := outcomeBlind_codeGen },
    { blind := outcomeBlind_bbClear }, { blind := outcomeBlind_hdrWrite }, { blind := outcomeBlind_treeSer },
    { blind := outcomeBlind_bbFlush }, { blind := outcomeBlind_payloadEnc }, { blind := outcomeBlind_bbFlush }, nofun⟩

theorem decompressParts_performs : ∀ p ∈ decompressParts, Performs p.1 p.2 := by
  simp only [decompressParts, List.forall_mem_cons]
  exact ⟨{ blind := outcomeBlind_bbClear }, { blind := outcomeBlind_hdrRead }, { blind := outcomeBlind_treeDes },
    { blind := outcomeBlind_bbClear }, { blind := outcomeBlind_payloadDec }, nofun⟩

/-! ### The input size -/

theorem keeps_total_treeBuild (n : Count) : Keeps (fun s => s.total = n) treeBuild := by
  refine keeps_get_bind fun s => (keeps_needed s.freq).bind fun f => keeps_get_bind fun _ => keeps_ite (keeps_throw _) ?_
  cases buildTree f with
  | none => exact keeps_throw _
  | some t => exact triple_modify fun _ hs => hs

theorem keeps_total_codeGen (n : Count) : Keeps (fun s => s.total = n) codeGen :=
  keeps_get_bind fun s => (keeps_needed s.tree).bind fun _ => triple_modify fun _ hs => hs

theorem checkInputSize_ok (h : Config.minInput ≤ s.total.toNat) : checkInputSize s = .ok () s := by
  rw [checkInputSize, micro_get_bind, if_neg (Nat.not_lt.mpr h), micro_pure]

/-- HDR_WRITE makes COMPRESS's own check of the input size once more (R193). -/
theorem minInput_le_of_hdrWrite (h : hdrWrite s = .ok () t) : Config.minInput ≤ s.total.toNat := by
  by_contra hsmall
  have hcheck : checkInputSize s = .error (.err .inputTooSmall) s := by
    rw [checkInputSize, micro_get_bind, if_pos (Nat.not_le.mp hsmall), micro_throw]
  rw [hdrWrite, micro_bind_error hcheck] at h
  cases h

/-! ### The obligation -/

/-- COMPRESS's check comes earlier than HDR_WRITE's, on the same TOTAL. -/
theorem compressSteps_of_runsTo (h : RunsTo (compressParts.map Prod.snd) s t) : compressSteps s = .ok () t := by
  obtain ⟨s1, hscan, s2, hbuild, s3, hgen, s4, hclear, s5, hhdr, s6, hser, s7, hflush, s8, hpayload, s9, hlast, rfl⟩ := h
  have hsize : Config.minInput ≤ s1.total.toNat := by
    have h2 : s2.total = s1.total := (keeps_total_treeBuild s1.total).of_ok rfl hbuild
    have h3 : s3.total = s2.total := (keeps_total_codeGen s2.total).of_ok rfl hgen
    have h4 : s4.total = s3.total := by cases hclear; rfl
    rw [← h2, ← h3, ← h4]
    exact minInput_le_of_hdrWrite hhdr
  rw [compressSteps, micro_bind_ok hscan, micro_bind_ok (checkInputSize_ok hsize), micro_bind_ok hbuild, micro_bind_ok hgen,
    micro_bind_ok hclear, micro_bind_ok hhdr, micro_bind_ok hser, micro_bind_ok hflush, micro_bind_ok hpayload]
  exact hlast

theorem decompressSteps_of_runsTo (h : RunsTo (decompressParts.map Prod.snd) s t) : decompressSteps s = .ok () t := by
  obtain ⟨s1, hclear, s2, hhdr, s3, hdes, s4, hclear', s5, hpayload, rfl⟩ := h
  rw [decompressSteps, micro_bind_ok hclear, micro_bind_ok hhdr, micro_bind_ok hdes, micro_bind_ok hclear']
  exact hpayload

/-- Settles O51: the program runs the composite's steps from the composite's own start, and RELEASE ends both. -/
theorem compositesEqualTheirPrograms : Obligations.CompositesEqualTheirPrograms := by
  intro s t hr
  have hstart : s = s.started.withOutcome .idle s.result := by rw [← hr]; rfl
  refine ⟨fun h => ?compress, fun h => ?decompress⟩ <;> rw [hstart] at h
  case compress =>
    obtain ⟨u, hu, rfl⟩ := runOk_program compressParts compressParts_performs h
    exact composite_ok hr (compressSteps_of_runsTo hu)
  case decompress =>
    obtain ⟨u, hu, rfl⟩ := runOk_program decompressParts decompressParts_performs h
    exact composite_ok hr (decompressSteps_of_runsTo hu)

end Sys2Proof.Machine
end

section
/-! PROOF. What a command's encoding and its operand forms say (R91, R92), in the shapes in which the statements about single commands ask for them. -/

namespace Sys2Proof

open Sys2Proof.Machine Sys2Proof.Laws

variable {w : Word} {i : Instr} {opc : Byte}

/-- A command word as R95 writes it: the opcode shifted into place, or-ed with the operand. -/
theorem commandWord_eq_or (opc : Byte) (opd : Opd) : commandWord opc opd = (opc.setWidth 32 <<< 24) ||| opd.setWidth 32 := by
  have hopc := opc.isLt
  have hopd := opd.isLt
  have hshift : opc.toNat <<< 24 % 2 ^ 32 = opc.toNat <<< 24 := Nat.mod_eq_of_lt (by rw [Nat.shiftLeft_eq]; omega)
  have hor := Nat.shiftLeft_add_eq_or_of_lt (b := opd.toNat) (i := 24) (by omega) opc.toNat
  apply BitVec.eq_of_toNat_eq
  rw [commandWord_toNat, BitVec.toNat_or, BitVec.toNat_shiftLeft, BitVec.toNat_setWidth_of_le (by omega),
    BitVec.toNat_setWidth_of_le (by omega), hshift, ← hor, Nat.shiftLeft_eq]

theorem encodedAs_of_opcode (h : opcodeOf i = some opc) (hwf : i.wellFormed = true) (hw : w = commandWord opc (operandOf i)) :
    i.EncodedAs w := by
  subst hw
  exact ⟨encode_of_opcode h, decodeWord_commandWord h hwf⟩

/-- The word of a command with an operand: the row's base word, or-ed with the operand. -/
theorem encodedAs_base_or {base opd : Word} (h : opcodeOf i = some opc) (hwf : i.wellFormed = true)
    (hbase : base = opc.setWidth 32 <<< 24) (hopd : (operandOf i).setWidth 32 = opd) : i.EncodedAs (base ||| opd) :=
  encodedAs_of_opcode h hwf (by rw [commandWord_eq_or, hbase, hopd])

/-- The opcode's row of table R92 says that the command takes no operand. -/
theorem noOperand_of_operandMax (h : operandMax opc.toNat = some 0) : NoOperand opc := by
  intro opd hne
  have hpos : 0 < opd.toNat := Nat.pos_of_ne_zero fun h0 => hne (BitVec.eq_of_toNat_eq h0)
  exact decodeWord_badOperand (rsvField_commandWord opc opd) (by rwa [opcField_commandWord]) (by rwa [opdField_commandWord])

end Sys2Proof

namespace Sys2Proof.Machine

/-! ### Operands -/

theorem toNat_byteOperand_le (v : Byte) : (v.setWidth 16 : Opd).toNat ≤ 255 := by
  have hv := v.isLt
  rw [BitVec.toNat_setWidth_of_le (by omega)]
  omega

/-- A byte in OPD is the same byte in the whole word. -/
theorem setWidth_byteOperand (v : Byte) : (v.setWidth 16 : Opd).setWidth 32 = v.setWidth 32 :=
  BitVec.setWidth_setWidth (by decide)

@[simp] theorem byteOperandOk_setWidth (v : Byte) : byteOperandOk (v.setWidth 16) = true :=
  decide_eq_true (toNat_byteOperand_le v)

@[simp] theorem operandByte_setWidth (v : Byte) : operandByte (v.setWidth 16) = v := by
  rw [operandByte, BitVec.setWidth_setWidth_of_le v (by omega), BitVec.setWidth_eq]

theorem byteOperandOk_eq_false {opd : Opd} (h : 255 < opd.toNat) : byteOperandOk opd = false :=
  decide_eq_false (Nat.not_le.mpr h)

@[simp] theorem bitOperandOk_ofNat (b : Bool) : bitOperandOk (BitVec.ofNat 16 b.toNat) = true := by
  cases b <;> rfl

@[simp] theorem operandBit_ofNat (b : Bool) : operandBit (BitVec.ofNat 16 b.toNat) = b := by
  cases b <;> rfl

theorem bitOperandOk_eq_false {opd : Opd} (h : 1 < opd.toNat) : bitOperandOk opd = false :=
  decide_eq_false (Nat.not_le.mpr h)

@[simp] theorem countOperandOk_eq_true (opd : Opd) : countOperandOk opd = true :=
  decide_eq_true (Nat.le_of_lt_succ opd.isLt)

/-! ### Primitive commands of an idle engine -/

variable {s t : State} {m : Micro Unit}

/-- A command of an idle engine leaves RUN_STATE as it was. -/
theorem completed_eq_of_idle (hr : s.run = .idle) (c : ResultCode) (t : State) : t.completed c = { t with run := s.run, result := c } := by
  rw [hr, State.completed]

theorem primitive_eq_ok (hr : s.run = .idle) (h : m s.started = .ok () t) :
    primitive true true (thenOk m) s = .next { t with run := s.run, result := .ok } := by
  rw [primitive_thenOk_ok hr h, completed_eq_of_idle hr]

theorem primitive_eq_err (hr : s.run = .idle) {e : ErrCode} (h : m s.started = .error (.err e) t) :
    primitive true true (thenOk m) s = .next { t with run := s.run, result := .err e } := by
  rw [primitive_thenOk_error hr h, raised_false_err, completed_eq_of_idle hr]

/-- A command whose pseudocode faults before it changes anything. -/
theorem primitive_eq_fault (hr : s.run = .idle) {f : FaultCode} (h : m s.started = .error (.fault f) s.started) :
    primitive true true (thenOk m) s = .next { s with run := .fault, result := .fault f } := by
  rw [primitive_thenOk_error hr h, raised_fault, faulted_started, State.faulted]

theorem primitive_refuses_operand (hr : s.run = .idle) {operandOk : Bool} (hok : operandOk = false) (required : Bool)
    (body : Micro ResultCode) : primitive operandOk required body s = .next { s with result := .refuse .badOperand } := by
  subst hok
  rw [primitive_badOperand hr, completed_of_idle hr]

end Sys2Proof.Machine
end

section
/-! PROOF. The commands of the bit buffer that leave the sink alone (R121 to R127, R130). -/

namespace Sys2Proof.Machine

variable {s : State} {m : Micro Unit} {q : Bits}

/-! ### Clearing, appending and dropping -/

/-- Settles O18: BbClear always succeeds. -/
theorem bbClearEmptiesTheBuffer : Obligations.BbClearEmptiesTheBuffer :=
  ⟨encodedAs_of_opcode rfl rfl rfl, noOperand_of_operandMax rfl, fun s hr => primitive_eq_ok hr (bbClear_eq s.started)⟩

theorem exec_bbAppendBit (b : Bool) (s : State) :
    exec (.bbAppendBit (BitVec.ofNat 16 b.toNat)) s = primitive true true (thenOk (bbAppendBits [b])) s := by
  rw [exec, execBbAppendBit, bitOperandOk_ofNat, operandBit_ofNat, bbAppendBit]

theorem exec_bbAppendByte (v : Byte) (s : State) :
    exec (.bbAppendByte (v.setWidth 16)) s = primitive true true (thenOk (bbAppendBits (bits8 v))) s := by
  rw [exec, execBbAppendByte, byteOperandOk_setWidth, operandByte_setWidth, appendByte]

theorem exec_bbAppendCode (v : Byte) (s : State) :
    exec (.bbAppendCode (v.setWidth 16)) s = primitive true s.codeValid (thenOk (appendCode v)) s := by
  rw [exec, execBbAppendCode, byteOperandOk_setWidth, operandByte_setWidth]

theorem exec_bbDrop (n : Opd) (s : State) : exec (.bbDrop n) s = primitive true true (thenOk (bbDrop n.toNat)) s := by
  rw [exec, execBbDrop, countOperandOk_eq_true]

/-- A command whose pseudocode comes down to an append that fits (R123). -/
theorem primitive_append_ok (hr : s.run = .idle) (hm : m s.started = bbAppendBits q s.started) (hroom : s.bb.length + q.length ≤ Config.bbCap) :
    primitive true true (thenOk m) s = .next { s with bb := s.bb ++ q, result := .ok } :=
  primitive_eq_ok hr (hm.trans (bbAppendBits_ok hroom))

/-- A command whose pseudocode comes down to an append that does not fit (R123). -/
theorem primitive_append_overflow (hr : s.run = .idle) (hm : m s.started = bbAppendBits q s.started)
    (hfull : Config.bbCap < s.bb.length + q.length) :
    primitive true true (thenOk m) s = .next { s with run := .fault, result := .fault .bbOverflow } :=
  primitive_eq_fault hr (hm.trans (bbAppendBits_overflow hfull))

/-- Settles O19: BB_APPEND_BIT appends a sequence of one bit. -/
theorem bbAppendBitAppendsOrFaults : Obligations.BbAppendBitAppendsOrFaults := by
  refine ⟨fun b => ?encoding, fun s hr => ⟨fun b hroom => ?appends, fun b hfull => ?overflows, fun opd hbig => ?refuses⟩⟩
  case encoding => exact encodedAs_base_or rfl (bitOperandOk_ofNat b) rfl (by cases b <;> rfl)
  case appends =>
    rw [exec_bbAppendBit]
    exact primitive_append_ok hr rfl hroom
  case overflows =>
    rw [exec_bbAppendBit]
    exact primitive_append_overflow hr rfl hfull
  case refuses => exact primitive_refuses_operand hr (bitOperandOk_eq_false hbig) _ _

/-- Settles O20: BB_APPEND_BYTE appends the sequence `bits8`. -/
theorem bbAppendByteAppendsOrFaults : Obligations.BbAppendByteAppendsOrFaults := by
  refine ⟨fun v => ?encoding, fun s hr => ⟨fun v hroom => ?appends, fun v hfull => ?overflows, fun opd hbig => ?refuses⟩⟩
  case encoding => exact encodedAs_base_or rfl (byteOperandOk_setWidth v) rfl (setWidth_byteOperand v)
  case appends =>
    rw [exec_bbAppendByte]
    exact primitive_append_ok hr rfl hroom
  case overflows =>
    rw [exec_bbAppendByte]
    exact primitive_append_overflow hr rfl hfull
  case refuses => exact primitive_refuses_operand hr (byteOperandOk_eq_false hbig) _ _

/-- BB_APPEND_CODE while CODE_VALID = 1. -/
theorem exec_bbAppendCode_valid {c : CodeTable} (hc : s.code = some c) (v : Byte) :
    exec (.bbAppendCode (v.setWidth 16)) s = primitive true true (thenOk (appendCode v)) s := by
  rw [exec_bbAppendCode, State.codeValid, hc, Option.isSome_some]

/-- Settles O21: the code table decides whether there is a codeword, and the buffer whether it fits. -/
theorem bbAppendCodeAppendsOrFaults : Obligations.BbAppendCodeAppendsOrFaults := by
  refine ⟨fun v => ?encoding, fun s hr => ⟨fun v c hc => ⟨fun hnone => ?noCodeword, fun hsome hroom => ?appends, fun hsome hfull => ?overflows⟩,
    fun v hc => ?badSequence, fun opd hbig => ?refuses⟩⟩
  case encoding => exact encodedAs_base_or rfl (byteOperandOk_setWidth v) rfl (setWidth_byteOperand v)
  case noCodeword =>
    rw [exec_bbAppendCode_valid hc]
    exact primitive_eq_fault hr (appendCode_none (s := s.started) hc hnone)
  case appends =>
    rw [exec_bbAppendCode_valid hc]
    exact primitive_append_ok hr (appendCode_eq (s := s.started) hc hsome) hroom
  case overflows =>
    rw [exec_bbAppendCode_valid hc]
    exact primitive_append_overflow hr (appendCode_eq (s := s.started) hc hsome) hfull
  case badSequence =>
    exact exec_flagsMissing hr (byteOperandOk_setWidth v) (by rw [Instr.flagsMet, State.codeValid, hc, Option.isSome_none])
  case refuses => exact primitive_refuses_operand hr (byteOperandOk_eq_false hbig) _ _

/-- Settles O22: every 16-bit operand is a number of bits, and BbDrop compares it with BB_LEN. -/
theorem bbDropDropsOrFaults : Obligations.BbDropDropsOrFaults := by
  refine ⟨fun n => encodedAs_base_or rfl (countOperandOk_eq_true n) rfl rfl, fun s n hr => ⟨fun hle => ?drops, fun hlt => ?underflows⟩⟩ <;>
    rw [exec_bbDrop]
  case drops => exact primitive_eq_ok hr (bbDrop_ok hle)
  case underflows => exact primitive_eq_fault hr (bbDrop_underflow (s := s.started) hlt)

/-! ### Filling -/

theorem bbFill_byte (hroom : s.bb.length + 8 ≤ Config.bbCap) (hp : PlanOk (s.src.plan.take 1)) (hv : s.src.data[s.src.pos]? = some v) :
    bbFill s = .ok .filled { s with
      bb := s.bb ++ bits8 v, src := { s.src with pos := s.src.pos + 1, plan := s.src.plan.drop 1 }, srcEos := false } := by
  rw [bbFill, micro_get_bind, if_neg (Nat.not_lt.mpr hroom), micro_bind_ok (readByte_byte hp hv)]
  exact micro_bind_ok (bbAppendBits_ok hroom) _

theorem bbFill_eos (hroom : s.bb.length + 8 ≤ Config.bbCap) (hp : PlanOk (s.src.plan.take 1)) (hv : s.src.data[s.src.pos]? = none) :
    bbFill s = .ok .eos { s with src := { s.src with plan := s.src.plan.drop 1 }, srcEos := true } := by
  rw [bbFill, micro_get_bind, if_neg (Nat.not_lt.mpr hroom), micro_bind_ok (readByte_eos hp hv)]
  rfl

theorem bbFill_ioErr (hroom : s.bb.length + 8 ≤ Config.bbCap) {p : List PortPlan} (hp : s.src.plan = .ioErr :: p) :
    bbFill s = .error (.err .ioSrc) { s with src := { s.src with plan := p } } := by
  rw [bbFill, micro_get_bind, if_neg (Nat.not_lt.mpr hroom), micro_bind_error (readByte_ioErr hp)]

/-- The code BB_FILL completes with (R130). -/
def FillAnswer.code : FillAnswer → ResultCode
  | .filled => .ok
  | .eos => .okEos

theorem exec_bbFill_ok (hr : s.run = .idle) {r : FillAnswer} {t : State} (h : bbFill s.started = .ok r t) :
    exec .bbFill s = .next { t with run := s.run, result := r.code } := by
  have hbody : bbFillCommand s.started = .ok r.code t := by
    rw [bbFillCommand, micro_bind_ok h]
    cases r <;> rfl
  rw [exec, execBbFill, primitive_runs hr, settle_ok hbody, completed_eq_of_idle hr]

theorem exec_bbFill_error (hr : s.run = .idle) {r : Raise} {t : State} (h : bbFill s.started = .error r t) :
    exec .bbFill s = .next (t.raised false r) := by
  have hbody : bbFillCommand s.started = .error r t := by rw [bbFillCommand, micro_bind_error h]
  rw [exec, execBbFill, primitive_runs hr, settle_error hbody]

/-- Settles O25: no room, or what the read of a byte answers. -/
theorem bbFillAppendsTheNextByte : Obligations.BbFillAppendsTheNextByte := by
  refine ⟨encodedAs_of_opcode rfl rfl rfl, noOperand_of_operandMax rfl, fun s hr => ⟨fun hfull => ?overflows, fun hroom =>
    ⟨fun hp v hv => ?byte, fun hp hv => ?eos, fun p hp => ?ioErr⟩⟩⟩
  case overflows => exact exec_bbFill_error hr (bbFill_overflow hfull)
  case byte => exact exec_bbFill_ok hr (bbFill_byte hroom hp hv)
  case eos => exact exec_bbFill_ok hr (bbFill_eos hroom hp hv)
  case ioErr =>
    rw [exec_bbFill_error hr (bbFill_ioErr (s := s.started) hroom hp), raised_false_err, completed_eq_of_idle hr]
    rfl

end Sys2Proof.Machine
end

section
/-! PROOF. Draining and flushing (R128, R129): how far a plan lets the writes come, and what has left the buffer by then. -/

namespace Sys2Proof.Machine

variable {s : State} {p q q' : List PortPlan} {a a' : PortPlan} {j k n : Nat}

/-! ### The first entry of a plan that does not answer -/

theorem answers_of_planOk_take (h : PlanOk (p.take n)) (hk : k < n) (hd : p.drop k = a :: q) : a = .answers := by
  have hget : (p.take n)[k]? = some a := by
    rw [List.getElem?_take_of_lt hk, ← List.head?_drop, hd, List.head?_cons]
  exact h a (List.mem_of_getElem? hget)

/-- There is only one first entry that does not answer. -/
theorem planStop_unique (hj : PlanOk (p.take j)) (hk : PlanOk (p.take k)) (hdj : p.drop j = a :: q) (hdk : p.drop k = a' :: q')
    (ha : a ≠ .answers) (ha' : a' ≠ .answers) : j = k ∧ a = a' ∧ q = q' := by
  obtain hlt | rfl | hlt := Nat.lt_trichotomy j k
  · exact absurd (answers_of_planOk_take hk hlt hdj) ha
  · exact ⟨rfl, List.cons.inj (hdj.symm.trans hdk)⟩
  · exact absurd (answers_of_planOk_take hj hlt hdk) ha'

/-- The plan that answers `k` times and then fails. -/
theorem planStop_replicate (h : p = List.replicate k .answers ++ a :: q) : PlanOk (p.take k) ∧ p.drop k = a :: q := by
  subst h
  have htake : (List.replicate k PortPlan.answers ++ a :: q).take k = List.replicate k .answers := List.take_left' List.length_replicate
  exact ⟨fun b hb => List.eq_of_mem_replicate (htake ▸ hb), List.drop_left' List.length_replicate⟩

/-! ### Draining -/

/-- A drain whose write of group `k` fails (R128, R254). -/
theorem bbDrain_ioErr (hk : k < s.bb.length / 8) (hp : s.snk.plan = List.replicate k .answers ++ .ioErr :: p) :
    bbDrain s = .error (.err .ioSnk) { s.drained k with snk := { (s.drained k).snk with plan := p } } := by
  obtain ⟨hok, hd⟩ := planStop_replicate hp
  rw [bbDrain_eq]
  obtain ⟨hall, _⟩ | ⟨j, p', _, hj, hdj, he⟩ | ⟨j, p', _, _, hj, hdj, _⟩ := bbDrainPasses_cases (s.bb.length / 8) s (by omega)
  · cases answers_of_planOk_take hall hk hd
  · obtain ⟨rfl, _, rfl⟩ := planStop_unique hj hok hdj hd nofun nofun
    exact he
  · cases (planStop_unique hj hok hdj hd nofun nofun).2.1

/-- Settles O23: the drain's two ways to end when every write is answered. -/
theorem bbDrainWritesTheCompleteGroups : Obligations.BbDrainWritesTheCompleteGroups :=
  ⟨encodedAs_of_opcode rfl rfl rfl, noOperand_of_operandMax rfl, fun _ hr =>
    ⟨fun hp => primitive_eq_ok hr (bbDrain_ok hp), fun _ _ hk hp => primitive_eq_err hr (bbDrain_ioErr hk hp)⟩⟩

/-! ### Flushing -/

/-- A flush whose writes are all answered (R129). -/
theorem bbFlush_ok (h : PlanOk (s.snk.plan.take (pack s.bb).length)) : bbFlush s = .ok () (s.flushed (pack s.bb).length) := by
  obtain ⟨_, he⟩ | ⟨k, p, hk, _, hd, _⟩ | ⟨k, p, _, hk, _, hd, _⟩ := bbFlush_cases s
  · exact he
  · cases answers_of_planOk_take h hk hd
  · cases answers_of_planOk_take h hk hd

/-- A flush whose write of byte `k` fails (R129, R254). -/
theorem bbFlush_ioErr (hk : k < (pack s.bb).length) (hp : s.snk.plan = List.replicate k .answers ++ .ioErr :: p) :
    bbFlush s = .error (.err .ioSnk) { s.flushed k with snk := { (s.flushed k).snk with plan := p } } := by
  obtain ⟨hok, hd⟩ := planStop_replicate hp
  obtain ⟨hall, _⟩ | ⟨j, p', _, hj, hdj, he⟩ | ⟨j, p', _, _, hj, hdj, _⟩ := bbFlush_cases s
  · cases answers_of_planOk_take hall hk hd
  · obtain ⟨rfl, _, rfl⟩ := planStop_unique hj hok hdj hd nofun nofun
    exact he
  · cases (planStop_unique hj hok hdj hd nofun nofun).2.1

/-- Settles O24: the flush's two ways to end when every write is answered. -/
theorem bbFlushWritesAllBits : Obligations.BbFlushWritesAllBits :=
  ⟨encodedAs_of_opcode rfl rfl rfl, noOperand_of_operandMax rfl, fun s hr =>
    ⟨fun hp => primitive_eq_ok hr ((bbFlush_ok (s := s.started) hp).trans (congrArg _ (flushed_all _))),
      fun _ _ hk hp => primitive_eq_err hr (bbFlush_ioErr hk hp)⟩⟩

end Sys2Proof.Machine
end

section
/-! PROOF. The FIFO law (R131): the bits that have left and the bits in the buffer, in this order, are always the bits that were there and the bits
that came. -/

namespace Sys2Proof.Machine

variable {s t u : State} {q q' : Bits} {v : Byte}

/-! ### Bytes and bits -/

/-- The groups a drain writes and the bits it leaves are the sequence (R128, R131). -/
theorem bitsOf_fullBytes_append_leftover (q : Bits) : bitsOf (fullBytes q) ++ leftover q = q := by
  induction h : q.length / 8 generalizing q with
  | zero =>
    have hshort : q.length < 8 := by omega
    rw [fullBytes_short hshort, leftover_short hshort, bitsOf_nil, List.nil_append]
  | succ n ih =>
    have hlong : 8 ≤ q.length := by omega
    have hrest : (q.drop 8).length / 8 = n := by rw [List.length_drop]; omega
    rw [fullBytes_long hlong, leftover_long hlong, bitsOf_cons, bits8_byteOf (by rw [List.length_take]; omega), List.append_assoc, ih _ hrest,
      List.take_append_drop]

/-- Whole bytes in front of a sequence are packed as they stand. -/
theorem pack_bitsOf_append (l : List Byte) (q : Bits) : pack (bitsOf l ++ q) = l ++ pack q := by
  induction l with
  | nil => rfl
  | cons v l ih =>
    rw [pack_eq] at ih ⊢
    rw [bitsOf_cons, List.append_assoc, fullBytes_group (bits8_length v), leftover_group (bits8_length v), byteOf_bits8, List.cons_append,
      ih, List.cons_append]

/-! ### One act -/

/-- From `s` to `t` the bits `q` have entered the buffer, and what has left it stands in the sink as whole bytes. -/
def Moves (s : State) (q : Bits) (t : State) : Prop :=
  ∃ w, t.snk.out = s.snk.out ++ w ∧ bitsOf w ++ t.bb = s.bb ++ q

theorem Moves.trans (h : Moves s q t) (h' : Moves t q' u) : Moves s (q ++ q') u := by
  obtain ⟨w, hout, hbits⟩ := h
  obtain ⟨w', hout', hbits'⟩ := h'
  refine ⟨w ++ w', by rw [hout', hout, List.append_assoc], ?_⟩
  rw [bitsOf_append, List.append_assoc, hbits', ← List.append_assoc, hbits, List.append_assoc]

theorem Moves.of_bb (hsnk : t.snk = s.snk) (hbb : t.bb = s.bb ++ q) : Moves s q t :=
  ⟨[], by rw [hsnk, List.append_nil], hbb⟩

theorem moves_bbAppendBits (h : bbAppendBits q s = .ok () t) : Moves s q t := by
  by_cases hroom : s.bb.length + q.length ≤ Config.bbCap
  · cases (bbAppendBits_ok hroom).symm.trans h
    exact .of_bb rfl rfl
  · cases (bbAppendBits_overflow (Nat.lt_of_not_le hroom)).symm.trans h

theorem moves_appendCode {c : CodeTable} (hc : s.code = some c) (h : appendCode v s = .ok () t) : Moves s (tableGet c v) t := by
  by_cases hv : tableGet c v = []
  · cases (appendCode_none hc hv).symm.trans h
  · exact moves_bbAppendBits ((appendCode_eq hc hv).symm.trans h)

/-- A drain that ends well has written the complete groups, whatever the plan holds beyond its writes. -/
theorem bbDrain_eq_ok (h : bbDrain s = .ok () t) : t.bb = leftover s.bb ∧ t.snk.out = s.snk.out ++ fullBytes s.bb := by
  obtain ⟨hp, _⟩ | ⟨_, _, _, _, _, he⟩ | ⟨_, _, _, _, _, _, _, he⟩ := bbDrainPasses_cases (s.bb.length / 8) s (by omega)
  · cases (bbDrain_ok hp).symm.trans h
    exact ⟨rfl, rfl⟩
  · cases he.symm.trans h
  · cases he.symm.trans h

theorem moves_bbDrain (h : bbDrain s = .ok () t) : Moves s [] t := by
  obtain ⟨hbb, hout⟩ := bbDrain_eq_ok h
  exact ⟨fullBytes s.bb, hout, by rw [hbb, bitsOf_fullBytes_append_leftover, List.append_nil]⟩

/-- The read position stands at a byte (R63). -/
theorem unread_eq_cons (hv : s.src.data[s.src.pos]? = some v) : s.unread = v :: s.src.data.drop (s.src.pos + 1) := by
  obtain ⟨hlt, rfl⟩ := List.getElem?_eq_some_iff.mp hv
  exact List.drop_eq_getElem_cons hlt

/-- The read position stands at the source's end (R64). -/
theorem unread_eq_nil (hv : s.src.data[s.src.pos]? = none) : s.unread = [] :=
  List.drop_eq_nil_of_le (List.getElem?_eq_none_iff.mp hv)

/-- A fill moves the next byte into the buffer, if the source still has one (R130). -/
theorem perform_fill_eq_ok (h : BufAct.fill.perform s = .ok q t) :
    t.snk = s.snk ∧ t.bb = s.bb ++ q ∧ q = bitsOf (s.unread.take 1) ∧ t.unread = s.unread.drop 1 := by
  obtain ⟨r, u, hfill, hret⟩ := micro_bind_eq_ok.mp (show (bbFill >>= _) s = .ok q t from h)
  by_cases hroom : s.bb.length + 8 ≤ Config.bbCap
  case neg => cases (bbFill_overflow (Nat.lt_of_not_le hroom)).symm.trans hfill
  obtain ⟨v, _, hv, he⟩ | ⟨_, hv, he⟩ | ⟨_, _, he⟩ | ⟨_, _, he⟩ := bbFill_cases hroom <;> cases he.symm.trans hfill <;> cases hret
  · rw [unread_eq_cons hv]
    exact ⟨rfl, by simp, rfl, rfl⟩
  · have hend := unread_eq_nil hv
    rw [hend]
    exact ⟨rfl, (List.append_nil _).symm, rfl, hend⟩

/-- An act that performs `m` and answers the bits that `m` moves. -/
theorem Moves.of_seq {m : Micro Unit} (hm : ∀ u, m s = .ok () u → Moves s q' u) (h : (do m; pure q' : Micro Bits) s = .ok q t) :
    Moves s q t := by
  obtain ⟨_, _, hu, hret⟩ := micro_bind_eq_ok.mp h
  cases hret
  exact hm _ hu

/-- Every act of the FIFO law moves the bits it answers. -/
theorem moves_perform (a : BufAct) (h : a.perform s = .ok q t) : Moves s q t := by
  cases a with
  | bit | seq | byte => exact .of_seq (fun _ => moves_bbAppendBits) h
  | code v =>
    rw [BufAct.perform, micro_get_bind] at h
    cases hc : s.code with
    | none => rw [hc] at h; cases h
    | some c =>
      rw [hc, micro_bind_ok (needed_some c s)] at h
      exact .of_seq (fun _ => moves_appendCode hc) h
  | fill =>
    obtain ⟨hsnk, hbb, _⟩ := perform_fill_eq_ok h
    exact .of_bb hsnk hbb
  | drain => exact .of_seq (fun _ => moves_bbDrain) h

/-! ### All acts -/

theorem performAll_cons_eq_ok {a : BufAct} {acts : List BufAct} (h : performAll (a :: acts) s = .ok q t) :
    ∃ q₁ u q₂, a.perform s = .ok q₁ u ∧ performAll acts u = .ok q₂ t ∧ q = q₁ ++ q₂ := by
  obtain ⟨q₁, u, ha, hrest⟩ := micro_bind_eq_ok.mp h
  obtain ⟨q₂, _, hacts, hret⟩ := micro_bind_eq_ok.mp hrest
  cases hret
  exact ⟨q₁, u, q₂, ha, hacts, rfl⟩

theorem moves_performAll (acts : List BufAct) (h : performAll acts s = .ok q t) : Moves s q t := by
  induction acts generalizing s q with
  | nil =>
    cases h
    exact .of_bb rfl (List.append_nil _).symm
  | cons a acts ih =>
    obtain ⟨q₁, u, q₂, ha, hacts, rfl⟩ := performAll_cons_eq_ok h
    exact (moves_perform a ha).trans (ih hacts)

theorem bbFlush_eq_ok (h : bbFlush s = .ok () t) : t.bb = [] ∧ t.snk.out = s.snk.out ++ pack s.bb := by
  obtain ⟨_, he⟩ | ⟨_, _, _, _, _, he⟩ | ⟨_, _, _, _, _, _, _, he⟩ := bbFlush_cases s
  · rw [flushed_all] at he
    cases he.symm.trans h
    exact ⟨rfl, rfl⟩
  · cases he.symm.trans h
  · cases he.symm.trans h

/-- Bytes the source still has, filled one after another, are their bits in order (R131). -/
theorem performAll_fills_bb {l : List Byte} (hl : l <+: s.unread) (h : performAll (List.replicate l.length .fill) s = .ok q t) :
    t.bb = s.bb ++ bitsOf l := by
  induction l generalizing s q with
  | nil =>
    cases h
    exact (List.append_nil _).symm
  | cons v l ih =>
    obtain ⟨rest, hrest⟩ := hl
    obtain ⟨q₁, u, q₂, ha, hacts, rfl⟩ := performAll_cons_eq_ok h
    obtain ⟨_, hbb, hq, hun⟩ := perform_fill_eq_ok ha
    rw [← hrest] at hq hun
    rw [ih ⟨rest, hun.symm⟩ hacts, hbb, hq]
    simp

/-- Settles O26: the acts move their bits, and the flush packs what is left of them behind the bytes that are already in the sink. -/
theorem bitsLeaveInTheOrderTheyEntered : Obligations.BitsLeaveInTheOrderTheyEntered := by
  refine ⟨fun acts s t u q hempty hacts hflush => ?law, fun s t q l hempty hl _ hfills => ?fills, bitsOf_fullBytes_append_leftover⟩
  case law =>
    obtain ⟨w, hout, hbits⟩ := moves_performAll acts hacts
    obtain ⟨hbb, hlast⟩ := bbFlush_eq_ok hflush
    rw [hempty, List.nil_append] at hbits
    exact ⟨by rw [hlast, hout, ← hbits, pack_bitsOf_append, List.append_assoc], hbb⟩
  case fills => rw [performAll_fills_bb hl hfills, hempty, List.nil_append]

end Sys2Proof.Machine
end

section
/-! PROOF. The merge loop of TreeBuild (R147, R148): which node of a live set is the lowest does not depend on how it is found, so picking two minima
and sorting in every pass (R151) build the same tree. -/

namespace Sys2Proof.Machine

variable {a b c m m' m1 m2 : Live} {live live' rest rest' others : List Live} {n fuel : Nat}

/-! ### The order of nodes -/

theorem Live.lower_eq_true : a.lower b = true ↔ a.weight < b.weight ∨ (a.weight = b.weight ∧ a.node.index < b.node.index) := by
  simp [Live.lower]

theorem Live.lower_eq_false : a.lower b = false ↔ b.weight < a.weight ∨ (a.weight = b.weight ∧ b.node.index ≤ a.node.index) := by
  rw [← Bool.not_eq_true, Live.lower_eq_true]
  omega

theorem Live.lower_asymm (h : a.lower b = true) : b.lower a = false := by
  rw [Live.lower_eq_true] at h
  rw [Live.lower_eq_false]
  omega

/-- Nodes with different creation indices are comparable (R148: a strict total order). -/
theorem Live.lower_of_not_lower (hne : a.node.index ≠ b.node.index) (h : b.lower a = false) : a.lower b = true := by
  rw [Live.lower_eq_false] at h
  rw [Live.lower_eq_true]
  omega

theorem Live.not_lower_trans (hab : a.lower b = false) (hbc : b.lower c = false) : a.lower c = false := by
  rw [Live.lower_eq_false] at *
  omega

/-- The descending order of R151 is that of R148, reversed. -/
theorem Live.before_eq_not_lower (a b : Live) : a.before b = !a.lower b := by
  rw [Bool.eq_iff_iff, Bool.not_eq_true', Live.lower_eq_false]
  simp [Live.before]

/-! ### Live sets -/

theorem Tree.index_mem_indices (t : Tree) : t.index ∈ t.indices := by
  cases t <;> exact List.mem_cons_self

/-- No two nodes of a live set have the same creation index. -/
theorem LiveOk.distinct (h : LiveOk n live) : live.Pairwise fun a b => a.node.index ≠ b.node.index := by
  have hnodup : (liveIndices live).Nodup := h.indices.nodup_iff.mpr List.nodup_range
  refine (List.nodup_flatMap.mp hnodup).2.imp fun {a b} hdisjoint heq => ?_
  exact hdisjoint a.node.index_mem_indices (heq ▸ b.node.index_mem_indices)

theorem LiveOk.index_lt (h : LiveOk n live) (ha : a ∈ live) : a.node.index < n :=
  List.mem_range.mp (h.indices.mem_iff.mp (List.mem_flatMap.mpr ⟨a, ha, a.node.index_mem_indices⟩))

/-- `m` is the lowest node of `live`, and `rest` are the others in some order. -/
structure IsLowest (m : Live) (live rest : List Live) : Prop where
  perm : live.Perm (m :: rest)
  least : ∀ b ∈ rest, m.lower b = true

/-- Among nodes with different creation indices, one that no other is lower than is the lowest. -/
theorem isLowest_of_not_lower (hd : live.Pairwise fun a b => a.node.index ≠ b.node.index) (hp : live.Perm (m :: rest))
    (h : ∀ b ∈ rest, b.lower m = false) : IsLowest m live rest := by
  have hd' := (hp.pairwise_iff fun h => Ne.symm h).mp hd
  exact ⟨hp, fun b hb => Live.lower_of_not_lower ((List.pairwise_cons.mp hd').1 b hb) (h b hb)⟩

/-- The lowest node is unique. -/
theorem IsLowest.unique (h : IsLowest m live rest) (h' : IsLowest m' live' rest') (hp : live.Perm live') : m = m' ∧ rest.Perm rest' := by
  have hperm : (m :: rest).Perm (m' :: rest') := h.perm.symm.trans (hp.trans h'.perm)
  have heq : m = m' := by
    by_contra hne
    have hm : m ∈ rest' := (List.mem_cons.mp (hperm.subset List.mem_cons_self)).resolve_left hne
    have hm' : m' ∈ rest := (List.mem_cons.mp (hperm.symm.subset List.mem_cons_self)).resolve_left (Ne.symm hne)
    have hlow := Live.lower_asymm (h.least m' hm')
    rw [h'.least m hm] at hlow
    cases hlow
  subst heq
  exact ⟨rfl, hperm.cons_inv⟩

theorem IsLowest.of_perm (h : IsLowest m live rest) (hp : live.Perm live') : IsLowest m live' rest := ⟨hp.symm.trans h.perm, h.least⟩

/-- The nodes besides the lowest have different creation indices too. -/
theorem IsLowest.distinct (h : IsLowest m live rest) (hd : live.Pairwise fun a b => a.node.index ≠ b.node.index) :
    rest.Pairwise fun a b => a.node.index ≠ b.node.index :=
  (List.pairwise_cons.mp ((h.perm.pairwise_iff fun h => Ne.symm h).mp hd)).2

/-! ### Picking two minima -/

theorem takeLowest_not_lower (h : takeLowest live = some (m, rest)) : ∀ b ∈ rest, b.lower m = false := by
  induction live generalizing m rest with
  | nil => cases h
  | cons a live ih =>
    rw [takeLowest] at h
    split at h
    next => cases h; exact nofun
    next m0 others hlow =>
      split at h
      next hlower =>
        cases h
        rintro b (_ | ⟨_, hb⟩)
        · exact Live.lower_asymm hlower
        · exact Live.not_lower_trans (ih hlow b hb) (Live.lower_asymm hlower)
      next hlower =>
        cases h
        rintro b (_ | ⟨_, hb⟩)
        · exact Bool.not_eq_true _ ▸ hlower
        · exact ih hlow b hb

theorem takeLowest_isLowest (hd : live.Pairwise fun a b => a.node.index ≠ b.node.index) (h : takeLowest live = some (m, rest)) :
    IsLowest m live rest :=
  isLowest_of_not_lower hd (takeLowest_perm h) (takeLowest_not_lower h)

/-- Everything a pass of the merge loop can do (R147): no node, the root, or a merge of the two lowest nodes. -/
theorem mergePasses_cases (h : LiveOk n live) (fuel : Nat) :
    (live = [] ∧ mergePasses (fuel + 1) n live = none)
    ∨ (∃ m, live = [m] ∧ mergePasses (fuel + 1) n live = some m)
    ∨ ∃ m1 m2 rest others, IsLowest m1 live rest ∧ IsLowest m2 rest others
      ∧ mergePasses (fuel + 1) n live = mergePasses fuel (n + 1) (mergeNodes n m1 m2 :: others) := by
  cases hlow : takeLowest live with
  | none => exact .inl ⟨takeLowest_eq_none hlow, by rw [mergePasses, hlow]⟩
  | some picked =>
    obtain ⟨m1, rest⟩ := picked
    have h1 := takeLowest_isLowest h.distinct hlow
    cases hlow2 : takeLowest rest with
    | none =>
      have hone : live = [m1] := List.perm_singleton.mp (takeLowest_eq_none hlow2 ▸ h1.perm)
      exact .inr (.inl ⟨m1, hone, by simp only [mergePasses, hlow, hlow2]⟩)
    | some picked =>
      obtain ⟨m2, others⟩ := picked
      have h2 := takeLowest_isLowest (h1.distinct h.distinct) hlow2
      exact .inr (.inr ⟨m1, m2, rest, others, h1, h2, by simp only [mergePasses, hlow, hlow2]⟩)

/-- The two lowest nodes leave, and the branch over them comes in. -/
theorem LiveOk.merge_lowest (h : LiveOk n live) (h1 : IsLowest m1 live rest) (h2 : IsLowest m2 rest others) :
    LiveOk (n + 1) (mergeNodes n m1 m2 :: others) :=
  h.merge (h1.perm.trans (h2.perm.cons m1))

/-! ### Sorting in every pass -/

/-- The source's sorted list read from its end: ascending in the order of R148. -/
theorem reverse_mergeSort_ascending (live : List Live) :
    (live.mergeSort Live.before).reverse.Pairwise fun a b => b.lower a = false := by
  have htrans (a b c : Live) (hab : a.before b = true) (hbc : b.before c = true) : a.before c = true := by
    rw [Live.before_eq_not_lower, Bool.not_eq_true'] at *
    exact Live.not_lower_trans hab hbc
  have htotal (a b : Live) : (a.before b || b.before a) = true := by
    simp only [Live.before_eq_not_lower, Bool.or_eq_true, Bool.not_eq_true', Live.lower_eq_false]
    omega
  rw [List.pairwise_reverse]
  refine (List.pairwise_mergeSort htrans htotal live).imp fun {a b} h => ?_
  rwa [Live.before_eq_not_lower, Bool.not_eq_true'] at h

theorem reverse_mergeSort_perm (live : List Live) : live.Perm (live.mergeSort Live.before).reverse :=
  (List.mergeSort_perm live _).symm.trans (List.reverse_perm _).symm

/-- The last two of the source's sorted list are the two lowest nodes (R151). -/
theorem reverse_mergeSort_of_isLowest (hd : live.Pairwise fun a b => a.node.index ≠ b.node.index) (h1 : IsLowest m1 live rest)
    (h2 : IsLowest m2 rest others) :
    ∃ others', others.Perm others' ∧ (live.mergeSort Live.before).reverse = m1 :: m2 :: others' := by
  have hperm := reverse_mergeSort_perm live
  have hasc := reverse_mergeSort_ascending live
  have hlen := hperm.symm.trans (h1.perm.trans (h2.perm.cons m1))
  match (live.mergeSort Live.before).reverse, hperm, hasc, hlen with
  | [], _, _, hlen => cases hlen.length_eq
  | [_], _, _, hlen => cases hlen.length_eq
  | m1' :: m2' :: others', hperm, hasc, _ =>
    obtain ⟨hleast1, hasc2⟩ := List.pairwise_cons.mp hasc
    obtain ⟨rfl, hrest⟩ := h1.unique (isLowest_of_not_lower hd hperm hleast1) (.refl _)
    have h2' := isLowest_of_not_lower (h1.distinct hd) hrest (List.pairwise_cons.mp hasc2).1
    obtain ⟨rfl, hothers⟩ := h2.unique h2' (.refl _)
    exact ⟨others', hothers, rfl⟩

/-- On the same nodes both loops pick the same two in every pass. -/
theorem mergePasses_eq_mergeSorted (h : LiveOk n live) (hp : live.Perm live') : mergePasses fuel n live = mergeSorted fuel n live' := by
  induction fuel generalizing n live live' with
  | zero => rfl
  | succ fuel ih =>
    obtain ⟨rfl, e⟩ | ⟨m, rfl, e⟩ | ⟨m1, m2, rest, others, h1, h2, e⟩ := mergePasses_cases h fuel
    · rw [e, List.nil_perm.mp hp, mergeSorted, List.mergeSort_nil, List.reverse_nil]
    · rw [e, ← List.singleton_perm.mp hp, mergeSorted, List.mergeSort_singleton, List.reverse_singleton]
    · have hd' := (hp.pairwise_iff fun h => Ne.symm h).mp h.distinct
      obtain ⟨others', hothers, hsort⟩ := reverse_mergeSort_of_isLowest hd' (h1.of_perm hp) h2
      have e' : mergeSorted (fuel + 1) n live' = mergeSorted fuel (n + 1) (mergeNodes n m1 m2 :: others') := by
        rw [mergeSorted, hsort]
      rw [e, e', ih (h.merge_lowest h1 h2) (hothers.cons _)]

/-- Settles O32: the two loops agree on every live set with different creation indices, and so on the one TreeBuild starts from. -/
theorem twoMinimaBuildTheSortedTree : Obligations.TwoMinimaBuildTheSortedTree :=
  fun f => congrArg (Option.map Live.node) (mergePasses_eq_mergeSorted (initialLive_ok f) (.refl _))

end Sys2Proof.Machine
end

section
/-! PROOF. The tree of a frequency table (R145 to R154): what every live set of the merge loop says of the table, and what the last one says of the
tree. -/

namespace Sys2Proof.Machine

variable {f : FreqTable} {t : Tree} {m m1 m2 : Live} {live rest others : List Live} {v : Byte} {i k n sum fuel : Nat}

/-! ### Leaves of a tree -/

/-- The leaves in pre-order: index, weight and symbol of each. -/
def Tree.leaves : Tree → List (Nat × Option Count × Byte)
  | .leaf i w v => [(i, w, v)]
  | .branch _ _ l r => l.leaves ++ r.leaves

theorem Tree.symbols_eq_map_leaves (t : Tree) : t.symbols = t.leaves.map fun a => a.2.2 := by
  induction t with
  | leaf => rfl
  | branch i w l r ihl ihr => rw [symbols, leaves, List.map_append, ihl, ihr]

/-- A full tree has one leaf more than it has branches (R153 (b)). -/
theorem Tree.size_add_one (t : Tree) : t.size + 1 = 2 * t.symbols.length := by
  induction t with
  | leaf => rfl
  | branch i w l r ihl ihr =>
    rw [size, symbols, List.length_append]
    omega

/-- A path from the root passes each branch at most once (R153 (e)). -/
theorem Tree.height_add_one_le (t : Tree) : t.height + 1 ≤ t.symbols.length := by
  have hheight := t.two_mul_height_lt_size
  have hsize := t.size_add_one
  omega

theorem Tree.two_le_length_symbols (h : t.isLeaf = false) : 2 ≤ t.symbols.length := by
  cases t with
  | leaf => cases h
  | branch i w l r =>
    have hl := l.height_add_one_le
    have hr := r.height_add_one_le
    rw [symbols, List.length_append]
    omega

theorem Tree.index_mem_of_mem_leaves {w : Option Count} (h : (k, w, v) ∈ t.leaves) : k ∈ t.indices := by
  induction t with
  | leaf i w' u =>
    cases List.mem_singleton.mp h
    exact List.mem_cons_self
  | branch i w' l r ihl ihr =>
    rw [indices, List.mem_cons, List.mem_append]
    exact .inr ((List.mem_append.mp h).imp ihl ihr)

theorem Tree.entry_eq_none (h : k ∉ t.indices) : t.entry k = none := by
  induction t with
  | leaf i w u => exact if_neg fun hk => h (List.mem_singleton.mpr hk)
  | branch i w l r ihl ihr =>
    rw [indices, List.mem_cons, List.mem_append, not_or, not_or] at h
    rw [entry, if_neg h.1, ihl h.2.1, ihr h.2.2]

/-- In a tree that uses every index once, NODE holds each leaf at its index (R37). -/
theorem Tree.entry_of_mem_leaves {w : Option Count} (hn : t.indices.Nodup) (h : (k, w, v) ∈ t.leaves) : t.entry k = some (.leaf v w) := by
  induction t with
  | leaf i w' u =>
    cases List.mem_singleton.mp h
    exact if_pos rfl
  | branch i w' l r ihl ihr =>
    rw [indices, List.nodup_cons, List.mem_append, List.nodup_append'] at hn
    obtain ⟨hi, hl, hr, hdisjoint⟩ := hn
    rw [leaves, List.mem_append] at h
    have hk : k ≠ i := fun e => hi (e ▸ h.imp index_mem_of_mem_leaves index_mem_of_mem_leaves)
    rw [entry, if_neg hk]
    obtain h | h := h
    · rw [ihl hl h]
    · rw [entry_eq_none fun hkl => hdisjoint hkl (index_mem_of_mem_leaves h)]
      exact ihr hr h

/-! ### What a live set keeps of the table -/

/-- The leaves of all trees of a live set. -/
def liveLeaves (live : List Live) : List (Nat × Option Count × Byte) := live.flatMap fun a => a.node.leaves

/-- A live set of built trees with their exact weights; the weights add up to `sum` (R152), and the leaves are the given ones. -/
structure LiveBuilt (sum : Nat) (leaves : List (Nat × Option Count × Byte)) (live : List Live) : Prop where
  built : ∀ a ∈ live, a.node.Built ∧ a.node.weightOf = a.weight
  weights : (live.map Live.weight).sum = sum
  leaves : (liveLeaves live).Perm leaves

variable {leaves : List (Nat × Option Count × Byte)}

theorem LiveBuilt.of_perm {live' : List Live} (h : LiveBuilt sum leaves live) (hp : live.Perm live') : LiveBuilt sum leaves live' where
  built a ha := h.built a (hp.mem_iff.mpr ha)
  weights := (hp.map _).sum_eq.symm.trans h.weights
  leaves := (hp.flatMap_right _).symm.trans h.leaves

/-- The branch over the two lowest nodes of a live set is built, with its exact weight, as long as the weights fit (R147 to R149, R152). -/
theorem built_mergeNodes (hok : LiveOk n live) (h : LiveBuilt sum leaves live) (hsum : sum < 2 ^ 32) (h1 : IsLowest m1 live rest)
    (h2 : IsLowest m2 rest others) : (mergeNodes n m1 m2).node.Built ∧ (mergeNodes n m1 m2).node.weightOf = m1.weight + m2.weight := by
  have hmem1 : m1 ∈ live := h1.perm.mem_iff.mpr List.mem_cons_self
  have hmem2' : m2 ∈ rest := h2.perm.mem_iff.mpr List.mem_cons_self
  have hmem2 : m2 ∈ live := h1.perm.mem_iff.mpr (List.mem_cons_of_mem _ hmem2')
  obtain ⟨hb1, hw1⟩ := h.built m1 hmem1
  obtain ⟨hb2, hw2⟩ := h.built m2 hmem2
  have hfit : m1.weight + m2.weight < 2 ^ 32 := by
    have hweights := (h.of_perm (h1.perm.trans (h2.perm.cons m1))).weights
    rw [List.map_cons, List.map_cons, List.sum_cons, List.sum_cons] at hweights
    omega
  have hweight : (BitVec.ofNat 32 (m1.weight + m2.weight)).toNat = m1.weight + m2.weight := by
    rw [BitVec.toNat_ofNat, Nat.mod_eq_of_lt hfit]
  have hlower := Live.lower_eq_true.mp (h1.least m2 hmem2')
  rw [← hw1, ← hw2] at hlower
  refine ⟨⟨rfl, ?_, hok.index_lt hmem2, hok.index_lt hmem1, hlower, hb2, hb1⟩, hweight⟩
  rw [hw1, hw2, Nat.add_comm m2.weight]
  exact hweight

theorem LiveBuilt.merge_lowest (hok : LiveOk n live) (h : LiveBuilt sum leaves live) (hsum : sum < 2 ^ 32) (h1 : IsLowest m1 live rest)
    (h2 : IsLowest m2 rest others) : LiveBuilt sum leaves (mergeNodes n m1 m2 :: others) where
  built := by
    rw [List.forall_mem_cons]
    refine ⟨built_mergeNodes hok h hsum h1 h2, fun a ha => h.built a (h1.perm.mem_iff.mpr (List.mem_cons_of_mem _ ?_))⟩
    exact h2.perm.mem_iff.mpr (List.mem_cons_of_mem _ ha)
  weights := by
    have hweights := (h.of_perm (h1.perm.trans (h2.perm.cons m1))).weights
    rw [List.map_cons, List.map_cons, List.sum_cons, List.sum_cons] at hweights
    rw [List.map_cons, List.sum_cons, mergeNodes, ← hweights, Nat.add_assoc]
  leaves := by
    have hleaves := (h.of_perm (h1.perm.trans ((h2.perm.cons m1).trans (.swap ..)))).leaves
    simpa [liveLeaves, mergeNodes, Tree.leaves] using hleaves

/-- The node that remains has all leaves and the whole weight (R150). -/
theorem mergePasses_built (hok : LiveOk n live) (h : LiveBuilt sum leaves live) (hsum : sum < 2 ^ 32)
    (hm : mergePasses fuel n live = some m) : LiveBuilt sum leaves [m] := by
  induction fuel generalizing n live with
  | zero => cases hm
  | succ fuel ih =>
    obtain ⟨_, e⟩ | ⟨m', rfl, e⟩ | ⟨m1, m2, rest, others, h1, h2, e⟩ := mergePasses_cases hok fuel <;> rw [e] at hm
    · cases hm
    · cases hm
      exact h
    · exact ih (hok.merge_lowest h1 h2) (h.merge_lowest hok hsum h1 h2) hm

/-- As many passes as there are nodes find the root (R150). -/
theorem mergePasses_isSome (hok : LiveOk n live) (hne : live ≠ []) (hfuel : live.length ≤ fuel) : (mergePasses fuel n live).isSome := by
  induction fuel generalizing n live with
  | zero => exact absurd (List.length_eq_zero_iff.mp (Nat.le_zero.mp hfuel)) hne
  | succ fuel ih =>
    obtain ⟨he, _⟩ | ⟨m, _, e⟩ | ⟨m1, m2, rest, others, h1, h2, e⟩ := mergePasses_cases hok fuel
    · exact absurd he hne
    · rw [e]
      rfl
    · rw [e]
      refine ih (hok.merge_lowest h1 h2) (List.cons_ne_nil _ _) ?_
      rw [h1.perm.length_eq, List.length_cons, h2.perm.length_eq, List.length_cons] at hfuel
      rw [List.length_cons]
      omega

/-! ### The first live set -/

/-- The symbols with a positive count, in ascending order (R145). -/
def countedSymbols (f : FreqTable) : List Byte :=
  ((List.range 256).map (BitVec.ofNat 8)).filter fun v => decide (0 < (tableGet f v).toNat)

/-- The leaf of symbol `v` at index `k` (R145). -/
def leafAt (f : FreqTable) (v : Byte) (k : Nat) : Live := ⟨(tableGet f v).toNat, .leaf k (some (tableGet f v)) v⟩

/-- The synthetic leaf of a table whose one counted symbol is `v` (R146). -/
def synthLeaf (v : Byte) : Live := ⟨0, .leaf 1 (some 0) (v + 128#8)⟩

theorem synthSymbol_eq (v : Byte) : synthSymbol v = v + 128#8 := by
  apply BitVec.eq_of_toNat_eq
  simp [synthSymbol, Config.synthOffset]

theorem toList_eq_map_tableGet (f : FreqTable) : f.toList = (List.range 256).map fun s => tableGet f (BitVec.ofNat 8 s) := by
  refine List.ext_getElem (by simp) fun s hs _ => ?_
  have hs : s < 256 := by simpa using hs
  simp [tableGet, Nat.mod_eq_of_lt hs]

/-- From symbol `sym` on, one leaf per counted symbol at consecutive indices (R145). -/
theorem makeLeaves_range' (f : FreqTable) (sym len n : Nat) :
    makeLeaves sym n ((List.range' sym len).map fun s => tableGet f (BitVec.ofNat 8 s))
      = ((((List.range' sym len).map (BitVec.ofNat 8)).filter fun v => decide (0 < (tableGet f v).toNat)).zipIdx n).map
        fun p => leafAt f p.1 p.2 := by
  induction len generalizing sym n with
  | zero => rfl
  | succ len ih =>
    rw [List.range'_succ, List.map_cons, List.map_cons, makeLeaves, List.filter_cons, ih, ih]
    by_cases hc : 0 < (tableGet f (BitVec.ofNat 8 sym)).toNat
    · rw [if_pos hc, if_pos (decide_eq_true hc), List.zipIdx_cons, List.map_cons, leafAt]
    · rw [if_neg hc, if_neg (by simpa using hc)]

theorem makeLeaves_eq (f : FreqTable) : makeLeaves 0 0 f.toList = (countedSymbols f).zipIdx.map fun p => leafAt f p.1 p.2 := by
  rw [toList_eq_map_tableGet, countedSymbols, List.range_eq_range']
  exact makeLeaves_range' f 0 256 0

theorem sum_weights_makeLeaves (sym n : Nat) (cs : List Count) :
    ((makeLeaves sym n cs).map Live.weight).sum = (cs.map BitVec.toNat).sum := by
  induction cs generalizing sym n with
  | nil => rfl
  | cons c cs ih =>
    rw [makeLeaves]
    split
    · rw [List.map_cons, List.sum_cons, ih, List.map_cons, List.sum_cons]
    · rw [ih, List.map_cons, List.sum_cons]
      omega

/-- The synthetic leaf weighs nothing (R146). -/
theorem sum_weights_addSynthetic (live : List Live) : ((addSynthetic live).map Live.weight).sum = (live.map Live.weight).sum := by
  match live with
  | [] | [⟨_, .leaf ..⟩] | [⟨_, .branch ..⟩] => rfl
  | _ :: _ :: _ => simp only [addSynthetic]

/-- The first live set weighs the table's sum. -/
theorem sum_weights_initialLive (f : FreqTable) : ((initialLive f).map Live.weight).sum = freqSum f :=
  (sum_weights_addSynthetic _).trans (sum_weights_makeLeaves 0 0 f.toList)

/-- A single counted symbol is joined by the synthetic one (R146). -/
theorem initialLive_single (h : countedSymbols f = [v]) : initialLive f = [leafAt f v 0, synthLeaf v] := by
  rw [initialLive, makeLeaves_eq, h]
  simp only [List.zipIdx_singleton, List.map_cons, List.map_nil, leafAt, addSynthetic, synthSymbol_eq, synthLeaf]

theorem initialLive_of_ne_one (h : (countedSymbols f).length ≠ 1) :
    initialLive f = (countedSymbols f).zipIdx.map fun p => leafAt f p.1 p.2 := by
  rw [initialLive, makeLeaves_eq]
  match countedSymbols f, h with
  | [], _ => rfl
  | [_], h => exact absurd rfl h
  | _ :: _ :: _, _ => rfl

theorem liveLeaves_initialLive_single (h : countedSymbols f = [v]) :
    liveLeaves (initialLive f) = [(0, some (tableGet f v), v), (1, some 0, v + 128#8)] := by
  rw [initialLive_single h]
  rfl

theorem liveLeaves_initialLive_of_ne_one (h : (countedSymbols f).length ≠ 1) :
    liveLeaves (initialLive f) = (countedSymbols f).zipIdx.map fun p => (p.2, some (tableGet f p.1), p.1) := by
  rw [initialLive_of_ne_one h, liveLeaves, List.flatMap_map]
  exact List.flatMap_pure_eq_map _ _

/-- Every counted symbol has its leaf, whether or not it is the only one. -/
theorem mem_liveLeaves_initialLive (h : (countedSymbols f)[k]? = some v) : (k, some (tableGet f v), v) ∈ liveLeaves (initialLive f) := by
  by_cases hone : (countedSymbols f).length = 1
  · obtain ⟨u, hu⟩ := List.length_eq_one_iff.mp hone
    obtain ⟨rfl, rfl⟩ : k = 0 ∧ u = v := by simpa [hu, List.getElem?_singleton] using h
    rw [liveLeaves_initialLive_single hu]
    exact List.mem_cons_self
  · rw [liveLeaves_initialLive_of_ne_one hone]
    exact List.mem_map.mpr ⟨(v, k), List.mem_zipIdx_iff_getElem?.mpr h, rfl⟩

theorem initialLive_built (f : FreqTable) : LiveBuilt (freqSum f) (liveLeaves (initialLive f)) (initialLive f) where
  built a ha := by
    by_cases hone : (countedSymbols f).length = 1
    · obtain ⟨v, hv⟩ := List.length_eq_one_iff.mp hone
      rw [initialLive_single hv, List.mem_pair] at ha
      obtain rfl | rfl := ha <;> exact ⟨rfl, rfl⟩
    · rw [initialLive_of_ne_one hone, List.mem_map] at ha
      obtain ⟨p, _, rfl⟩ := ha
      exact ⟨rfl, rfl⟩
  weights := sum_weights_initialLive f
  leaves := .refl _

/-! ### The tree -/

/-- A tree is built from every table with a positive entry (R154). -/
theorem buildTree_isSome (h : freqSum f ≠ 0) : (buildTree f).isSome := by
  rw [buildTree, Option.isSome_map]
  refine mergePasses_isSome (initialLive_ok f) (fun hnil => h ?_) (Nat.le_refl _)
  rw [← sum_weights_initialLive, hnil, List.map_nil, List.sum_nil]

/-- The tree has the leaves of the first live set, and the table's sum as its weight (R150, R152). -/
theorem buildTree_built (hsum : freqSum f < 2 ^ 32) (h : buildTree f = some t) :
    t.Built ∧ t.weightOf = freqSum f ∧ t.leaves.Perm (liveLeaves (initialLive f)) := by
  obtain ⟨m, hm, rfl⟩ := Option.map_eq_some_iff.mp h
  have hbuilt := mergePasses_built (initialLive_ok f) (initialLive_built f) hsum hm
  obtain ⟨htree, hweight⟩ := hbuilt.built m List.mem_cons_self
  exact ⟨htree, by simpa [hweight] using hbuilt.weights, by simpa [liveLeaves] using hbuilt.leaves⟩

/-- Settles O31: the merge loop loses no leaf and no weight, and a full tree's shape is bounded by its number of leaves. -/
theorem builtTreeFollowsTheTable : Obligations.BuiltTreeFollowsTheTable := by
  intro f t real hsum ht hreal
  replace hreal : real = countedSymbols f := hreal
  subst hreal
  obtain ⟨hok, hroot⟩ := buildTree_ok ht
  obtain ⟨hbuilt, hweight, hleaves⟩ := buildTree_built hsum ht
  obtain ⟨⟨hbranch, _, hcap⟩, hindices, _⟩ := id hok
  have hnodup : t.indices.Nodup := hindices.nodup_iff.mpr List.nodup_range
  have hentry {k w v} (h : (k, w, v) ∈ liveLeaves (initialLive f)) : t.entry k = some (.leaf v w) :=
    Tree.entry_of_mem_leaves hnodup (hleaves.mem_iff.mpr h)
  have hsymbols : t.symbols.Perm ((liveLeaves (initialLive f)).map fun a => a.2.2) :=
    t.symbols_eq_map_leaves ▸ hleaves.map _
  have hmost : t.symbols.length ≤ 256 := by
    have hsize := t.size_add_one
    simp only [Config.nodeCap] at hcap
    omega
  refine ⟨hok, hroot, hbuilt, hweight, fun k v hv => hentry (mem_liveLeaves_initialLive hv), t.size_add_one,
    Tree.two_le_length_symbols hbranch, hmost, t.height_add_one_le, fun v hv => ?single, fun hmany => ?many⟩
  case single =>
    rw [liveLeaves_initialLive_single hv] at hentry hsymbols
    exact ⟨hentry (List.mem_cons_of_mem _ List.mem_cons_self), hsymbols⟩
  case many =>
    rw [liveLeaves_initialLive_of_ne_one (by omega), List.map_map] at hsymbols
    exact hsymbols.trans (.of_eq (List.zipIdx_map_fst 0 _))

end Sys2Proof.Machine
end

section
/-! PROOF. The commands of the frequency table and of the tree builder (R141 to R144, R154). -/

namespace Sys2Proof.Machine

variable {s : State} {f : FreqTable} {v : Byte} {k n : Nat}

/-! ### FREQ_CLR and FREQ_INC -/

theorem freqClr_eq (s : State) : freqClr s = .ok () { s with freq := some .zero, total := 0, tree := none, code := none } := rfl

/-- Settles O27: FreqClr always succeeds. -/
theorem freqClrMakesTheZeroTable : Obligations.FreqClrMakesTheZeroTable :=
  ⟨encodedAs_of_opcode rfl rfl rfl, noOperand_of_operandMax rfl, fun s hr => primitive_eq_ok hr (freqClr_eq s.started)⟩

theorem needed_of_eq_some {α : Type} {x : Option α} {a : α} (h : x = some a) (s : State) : needed x s = .ok a s := by
  rw [h, needed_some]

/-- Counting one occurrence of a byte while TOTAL has room (R142). -/
theorem freqInc_ok (hf : s.freq = some f) (v : Byte) (hroom : s.total.toNat ≠ 2 ^ 32 - 1) :
    freqInc v s = .ok () { s with
      freq := some (tableSet f v (tableGet f v + 1)), total := s.total + 1, tree := none, code := none } := by
  rw [freqInc, micro_get_bind, micro_bind_ok (needed_of_eq_some hf s), micro_get_bind, if_neg hroom, micro_modify]

/-- The 2^32-th byte is refused before anything changes (R142). -/
theorem freqInc_full (hf : s.freq = some f) (v : Byte) (hfull : s.total.toNat = 2 ^ 32 - 1) :
    freqInc v s = .error (.refuse .inputTooLarge) s := by
  rw [freqInc, micro_get_bind, micro_bind_ok (needed_of_eq_some hf s), micro_get_bind, if_pos hfull, micro_throw]

theorem primitive_eq_refuse (hr : s.run = .idle) {m : Micro Unit} {c : RefuseCode} {t : State} (h : m s.started = .error (.refuse c) t) :
    primitive true true (thenOk m) s = .next { t with run := s.run, result := .refuse c } := by
  rw [primitive_thenOk_error hr h, raised_false_refuse, completed_eq_of_idle hr]

/-- FREQ_INC while FREQ_VALID = 1. -/
theorem exec_freqInc_valid (hf : s.freq = some f) (v : Byte) :
    exec (.freqInc (v.setWidth 16)) s = primitive true true (thenOk (freqInc v)) s := by
  rw [exec, execFreqInc, byteOperandOk_setWidth, operandByte_setWidth, State.freqValid, hf, Option.isSome_some]

/-- Settles O28: TOTAL decides whether the byte is counted. -/
theorem freqIncCountsOneByte : Obligations.FreqIncCountsOneByte := by
  refine ⟨fun v => ?encoding, fun s hr => ⟨fun v f hf hroom => ?counts, fun v f hf hfull => ?full, fun v hf => ?badSequence,
    fun opd hbig => ?refuses⟩⟩
  case encoding => exact encodedAs_base_or rfl (byteOperandOk_setWidth v) rfl (setWidth_byteOperand v)
  case counts =>
    refine ⟨tableSet f v (tableGet f v + 1), ?_, tableGet_tableSet f v _, fun u hu => tableGet_tableSet_ne f hu _⟩
    rw [exec_freqInc_valid hf]
    exact primitive_eq_ok hr (freqInc_ok (s := s.started) hf v (Nat.ne_of_lt hroom))
  case full =>
    rw [exec_freqInc_valid hf]
    exact primitive_eq_refuse (t := s.started) hr (freqInc_full (s := s.started) hf v hfull)
  case badSequence =>
    exact exec_flagsMissing hr (byteOperandOk_setWidth v) (by rw [Instr.flagsMet, State.freqValid, hf, Option.isSome_none])
  case refuses => exact primitive_refuses_operand hr (byteOperandOk_eq_false hbig) _ _

/-! ### TREE_BUILD -/

/-- TREE_BUILD while FREQ_VALID = 1. -/
theorem exec_treeBuild_valid (hf : s.freq = some f) : exec .treeBuild s = primitive true true (thenOk treeBuild) s := by
  rw [exec, execTreeBuild, State.freqValid, hf, Option.isSome_some]

theorem treeBuild_ok {t : Tree} (hf : s.freq = some f) (hne : s.total.toNat ≠ 0) (ht : buildTree f = some t) :
    treeBuild s = .ok () { s with tree := some t, code := none } := by
  rw [treeBuild, micro_get_bind, micro_bind_ok (needed_of_eq_some hf s), micro_get_bind, if_neg hne]
  simp only [ht, micro_modify]

/-- The all-zero table is refused and nothing changes (R154). -/
theorem treeBuild_empty (hf : s.freq = some f) (hzero : s.total.toNat = 0) : treeBuild s = .error (.refuse .emptyFreq) s := by
  rw [treeBuild, micro_get_bind, micro_bind_ok (needed_of_eq_some hf s), micro_get_bind, if_pos hzero, micro_throw]

/-- Settles O30: a table with a positive sum has a tree, and TOTAL is the sum. -/
theorem treeBuildSucceedsUnlessEmpty : Obligations.TreeBuildSucceedsUnlessEmpty := by
  refine ⟨encodedAs_of_opcode rfl rfl rfl, noOperand_of_operandMax rfl, fun s hr => ⟨fun f hf hsum hne => ?builds, fun f hf hzero => ?empty,
    fun hf => ?badSequence⟩⟩
  case builds =>
    have hpos : s.total.toNat ≠ 0 := fun h => hne (BitVec.eq_of_toNat_eq h)
    obtain ⟨t, ht⟩ := Option.isSome_iff_exists.mp (buildTree_isSome (hsum ▸ hpos))
    refine ⟨t, ht, ?_⟩
    rw [exec_treeBuild_valid hf]
    exact primitive_eq_ok hr (treeBuild_ok (s := s.started) hf hpos ht)
  case empty =>
    rw [exec_treeBuild_valid hf]
    exact primitive_eq_refuse (t := s.started) hr (treeBuild_empty (s := s.started) hf (congrArg BitVec.toNat hzero))
  case badSequence => exact exec_flagsMissing hr rfl (by rw [Instr.flagsMet, State.freqValid, hf, Option.isSome_none])

/-! ### FREQ_SCAN -/

theorem tableGet_freqOf (x : List Byte) (v : Byte) : tableGet (freqOf x) v = BitVec.ofNat 32 (x.count v) := by
  simp [tableGet, freqOf]

theorem freqOf_nil : freqOf [] = FreqTable.zero :=
  table_ext fun v => by rw [tableGet_freqOf, List.count_nil, tableGet_zero]; rfl

/-- One byte more is one occurrence more (R143). -/
theorem freqOf_append_singleton (x : List Byte) (v : Byte) :
    freqOf (x ++ [v]) = tableSet (freqOf x) v (tableGet (freqOf x) v + 1) := by
  refine table_ext fun u => ?_
  rw [tableGet_freqOf, List.count_append]
  by_cases hu : u = v
  · subst hu
    rw [tableGet_tableSet, tableGet_freqOf, List.count_singleton_self, BitVec.ofNat_add]
    rfl
  · rw [tableGet_tableSet_ne _ hu, tableGet_freqOf, List.count_singleton, if_neg (by simpa using Ne.symm hu), Nat.add_zero]

/-- The state after FreqScan has counted `k` bytes (R143). -/
def State.scanned (k : Nat) (s : State) : State :=
  { s with
    freq := some (freqOf (s.unread.take k)), total := BitVec.ofNat 32 k, tree := none, code := none
    src := { s.src with pos := s.src.pos + k, plan := s.src.plan.drop k }
    srcEos := if k = 0 then s.srcEos else false }

theorem freqClr_eq_scanned (s : State) : freqClr s = .ok () (s.scanned 0) := by
  rw [State.scanned, List.take_zero, freqOf_nil]
  rfl

theorem getElem?_unread (s : State) (k : Nat) : s.unread[k]? = s.src.data[s.src.pos + k]? := List.getElem?_drop

/-- The state in which the next byte has been read and not yet counted. -/
def State.scannedRead (k : Nat) (s : State) : State :=
  { s.scanned k with src := { s.src with pos := s.src.pos + (k + 1), plan := s.src.plan.drop (k + 1) }, srcEos := false }

theorem readByte_scanned (hp : PlanOk ((s.src.plan.drop k).take 1)) (hk : s.unread[k]? = some v) :
    readByte (s.scanned k) = .ok (some v) (s.scannedRead k) := by
  rw [getElem?_unread] at hk
  rw [readByte_byte (s := s.scanned k) hp hk, State.scannedRead, ← List.drop_drop]
  rfl

theorem freqInc_scannedRead (hk : s.unread[k]? = some v) (hroom : k + 1 < 2 ^ 32) :
    freqInc v (s.scannedRead k) = .ok () (s.scanned (k + 1)) := by
  have htotal : (BitVec.ofNat 32 k).toNat ≠ 2 ^ 32 - 1 := by
    rw [BitVec.toNat_ofNat, Nat.mod_eq_of_lt (by omega)]
    omega
  have htake : s.unread.take (k + 1) = s.unread.take k ++ [v] := by rw [List.take_add_one, hk, Option.toList_some]
  rw [freqInc_ok (s := s.scannedRead k) rfl v htotal, State.scanned, htake, freqOf_append_singleton, BitVec.ofNat_add]
  rfl

/-- A pass of the scan that counts a byte. -/
theorem freqScanPasses_succ (hp : PlanOk ((s.src.plan.drop k).take 1)) (hk : k < s.unread.length) (hroom : k + 1 < 2 ^ 32) (n : Nat) :
    freqScanPasses (n + 1) (s.scanned k) = freqScanPasses n (s.scanned (k + 1)) := by
  have hget := List.getElem?_eq_getElem hk
  rw [freqScanPasses, micro_bind_ok (readByte_scanned hp hget)]
  exact micro_bind_ok (freqInc_scannedRead hget hroom) _

theorem planOk_take_of_le {p : List PortPlan} {m : Nat} (h : PlanOk (p.take n)) (hm : m ≤ n) : PlanOk (p.take m) :=
  fun a ha => h a ((List.take_sublist_take_left hm).subset ha)

theorem planOk_drop_take_one {p : List PortPlan} (h : PlanOk (p.take n)) (hk : k < n) : PlanOk ((p.drop k).take 1) := by
  rw [List.take_drop]
  exact planOk_drop (planOk_take_of_le h hk) k

/-- The first `k` passes, as long as the host answers and TOTAL has room. -/
theorem freqScanPasses_add (hp : PlanOk (s.src.plan.take k)) (hk : k ≤ s.unread.length) (hroom : k < 2 ^ 32) (n : Nat) :
    freqScanPasses (n + k) (s.scanned 0) = freqScanPasses n (s.scanned k) := by
  induction k generalizing n with
  | zero => rfl
  | succ k ih =>
    rw [Nat.add_succ, ← Nat.succ_add, ih (planOk_take_of_le hp (Nat.le_succ k)) (by omega) (by omega) (n + 1)]
    exact freqScanPasses_succ (planOk_drop_take_one hp (Nat.lt_succ_self k)) hk hroom n

theorem freqScan_eq (s : State) : freqScan s = onRaise freqScanStopped (freqScanPasses (s.unread.length + 1)) (s.scanned 0) := by
  rw [freqScan, micro_bind_ok (freqClr_eq_scanned s), micro_get_bind, State.unread, List.length_drop]
  rfl

/-- What is left of FreqScan once `k` bytes are counted. -/
theorem freqScan_after (hp : PlanOk (s.src.plan.take k)) (hk : k ≤ s.unread.length) (hroom : k < 2 ^ 32) :
    freqScan s = onRaise freqScanStopped (freqScanPasses (s.unread.length - k + 1)) (s.scanned k) := by
  have hfuel : s.unread.length + 1 = s.unread.length - k + 1 + k := by omega
  rw [freqScan_eq, hfuel, onRaise, onRaise, freqScanPasses_add hp hk hroom]

/-- The scan meets the source's end. -/
theorem freqScan_ok (hpos : s.src.pos ≤ s.src.data.length) (hp : PlanOk (s.src.plan.take (s.unread.length + 1)))
    (hroom : s.unread.length < 2 ^ 32) :
    freqScan s = .ok () { s with
      freq := some (freqOf s.unread), total := BitVec.ofNat 32 s.unread.length, tree := none, code := none
      src := { s.src with pos := s.src.data.length, plan := s.src.plan.drop (s.unread.length + 1) }
      srcEos := true } := by
  have hpos' : s.src.pos + s.unread.length = s.src.data.length := by
    rw [State.unread, List.length_drop]
    omega
  have hend : s.src.data[s.src.pos + s.unread.length]? = none := List.getElem?_eq_none (Nat.le_of_eq hpos'.symm)
  have hlast := planOk_drop_take_one hp (Nat.lt_succ_self _)
  rw [freqScan_after (planOk_take_of_le hp (Nat.le_succ _)) (Nat.le_refl _) hroom]
  refine onRaise_ok ?_
  rw [freqScanPasses, micro_bind_ok (readByte_eos (s := s.scanned _) hlast hend), State.scanned, List.take_length, hpos', List.drop_drop]
  rfl

/-- The scan meets the 2^32-th byte: it is read and refused (R142, R143). -/
theorem freqScan_tooLarge (hp : PlanOk (s.src.plan.take (k + 1))) (hk : k < s.unread.length) (hfull : k + 1 = 2 ^ 32) :
    freqScan s = .error (.refuse .inputTooLarge) { s.scannedRead k with freq := none } := by
  have hget := List.getElem?_eq_getElem hk
  have htotal : (BitVec.ofNat 32 k).toNat = 2 ^ 32 - 1 := by
    rw [BitVec.toNat_ofNat, Nat.mod_eq_of_lt (by omega)]
    omega
  rw [freqScan_after (planOk_take_of_le hp (Nat.le_succ _)) (by omega) (by omega)]
  refine onRaise_error (g := freqScanStopped) ?_
  rw [freqScanPasses, micro_bind_ok (readByte_scanned (planOk_drop_take_one hp (Nat.lt_succ_self k)) hget)]
  exact micro_bind_error (freqInc_full (s := s.scannedRead k) rfl _ htotal) _

/-- The scan meets a failing read (R254). -/
theorem freqScan_ioErr {p : List PortPlan} (hp : s.src.plan = List.replicate k .answers ++ .ioErr :: p) (hk : k ≤ s.unread.length)
    (hroom : k < 2 ^ 32) :
    freqScan s = .error (.err .ioSrc)
      { s.scanned k with freq := none, src := { s.src with pos := s.src.pos + k, plan := p } } := by
  obtain ⟨hok, hd⟩ := planStop_replicate hp
  have hstop : freqScanPasses (s.unread.length - k + 1) (s.scanned k)
      = .error (.err .ioSrc) { s.scanned k with src := { (s.scanned k).src with plan := p } } := by
    rw [freqScanPasses]
    exact micro_bind_error (readByte_ioErr (s := s.scanned k) hd) _
  rw [freqScan_after hok hk hroom, onRaise_error hstop]
  rfl

/-- Settles O29: the scan ends at the source's end, at a failing read, or at the byte for which TOTAL has no room. -/
theorem freqScanCountsTheSource : Obligations.FreqScanCountsTheSource :=
  ⟨encodedAs_of_opcode rfl rfl rfl, noOperand_of_operandMax rfl, fun s hr hpos =>
    ⟨fun hroom hp => primitive_eq_ok hr (freqScan_ok (s := s.started) hpos hp hroom),
      fun hlarge hp => primitive_eq_refuse hr (freqScan_tooLarge (s := s.started) (k := 2 ^ 32 - 1) hp hlarge rfl),
      fun _ _ hk hroom hp => primitive_eq_err hr (freqScan_ioErr (s := s.started) hp hk hroom)⟩⟩

end Sys2Proof.Machine
end

section
/-! PROOF. What a command may write (R45, R78): each micro-operation changes only its own parts of the state, the bytes of the source never change
within a pass, and what the sink has accepted stays. -/

namespace Sys2Proof.Machine

/-! ### The parts of the state -/

/-- A choice of parts of the state; RUN_STATE and RESULT, which every command writes, are in none. -/
structure Parts where
  buffer : Bool := false
  source : Bool := false
  sink : Bool := false
  freq : Bool := false
  tree : Bool := false
  code : Bool := false
  count : Bool := false
  emitted : Bool := false
  traversal : Bool := false

/-- `s` with the parts `w`, RUN_STATE and RESULT taken from `t`. -/
def State.overwritten (w : Parts) (s t : State) : State :=
  { s with
    run := t.run
    result := t.result
    bb := bif w.buffer then t.bb else s.bb
    src := bif w.source then t.src else s.src
    srcEos := bif w.source then t.srcEos else s.srcEos
    snk := bif w.sink then t.snk else s.snk
    freq := bif w.freq then t.freq else s.freq
    total := bif w.freq then t.total else s.total
    tree := bif w.tree then t.tree else s.tree
    code := bif w.code then t.code else s.code
    count := bif w.count then t.count else s.count
    countValid := bif w.count then t.countValid else s.countValid
    emitted := bif w.emitted then t.emitted else s.emitted
    des := bif w.traversal then t.des else s.des }

/-- `t` comes from `s` by changes to the parts `w`; the source's contents are the same and the sink has lost nothing. -/
structure Differs (w : Parts) (s t : State) : Prop where
  frame : t = s.overwritten w t
  contents : t.src.data = s.src.data ∧ t.src.rewinds = s.src.rewinds
  accepted : s.snk.out <+: t.snk.out

variable {α : Type} {w : Parts} {s t u : State}

theorem overwritten_overwritten (w : Parts) (s t u : State) : (s.overwritten w t).overwritten w u = s.overwritten w u := by
  have hcond {β : Type} (b : Bool) (x y z : β) : (bif b then x else bif b then y else z) = bif b then x else z := by cases b <;> rfl
  simp only [State.overwritten, hcond]

theorem Differs.refl (w : Parts) (s : State) : Differs w s s where
  frame := by simp only [State.overwritten, Bool.cond_self]
  contents := ⟨rfl, rfl⟩
  accepted := List.prefix_rfl

/-- One change more to the parts `w`; the source's contents and the sink's bytes are looked at only where it changes these. -/
theorem Differs.step (h : Differs w s t) (frame : u = t.overwritten w u)
    (contents : u.src.data = t.src.data ∧ u.src.rewinds = t.src.rewinds := by exact ⟨rfl, rfl⟩)
    (accepted : t.snk.out <+: u.snk.out := by exact List.prefix_rfl) : Differs w s u where
  frame := calc
    u = t.overwritten w u := frame
    _ = (s.overwritten w t).overwritten w u := congrArg (State.overwritten w · u) h.frame
    _ = s.overwritten w u := overwritten_overwritten w s t u
  contents := ⟨contents.1.trans h.contents.1, contents.2.trans h.contents.2⟩
  accepted := h.accepted.trans accepted

/-! ### One rule per part -/

theorem Differs.setOutcome (h : Differs w s t) (run : RunState) (c : ResultCode) : Differs w s { t with run := run, result := c } :=
  h.step (by simp only [State.overwritten, Bool.cond_self])

theorem Differs.setBuffer (h : Differs w s t) (hw : w.buffer = true) (q : Bits) :
    Differs w s { t with bb := q } :=
  h.step (by simp only [State.overwritten, hw, cond_true, Bool.cond_self])

theorem Differs.setSource (h : Differs w s t) (hw : w.source = true) (pos : Nat) (plan : List PortPlan) (e : Bool) :
    Differs w s { t with src := { t.src with pos := pos, plan := plan }, srcEos := e } :=
  h.step (by simp only [State.overwritten, hw, cond_true, Bool.cond_self])

theorem Differs.setSink (h : Differs w s t) (hw : w.sink = true) {a : Sink} (ha : t.snk.out <+: a.out) :
    Differs w s { t with snk := a } :=
  h.step (by simp only [State.overwritten, hw, cond_true, Bool.cond_self]) ⟨rfl, rfl⟩ ha

theorem Differs.setFreq (h : Differs w s t) (hf : w.freq = true) (x : Option FreqTable) :
    Differs w s { t with freq := x } :=
  h.step (by simp only [State.overwritten, hf, cond_true, Bool.cond_self])

theorem Differs.setTree (h : Differs w s t) (ht : w.tree = true) (x : Option Tree) :
    Differs w s { t with tree := x } :=
  h.step (by simp only [State.overwritten, ht, cond_true, Bool.cond_self])

/-- A new table comes with its total, and makes tree and code invalid (R141, R142). -/
theorem Differs.setTables (h : Differs w s t) (hf : w.freq = true) (ht : w.tree = true) (hc : w.code = true) (x : Option FreqTable) (n : Count)
    (y : Option Tree) (z : Option CodeTable) :
    Differs w s { t with freq := x, total := n, tree := y, code := z } :=
  h.step (by simp only [State.overwritten, hf, ht, hc, cond_true, Bool.cond_self])

theorem Differs.setCount (h : Differs w s t) (hn : w.count = true) (c : Count) (v : Bool) :
    Differs w s { t with count := c, countValid := v } :=
  h.step (by simp only [State.overwritten, hn, cond_true, Bool.cond_self])

theorem Differs.setTraversal (h : Differs w s t) (hd : w.traversal = true) (d : Traversal) :
    Differs w s { t with des := d } :=
  h.step (by simp only [State.overwritten, hd, cond_true, Bool.cond_self])

/-! ### Ports and bit buffer -/

/-- From any state that differs from `s` in the parts `w` only, `m` leads to one that does, whether it succeeds or raises. -/
abbrev Writes (w : Parts) (m : Micro α) : Prop := ∀ s, Keeps (Differs w s) m

theorem writes_readByte (hw : w.source = true) : Writes w readByte := by
  intro s t ht
  obtain ⟨v, _, _, e⟩ | ⟨_, _, e⟩ | ⟨p, _, e⟩ | ⟨p, _, e⟩ := readByte_cases t <;> rw [e] <;> exact ht.setSource hw _ _ _

theorem writes_writeByte (hw : w.sink = true) (v : Byte) : Writes w (writeByte v) := by
  intro s t ht
  obtain ⟨_, e⟩ | ⟨p, _, e⟩ | ⟨p, _, e⟩ := writeByte_cases v t <;> rw [e] <;> refine ht.setSink hw ?_
  case inl => exact List.prefix_append _ _
  all_goals exact List.prefix_rfl

theorem writes_bbAppendBits (hw : w.buffer = true) (q : Bits) : Writes w (bbAppendBits q) := by
  rw [bbAppendBits_eq_do]
  exact fun s => keeps_get_bind fun _ => keeps_ite (keeps_throw _) (triple_modify fun _ ht => ht.setBuffer hw _)

theorem writes_bbDrop (hw : w.buffer = true) (n : Nat) : Writes w (bbDrop n) := by
  rw [bbDrop_eq_do]
  exact fun s => keeps_get_bind fun _ => keeps_ite (keeps_throw _) (triple_modify fun _ ht => ht.setBuffer hw _)

theorem writes_bbPeek (i : Nat) : Writes w (bbPeek i) := by
  rw [bbPeek_eq_do]
  refine fun s => keeps_get_bind fun t => ?_
  cases t.bb[i]? with
  | some b => exact keeps_pure b
  | none => exact keeps_throw _

theorem writes_bbDrainPasses (hb : w.buffer = true) (hk : w.sink = true) (n : Nat) : Writes w (bbDrainPasses n) := by
  intro s
  induction n with
  | zero => exact keeps_pure ()
  | succ n ih => exact keeps_get_bind fun _ => (writes_writeByte hk _ s).bind fun _ => (writes_bbDrop hb 8 s).bind fun _ => ih

theorem writes_bbDrain (hb : w.buffer = true) (hk : w.sink = true) : Writes w bbDrain :=
  fun s => keeps_get_bind fun _ => writes_bbDrainPasses hb hk _ s

theorem writes_bbFlush (hb : w.buffer = true) (hk : w.sink = true) : Writes w bbFlush := by
  refine fun s => (writes_bbDrain hb hk s).bind fun _ => keeps_get_bind fun t => ?_
  cases t.bb with
  | nil => exact keeps_pure ()
  | cons b bs => exact (writes_writeByte hk _ s).bind fun _ => writes_bbDrop hb _ s

theorem writes_bbFill (hb : w.buffer = true) (hs : w.source = true) : Writes w bbFill := by
  refine fun s => keeps_get_bind fun _ => keeps_ite (keeps_throw _) ((writes_readByte hs s).bind fun r => ?_)
  cases r with
  | none => exact keeps_pure _
  | some v => exact (writes_bbAppendBits hb _ s).bind fun _ => keeps_pure _

theorem writes_bbFillCommand (hb : w.buffer = true) (hs : w.source = true) : Writes w bbFillCommand := by
  refine fun s => (writes_bbFill hb hs s).bind fun r => ?_
  cases r <;> exact keeps_pure _

/-! ### Scan, serializer, deserializer and headers -/

theorem writes_freqClr (hf : w.freq = true) (ht : w.tree = true) (hc : w.code = true) : Writes w freqClr :=
  fun _ => triple_modify fun _ h => h.setTables hf ht hc _ _ _ _

theorem writes_freqInc (hf : w.freq = true) (ht : w.tree = true) (hc : w.code = true) (v : Byte) : Writes w (freqInc v) :=
  fun _ => keeps_get_bind fun t => (keeps_needed t.freq).bind fun _ => keeps_get_bind fun _ => keeps_ite (keeps_throw _)
    (triple_modify fun _ h => h.setTables hf ht hc _ _ _ _)

theorem writes_freqScanPasses (hs : w.source = true) (hf : w.freq = true) (ht : w.tree = true) (hc : w.code = true) (n : Nat) :
    Writes w (freqScanPasses n) := by
  intro s
  induction n with
  | zero => exact keeps_pure ()
  | succ n ih =>
    refine (writes_readByte hs s).bind fun r => ?_
    cases r with
    | none => exact keeps_pure ()
    | some v => exact (writes_freqInc hf ht hc v s).bind fun _ => ih

theorem Differs.freqScanStopped (h : Differs w s t) (hf : w.freq = true) (r : Raise) : Differs w s (freqScanStopped r t) := by
  cases r with
  | err | refuse => exact h.setFreq hf _
  | fault | hang => exact h

theorem writes_freqScan (hs : w.source = true) (hf : w.freq = true) (ht : w.tree = true) (hc : w.code = true) : Writes w freqScan :=
  fun s => (writes_freqClr hf ht hc s).bind fun _ => keeps_get_bind fun _ =>
    (writes_freqScanPasses hs hf ht hc _ s).onRaise fun r _ h => h.freqScanStopped hf r

theorem writes_serNodes (hb : w.buffer = true) (hk : w.sink = true) (x : Tree) : Writes w (serNodes x) := by
  intro s
  induction x with
  | leaf i _ v =>
    exact (writes_bbAppendBits hb _ s).bind fun _ => (writes_bbAppendBits hb _ s).bind fun _ => writes_bbDrain hb hk s
  | branch i _ l r ihl ihr =>
    exact (writes_bbAppendBits hb _ s).bind fun _ => (writes_bbDrain hb hk s).bind fun _ => ihl.bind fun _ => ihr

theorem writes_treeSer (hb : w.buffer = true) (hk : w.sink = true) : Writes w treeSer :=
  fun s => keeps_get_bind fun t => (keeps_needed t.tree).bind fun x => writes_serNodes hb hk x s

theorem writes_enterNode : Writes w enterNode := fun _ => keeps_get_bind fun _ => keeps_ite (keeps_throw _) (keeps_pure ())

theorem writes_checkNodeFree : Writes w checkNodeFree := fun _ => keeps_get_bind fun _ => keeps_ite (keeps_throw _) (keeps_pure ())

theorem writes_holdToken (hd : w.traversal = true) (q : Bits) : Writes w (holdToken q) :=
  fun _ => triple_modify fun _ h => h.setTraversal hd _

theorem writes_tokenBranch (hd : w.traversal = true) : Writes w tokenBranch :=
  fun s => (writes_enterNode s).bind fun _ => (writes_checkNodeFree s).bind fun _ => triple_modify fun _ h => h.setTraversal hd _

theorem writes_tokenLeaf (hd : w.traversal = true) (v : Byte) : Writes w (tokenLeaf v) :=
  fun s => (writes_enterNode s).bind fun _ => (writes_checkNodeFree s).bind fun _ => triple_modify fun _ h => h.setTraversal hd _

theorem writes_demandBits (hb : w.buffer = true) (hs : w.source = true) (n : Nat) : Writes w (demandBits n) := by
  refine fun s => keeps_get_bind fun _ => keeps_ite ((writes_bbFill hb hs s).bind fun r => ?_) (keeps_pure ())
  cases r <;> exact keeps_get_bind fun _ => keeps_ite (keeps_throw _) (keeps_pure ())

theorem writes_desToken (hb : w.buffer = true) (hs : w.source = true) (hd : w.traversal = true) : Writes w desToken :=
  fun s => (writes_enterNode s).bind fun _ => (writes_demandBits hb hs 1 s).bind fun _ => (writes_bbPeek 0 s).bind fun _ =>
    (writes_bbDrop hb 1 s).bind fun _ => (writes_holdToken hd _ s).bind fun _ => (writes_checkNodeFree s).bind fun _ =>
    keeps_ite ((writes_demandBits hb hs 8 s).bind fun _ => keeps_get_bind fun _ => (writes_bbDrop hb 8 s).bind fun _ =>
      (writes_holdToken hd _ s).bind fun _ => writes_tokenLeaf hd _ s) (writes_tokenBranch hd s)

theorem writes_desPasses (hb : w.buffer = true) (hs : w.source = true) (hd : w.traversal = true) (n : Nat) : Writes w (desPasses n) := by
  intro s
  induction n with
  | zero => exact keeps_throw _
  | succ n ih =>
    refine (writes_desToken hb hs hd s).bind fun _ => keeps_get_bind fun t => ?_
    cases t.des.whole with
    | some x => exact keeps_pure x
    | none => exact ih

theorem Differs.dropTraversal (h : Differs w s t) (hd : w.traversal = true) (r : Raise) : Differs w s (dropTraversal r t) := by
  cases r with
  | err | refuse | fault => exact h.setTraversal hd _
  | hang => exact h

theorem writes_treeDes (hb : w.buffer = true) (hs : w.source = true) (ht : w.tree = true) (hc : w.code = true) (hd : w.traversal = true) :
    Writes w treeDes :=
  fun s => Keeps.bind (triple_modify fun _ h => h.step (by simp only [State.overwritten, ht, hc, hd, cond_true, Bool.cond_self])) fun _ =>
    ((writes_desPasses hb hs hd _ s).onRaise fun r _ h => h.dropTraversal hd r).bind fun _ =>
    Keeps.bind (triple_modify fun _ h => h.setTraversal hd _) fun _ =>
    keeps_ite (keeps_throw _) (triple_modify fun _ h => h.setTree ht _)

theorem writes_checkInputSize : Writes w checkInputSize := fun _ => keeps_get_bind fun _ => keeps_ite (keeps_throw _) (keeps_pure ())

theorem writes_hdrWrite (hk : w.sink = true) : Writes w hdrWrite :=
  fun s => (writes_checkInputSize s).bind fun _ => keeps_get_bind fun _ => (writes_writeByte hk _ s).bind fun _ =>
    (writes_writeByte hk _ s).bind fun _ => (writes_writeByte hk _ s).bind fun _ => writes_writeByte hk _ s

theorem writes_hdrReadPasses (hs : w.source = true) (n c : Nat) : Writes w (hdrReadPasses n c) := by
  intro s
  induction n generalizing c with
  | zero => exact keeps_pure c
  | succ n ih =>
    refine (writes_readByte hs s).bind fun r => ?_
    cases r with
    | none => exact keeps_throw _
    | some v => exact ih _

theorem writes_hdrRead (hs : w.source = true) (hn : w.count = true) : Writes w hdrRead :=
  fun s => Keeps.bind (triple_modify fun t h => h.setCount hn t.count false) fun _ => (writes_hdrReadPasses hs _ 0 s).bind fun _ =>
    triple_modify fun _ h => h.setCount hn _ true

/-! ### Commands -/

theorem Differs.raised (h : Differs w s t) (r : Raise) : Differs w s (t.raised false r) := by
  cases r with
  | err | refuse | fault => exact h.setOutcome _ _
  | hang => exact h

theorem settle_differs {body : Micro ResultCode} (hb : Writes w body) (s : State) : Differs w s (settle false body s) := by
  have hstart : Differs w s s.started := (Differs.refl w s).setOutcome _ s.result
  cases hm : body s.started with
  | ok c t =>
    rw [settle_ok hm]
    exact ((hb s).of_ok hstart hm).setOutcome _ _
  | error r t =>
    rw [settle_error hm]
    exact ((hb s).of_error hstart hm).raised r

/-- Whatever its outcome, a primitive command writes what its micro-operations write, and RUN_STATE and RESULT. -/
theorem primitive_differs {operandOk required : Bool} {body : Micro ResultCode} (hb : Writes w body)
    (he : primitive operandOk required body s = .next t) : Differs w s t := by
  obtain ⟨_, rfl⟩ | ⟨_, _, rfl⟩ | ⟨_, _, _, rfl⟩ | ⟨_, _, _, rfl⟩ := primitive_cases he
  · exact .refl w _
  · exact (Differs.refl w s).setOutcome _ _
  · exact (Differs.refl w s).setOutcome _ _
  · exact settle_differs hb s

theorem primitive_thenOk_differs {operandOk required : Bool} {m : Micro Unit} (hm : Writes w m)
    (he : primitive operandOk required (thenOk m) s = .next t) : Differs w s t :=
  primitive_differs (fun s => (hm s).bind fun _ => keeps_pure _) he

/-- Settles O59: each command's parts are those of its micro-operations. -/
theorem onePortCommandsFrame : Obligations.OnePortCommandsFrame := by
  refine fun s t => ⟨fun i hi he => ?toSink, fun he => ?hdrWrite, fun he => ?bbFill, fun he => ?freqScan, fun he => ?treeDes, fun he => ?hdrRead⟩
  case toSink =>
    have h : Differs { buffer := true, sink := true } s t := by
      obtain rfl | rfl | rfl := hi
      · exact primitive_thenOk_differs (writes_bbDrain rfl rfl) he
      · exact primitive_thenOk_differs (writes_bbFlush rfl rfl) he
      · exact primitive_thenOk_differs (writes_treeSer rfl rfl) he
    exact ⟨h.frame, h.accepted⟩
  case hdrWrite =>
    have h : Differs { sink := true } s t := primitive_thenOk_differs (writes_hdrWrite rfl) he
    exact ⟨h.frame, h.accepted⟩
  case bbFill =>
    have h : Differs { buffer := true, source := true } s t := primitive_differs (writes_bbFillCommand rfl rfl) he
    exact ⟨h.frame, h.contents⟩
  case freqScan =>
    have h : Differs { source := true, freq := true, tree := true, code := true } s t :=
      primitive_thenOk_differs (writes_freqScan rfl rfl rfl rfl) he
    exact ⟨h.frame, h.contents⟩
  case treeDes =>
    have h : Differs { buffer := true, source := true, tree := true, code := true, traversal := true } s t :=
      primitive_thenOk_differs (writes_treeDes rfl rfl rfl rfl rfl) he
    exact ⟨h.frame, h.contents⟩
  case hdrRead =>
    have h : Differs { source := true, count := true } s t := primitive_thenOk_differs (writes_hdrRead rfl rfl) he
    exact ⟨h.frame, h.contents⟩

end Sys2Proof.Machine
end

section
/-! PROOF. The leaf paths of a tree and its code table (R161 to R163): no path is the beginning of another and they fill the codespace,
the table stores the last path of each symbol, and a built tree has one leaf for each of its symbols. -/

namespace Sys2Proof.Machine

variable {f : FreqTable} {t l r : Tree} {m : Live} {live : List Live} {u v : Byte} {p q : Bits} {i n fuel : Nat} {w : Option Count}

/-! ### Leaf paths -/

/-- The paths from a node start with the node's own path. -/
theorem Tree.paths_append (t : Tree) (p q : Bits) : t.paths (p ++ q) = (t.paths q).map fun a => (a.1, p ++ a.2) := by
  induction t generalizing q with
  | leaf => rfl
  | branch i w l r ihl ihr =>
    rw [paths, paths, List.append_assoc, List.append_assoc, ihl, ihr, List.map_append]

/-- The paths of a branch are those of its children with the turn in front. -/
theorem Tree.paths_branch (i : Nat) (w : Option Count) (l r : Tree) :
    (Tree.branch i w l r).paths []
      = (l.paths []).map (fun a => (a.1, false :: a.2)) ++ (r.paths []).map fun a => (a.1, true :: a.2) :=
  congrArg₂ (· ++ ·) (l.paths_append [false] []) (r.paths_append [true] [])

theorem Tree.mem_paths_branch :
    (v, q) ∈ (Tree.branch i w l r).paths [] ↔ (∃ p, (v, p) ∈ l.paths [] ∧ q = false :: p) ∨ ∃ p, (v, p) ∈ r.paths [] ∧ q = true :: p := by
  simp [paths_branch, eq_comm]

theorem Tree.map_fst_paths (t : Tree) (p : Bits) : (t.paths p).map Prod.fst = t.symbols := by
  induction t generalizing p with
  | leaf => rfl
  | branch i w l r ihl ihr => rw [paths, symbols, List.map_append, ihl, ihr]

theorem Tree.mem_symbols_iff : v ∈ t.symbols ↔ ∃ q, (v, q) ∈ t.paths [] := by
  rw [← t.map_fst_paths [], List.mem_map]
  simp

theorem Tree.length_le_height (h : (v, q) ∈ t.paths []) : q.length ≤ t.height := by
  induction t generalizing q with
  | leaf => cases List.mem_singleton.mp h; exact Nat.le_refl _
  | branch i w l r ihl ihr =>
    rw [height]
    obtain ⟨p, hp, rfl⟩ | ⟨p, hp, rfl⟩ := mem_paths_branch.mp h
    · exact Nat.succ_le_succ ((ihl hp).trans (Nat.le_max_left _ _))
    · exact Nat.succ_le_succ ((ihr hp).trans (Nat.le_max_right _ _))

theorem Tree.path_ne_nil (ht : t.isLeaf = false) (h : (v, q) ∈ t.paths []) : q ≠ [] := by
  cases t with
  | leaf => cases ht
  | branch i w l r => obtain ⟨p, _, rfl⟩ | ⟨p, _, rfl⟩ := mem_paths_branch.mp h <;> exact List.cons_ne_nil _ _

/-- The decoder's walk along a leaf's path ends in the leaf, whatever follows (R212). -/
theorem walkBits_of_mem_paths (h : (v, p) ∈ t.paths []) (q : Bits) : walkBits t (p ++ q) = some (v, q) := by
  induction t generalizing p with
  | leaf => cases List.mem_singleton.mp h; rfl
  | branch i w l r ihl ihr =>
    obtain ⟨p, hp, rfl⟩ | ⟨p, hp, rfl⟩ := Tree.mem_paths_branch.mp h
    · exact ihl hp
    · exact ihr hp

/-- No leaf's path is the beginning of another's, because a walk from the root meets one leaf only (R162 (d)). -/
theorem Tree.paths_prefixFree (hp : (u, p) ∈ t.paths []) (hq : (v, q) ∈ t.paths []) (h : p <+: q) : u = v := by
  obtain ⟨rest, rfl⟩ := h
  have hv := walkBits_of_mem_paths hq []
  rw [List.append_nil, walkBits_of_mem_paths hp] at hv
  exact congrArg Prod.fst (Option.some.inj hv)

/-- Kraft's sum of the leaf paths of a full tree is 1 (R162 (f)). -/
theorem Tree.kraft_paths (h : t.height ≤ n) : ((t.paths []).map fun a => 2 ^ (n - a.2.length)).sum = 2 ^ n := by
  induction t generalizing n with
  | leaf => rfl
  | branch i w l r ihl ihr =>
    rw [height] at h
    obtain ⟨n, rfl⟩ : ∃ k, n = k + 1 := ⟨n - 1, by omega⟩
    have hl := ihl (n := n) (by omega)
    have hr := ihr (n := n) (by omega)
    simp only [paths_branch, List.map_append, List.map_map, Function.comp_def, List.length_cons, Nat.add_sub_add_right,
      List.sum_append, hl, hr]
    omega

/-! ### The code table -/

/-- The walk stores for each symbol its last path, and leaves the other entries (R161, R163). -/
theorem tableGet_walkCodes (t : Tree) (p : Bits) (tab : CodeTable) (v : Byte) :
    tableGet (walkCodes t p tab) v = (((t.paths p).reverse.find? fun a => a.1 == v).map Prod.snd).getD (tableGet tab v) := by
  induction t generalizing p tab with
  | leaf i w u =>
    rw [walkCodes, Tree.paths, List.reverse_singleton, List.find?_singleton]
    by_cases h : u = v
    · rw [h, tableGet_tableSet, beq_self_eq_true, if_pos rfl, Option.map_some, Option.getD_some]
    · rw [tableGet_tableSet_ne _ (Ne.symm h), if_neg (by simpa using h), Option.map_none, Option.getD_none]
  | branch i w l r ihl ihr =>
    rw [walkCodes, Tree.paths, List.reverse_append, List.find?_append, ihr, ihl]
    cases (r.paths (p ++ [true])).reverse.find? fun a => a.1 == v <;> rfl

theorem tableGet_codeTable (t : Tree) (v : Byte) :
    tableGet (codeTable t) v = (((t.paths []).reverse.find? fun a => a.1 == v).map Prod.snd).getD [] := by
  rw [codeTable, tableGet_walkCodes, tableGet_empty]

theorem tableGet_codeTable_of_notMem (h : v ∉ t.symbols) : tableGet (codeTable t) v = [] := by
  have hnone : ((t.paths []).reverse.find? fun a => a.1 == v) = none := by
    rw [List.find?_eq_none]
    rintro ⟨u, q⟩ ha hu
    exact h (Tree.mem_symbols_iff.mpr ⟨q, eq_of_beq hu ▸ List.mem_reverse.mp ha⟩)
  rw [tableGet_codeTable, hnone, Option.map_none, Option.getD_none]

/-- A leaf symbol's codeword is the path of one of its leaves. -/
theorem mem_paths_codeTable (h : v ∈ t.symbols) : (v, tableGet (codeTable t) v) ∈ t.paths [] := by
  rw [tableGet_codeTable]
  cases hfind : (t.paths []).reverse.find? fun a => a.1 == v with
  | none =>
    obtain ⟨q, hq⟩ := Tree.mem_symbols_iff.mp h
    exact absurd (beq_self_eq_true v) (List.find?_eq_none.mp hfind (v, q) (List.mem_reverse.mpr hq))
  | some a =>
    have hv : a.1 = v := by simpa using List.find?_some hfind
    exact hv ▸ List.mem_reverse.mp (List.mem_of_find?_eq_some hfind)

theorem tableGet_codeTable_ne_nil_iff (ht : t.isLeaf = false) : tableGet (codeTable t) v ≠ [] ↔ v ∈ t.symbols :=
  ⟨fun h => by_contra fun hv => h (tableGet_codeTable_of_notMem hv), fun h => Tree.path_ne_nil ht (mem_paths_codeTable h)⟩

/-- No codeword is the beginning of another symbol's (R162 (d), R163). -/
theorem codeTable_prefixFree (ht : t.isLeaf = false) (hu : tableGet (codeTable t) u ≠ [])
    (h : tableGet (codeTable t) u <+: tableGet (codeTable t) v) : u = v := by
  have hv : tableGet (codeTable t) v ≠ [] := fun e => hu (List.prefix_nil.mp (e ▸ h))
  rw [tableGet_codeTable_ne_nil_iff ht] at hu hv
  exact Tree.paths_prefixFree (mem_paths_codeTable hu) (mem_paths_codeTable hv) h

/-- Where each symbol has one leaf, the codeword is that leaf's path. -/
theorem tableGet_codeTable_of_mem_paths (hn : t.symbols.Nodup) (h : (v, q) ∈ t.paths []) : tableGet (codeTable t) v = q := by
  rw [← t.map_fst_paths []] at hn
  have hmem := mem_paths_codeTable (Tree.mem_symbols_iff.mpr ⟨q, h⟩)
  exact congrArg Prod.snd (List.inj_on_of_nodup_map hn hmem h rfl)

/-! ### All symbols -/

/-- The 256 symbols in ascending order. -/
def allSymbols : List Byte := (List.range 256).map (BitVec.ofNat 8)

theorem mem_allSymbols (v : Byte) : v ∈ allSymbols :=
  List.mem_map.mpr ⟨v.toNat, List.mem_range.mpr v.isLt, by simp⟩

theorem nodup_allSymbols : allSymbols.Nodup := by
  refine List.Nodup.map_on (fun a ha b hb h => ?_) List.nodup_range
  rw [List.mem_range] at ha hb
  simpa [Nat.mod_eq_of_lt ha, Nat.mod_eq_of_lt hb] using congrArg BitVec.toNat h

/-- A sum over all symbols of a function that is 0 off a list without repetition is the sum over the list. -/
theorem sum_allSymbols {l : List Byte} (hn : l.Nodup) {g : Byte → Nat} (hg : ∀ v, v ∉ l → g v = 0) :
    (allSymbols.map g).sum = (l.map g).sum := by
  have hin : (allSymbols.filter (· ∈ l)).Perm l :=
    (List.perm_ext_iff_of_nodup (nodup_allSymbols.filter _) hn).mpr fun v => by simp [mem_allSymbols]
  have hout : ((allSymbols.filter fun v => !decide (v ∈ l)).map g).sum = 0 := by
    simpa [List.sum_eq_zero_iff, mem_allSymbols] using hg
  have hsplit := ((List.filter_append_perm (fun v => decide (v ∈ l)) allSymbols).map g).sum_eq
  rw [List.map_append, List.sum_append, hout, Nat.add_zero] at hsplit
  exact hsplit.symm.trans (hin.map g).sum_eq

/-- The share of the codespace that a symbol's codeword takes, in units of `2 ^ -255`; none without a codeword (R162 (f)). -/
def kraftShare (c : CodeTable) (v : Byte) : Nat :=
  if tableGet c v = [] then 0 else 2 ^ (Config.maxDepth - (tableGet c v).length)

/-- Where each symbol has one leaf, the codewords take the whole codespace (R162 (f)). -/
theorem sum_kraftShare (hn : t.symbols.Nodup) (ht : t.isLeaf = false) (hh : t.height ≤ Config.maxDepth) :
    (allSymbols.map (kraftShare (codeTable t))).sum = 2 ^ Config.maxDepth := by
  have hshare {a : Byte × Bits} (ha : a ∈ t.paths []) : kraftShare (codeTable t) a.1 = 2 ^ (Config.maxDepth - a.2.length) := by
    rw [kraftShare, tableGet_codeTable_of_mem_paths hn ha, if_neg (Tree.path_ne_nil ht ha)]
  calc (allSymbols.map (kraftShare (codeTable t))).sum
    _ = (t.symbols.map (kraftShare (codeTable t))).sum :=
      sum_allSymbols hn fun v hv => if_pos (tableGet_codeTable_of_notMem hv)
    _ = ((t.paths []).map fun a => 2 ^ (Config.maxDepth - a.2.length)).sum := by
      rw [← t.map_fst_paths [], List.map_map]
      exact congrArg List.sum (List.map_congr_left fun a ha => hshare ha)
    _ = 2 ^ Config.maxDepth := Tree.kraft_paths hh

/-! ### The symbols of a built tree -/

/-- The merge loop keeps all leaves, whatever the weights (R147, R150). -/
theorem mergePasses_leaves (hok : LiveOk n live) (hm : mergePasses fuel n live = some m) : m.node.leaves.Perm (liveLeaves live) := by
  induction fuel generalizing n live with
  | zero => cases hm
  | succ fuel ih =>
    obtain ⟨_, e⟩ | ⟨m', rfl, e⟩ | ⟨m1, m2, rest, others, h1, h2, e⟩ := mergePasses_cases hok fuel <;> rw [e] at hm
    · cases hm
    · cases hm
      simp [liveLeaves]
    · have hlive : live.Perm (m2 :: m1 :: others) := h1.perm.trans ((h2.perm.cons m1).trans (.swap ..))
      refine (ih (hok.merge_lowest h1 h2) hm).trans (.trans ?_ (hlive.flatMap_right _).symm)
      simp [liveLeaves, mergeNodes, Tree.leaves]

theorem buildTree_leaves (h : buildTree f = some t) : t.leaves.Perm (liveLeaves (initialLive f)) := by
  obtain ⟨m, hm, rfl⟩ := Option.map_eq_some_iff.mp h
  exact mergePasses_leaves (initialLive_ok f) hm

/-- The symbols are the counted ones, with the synthetic one beside a single one (R145, R146). -/
theorem buildTree_symbols (h : buildTree f = some t) :
    (∃ v, countedSymbols f = [v] ∧ t.symbols.Perm [v, v + 128#8]) ∨ t.symbols.Perm (countedSymbols f) := by
  have hsymbols : t.symbols.Perm ((liveLeaves (initialLive f)).map fun a => a.2.2) :=
    t.symbols_eq_map_leaves ▸ (buildTree_leaves h).map _
  by_cases hone : (countedSymbols f).length = 1
  · obtain ⟨v, hv⟩ := List.length_eq_one_iff.mp hone
    rw [liveLeaves_initialLive_single hv] at hsymbols
    exact .inl ⟨v, hv, hsymbols⟩
  · rw [liveLeaves_initialLive_of_ne_one hone, List.map_map] at hsymbols
    exact .inr (hsymbols.trans (.of_eq (List.zipIdx_map_fst 0 _)))

theorem nodup_countedSymbols (f : FreqTable) : (countedSymbols f).Nodup := nodup_allSymbols.filter _

theorem mem_countedSymbols : v ∈ countedSymbols f ↔ 0 < (tableGet f v).toNat := by
  rw [countedSymbols, List.mem_filter, decide_eq_true_iff]
  exact and_iff_right (mem_allSymbols v)

/-- A built tree has one leaf for each of its symbols; the synthetic symbol differs from the real one (R146). -/
theorem buildTree_symbols_nodup (h : buildTree f = some t) : t.symbols.Nodup := by
  obtain ⟨v, _, hperm⟩ | hperm := buildTree_symbols h
  · have hne : v ≠ v + 128#8 := by bv_omega
    exact hperm.nodup_iff.mpr (by simp [hne])
  · exact hperm.nodup_iff.mpr (nodup_countedSymbols f)

theorem mem_symbols_of_counted (h : buildTree f = some t) (hv : 0 < (tableGet f v).toNat) : v ∈ t.symbols := by
  rw [← mem_countedSymbols] at hv
  obtain ⟨u, hu, hperm⟩ | hperm := buildTree_symbols h
  · rw [hu, List.mem_singleton] at hv
    exact hperm.mem_iff.mpr (hv ▸ List.mem_cons_self)
  · exact hperm.mem_iff.mpr hv

/-- Settles O34: the codewords are the leaf paths of a full tree that has one leaf for each of its symbols. -/
theorem builtCodeIsACompletePrefixCode : Obligations.BuiltCodeIsACompletePrefixCode := by
  intro f t h
  obtain ⟨⟨⟨hbranch, hheight, _⟩, _⟩, _⟩ := buildTree_ok h
  refine ⟨fun v hv => ?counted, fun v hv => ?path, fun u v => codeTable_prefixFree hbranch, fun v => tableGet_codeTable_of_notMem, ?kraft⟩
  case counted => exact (tableGet_codeTable_ne_nil_iff hbranch).mpr (mem_symbols_of_counted h hv)
  case path =>
    have hmem := mem_paths_codeTable ((tableGet_codeTable_ne_nil_iff hbranch).mp hv)
    exact ⟨hmem, (Tree.length_le_height hmem).trans hheight⟩
  case kraft =>
    have hsum := sum_kraftShare (buildTree_symbols_nodup h) hbranch hheight
    rwa [allSymbols, List.map_map] at hsum

/-! ### CODE_GEN -/

variable {s : State}

theorem codeGen_ok (ht : s.tree = some t) : codeGen s = .ok () { s with code := some (codeTable t) } := by
  rw [codeGen, micro_get_bind, micro_bind_ok (needed_of_eq_some ht s), micro_modify]

/-- CODE_GEN while TREE_VALID = 1. -/
theorem exec_codeGen_valid (ht : s.tree = some t) : exec .codeGen s = primitive true true (thenOk codeGen) s := by
  rw [exec, execCodeGen, State.treeValid, ht, Option.isSome_some]

/-- Settles O33: the table is the one the pre-order walk fills, in which later leaves overwrite earlier ones. -/
theorem codeGenStoresTheLeafPaths : Obligations.CodeGenStoresTheLeafPaths := by
  refine ⟨encodedAs_of_opcode rfl rfl rfl, noOperand_of_operandMax rfl, fun s hr => ⟨fun t ht => ?stores, fun ht => ?badSequence⟩⟩
  case stores =>
    refine ⟨codeTable t, ?_, tableGet_codeTable t⟩
    rw [exec_codeGen_valid ht]
    exact primitive_eq_ok hr (codeGen_ok (s := s.started) ht)
  case badSequence => exact exec_flagsMissing hr rfl (by rw [Instr.flagsMet, State.treeValid, ht, Option.isSome_none])

end Sys2Proof.Machine
end

section
/-! PROOF. What the commands and tokens that touch no port may write (40_bitbuf.md section 2, R141 to R144, R161, R230, R232). -/

namespace Sys2Proof.Machine

variable {w : Parts} {s t : State}

/-! ### Micro-operations -/

theorem writes_bbClear (hb : w.buffer = true) : Writes w bbClear := fun _ => triple_modify fun _ h => h.setBuffer hb _

theorem writes_appendCode (hb : w.buffer = true) (v : Byte) : Writes w (appendCode v) := by
  refine fun s => keeps_get_bind fun t => (keeps_needed t.code).bind fun c => ?_
  cases tableGet c v with
  | nil => exact keeps_throw _
  | cons b q => exact writes_bbAppendBits hb (b :: q) s

theorem Differs.setCode (h : Differs w s t) (hc : w.code = true) (x : Option CodeTable) : Differs w s { t with code := x } :=
  h.step (by simp only [State.overwritten, hc, cond_true, Bool.cond_self])

theorem writes_treeBuild (ht : w.tree = true) (hc : w.code = true) : Writes w treeBuild := by
  refine fun s => keeps_get_bind fun t => (keeps_needed t.freq).bind fun f => keeps_get_bind fun _ => keeps_ite (keeps_throw _) ?_
  cases buildTree f with
  | none => exact keeps_throw _
  | some x => exact triple_modify fun _ h => (h.setTree ht (some x)).setCode hc none

theorem writes_codeGen (hc : w.code = true) : Writes w codeGen :=
  fun _ => keeps_get_bind fun t => (keeps_needed t.tree).bind fun _ => triple_modify fun _ h => h.setCode hc _

/-! ### Tokens and RELEASE -/

/-- Whatever its outcome, a token writes what its checks and its change of the traversal write, and RUN_STATE and RESULT. -/
theorem runToken_differs {body : Micro Unit} (hb : Writes w body) (hd : w.traversal = true) (he : runToken body s = .next t) :
    Differs w s t := by
  by_cases hr : s.run = .busy
  · cases hm : body s with
    | ok _ u =>
      cases (runToken_ok hr hm).symm.trans he
      exact (hb s).of_ok (.refl w s) hm
    | error r u =>
      cases (runToken_error hr hm).symm.trans he
      exact (((hb s).of_error (.refl w s) hm).dropTraversal hd r).raised r
  · cases (runToken_of_not_busy hr body).symm.trans he
    exact .refl w s

/-- RELEASE of an idle engine always completes; in FAULT it is ignored (R232, R255). -/
theorem exec_release_cases (he : exec .release s = .next t) : t = s ∨ t = s.released.completed .ok := by
  obtain ⟨_, rfl⟩ | ⟨_, h, _⟩ | ⟨_, _, h, _⟩ | ⟨_, _, _, rfl⟩ := primitive_cases he
  · exact .inl rfl
  · cases h
  · cases h
  · exact .inr rfl

/-- Settles O58: each command's parts are those of its micro-operations. -/
theorem portlessCommandsFrame : Obligations.PortlessCommandsFrame := by
  refine fun s t => ⟨fun i hi he => ?buffer, fun i hi he => ?table, fun he => ?treeBuild, fun he => ?codeGen, fun he => ?release,
    fun i hi he => ?token⟩
  case buffer =>
    have h : Differs { buffer := true } s t := by
      obtain rfl | rfl | ⟨b, rfl⟩ | ⟨v, rfl⟩ | ⟨v, rfl⟩ | ⟨n, rfl⟩ := hi
      · exact primitive_differs (fun _ => keeps_pure _) he
      · exact primitive_thenOk_differs (writes_bbClear rfl) he
      · exact primitive_thenOk_differs (writes_bbAppendBits rfl _) he
      · exact primitive_thenOk_differs (writes_bbAppendBits rfl _) he
      · exact primitive_thenOk_differs (writes_appendCode rfl _) he
      · exact primitive_thenOk_differs (writes_bbDrop rfl _) he
    exact h.frame
  case table =>
    have h : Differs { freq := true, tree := true, code := true } s t := by
      obtain rfl | ⟨v, rfl⟩ := hi
      · exact primitive_thenOk_differs (writes_freqClr rfl rfl rfl) he
      · exact primitive_thenOk_differs (writes_freqInc rfl rfl rfl _) he
    exact h.frame
  case treeBuild =>
    have h : Differs { tree := true, code := true } s t := primitive_thenOk_differs (writes_treeBuild rfl rfl) he
    exact h.frame
  case codeGen =>
    have h : Differs { code := true } s t := primitive_thenOk_differs (writes_codeGen rfl) he
    exact h.frame
  case release => obtain rfl | rfl := exec_release_cases he <;> rfl
  case token =>
    have h : Differs { traversal := true } s t := by
      obtain rfl | ⟨v, rfl⟩ := hi
      · exact runToken_differs (writes_tokenBranch rfl) rfl he
      · exact runToken_differs (writes_tokenLeaf rfl v) rfl he
    exact h.frame

end Sys2Proof.Machine
end

section
/-! PROOF. The recursion of R173 neither uses nor changes the hidden traversal, and one call of `Des` reads at most two groups of bits: a kind bit and
a symbol. -/

namespace Sys2Proof.Machine

variable {α β : Type} {s t u : State} {r : Raise} {b : Bool} {q : Bits} {k n : Nat}

/-! ### Micro-operations that do not see the traversal -/

/-- `m` does the same whatever the traversal is, and leaves it as it is. -/
def TraversalBlind (m : Micro α) : Prop := ∀ d s, m (s.withTraversal d) = atEnd (State.withTraversal d) (m s)

theorem traversalBlind_pure (a : α) : TraversalBlind (pure a) := fun _ _ => rfl

theorem traversalBlind_throw (r : Raise) : TraversalBlind (throw r : Micro α) := fun _ _ => rfl

theorem traversalBlind_modify {g : State → State} (hg : ∀ d s, g (s.withTraversal d) = (g s).withTraversal d := by intros; rfl) :
    TraversalBlind (modify g) := fun d s => congrArg (EStateM.Result.ok ()) (hg d s)

theorem TraversalBlind.bind {m : Micro α} {f : α → Micro β} (hm : TraversalBlind m) (hf : ∀ a, TraversalBlind (f a)) :
    TraversalBlind (m >>= f) := by
  intro d s
  rw [micro_bind, micro_bind, hm d s]
  cases m s with
  | ok a t => exact hf a d t
  | error r t => rfl

/-- What is read from the state is no part of the traversal. -/
theorem traversalBlind_get_bind {f : State → Micro α} (hf : ∀ s, TraversalBlind (f s))
    (hread : ∀ d s, f (s.withTraversal d) = f s := by intros; rfl) : TraversalBlind ((get : Micro State) >>= f) := by
  intro d s
  rw [micro_get_bind, micro_get_bind, hread]
  exact hf s d s

theorem traversalBlind_ite {p : Prop} [Decidable p] {m m' : Micro α} (hm : TraversalBlind m) (hm' : TraversalBlind m') :
    TraversalBlind (if p then m else m') := by
  split
  · exact hm
  · exact hm'

theorem TraversalBlind.ok {m : Micro α} (h : TraversalBlind m) {a : α} (he : m s = .ok a t) (d : Traversal) :
    m (s.withTraversal d) = .ok a (t.withTraversal d) := by
  rw [h d s, he, atEnd]

theorem TraversalBlind.error {m : Micro α} (h : TraversalBlind m) (he : m s = .error r t) (d : Traversal) :
    m (s.withTraversal d) = .error r (t.withTraversal d) := by
  rw [h d s, he, atEnd]

/-- The traversal is still there after success. -/
theorem TraversalBlind.des_eq {m : Micro α} (h : TraversalBlind m) {a : α} (he : m s = .ok a t) : t.des = s.des := by
  obtain ⟨_, ht⟩ := EStateM.Result.ok.inj (he.symm.trans (h.ok he s.des))
  rw [ht, State.withTraversal]

/-- The traversal is still there at a raise. -/
theorem TraversalBlind.des_eq_of_error {m : Micro α} (h : TraversalBlind m) (he : m s = .error r t) : t.des = s.des := by
  obtain ⟨_, ht⟩ := EStateM.Result.error.inj (he.symm.trans (h.error he s.des))
  rw [ht, State.withTraversal]

theorem traversalBlind_readByte : TraversalBlind readByte := by
  intro d s
  obtain ⟨v, hp, hv, e⟩ | ⟨hp, hv, e⟩ | ⟨p, hp, e⟩ | ⟨p, hp, e⟩ := readByte_cases s
  · rw [e]; exact readByte_byte hp hv
  · rw [e]; exact readByte_eos hp hv
  · rw [e]; exact readByte_ioErr hp
  · rw [e]; exact readByte_never hp

theorem traversalBlind_bbAppendBits (q : Bits) : TraversalBlind (bbAppendBits q) := by
  rw [bbAppendBits_eq_do]
  exact traversalBlind_get_bind fun _ => traversalBlind_ite (traversalBlind_throw _) traversalBlind_modify

theorem traversalBlind_bbPeek (i : Nat) : TraversalBlind (bbPeek i) := by
  rw [bbPeek_eq_do]
  refine traversalBlind_get_bind fun s => ?_
  cases s.bb[i]? with
  | none => exact traversalBlind_throw _
  | some b => exact traversalBlind_pure b

theorem traversalBlind_bbDrop (n : Nat) : TraversalBlind (bbDrop n) := by
  rw [bbDrop_eq_do]
  exact traversalBlind_get_bind fun _ => traversalBlind_ite (traversalBlind_throw _) traversalBlind_modify

theorem traversalBlind_bbFill : TraversalBlind bbFill := by
  refine traversalBlind_get_bind fun _ => traversalBlind_ite (traversalBlind_throw _) (traversalBlind_readByte.bind fun r => ?_)
  cases r with
  | none => exact traversalBlind_pure _
  | some v => exact (traversalBlind_bbAppendBits _).bind fun _ => traversalBlind_pure _

theorem traversalBlind_demandBits (n : Nat) : TraversalBlind (demandBits n) := by
  refine traversalBlind_get_bind fun _ => traversalBlind_ite (traversalBlind_bbFill.bind fun r => ?_) (traversalBlind_pure ())
  cases r <;> exact traversalBlind_get_bind fun _ => traversalBlind_ite (traversalBlind_throw _) (traversalBlind_pure ())

/-! ### One call of `Des` -/

/-- The kind bit of a token (R99, R173). -/
def readKind : Micro Bool := do
  demandBits 1
  let b ← bbPeek 0
  bbDrop 1
  pure b

/-- The bits of a leaf's symbol (R99, R173). -/
def readSymbol : Micro Bits := do
  demandBits 8
  let q := (← get).bb.take 8
  bbDrop 8
  pure q

theorem traversalBlind_readKind : TraversalBlind readKind :=
  (traversalBlind_demandBits 1).bind fun _ => (traversalBlind_bbPeek 0).bind fun _ => (traversalBlind_bbDrop 1).bind fun _ =>
    traversalBlind_pure _

theorem traversalBlind_readSymbol : TraversalBlind readSymbol :=
  (traversalBlind_demandBits 8).bind fun _ => traversalBlind_get_bind fun _ => (traversalBlind_bbDrop 8).bind fun _ =>
    traversalBlind_pure _

/-- A call of `Des` is a kind bit, then a symbol or two calls (R173). -/
theorem desNode_succ_eq (k n : Nat) : desNode (k + 1) n = (do
    let b ← readKind
    if Config.nodeCap ≤ n then throw (.refuse .nodeMemFull)
    else if b then do
      let q ← readSymbol
      pure (.leaf n none (byteOf q), n + 1)
    else do
      let p ← desNode k (n + 1)
      let p' ← desNode k p.2
      pure (.branch n none p.1 p'.1, p'.2)) := by
  simp only [desNode, readKind, readSymbol, bind_assoc, pure_bind]

theorem traversalBlind_desNode (k n : Nat) : TraversalBlind (desNode k n) := by
  induction k generalizing n with
  | zero => exact traversalBlind_throw _
  | succ k ih =>
    rw [desNode_succ_eq]
    refine traversalBlind_readKind.bind fun b => traversalBlind_ite (traversalBlind_throw _) (traversalBlind_ite ?leaf ?branch)
    case leaf => exact traversalBlind_readSymbol.bind fun _ => traversalBlind_pure _
    case branch => exact (ih _).bind fun _ => (ih _).bind fun _ => traversalBlind_pure _

theorem traversalBlind_desRecursive : TraversalBlind desRecursive :=
  TraversalBlind.bind traversalBlind_modify fun _ => (traversalBlind_desNode _ _).bind fun _ =>
    traversalBlind_ite (traversalBlind_throw _) traversalBlind_modify

theorem desNode_zero (n : Nat) (s : State) : desNode 0 n s = .error (.err .treeDepth) s := rfl

theorem desNode_kind_error (h : readKind s = .error r t) : desNode (k + 1) n s = .error r t := by
  rw [desNode_succ_eq, micro_bind_error h]

theorem desNode_full (h : readKind s = .ok b t) (hn : Config.nodeCap ≤ n) : desNode (k + 1) n s = .error (.refuse .nodeMemFull) t := by
  rw [desNode_succ_eq, micro_bind_ok h, if_pos hn, micro_throw]

theorem desNode_symbol_error (h : readKind s = .ok true t) (hn : n < Config.nodeCap) (hq : readSymbol t = .error r u) :
    desNode (k + 1) n s = .error r u := by
  rw [desNode_succ_eq, micro_bind_ok h, if_neg (Nat.not_le.mpr hn), if_pos rfl, micro_bind_error hq]

theorem desNode_leaf (h : readKind s = .ok true t) (hn : n < Config.nodeCap) (hq : readSymbol t = .ok q u) :
    desNode (k + 1) n s = .ok (.leaf n none (byteOf q), n + 1) u := by
  rw [desNode_succ_eq, micro_bind_ok h, if_neg (Nat.not_le.mpr hn), if_pos rfl, micro_bind_ok hq, micro_pure]

/-- A branch reads its two subtrees. -/
theorem desNode_branch (h : readKind s = .ok false t) (hn : n < Config.nodeCap) :
    desNode (k + 1) n s = (do
      let p ← desNode k (n + 1)
      let p' ← desNode k p.2
      pure (.branch n none p.1 p'.1, p'.2) : Micro (Tree × Nat)) t := by
  rw [desNode_succ_eq, micro_bind_ok h, if_neg (Nat.not_le.mpr hn), if_neg Bool.false_ne_true]

/-- The next free index never goes beyond NODE_CAP (R177). -/
theorem desNode_next_le {p : Tree × Nat} (h : desNode k n s = .ok p t) : p.2 ≤ Config.nodeCap := by
  induction k generalizing n s t p with
  | zero => cases h
  | succ k ih =>
    cases hb : readKind s with
    | error r v => cases (desNode_kind_error hb).symm.trans h
    | ok b v =>
      by_cases hn : Config.nodeCap ≤ n
      · cases (desNode_full hb hn).symm.trans h
      · cases b with
        | false =>
          rw [desNode_branch hb (Nat.lt_of_not_le hn)] at h
          obtain ⟨p₁, w, _, h⟩ := micro_bind_eq_ok.mp h
          obtain ⟨p₂, w', h₂, hret⟩ := micro_bind_eq_ok.mp h
          cases hret
          exact ih (p := p₂) h₂
        | true =>
          cases hq : readSymbol v with
          | error r w => cases (desNode_symbol_error hb (Nat.lt_of_not_le hn) hq).symm.trans h
          | ok q w =>
            cases (desNode_leaf hb (Nat.lt_of_not_le hn) hq).symm.trans h
            exact Nat.lt_of_not_le hn

/-! ### One token of the stack machine -/

/-- What a token does once its kind bit is read and held (R173). -/
def afterKind (b : Bool) : Micro Unit := do
  checkNodeFree
  if b then do
    let q ← readSymbol
    holdToken (true :: q)
    tokenLeaf (byteOf q)
  else tokenBranch

theorem desToken_eq : desToken = (do enterNode; let b ← readKind; holdToken [b]; afterKind b) := by
  simp only [desToken, readKind, readSymbol, afterKind, bind_assoc, pure_bind]

theorem holdToken_eq (q : Bits) (s : State) : holdToken q s = .ok () (s.withTraversal { s.des with token := q }) := rfl

/-- A token of either kind, once its bits are read. -/
theorem takeNode_ok (g : Traversal → Traversal) (hd : s.des.stack.length < Config.depthLimit) (hn : s.des.next < Config.nodeCap) :
    takeNode g s = .ok () (s.withTraversal (g s.des)) := by
  rw [takeNode, micro_bind_ok (enterNode_ok hd), micro_bind_ok (checkNodeFree_ok hn), micro_modify, State.withTraversal]

theorem desToken_tooDeep (hd : Config.depthLimit ≤ s.des.stack.length) : desToken s = .error (.err .treeDepth) s := by
  rw [desToken_eq, micro_bind_error (enterNode_tooDeep hd)]

theorem desToken_kind_error (hd : s.des.stack.length < Config.depthLimit) (h : readKind s = .error r t) : desToken s = .error r t := by
  rw [desToken_eq, micro_bind_ok (enterNode_ok hd), micro_bind_error h]

theorem desToken_kind_ok (hd : s.des.stack.length < Config.depthLimit) (h : readKind s = .ok b t) :
    desToken s = afterKind b (t.withTraversal { s.des with token := [b] }) := by
  rw [desToken_eq, micro_bind_ok (enterNode_ok hd), micro_bind_ok h, micro_bind_ok (holdToken_eq [b] t), traversalBlind_readKind.des_eq h]

theorem afterKind_full (hn : Config.nodeCap ≤ s.des.next) : afterKind b s = .error (.refuse .nodeMemFull) s := by
  rw [afterKind, micro_bind_error (checkNodeFree_full hn)]

theorem afterKind_branch (hd : s.des.stack.length < Config.depthLimit) (hn : s.des.next < Config.nodeCap) :
    afterKind false s = .ok () (s.withTraversal s.des.openBranch) := by
  rw [afterKind, micro_bind_ok (checkNodeFree_ok hn), if_neg Bool.false_ne_true]
  exact takeNode_ok Traversal.openBranch hd hn

theorem afterKind_symbol_error (hn : s.des.next < Config.nodeCap) (hq : readSymbol s = .error r t) : afterKind true s = .error r t := by
  rw [afterKind, micro_bind_ok (checkNodeFree_ok hn), if_pos rfl, micro_bind_error hq]

theorem afterKind_leaf (hd : s.des.stack.length < Config.depthLimit) (hn : s.des.next < Config.nodeCap) (hq : readSymbol s = .ok q t) :
    afterKind true s = .ok () (t.withTraversal (s.des.addLeaf (byteOf q))) := by
  rw [← traversalBlind_readSymbol.des_eq hq] at hd hn ⊢
  rw [afterKind, micro_bind_ok (checkNodeFree_ok (traversalBlind_readSymbol.des_eq hq ▸ hn)), if_pos rfl, micro_bind_ok hq,
    micro_bind_ok (holdToken_eq (true :: q) t)]
  exact takeNode_ok (Traversal.addLeaf (byteOf q)) hd hn

end Sys2Proof.Machine
end

section
/-! PROOF. TREE_DES with its explicit stack is R173's recursion: a call of `Des` that ends well is the passes that close its subtree, and a call that
raises is a pass that raises. -/

namespace Sys2Proof.Machine

variable {α β : Type} {s t : State} {r : Raise} {k n : Nat}

/-! ### Ends that differ in the traversal only -/

/-- Two ends that are the same but for the traversal. -/
def Alike (x y : EStateM.Result Raise State α) : Prop := atEnd (State.withTraversal .idle) x = atEnd (State.withTraversal .idle) y

theorem alike_error (r : Raise) (s : State) (d d' : Traversal) :
    Alike (.error r (s.withTraversal d) : EStateM.Result Raise State α) (.error r (s.withTraversal d')) := rfl

theorem eq_ok_of_alike {x : EStateM.Result Raise State α} {a : α} (h : Alike x (.ok a t)) : ∃ d, x = .ok a (t.withTraversal d) := by
  cases x with
  | ok a' u =>
    obtain ⟨rfl, hu⟩ := EStateM.Result.ok.inj h
    have hu : u = t.withTraversal u.des := (congrArg (State.withTraversal u.des) hu :)
    exact ⟨u.des, congrArg (EStateM.Result.ok a') hu⟩
  | error r u => cases h

theorem eq_error_of_alike {x : EStateM.Result Raise State α} (h : Alike x (.error r t)) : ∃ d, x = .error r (t.withTraversal d) := by
  cases x with
  | ok a u => cases h
  | error r' u =>
    obtain ⟨rfl, hu⟩ := EStateM.Result.error.inj h
    have hu : u = t.withTraversal u.des := (congrArg (State.withTraversal u.des) hu :)
    exact ⟨u.des, congrArg (EStateM.Result.error r') hu⟩

/-- An operation that does not see the traversal, and then anything, from two states that differ in it. -/
theorem TraversalBlind.bind_alike {m : Micro α} (hm : TraversalBlind m) {f f' : α → Micro β} (d : Traversal)
    (hf : ∀ a t, m s = .ok a t → Alike (f a (t.withTraversal d)) (f' a t)) : Alike ((m >>= f) (s.withTraversal d)) ((m >>= f') s) := by
  cases h : m s with
  | ok a t =>
    rw [micro_bind_ok (hm.ok h d), micro_bind_ok h]
    exact hf a t h
  | error r t =>
    rw [micro_bind_error (hm.error h d), micro_bind_error h]
    exact alike_error r t d t.des

theorem micro_bind_congr {m : Micro α} {m' : Micro α} (h : m s = m' t) (f : α → Micro β) : (m >>= f) s = (m' >>= f) t := by
  rw [micro_bind, micro_bind, h]

/-! ### The passes of the stack machine -/

/-- What is left of the passes once a token has been read. -/
def resume : Micro Tree := fun s =>
  match s.des.whole with
  | some t => .ok t s
  | none => desPasses (Config.nodeCap + 1 - s.des.next) s

theorem resume_whole {x : Tree} (h : s.des.whole = some x) : resume s = .ok x s := by
  rw [resume, h]

theorem resume_open (h : s.des.whole = none) : resume s = desPasses (Config.nodeCap + 1 - s.des.next) s := by
  rw [resume, h]

theorem desPasses_token_error (hn : s.des.next ≤ Config.nodeCap) (h : desToken s = .error r t) :
    desPasses (Config.nodeCap + 1 - s.des.next) s = .error r t := by
  rw [Nat.succ_sub hn, desPasses, micro_bind_error h]

/-- A token takes one index of NODE and one pass. -/
theorem desPasses_token_ok (hn : s.des.next ≤ Config.nodeCap) (h : desToken s = .ok () t) (ht : t.des.next = s.des.next + 1) :
    desPasses (Config.nodeCap + 1 - s.des.next) s = resume t := by
  have hfuel : Config.nodeCap - s.des.next = Config.nodeCap + 1 - t.des.next := by omega
  rw [Nat.succ_sub hn, desPasses, micro_bind_ok h, micro_get_bind, hfuel, resume]
  cases t.des.whole <;> rfl

/-- The traversal once the subtree that a call of `Des` answered is closed on the branches that were open at the call. -/
def Traversal.closed (stack : List Frame) (p : Tree × Nat) : Traversal :=
  { token := [], stack := (plug p.1 stack).1, next := p.2, whole := (plug p.1 stack).2 }

/-- What the stack machine does after the subtree of a call of `Des`. -/
def closeSubtree (stack : List Frame) (p : Tree × Nat) : Micro Tree := do
  modify (State.withTraversal (.closed stack p))
  resume

theorem closeSubtree_eq (stack : List Frame) (p : Tree × Nat) (s : State) :
    closeSubtree stack p s = resume (s.withTraversal (.closed stack p)) := rfl

/-- The right subtree closes the branch. -/
theorem closeSubtree_right (n : Nat) (l : Tree) (stack : List Frame) (p : Tree × Nat) :
    closeSubtree (.right n l :: stack) p = closeSubtree stack (.branch n none l p.1, p.2) := rfl

theorem desNode_branch_close (stack : List Frame) (h : readKind s = .ok false t) (hn : n < Config.nodeCap) :
    (desNode (k + 1) n >>= closeSubtree stack) s
      = (desNode k (n + 1) >>= fun p => desNode k p.2 >>= closeSubtree (.right n p.1 :: stack)) t := by
  rw [micro_bind_congr (desNode_branch h hn)]
  simp only [bind_assoc, pure_bind, ← closeSubtree_right]

/-! ### The simulation -/

/-- The passes from an entered node on are one call of `Des` for it, and then the rest. -/
theorem desPasses_alike (hd : s.des.stack.length + k = Config.depthLimit) (hn : s.des.next ≤ Config.nodeCap) :
    Alike (desPasses (Config.nodeCap + 1 - s.des.next) s) ((desNode k s.des.next >>= closeSubtree s.des.stack) s) := by
  induction k generalizing s with
  | zero =>
    rw [desPasses_token_error hn (desToken_tooDeep (Nat.le_of_eq hd.symm)), micro_bind_error (desNode_zero _ s)]
    rfl
  | succ k ih =>
    have hroom : s.des.stack.length < Config.depthLimit := by omega
    cases hb : readKind s with
    | error r t =>
      rw [desPasses_token_error hn (desToken_kind_error hroom hb), micro_bind_error (desNode_kind_error hb)]
      rfl
    | ok b t =>
      have hkind := desToken_kind_ok hroom hb
      obtain hfull | hfree := le_or_gt Config.nodeCap s.des.next
      · rw [desPasses_token_error hn (hkind.trans (afterKind_full hfull)), micro_bind_error (desNode_full hb hfull)]
        exact alike_error _ t _ t.des
      · cases b with
        | true =>
          cases hq : readSymbol t with
          | error r u =>
            rw [desPasses_token_error hn (hkind.trans (afterKind_symbol_error hfree (traversalBlind_readSymbol.error hq _))),
              micro_bind_error (desNode_symbol_error hb hfree hq)]
            exact alike_error r u _ u.des
          | ok q u =>
            rw [desPasses_token_ok hn (hkind.trans (afterKind_leaf hroom hfree (traversalBlind_readSymbol.ok hq _))) rfl,
              micro_bind_ok (desNode_leaf hb hfree hq)]
            rfl
        | false =>
          have hdepth : s.des.openBranch.stack.length + k = Config.depthLimit := by
            rw [Traversal.openBranch, List.length_cons]
            omega
          have hleft := ih (s := t.withTraversal s.des.openBranch) hdepth hfree
          rw [desPasses_token_ok hn (hkind.trans (afterKind_branch hroom hfree)) rfl, resume_open rfl, desNode_branch_close _ hb hfree]
          refine hleft.trans ((traversalBlind_desNode k _).bind_alike _ fun p u hp => ?_)
          have hright := ih (s := u.withTraversal (.closed (.left s.des.next :: s.des.stack) p)) hdepth (desNode_next_le hp)
          exact hright.trans ((traversalBlind_desNode k _).bind_alike _ fun _ _ _ => rfl)

/-! ### The command -/

/-- Where TREE_DES begins to read: NODE and CODE are invalid and no traversal is under way. -/
def State.discarded (s : State) : State := { s with tree := none, code := none, des := .idle }

/-- What TREE_DES does with the whole tree (R173, R176). -/
def storeTree (x : Tree) : Micro Unit := do
  if x.isLeaf then throw (.err .treeSingleLeaf)
  else modify fun s => { s with tree := some x }

theorem desRecursive_eq (s : State) :
    desRecursive (s.withTraversal .idle) = (do let p ← desNode Config.depthLimit 0; storeTree p.1 : Micro Unit) s.discarded := rfl

theorem treeDes_eq (s : State) :
    treeDes s = (do
      let x ← onRaise dropTraversal (desPasses (Config.nodeCap + 1))
      modify fun s => { s with des := .idle }
      storeTree x : Micro Unit) s.discarded := rfl

/-- The passes from the root on are R173's recursion from the root. -/
theorem desPasses_root (s : State) :
    Alike (desPasses (Config.nodeCap + 1) s.discarded) ((desNode Config.depthLimit 0 >>= closeSubtree []) s.discarded) :=
  desPasses_alike (s := s.discarded) (Nat.zero_add _) (Nat.zero_le _)

theorem desPasses_root_ok {p : Tree × Nat} (h : desNode Config.depthLimit 0 s.discarded = .ok p t) :
    ∃ d, desPasses (Config.nodeCap + 1) s.discarded = .ok p.1 (t.withTraversal d) := by
  have hroot := desPasses_root s
  rw [micro_bind_ok h, closeSubtree_eq, resume_whole rfl] at hroot
  exact eq_ok_of_alike hroot

theorem desPasses_root_error (h : desNode Config.depthLimit 0 s.discarded = .error r t) :
    ∃ d, desPasses (Config.nodeCap + 1) s.discarded = .error r (t.withTraversal d) := by
  have hroot := desPasses_root s
  rw [micro_bind_error h] at hroot
  exact eq_error_of_alike hroot

theorem withTraversal_of_des_eq {d : Traversal} (h : s.des = d) : s.withTraversal d = s := by
  rw [← h, State.withTraversal]

/-- TREE_DES drops its traversal, so that it ends as the recursion does; only a port that is never answered leaves it (R42, R79). -/
theorem treeDes_cases (s : State) :
    treeDes s = desRecursive (s.withTraversal .idle)
    ∨ ∃ t d, desRecursive (s.withTraversal .idle) = .error .hang t ∧ treeDes s = .error .hang (t.withTraversal d) := by
  rw [treeDes_eq, desRecursive_eq]
  cases h : desNode Config.depthLimit 0 s.discarded with
  | ok p t =>
    obtain ⟨d, hd⟩ := desPasses_root_ok h
    have hidle : t.withTraversal .idle = t := withTraversal_of_des_eq ((traversalBlind_desNode _ _).des_eq h)
    rw [micro_bind_ok h, micro_bind_ok (onRaise_ok hd), micro_modify_bind]
    exact .inl (congrArg (storeTree p.1) hidle)
  | error r t =>
    obtain ⟨d, hd⟩ := desPasses_root_error h
    have hidle : t.withTraversal .idle = t := withTraversal_of_des_eq ((traversalBlind_desNode _ _).des_eq_of_error h)
    rw [micro_bind_error h, micro_bind_error (onRaise_error hd)]
    cases r with
    | err | refuse | fault => exact .inl (congrArg (EStateM.Result.error _) hidle)
    | hang => exact .inr ⟨t, d, rfl, rfl⟩

/-- A command whose micro-operations do not see the traversal leaves it as it is. -/
theorem settle_des {m : Micro Unit} (hm : TraversalBlind m) (s : State) : (settle false (thenOk m) s).des = s.des := by
  cases h : m s.started with
  | ok _ t =>
    have hdes := hm.des_eq h
    rw [settle_ok (thenOk_ok h)]
    exact hdes
  | error r t =>
    have hdes := hm.des_eq_of_error h
    rw [settle_error (thenOk_error h)]
    cases r <;> exact hdes

/-- Settles O36: the two end alike, and a command that does not stay BUSY leaves no traversal. -/
theorem treeDesIsTheRecursion : Obligations.TreeDesIsTheRecursion := by
  refine ⟨encodedAs_of_opcode rfl rfl rfl, noOperand_of_operandMax rfl, fun s hr hdes => ⟨_, _, primitive_runs hr _, primitive_runs hr _, ?_⟩⟩
  have hstart : s.started.withTraversal .idle = s.started := withTraversal_of_des_eq hdes
  obtain h | ⟨t, d, hrec, hdesc⟩ := hstart ▸ treeDes_cases s.started
  · have hsame : settle false (thenOk treeDes) s = settle false (thenOk desRecursive) s := by
      rw [settle, settle, thenOk, thenOk, micro_bind_congr h]
    rw [hsame]
    exact withTraversal_of_des_eq ((settle_des traversalBlind_desRecursive s).trans hdes)
  · rw [settle_error (thenOk_error hrec), settle_error (thenOk_error hdesc)]
    exact withTraversal_of_des_eq ((traversalBlind_desRecursive.des_eq_of_error hrec).trans hdes)

end Sys2Proof.Machine
end

section
/-! PROOF. Reading bits on demand (R173, R175): what the buffer and the source together still hold, and the state once some of it has been read. -/

namespace Sys2Proof.Machine

variable {s : State} {b : Bool} {p q : Bits} {m n : Nat}

/-! ### The bits still to be read -/

/-- The buffered and the unread bits. -/
def State.incoming (s : State) : Bits := s.bb ++ bitsOf s.unread

/-- How many bytes are filled on demand before `n` bits have been read. -/
def State.fills (s : State) (n : Nat) : Nat := (n - s.bb.length + 7) / 8

/-- The state once the buffer has been filled for `n` bits, byte by byte on demand (R175). -/
def State.filled (n : Nat) (s : State) : State :=
  { s with
    bb := s.bb ++ bitsOf (s.unread.take (s.fills n))
    src := { s.src with pos := s.src.pos + s.fills n, plan := s.src.plan.drop (s.fills n) }
    srcEos := if s.fills n = 0 then s.srcEos else false }

/-- The state once `n` bits have been read and removed. -/
def State.consumed (n : Nat) (s : State) : State := { s.filled n with bb := (s.filled n).bb.drop n }

@[simp] theorem filled_bb (n : Nat) (s : State) : (s.filled n).bb = s.bb ++ bitsOf (s.unread.take (s.fills n)) := rfl

@[simp] theorem consumed_bb (n : Nat) (s : State) : (s.consumed n).bb = (s.filled n).bb.drop n := rfl

@[simp] theorem consumed_srcEos (n : Nat) (s : State) : (s.consumed n).srcEos = if s.fills n = 0 then s.srcEos else false := rfl

theorem length_incoming (s : State) : s.incoming.length = s.bb.length + 8 * s.unread.length := by
  rw [State.incoming, List.length_append, bitsOf_length]

theorem fills_le (h : n ≤ s.incoming.length) : s.fills n ≤ s.unread.length := by
  rw [length_incoming] at h
  rw [State.fills]
  omega

theorem unread_consumed (s : State) (n : Nat) : (s.consumed n).unread = s.unread.drop (s.fills n) := by
  simp only [State.unread, State.consumed, State.filled, List.drop_drop]

theorem length_bb_consumed (h : n ≤ s.incoming.length) : (s.consumed n).bb.length = s.bb.length + 8 * s.fills n - n := by
  simp only [consumed_bb, filled_bb, List.length_drop, List.length_append, bitsOf_length, List.length_take, Nat.min_eq_left (fills_le h)]

/-- As long as the source has them, the bytes filled for `n` bits hold `n` bits with the buffer. -/
theorem le_length_filled (h : n ≤ s.incoming.length) : n ≤ (s.filled n).bb.length := by
  rw [filled_bb, List.length_append, bitsOf_length, List.length_take, Nat.min_eq_left (fills_le h), State.fills]
  omega

theorem incoming_consumed (h : n ≤ s.incoming.length) : (s.consumed n).incoming = s.incoming.drop n := by
  rw [State.incoming, unread_consumed, consumed_bb, ← List.drop_append_of_le_length (le_length_filled h), filled_bb,
    List.append_assoc, ← bitsOf_append, List.take_append_drop, State.incoming]

theorem fills_add (h : m ≤ s.incoming.length) (n : Nat) : s.fills (m + n) = s.fills m + (s.consumed m).fills n := by
  rw [State.fills, State.fills, State.fills, length_bb_consumed h, State.fills]
  omega

/-- Buffered bits are read without a fill. -/
theorem filled_eq_self (h : n ≤ s.bb.length) : s.filled n = s := by
  have hnone : s.fills n = 0 := by rw [State.fills]; omega
  simp only [State.filled, hnone, List.take_zero, bitsOf_nil, List.append_nil, List.drop_zero, Nat.add_zero, if_pos]

theorem consumed_zero (s : State) : s.consumed 0 = s := by
  rw [State.consumed, filled_eq_self (Nat.zero_le _), List.drop_zero]

/-- Reading `m` bits and then `n` is reading `m + n`. -/
theorem consumed_consumed (h : m ≤ s.incoming.length) (n : Nat) : (s.consumed m).consumed n = s.consumed (m + n) := by
  have hfills := fills_add h n
  have hbb : ((s.consumed m).bb ++ bitsOf ((s.unread.drop (s.fills m)).take ((s.consumed m).fills n))).drop n
      = (s.bb ++ bitsOf (s.unread.take (s.fills (m + n)))).drop (m + n) := by
    rw [consumed_bb, ← List.drop_append_of_le_length (le_length_filled h), filled_bb, List.append_assoc, ← bitsOf_append, ← List.take_add,
      List.drop_drop, ← hfills]
  have heos : (if (s.consumed m).fills n = 0 then (s.consumed m).srcEos else false) = if s.fills (m + n) = 0 then s.srcEos else false := by
    rw [hfills, consumed_srcEos]
    by_cases hm : s.fills m = 0 <;> simp [hm]
  rw [State.consumed, State.filled, unread_consumed, hbb, heos]
  simp only [State.consumed, State.filled, List.drop_drop, Nat.add_assoc, hfills]

/-! ### Bits that are there -/

/-- The next bits are `q`, and every read that fills the buffer for them is answered (R67, R175). -/
structure Supplies (s : State) (q : Bits) : Prop where
  bits : q <+: s.incoming
  plan : PlanOk (s.src.plan.take (s.fills q.length))

theorem Supplies.length_le (h : Supplies s q) : q.length ≤ s.incoming.length := h.bits.length_le

theorem Supplies.left (h : Supplies s (p ++ q)) : Supplies s p where
  bits := (List.prefix_append p q).trans h.bits
  plan := planOk_take_of_le h.plan (by rw [State.fills, State.fills, List.length_append]; omega)

/-- The state once the bits `q` have been read. -/
def State.read (q : Bits) (s : State) : State := s.consumed q.length

theorem read_nil (s : State) : s.read [] = s := consumed_zero s

theorem Supplies.read_append (h : Supplies s (p ++ q)) : (s.read p).read q = s.read (p ++ q) := by
  rw [State.read, State.read, consumed_consumed h.left.length_le, ← List.length_append, State.read]

theorem Supplies.right (h : Supplies s (p ++ q)) : Supplies (s.read p) q where
  bits := by
    rw [State.read, incoming_consumed h.left.length_le]
    obtain ⟨rest, hrest⟩ := h.bits
    rw [← hrest, List.append_assoc, List.drop_left]
    exact List.prefix_append q rest
  plan := by
    have hplan := h.plan
    rw [List.length_append, fills_add h.left.length_le] at hplan
    show PlanOk ((s.src.plan.drop (s.fills p.length)).take _)
    rw [List.take_drop]
    exact planOk_drop hplan _

/-! ### Reading them -/

theorem demandBits_enough (h : n ≤ s.bb.length) : demandBits n s = .ok () s := by
  rw [demandBits, micro_get_bind, if_neg (Nat.not_lt.mpr h), micro_pure]

/-- Fewer than 8 bits are buffered, so a byte always fits (R175). -/
theorem room_of_short (h : s.bb.length < 8) : s.bb.length + 8 ≤ Config.bbCap := by
  rw [Config.bbCap]
  omega

/-- The one byte that is missing (R175). -/
theorem bbFill_supplied (h : Supplies s q) (hlt : s.bb.length < q.length) (h8 : q.length ≤ 8) :
    bbFill s = .ok .filled (s.filled q.length) := by
  have hone : s.fills q.length = 1 := by rw [State.fills]; omega
  have hlen := h.length_le
  rw [length_incoming] at hlen
  obtain ⟨v, rest, hv⟩ := List.exists_cons_of_length_pos (l := s.unread) (by omega)
  have hget : s.src.data[s.src.pos]? = some v := by
    have h0 := getElem?_unread s 0
    rw [hv] at h0
    exact h0.symm
  rw [bbFill_byte (room_of_short (by omega)) (hone ▸ h.plan) hget, State.filled, hone, hv]
  simp

theorem demandBits_supplied (h : Supplies s q) (h8 : q.length ≤ 8) : demandBits q.length s = .ok () (s.filled q.length) := by
  obtain hle | hlt := le_or_gt q.length s.bb.length
  · rw [demandBits_enough hle, filled_eq_self hle]
  · have henough : ¬ (s.filled q.length).bb.length < q.length := Nat.not_lt.mpr (le_length_filled h.length_le)
    rw [demandBits, micro_get_bind, if_pos hlt, micro_bind_ok (bbFill_supplied h hlt h8)]
    exact (micro_get_bind _ _).trans (congrFun (if_neg henough) _)

/-- The state once a read has found the source's end (R63, R64). -/
def State.metEnd (s : State) : State := { s with src := { s.src with plan := s.src.plan.drop 1 }, srcEos := true }

/-- The source ends before the bits are there (R178). -/
theorem demandBits_eos (hlt : s.bb.length < n) (h8 : n ≤ 8) (hend : s.unread = []) (hp : PlanOk (s.src.plan.take 1)) :
    demandBits n s = .error (.err .treeEos) s.metEnd := by
  have hget : s.src.data[s.src.pos]? = none := List.getElem?_eq_none (List.drop_eq_nil_iff.mp hend)
  rw [demandBits, micro_get_bind, if_pos hlt, micro_bind_ok (bbFill_eos (room_of_short (by omega)) hp hget)]
  exact (micro_get_bind _ _).trans (congrFun (if_pos hlt) _)

theorem prefix_filled (h : Supplies s q) : q <+: (s.filled q.length).bb := by
  have hall : (s.filled q.length).bb <+: s.incoming := by
    rw [filled_bb, State.incoming, List.prefix_append_right_inj]
    exact ⟨bitsOf (s.unread.drop (s.fills q.length)), by rw [← bitsOf_append, List.take_append_drop]⟩
  exact List.prefix_of_prefix_length_le h.bits hall (le_length_filled h.length_le)

theorem bbDrop_filled (h : n ≤ s.incoming.length) : bbDrop n (s.filled n) = .ok () (s.consumed n) :=
  bbDrop_ok (le_length_filled h)

theorem readKind_supplied (h : Supplies s [b]) : readKind s = .ok b (s.read [b]) := by
  have hfill : demandBits 1 s = .ok () (s.filled 1) := demandBits_supplied h (Nat.one_le_ofNat)
  have hpeek : (s.filled 1).bb[0]? = some b := List.head?_eq_getElem? ▸ List.singleton_prefix_iff_head?_eq_some.mp (prefix_filled h)
  have hdrop : bbDrop 1 (s.filled 1) = .ok () (s.read [b]) := bbDrop_filled h.length_le
  rw [readKind, micro_bind_ok hfill, micro_bind_ok (bbPeek_ok hpeek), micro_bind_ok hdrop, micro_pure]

theorem readSymbol_supplied (h : Supplies s q) (h8 : q.length = 8) : readSymbol s = .ok q (s.read q) := by
  have hfill := demandBits_supplied h (Nat.le_of_eq h8)
  have htake := List.prefix_iff_eq_take.mp (prefix_filled h)
  have hdrop : bbDrop q.length (s.filled q.length) = .ok () (s.read q) := bbDrop_filled h.length_le
  rw [h8] at hfill htake hdrop
  rw [readSymbol, micro_bind_ok hfill, micro_get_bind, micro_bind_ok hdrop, micro_pure, ← htake]

theorem readKind_eos (hbb : s.bb = []) (hend : s.unread = []) (hp : PlanOk (s.src.plan.take 1)) :
    readKind s = .error (.err .treeEos) s.metEnd := by
  rw [readKind, micro_bind_error (demandBits_eos (by rw [hbb]; decide) (by decide) hend hp)]

theorem readSymbol_eos (hlt : s.bb.length < 8) (hend : s.unread = []) (hp : PlanOk (s.src.plan.take 1)) :
    readSymbol s = .error (.err .treeEos) s.metEnd := by
  rw [readSymbol, micro_bind_error (demandBits_eos hlt (by decide) hend hp)]

end Sys2Proof.Machine
end

section
/-! PROOF. What the recursion of R173 does on the tokens of a tree and on a walk down from the root (R174 to R180), and how TREE_DES ends
with it. -/

namespace Sys2Proof.Machine

variable {s t : State} {r : Raise} {k n : Nat}

/-! ### A whole tree -/

/-- A subtree that fits is read from its bits and numbered in pre-order (R177). -/
theorem desNode_tree (x : Tree) (hk : x.height < k) (hn : n + x.size ≤ Config.nodeCap) (h : Supplies s x.ser) :
    desNode k n s = .ok (x.preorder n) (s.read x.ser) := by
  induction x generalizing k n s with
  | leaf i w v =>
    obtain ⟨k, rfl⟩ := Nat.exists_eq_add_of_lt hk
    have hbits : Supplies s ([true] ++ bits8 v) := h
    have hsymbol := readSymbol_supplied hbits.right rfl
    rw [desNode_leaf (readKind_supplied hbits.left) hn hsymbol, hbits.read_append, byteOf_bits8]
    rfl
  | branch i w l r ihl ihr =>
    obtain ⟨k, rfl⟩ := Nat.exists_eq_add_of_lt hk
    have hbits : Supplies s ([false] ++ (l.ser ++ r.ser)) := h
    simp only [Tree.height] at hk
    simp only [Tree.size] at hn
    have hl := ihl (k := max l.height r.height + 1 + k) (n := n + 1) (by omega) (by omega) hbits.right.left
    have hr := ihr (k := max l.height r.height + 1 + k) (n := (l.preorder (n + 1)).2) (by omega) (by rw [Tree.preorder_next]; omega)
      hbits.right.right
    rw [Tree.height, desNode_branch (readKind_supplied hbits.left) (by omega), micro_bind_ok hl, micro_bind_ok hr, micro_pure,
      hbits.right.read_append, hbits.read_append]
    rfl

/-! ### A walk down from the root -/

theorem length_tokens (x : Tree) : x.tokens.length = x.size := by
  induction x with
  | leaf => rfl
  | branch i w l r ihl ihr => rw [Tree.tokens, List.length_cons, List.length_append, ihl, ihr, Tree.size]

theorem descent_cons_none (path : List (Option Tree)) : descent (none :: path) = [false] ++ descent path := rfl

theorem descent_cons_some (y : Tree) (path : List (Option Tree)) : descent (some y :: path) = [false] ++ (y.ser ++ descent path) := rfl

theorem descentSize_cons_none (path : List (Option Tree)) (n : Nat) : n + descentSize (none :: path) = n + 1 + descentSize path :=
  (Nat.add_assoc n 1 _).symm

theorem descentSize_cons_some (y : Tree) (path : List (Option Tree)) (n : Nat) :
    n + descentSize (some y :: path) = n + 1 + y.size + descentSize path := by
  have hsum : descentSize (some y :: path) = y.size + 1 + descentSize path := rfl
  omega

/-- `path` is the walk down from the root of `x` that its first tokens `toks` make, with all of `x` at the valid depths (R42, R173). -/
structure Walks (x : Tree) (toks : List Instr) (path : List (Option Tree)) : Prop where
  bits : toks.flatMap tokenBits = descent path
  size : toks.length = descentSize path
  depth : path.length ≤ x.height
  subtrees : ∀ j y, path[j]? = some (some y) → j + 1 + y.height ≤ x.height

theorem walks_nil (x : Tree) : Walks x [] [] := ⟨rfl, rfl, Nat.zero_le _, nofun⟩

theorem Walks.descentOk {x : Tree} {toks : List Instr} {path : List (Option Tree)} (h : Walks x toks path)
    (hx : x.height ≤ Config.maxDepth) : DescentOk path :=
  fun j y hj => (h.subtrees j y hj).trans hx

section Branch

variable {i : Nat} {w : Option Count} {l r : Tree} {toks : List Instr} {path : List (Option Tree)}

theorem Walks.intoLeft (h : Walks l toks path) : Walks (.branch i w l r) (.branch :: toks) (none :: path) where
  bits := by rw [List.flatMap_cons, h.bits, descent_cons_none]; rfl
  size := by
    have hsize := descentSize_cons_none path 0
    rw [List.length_cons, h.size]
    omega
  depth := by
    have hdepth := h.depth
    rw [List.length_cons, Tree.height]
    omega
  subtrees j y hj := by
    cases j with
    | zero => cases hj
    | succ j =>
      have hy := h.subtrees j y hj
      rw [Tree.height]
      omega

theorem Walks.intoRight (h : Walks r toks path) : Walks (.branch i w l r) (.branch :: (l.tokens ++ toks)) (some l :: path) where
  bits := by rw [List.flatMap_cons, List.flatMap_append, flatMap_tokenBits_tokens, h.bits, descent_cons_some]; rfl
  size := by
    have hsize := descentSize_cons_some l path 0
    rw [List.length_cons, List.length_append, length_tokens, h.size]
    omega
  depth := by
    have hdepth := h.depth
    rw [List.length_cons, Tree.height]
    omega
  subtrees j y hj := by
    cases j with
    | zero =>
      cases hj
      rw [Tree.height]
      omega
    | succ j =>
      have hy := h.subtrees j y hj
      rw [Tree.height]
      omega

end Branch

/-- Between two tokens of a tree the reader stands at the end of a walk down from the root. -/
theorem exists_walks (x : Tree) {toks : List Instr} (h : toks <+: x.tokens) (hlt : toks.length < x.tokens.length) :
    ∃ path, Walks x toks path := by
  induction x generalizing toks with
  | leaf i w v =>
    cases List.length_eq_zero_iff.mp (Nat.lt_one_iff.mp hlt)
    exact ⟨[], walks_nil _⟩
  | branch i w l r ihl ihr =>
    cases toks with
    | nil => exact ⟨[], walks_nil _⟩
    | cons tok toks =>
      obtain ⟨rfl, hrest⟩ := List.cons_prefix_cons.mp h
      obtain hshort | hlong := Nat.lt_or_ge toks.length l.tokens.length
      · obtain ⟨path, hpath⟩ := ihl (List.prefix_of_prefix_length_le hrest (List.prefix_append _ _) (Nat.le_of_lt hshort)) hshort
        exact ⟨none :: path, hpath.intoLeft⟩
      · obtain ⟨rest, rfl⟩ := List.prefix_of_prefix_length_le (List.prefix_append _ _) hrest hlong
        rw [List.prefix_append_right_inj] at hrest
        simp only [Tree.tokens, List.length_cons, List.length_append] at hlt
        obtain ⟨path, hpath⟩ := ihr hrest (by omega)
        exact ⟨some l :: path, hpath.intoRight⟩

/-- A call of `Des` at the end of a walk that raises ends the calls for all open branches (R17, R245). -/
theorem desNode_descent_error (path : List (Option Tree)) (hsub : ∀ j y, path[j]? = some (some y) → j + 1 + y.height < k + path.length)
    (hn : n + descentSize path ≤ Config.nodeCap) (h : Supplies s (descent path))
    (hend : desNode k (n + descentSize path) (s.read (descent path)) = .error r t) : desNode (k + path.length) n s = .error r t := by
  induction path generalizing n s with
  | nil => rwa [descent, List.flatMap_nil, read_nil] at hend
  | cons turn path ih =>
    have hrest : ∀ j y, path[j]? = some (some y) → j + 1 + y.height < k + path.length := fun j y hj => by
      have hj := hsub (j + 1) y hj
      rw [List.length_cons] at hj
      omega
    cases turn with
    | none =>
      have hbits : Supplies s ([false] ++ descent path) := h
      rw [descentSize_cons_none] at hn hend
      rw [descent_cons_none, ← hbits.read_append] at hend
      have hl := ih hrest hn hbits.right hend
      rw [List.length_cons, ← Nat.add_assoc, desNode_branch (readKind_supplied hbits.left) (by omega), micro_bind_error hl]
    | some y =>
      have hbits : Supplies s ([false] ++ (y.ser ++ descent path)) := h
      have hheight := hsub 0 y rfl
      rw [List.length_cons] at hheight
      rw [descentSize_cons_some] at hn hend
      rw [descent_cons_some, ← hbits.read_append, ← hbits.right.read_append] at hend
      have hl := desNode_tree (k := k + path.length) (n := n + 1) y (by omega) (by omega) hbits.right.left
      have hr := ih hrest hn hbits.right.right hend
      rw [← Tree.preorder_next] at hr
      rw [List.length_cons, ← Nat.add_assoc, desNode_branch (readKind_supplied hbits.left) (by omega), micro_bind_ok hl, micro_bind_error hr]

/-- The same for a walk from the root. -/
theorem desNode_root_descent_error {path : List (Option Tree)} (hdepth : path.length ≤ Config.depthLimit) (hsub : DescentOk path)
    (hn : descentSize path ≤ Config.nodeCap) (h : Supplies s (descent path))
    (hend : desNode (Config.depthLimit - path.length) (descentSize path) (s.read (descent path)) = .error r t) :
    desNode Config.depthLimit 0 s = .error r t := by
  have hk : Config.depthLimit - path.length + path.length = Config.depthLimit := Nat.sub_add_cancel hdepth
  rw [← Nat.zero_add (descentSize path)] at hn hend
  have hall := desNode_descent_error path (fun j y hj => hk.symm ▸ Nat.lt_succ_of_le (hsub j y hj)) hn h hend
  rwa [hk] at hall

/-! ### From the recursion to the command -/

/-- Unless a port is never answered, TREE_DES ends as the recursion does. -/
theorem treeDes_eq_desRecursive (hlive : ∀ t, desRecursive (s.withTraversal .idle) ≠ .error .hang t) :
    treeDes s = desRecursive (s.withTraversal .idle) := by
  obtain h | ⟨t, _, hhang, _⟩ := treeDes_cases s
  · exact h
  · exact absurd hhang (hlive t)

section Ends

variable (hr : s.run = .idle)
include hr

theorem exec_treeDes_ok (h : desRecursive (s.started.withTraversal .idle) = .ok () t) :
    exec .treeDes s = .next { t with run := s.run, result := .ok } :=
  primitive_eq_ok hr ((treeDes_eq_desRecursive fun _ hhang => nomatch h.symm.trans hhang).trans h)

theorem exec_treeDes_err {e : ErrCode} (h : desRecursive (s.started.withTraversal .idle) = .error (.err e) t) :
    exec .treeDes s = .next { t with run := s.run, result := .err e } :=
  primitive_eq_err hr ((treeDes_eq_desRecursive fun _ hhang => nomatch h.symm.trans hhang).trans h)

theorem exec_treeDes_refuse {c : RefuseCode} (h : desRecursive (s.started.withTraversal .idle) = .error (.refuse c) t) :
    exec .treeDes s = .next { t with run := s.run, result := .refuse c } :=
  primitive_eq_refuse hr ((treeDes_eq_desRecursive fun _ hhang => nomatch h.symm.trans hhang).trans h)

end Ends

theorem desRecursive_error (h : desNode Config.depthLimit 0 s.discarded = .error r t) :
    desRecursive (s.withTraversal .idle) = .error r t := by
  rw [desRecursive_eq, micro_bind_error h]

theorem desRecursive_tree {p : Tree × Nat} (h : desNode Config.depthLimit 0 s.discarded = .ok p t) (hbranch : p.1.isLeaf = false) :
    desRecursive (s.withTraversal .idle) = .ok () { t with tree := some p.1 } := by
  rw [desRecursive_eq, micro_bind_ok h, storeTree, if_neg (by rw [hbranch]; exact nofun), micro_modify]

theorem desRecursive_singleLeaf {p : Tree × Nat} (h : desNode Config.depthLimit 0 s.discarded = .ok p t) (hleaf : p.1.isLeaf = true) :
    desRecursive (s.withTraversal .idle) = .error (.err .treeSingleLeaf) t := by
  rw [desRecursive_eq, micro_bind_ok h, storeTree, if_pos hleaf, micro_throw]

theorem Supplies.discarded {q : Bits} (h : Supplies s q) : Supplies s.started.discarded q := ⟨h.bits, h.plan⟩

theorem preorder_isLeaf (x : Tree) (n : Nat) : (x.preorder n).1.isLeaf = x.isLeaf := by
  cases x <;> rfl

/-- Settles O37: the recursion reads the tree's own bits and no others. -/
theorem treeDesRebuildsTheSerializedTree : Obligations.TreeDesRebuildsTheSerializedTree := by
  intro s x need hr hfits hbits hneed hplan
  subst hneed
  obtain ⟨hbranch, hheight, hsize⟩ := hfits
  have hsup : Supplies s x.ser := ⟨hbits, hplan⟩
  have htree := desNode_tree (n := 0) x (Nat.lt_succ_of_le hheight) ((Nat.zero_add _).symm ▸ hsize) hsup.discarded
  exact exec_treeDes_ok hr (desRecursive_tree htree (by rw [preorder_isLeaf, hbranch]))

end Sys2Proof.Machine
end

section
/-! PROOF. What ends TREE_DES without a tree (R174, R176 to R178). -/

namespace Sys2Proof.Machine

variable {s : State} {q T : Bits} {path : List (Option Tree)}

/-! ### Three ends at a bit that is there -/

/-- A walk of 256 branches ends on entry to the next node (R174). -/
theorem desRecursive_tooDeep (hdepth : path.length = Config.depthLimit) (hsub : DescentOk path) (hsize : descentSize path ≤ Config.nodeCap)
    (h : Supplies s (descent path)) :
    desRecursive (s.started.withTraversal .idle) = .error (.err .treeDepth) (s.started.discarded.read (descent path)) := by
  refine desRecursive_error (desNode_root_descent_error (Nat.le_of_eq hdepth) hsub hsize h.discarded ?_)
  rw [hdepth, Nat.sub_self, desNode_zero]

/-- A tree that is one leaf is read to its end (R176). -/
theorem desRecursive_leaf (v : Byte) (h : Supplies s (true :: bits8 v)) :
    desRecursive (s.started.withTraversal .idle) = .error (.err .treeSingleLeaf) (s.started.discarded.read (true :: bits8 v)) :=
  desRecursive_singleLeaf (desNode_tree (.leaf 0 none v) (Nat.zero_lt_succ _) (Nat.succ_le_succ (Nat.zero_le _)) h.discarded) rfl

/-- The kind bit of a token that finds NODE full (R177). -/
theorem desRecursive_full (hdepth : path.length ≤ Config.maxDepth) (hsub : DescentOk path) (hsize : descentSize path = Config.nodeCap) {b : Bool}
    (h : Supplies s (descent path ++ [b])) :
    desRecursive (s.started.withTraversal .idle) = .error (.refuse .nodeMemFull) (s.started.discarded.read (descent path ++ [b])) := by
  have hroom : Config.depthLimit - path.length = Config.maxDepth - path.length + 1 := Nat.succ_sub hdepth
  refine desRecursive_error
    (desNode_root_descent_error (Nat.le_succ_of_le hdepth) hsub (Nat.le_of_eq hsize) h.left.discarded ?_)
  rw [hroom, desNode_full (readKind_supplied h.discarded.right) (Nat.le_of_eq hsize.symm), h.discarded.read_append]

/-! ### The source ends inside the tree -/

/-- The state once all bits but `q` have been read and the source has answered that it ends (R63, R178). -/
def State.ended (q : Bits) (s : State) : State :=
  { s with
    bb := q
    src := { s.src with pos := s.src.data.length, plan := s.src.plan.drop (s.unread.length + 1) }
    srcEos := true }

section End

variable (hbits : s.incoming = T ++ q) (hq : q.length < 8)
include hbits hq

/-- Once fewer than 8 bits are left, the source has been read to its end. -/
theorem fills_eq_of_short : s.fills T.length = s.unread.length := by
  have hlen := congrArg List.length hbits
  rw [length_incoming, List.length_append] at hlen
  rw [State.fills]
  omega

theorem unread_read_of_short : (s.read T).unread = [] := by
  rw [State.read, unread_consumed, fills_eq_of_short hbits hq, List.drop_length]

theorem bb_read_of_short : (s.read T).bb = q := by
  have hle : T.length ≤ s.incoming.length := by rw [hbits, List.length_append]; omega
  have hrest := incoming_consumed hle
  rw [hbits, List.drop_left, ← State.read, State.incoming, unread_read_of_short hbits hq, bitsOf_nil, List.append_nil] at hrest
  exact hrest

theorem ended_of_short (hpos : s.src.pos ≤ s.src.data.length) : (s.read T).metEnd = s.ended q := by
  have hend : s.src.pos + s.unread.length = s.src.data.length := by
    rw [State.unread, List.length_drop]
    omega
  rw [State.ended, ← bb_read_of_short hbits hq, ← List.drop_drop, ← hend, ← fills_eq_of_short hbits hq]
  rfl

variable (hplan : PlanOk (s.src.plan.take (s.unread.length + 1)))
include hplan

theorem supplies_of_short : Supplies s T where
  bits := ⟨q, hbits.symm⟩
  plan := by
    rw [fills_eq_of_short hbits hq]
    exact planOk_take_of_le hplan (Nat.le_succ _)

theorem planOk_read_of_short : PlanOk ((s.read T).src.plan.take 1) := by
  show PlanOk ((s.src.plan.drop (s.fills T.length)).take 1)
  rw [fills_eq_of_short hbits hq]
  exact planOk_drop_take_one hplan (Nat.lt_succ_self _)

end End

section Walk

variable (hdepth : path.length ≤ Config.maxDepth) (hsub : DescentOk path) (hpos : s.src.pos ≤ s.src.data.length)
  (hplan : PlanOk (s.src.plan.take (s.unread.length + 1)))
include hdepth hsub hpos hplan

/-- No bit is left where a token is due. -/
theorem desNode_eos_kind (hsize : descentSize path ≤ Config.nodeCap) (hbits : s.incoming = descent path ++ []) :
    desNode Config.depthLimit 0 s = .error (.err .treeEos) (s.ended []) := by
  have hq : ([] : Bits).length < 8 := by decide
  have hroom : Config.depthLimit - path.length = Config.maxDepth - path.length + 1 := Nat.succ_sub hdepth
  refine desNode_root_descent_error (Nat.le_succ_of_le hdepth) hsub hsize (supplies_of_short hbits hq hplan) ?_
  rw [hroom, desNode_kind_error (readKind_eos (bb_read_of_short hbits hq) (unread_read_of_short hbits hq)
    (planOk_read_of_short hbits hq hplan)), ended_of_short hbits hq hpos]

/-- Fewer than 8 bits are left where a leaf's symbol is due. -/
theorem desNode_eos_symbol (hsize : descentSize path < Config.nodeCap) (hq : q.length < 8) (hbits : s.incoming = descent path ++ [true] ++ q) :
    desNode Config.depthLimit 0 s = .error (.err .treeEos) (s.ended q) := by
  have hsup := supplies_of_short hbits hq hplan
  have hroom : Config.depthLimit - path.length = Config.maxDepth - path.length + 1 := Nat.succ_sub hdepth
  refine desNode_root_descent_error (Nat.le_succ_of_le hdepth) hsub (Nat.le_of_lt hsize) hsup.left ?_
  have hsymbol := readSymbol_eos ((bb_read_of_short hbits hq).symm ▸ hq) (unread_read_of_short hbits hq) (planOk_read_of_short hbits hq hplan)
  rw [← hsup.read_append] at hsymbol
  rw [hroom, desNode_symbol_error (readKind_supplied hsup.right) hsize hsymbol, hsup.read_append, ended_of_short hbits hq hpos]

end Walk

/-- Settles O38: a walk from the root leads to the bit, or to the end of the source, at which the recursion raises. -/
theorem treeDesRejectsMalformedTrees : Obligations.TreeDesRejectsMalformedTrees := by
  refine ⟨fun s T need r hr hcase hbits hneed hplan => ?rejected, fun s x toks cut q hr hheight hpre hlt hbits hcut hpos hplan => ?cut⟩
  case rejected =>
    subst hneed
    have hsup : Supplies s T := ⟨hbits, hplan⟩
    obtain ⟨path, rfl, hdepth, hsub, hsize, rfl⟩ | ⟨v, rfl, rfl⟩ | ⟨x, b, hheight, hlarge, rfl, rfl⟩ := hcase
    · exact exec_treeDes_err hr (desRecursive_tooDeep hdepth hsub hsize hsup)
    · exact exec_treeDes_err hr (desRecursive_leaf v hsup)
    · have hlen : (x.tokens.take Config.nodeCap).length = Config.nodeCap := by
        rw [List.length_take, length_tokens, Nat.min_eq_left (Nat.le_of_lt hlarge)]
      obtain ⟨path, hwalk⟩ := exists_walks x (List.take_prefix Config.nodeCap _) (by rw [hlen, length_tokens]; exact hlarge)
      rw [hwalk.bits] at hsup ⊢
      exact exec_treeDes_refuse hr
        (desRecursive_full (hwalk.depth.trans hheight) (hwalk.descentOk hheight) (hwalk.size.symm.trans hlen) hsup)
  case cut =>
    obtain ⟨path, hwalk⟩ := exists_walks x hpre hlt
    rw [hwalk.bits] at hbits
    have hdepth := hwalk.depth.trans hheight
    have hsub := hwalk.descentOk hheight
    rw [hwalk.size] at hcut
    obtain ⟨rfl, rfl, hsize⟩ | ⟨rfl, hq, hsize⟩ := hcut
    · exact exec_treeDes_err hr
        (desRecursive_error (desNode_eos_kind (s := s.started.discarded) hdepth hsub hpos hplan hsize hbits))
    · rw [← List.singleton_append, ← List.append_assoc] at hbits
      exact exec_treeDes_err hr
        (desRecursive_error (desNode_eos_symbol (s := s.started.discarded) hdepth hsub hpos hplan hsize hq hbits))

end Sys2Proof.Machine
end

section
/-! PROOF. TREE_SER (R171, R172): appending and draining token after token writes the bits of the whole tree, wherever a write fails. -/

namespace Sys2Proof.Machine

variable {s : State} {p q : Bits} {m m' : Micro Unit} {n n' : Nat}

/-! ### Bits that leave through the buffer -/

/-- The state once the bits `q` have been appended and all complete groups have left (R128, R131). -/
def State.wrote (q : Bits) (s : State) : State :=
  { s with
    bb := leftover (s.bb ++ q)
    snk := { s.snk with out := s.snk.out ++ fullBytes (s.bb ++ q), plan := s.snk.plan.drop (fullBytes (s.bb ++ q)).length } }

@[simp] theorem wrote_plan (q : Bits) (s : State) : (s.wrote q).snk.plan = s.snk.plan.drop (fullBytes (s.bb ++ q)).length := rfl

/-- A drain leaves fewer than 8 bits (R128). -/
theorem room_wrote (q : Bits) (s : State) (hn : n + 7 ≤ Config.bbCap) : (s.wrote q).bb.length + n ≤ Config.bbCap := by
  have h8 : (s.wrote q).bb.length < 8 := leftover_lt (s.bb ++ q)
  omega

/-- `m` writes the bits `q` behind the buffer's from every buffer with room for `n` bits more. Where the write of group `k` fails, the groups
before it have left, and the buffer holds that group and perhaps some bits after it. -/
structure Emits (n : Nat) (q : Bits) (m : Micro Unit) : Prop where
  ok : ∀ s : State, s.bb.length + n ≤ Config.bbCap → PlanOk (s.snk.plan.take (fullBytes (s.bb ++ q)).length) → m s = .ok () (s.wrote q)
  ioErr : ∀ (s : State) k plan, s.bb.length + n ≤ Config.bbCap → k < (fullBytes (s.bb ++ q)).length →
    s.snk.plan = List.replicate k .answers ++ .ioErr :: plan →
    ∃ b, b <+: (s.bb ++ q).drop (8 * k) ∧ 8 ≤ b.length ∧ m s = .error (.err .ioSnk) { s with
      bb := b
      snk := { s.snk with out := s.snk.out ++ (fullBytes (s.bb ++ q)).take k, plan := plan } }

theorem wrote_wrote (p q : Bits) (s : State) : (s.wrote p).wrote q = s.wrote (p ++ q) := by
  have hbytes := fullBytes_append (s.bb ++ p) q
  have hrest := leftover_append (s.bb ++ p) q
  rw [List.append_assoc] at hbytes hrest
  simp only [State.wrote, hbytes, hrest, List.append_assoc, List.drop_drop, List.length_append]

/-- More room than is needed does no harm. -/
theorem Emits.mono (h : Emits n q m) (hn : n ≤ n') : Emits n' q m where
  ok s hroom := h.ok s (by omega)
  ioErr s k plan hroom := h.ioErr s k plan (by omega)

/-- Where there is room, only what `m` does there counts. -/
theorem Emits.congr (h : Emits n q m) (he : ∀ s : State, s.bb.length + n ≤ Config.bbCap → m' s = m s) : Emits n q m' where
  ok s hroom hplan := (he s hroom).trans (h.ok s hroom hplan)
  ioErr s k plan hroom hk hp := by
    rw [he s hroom]
    exact h.ioErr s k plan hroom hk hp

/-- One token: its bits are appended, then the complete groups leave. -/
def emitBits (q : Bits) : Micro Unit := do
  bbAppendBits q
  bbDrain

theorem emits_emitBits (q : Bits) : Emits q.length q (emitBits q) where
  ok s hroom hplan := by
    rw [fullBytes_length] at hplan
    rw [emitBits, micro_bind_ok (bbAppendBits_ok hroom), bbDrain_ok (s := { s with bb := s.bb ++ q }) hplan, State.wrote, fullBytes_length]
  ioErr s k plan hroom hk hp := by
    rw [fullBytes_length] at hk
    refine ⟨(s.bb ++ q).drop (8 * k), List.prefix_rfl, by rw [List.length_drop]; omega, ?_⟩
    rw [emitBits, micro_bind_ok (bbAppendBits_ok hroom), bbDrain_ioErr (s := { s with bb := s.bb ++ q }) hk hp]
    rfl

/-- Draining some of the bits first leaves the rest to drain (R128). -/
theorem fullBytes_wrote (p q : Bits) (s : State) :
    fullBytes (s.bb ++ (p ++ q)) = fullBytes (s.bb ++ p) ++ fullBytes ((s.wrote p).bb ++ q) := by
  rw [← List.append_assoc, fullBytes_append, State.wrote]

theorem drop_wrote (p q : Bits) (s : State) (k : Nat) :
    ((s.wrote p).bb ++ q).drop (8 * k) = (s.bb ++ (p ++ q)).drop (8 * ((fullBytes (s.bb ++ p)).length + k)) := by
  have hle : 8 * ((s.bb ++ p).length / 8) ≤ (s.bb ++ p).length := Nat.mul_div_le _ _
  rw [State.wrote, leftover, ← List.drop_append_of_le_length hle, List.append_assoc, List.drop_drop, fullBytes_length, Nat.mul_add]

/-- Bits after bits: the drains leave room for more. -/
theorem Emits.bind (h : Emits n p m) (h' : Emits n' q m') (hn : n' + 7 ≤ Config.bbCap) : Emits n (p ++ q) (do m; m') where
  ok s hroom hplan := by
    have hroom' : (s.wrote p).bb.length + n' ≤ Config.bbCap := room_wrote p s hn
    rw [fullBytes_wrote, List.length_append] at hplan
    have hfirst := h.ok s hroom (planOk_take_of_le hplan (Nat.le_add_right _ _))
    have hrest : PlanOk ((s.wrote p).snk.plan.take (fullBytes ((s.wrote p).bb ++ q)).length) := by
      rw [wrote_plan, List.take_drop]
      exact planOk_drop hplan _
    rw [micro_bind_ok hfirst, h'.ok _ hroom' hrest, wrote_wrote]
  ioErr s k plan hroom hk hp := by
    have hroom' : (s.wrote p).bb.length + n' ≤ Config.bbCap := room_wrote p s hn
    rw [fullBytes_wrote] at hk ⊢
    rw [List.length_append] at hk
    obtain hfirst | hrest := Nat.lt_or_ge k (fullBytes (s.bb ++ p)).length
    · obtain ⟨b, hb, h8, he⟩ := h.ioErr s k plan hroom hfirst hp
      have hle : 8 * k ≤ (s.bb ++ p).length := by
        rw [fullBytes_length] at hfirst
        omega
      refine ⟨b, hb.trans ?_, h8, ?_⟩
      · rw [← List.append_assoc, List.drop_append_of_le_length hle]
        exact List.prefix_append _ _
      · rw [micro_bind_error he, List.take_append_of_le_length (Nat.le_of_lt hfirst)]
    · obtain ⟨k, rfl⟩ := Nat.exists_eq_add_of_le hrest
      have hfirst := h.ok s hroom (planOk_take_of_le (planStop_replicate hp).1 (Nat.le_add_right _ _))
      have hp' : (s.wrote p).snk.plan = List.replicate k .answers ++ .ioErr :: plan := by
        rw [wrote_plan, hp, List.replicate_add, List.append_assoc, List.drop_left' List.length_replicate]
      obtain ⟨b, hb, h8, he⟩ := h'.ioErr _ k plan hroom' (by omega) hp'
      rw [drop_wrote] at hb
      refine ⟨b, hb, h8, ?_⟩
      rw [micro_bind_ok hfirst, he, List.take_length_add_append, ← List.append_assoc]
      rfl

/-! ### A tree -/

theorem serNodes_branch_eq (i : Nat) (w : Option Count) (l r : Tree) :
    serNodes (.branch i w l r) = (do emitBits [false]; serNodes l; serNodes r) := by
  simp only [serNodes, emitBits, bbAppendBit, bind_assoc]

/-- A leaf's kind bit and symbol are appended one after the other, with one drain. -/
theorem serNodes_leaf_eq (i : Nat) (w : Option Count) (v : Byte) (hroom : s.bb.length + 9 ≤ Config.bbCap) :
    serNodes (.leaf i w v) s = emitBits (true :: bits8 v) s := by
  have hkind : s.bb.length + [true].length ≤ Config.bbCap := Nat.le_trans (by simp) hroom
  have hsymbol : (s.bb ++ [true]).length + (bits8 v).length ≤ Config.bbCap := by simpa using hroom
  rw [serNodes, bbAppendBit, micro_bind_ok (bbAppendBits_ok hkind), micro_bind_ok (bbAppendBits_ok hsymbol), emitBits,
    micro_bind_ok (bbAppendBits_ok (q := true :: bits8 v) hroom), List.append_assoc, List.singleton_append]

theorem emits_branch (i : Nat) (w : Option Count) {l r : Tree} (hl : Emits 9 l.ser (serNodes l)) (hr : Emits 9 r.ser (serNodes r)) :
    Emits 1 (Tree.branch i w l r).ser (serNodes (.branch i w l r)) := by
  rw [serNodes_branch_eq]
  exact (emits_emitBits [false]).bind (hl.bind hr (by decide)) (by decide)

theorem emits_serNodes (x : Tree) : Emits 9 x.ser (serNodes x) := by
  induction x with
  | leaf i w v => exact (emits_emitBits (true :: bits8 v)).congr fun _ => serNodes_leaf_eq i w v
  | branch i w l r ihl ihr => exact (emits_branch i w ihl ihr).mono (by decide)

/-! ### The command -/

theorem exec_treeSer {x : Tree} (hx : s.tree = some x) : exec .treeSer s = primitive true true (thenOk treeSer) s := by
  rw [exec, execTreeSer, State.treeValid, hx, Option.isSome_some]

theorem treeSer_started {x : Tree} (hx : s.tree = some x) : treeSer s.started = serNodes x s.started := by
  rw [treeSer, micro_get_bind, started_tree, hx, micro_bind_ok (needed_some x _)]

/-- A branch's bit that does not fit faults before anything is changed (R123). -/
theorem serNodes_branch_overflow (i : Nat) (w : Option Count) (l r : Tree) (hfull : Config.bbCap < s.bb.length + 1) :
    serNodes (.branch i w l r) s = .error (.fault .bbOverflow) s := by
  rw [serNodes, bbAppendBit, micro_bind_error (bbAppendBits_overflow hfull)]

/-- Settles O35: the serializer writes the tree's bits, after a first append that needs room for one bit. -/
theorem treeSerWritesTheSerializedTree : Obligations.TreeSerWritesTheSerializedTree := by
  refine ⟨encodedAs_of_opcode rfl rfl rfl, noOperand_of_operandMax rfl, fun s hr => ⟨fun x hx hbranch => ?valid, fun hx => ?badSequence⟩⟩
  case badSequence => exact exec_flagsMissing hr rfl (by rw [Instr.flagsMet, State.treeValid, hx, Option.isSome_none])
  case valid =>
    obtain _ | ⟨i, w, l, r⟩ := x
    · cases hbranch
    have hbody := treeSer_started hx
    have hemits := emits_branch i w (emits_serNodes l) (emits_serNodes r)
    rw [exec_treeSer hx]
    refine ⟨fun hfull => ?overflows, fun hroom => ⟨fun hplan => ?written, fun k plan hk hp => ?ioErr⟩⟩
    case overflows => exact primitive_eq_fault hr (hbody.trans (serNodes_branch_overflow i w l r hfull))
    case written => exact primitive_eq_ok hr (hbody.trans (hemits.ok s.started hroom hplan))
    case ioErr =>
      obtain ⟨b, hb, h8, he⟩ := hemits.ioErr s.started k plan hroom hk hp
      exact ⟨b, hb, h8, primitive_eq_err hr (hbody.trans he)⟩

end Sys2Proof.Machine
end

section
/-! PROOF. Bytes that go straight to the sink, one after another, and HDR_WRITE (R191, R193). -/

namespace Sys2Proof.Machine

variable {s : State} {l l' : List Byte} {k : Nat} {p : List PortPlan}

/-! ### Bytes one after another -/

/-- The state once the sink has accepted the bytes `l` (R66). -/
def State.sent (l : List Byte) (s : State) : State :=
  { s with snk := { s.snk with out := s.snk.out ++ l, plan := s.snk.plan.drop l.length } }

@[simp] theorem sent_plan (l : List Byte) (s : State) : (s.sent l).snk.plan = s.snk.plan.drop l.length := rfl

theorem sent_sent (l l' : List Byte) (s : State) : (s.sent l).sent l' = s.sent (l ++ l') := by
  simp only [State.sent, List.append_assoc, List.drop_drop, List.length_append]

/-- SnkWrite of one byte after another (R66, R254). -/
def writeAll : List Byte → Micro Unit
  | [] => pure ()
  | v :: l => do
    writeByte v
    writeAll l

theorem writeAll_ok (hp : PlanOk (s.snk.plan.take l.length)) : writeAll l s = .ok () (s.sent l) := by
  induction l generalizing s with
  | nil =>
    rw [State.sent, List.append_nil]
    rfl
  | cons v l ih =>
    have hfirst : writeByte v s = .ok () (s.sent [v]) := writeByte_ok v (planOk_take_of_le hp (by simp))
    rw [writeAll, micro_bind_ok hfirst, ih (planOk_step hp), sent_sent, List.singleton_append]

theorem writeAll_ioErr (hk : k < l.length) (hp : s.snk.plan = List.replicate k .answers ++ .ioErr :: p) :
    writeAll l s = .error (.err .ioSnk) { s with snk := { s.snk with out := s.snk.out ++ l.take k, plan := p } } := by
  induction l generalizing s k with
  | nil => cases hk
  | cons v l ih =>
    cases k with
    | zero => rw [writeAll, micro_bind_error (writeByte_ioErr v hp), List.take_zero, List.append_nil]
    | succ k =>
      have hfirst : writeByte v s = .ok () (s.sent [v]) := writeByte_ok v (by simp [hp, List.replicate_succ, PlanOk])
      have hrest : (s.sent [v]).snk.plan = List.replicate k .answers ++ .ioErr :: p := by simp [hp, List.replicate_succ]
      rw [writeAll, micro_bind_ok hfirst, ih (Nat.lt_of_succ_lt_succ hk) hrest, List.take_succ_cons]
      simp only [State.sent, List.append_assoc, List.singleton_append]

/-! ### The command -/

theorem hdrBytesOut_eq (c : Count) : hdrBytesOut c = writeAll (bigEndian c) :=
  congrArg (writeByte _ >>= ·) <| funext fun _ => congrArg (writeByte _ >>= ·) <| funext fun _ => congrArg (writeByte _ >>= ·) <|
    funext fun _ => (bind_pure (writeByte (countByte c 0))).symm

theorem checkInputSize_tooSmall (h : s.total.toNat < Config.minInput) : checkInputSize s = .error (.err .inputTooSmall) s := by
  rw [checkInputSize, micro_get_bind, if_pos h, micro_throw]

/-- With an input of at least two bytes, the header is TOTAL's four bytes (R191). -/
theorem hdrWrite_eq (h : Config.minInput ≤ s.total.toNat) : hdrWrite s = writeAll (bigEndian s.total) s := by
  rw [hdrWrite, micro_bind_ok (checkInputSize_ok h), micro_get_bind, hdrBytesOut_eq]

theorem hdrWrite_tooSmall (h : s.total.toNat < Config.minInput) : hdrWrite s = .error (.err .inputTooSmall) s := by
  rw [hdrWrite, micro_bind_error (checkInputSize_tooSmall h)]

/-- HDR_WRITE while FREQ_VALID = 1. -/
theorem exec_hdrWrite_valid (hf : s.freq.isSome = true) : exec .hdrWrite s = primitive true true (thenOk hdrWrite) s := by
  rw [exec, execHdrWrite, State.freqValid, hf]

/-- The check of R193 as HDR_WRITE makes it. -/
theorem exec_hdrWrite_tooSmall (hr : s.run = .idle) (hf : s.freq.isSome = true) (h : s.total.toNat < Config.minInput) :
    exec .hdrWrite s = .next { s with result := .err .inputTooSmall } := by
  rw [exec_hdrWrite_valid hf, primitive_thenOk_error hr (hdrWrite_tooSmall (s := s.started) h), raised_false_err, completed_started,
    completed_of_idle hr]

/-- Settles O41: the size check passes or fails, and the four bytes go out until a write fails. -/
theorem hdrWriteWritesTheTotal : Obligations.HdrWriteWritesTheTotal := by
  refine ⟨encodedAs_of_opcode rfl rfl rfl, noOperand_of_operandMax rfl, fun s hr => ⟨fun hf htotal hp => ?written,
    exec_hdrWrite_tooSmall hr, fun k p hf htotal hk hp => ?ioErr, fun hf => ?badSequence⟩⟩
  case written =>
    rw [exec_hdrWrite_valid hf]
    exact primitive_eq_ok hr ((hdrWrite_eq (s := s.started) htotal).trans (writeAll_ok hp))
  case ioErr =>
    rw [exec_hdrWrite_valid hf]
    exact primitive_eq_err hr ((hdrWrite_eq (s := s.started) htotal).trans (writeAll_ioErr hk hp))
  case badSequence => exact exec_flagsMissing hr rfl (by rw [Instr.flagsMet, State.freqValid, hf, Option.isSome_none])

end Sys2Proof.Machine
end

section
/-! PROOF. PAYLOAD_ENC (R192, R194): each byte of the new pass is read and its codeword appended and drained, until the source ends, a byte has no
codeword, or a port fails. -/

namespace Sys2Proof.Machine

variable {s : State} {c : CodeTable} {u v : Byte} {x y : List Byte} {k n : Nat} {p : List PortPlan}

/-! ### Reading the next byte -/

/-- The state once the next byte has been read (R63). -/
def State.readOn (s : State) : State :=
  { s with src := { s.src with pos := s.src.pos + 1, plan := s.src.plan.drop 1 }, srcEos := false }

@[simp] theorem readOn_bb (s : State) : s.readOn.bb = s.bb := rfl

@[simp] theorem readOn_snk (s : State) : s.readOn.snk = s.snk := rfl

theorem readByte_unread (hp : PlanOk (s.src.plan.take 1)) (hu : s.unread = v :: y) : readByte s = .ok (some v) s.readOn :=
  readByte_byte hp (by rw [← Nat.add_zero s.src.pos, ← getElem?_unread, hu, List.getElem?_cons_zero])

theorem readByte_metEnd (hp : PlanOk (s.src.plan.take 1)) (hu : s.unread = []) : readByte s = .ok none s.metEnd :=
  readByte_eos hp (by rw [← Nat.add_zero s.src.pos, ← getElem?_unread, hu, List.getElem?_nil])

theorem unread_readOn (hu : s.unread = v :: y) : s.readOn.unread = y := by
  rw [State.unread, State.readOn, ← List.drop_drop, ← State.unread, hu, List.drop_one, List.tail_cons]

/-! ### One pass -/

theorem payloadBits_cons (c : CodeTable) (v : Byte) (x : List Byte) : payloadBits c (v :: x) = tableGet c v ++ payloadBits c x := rfl

/-- A pass on a byte that has a codeword emits it. -/
theorem payloadEncPasses_byte (hc : s.code = some c) (hp : PlanOk (s.src.plan.take 1)) (hu : s.unread = v :: y) (hv : tableGet c v ≠ [])
    (n : Nat) : payloadEncPasses (n + 1) s = (do emitBits (tableGet c v); payloadEncPasses n) s.readOn := by
  rw [payloadEncPasses, micro_bind_ok (readByte_unread hp hu)]
  simp only [emitBits, bind_assoc]
  exact micro_bind_congr (appendCode_eq (s := s.readOn) hc hv) _

/-- A pass on a byte without a codeword faults, the byte being consumed (R194). -/
theorem payloadEncPasses_noCodeword (hc : s.code = some c) (hp : PlanOk (s.src.plan.take 1)) (hu : s.unread = v :: y)
    (hv : tableGet c v = []) (n : Nat) : payloadEncPasses (n + 1) s = .error (.fault .noCodeword) s.readOn := by
  rw [payloadEncPasses, micro_bind_ok (readByte_unread hp hu)]
  exact micro_bind_error (appendCode_none (s := s.readOn) hc hv) _

theorem payloadEncPasses_end (hp : PlanOk (s.src.plan.take 1)) (hu : s.unread = []) (n : Nat) :
    payloadEncPasses (n + 1) s = .ok () s.metEnd := by
  rw [payloadEncPasses, micro_bind_ok (readByte_metEnd hp hu)]
  rfl

theorem payloadEncPasses_srcErr (hp : s.src.plan = .ioErr :: p) (n : Nat) :
    payloadEncPasses (n + 1) s = .error (.err .ioSrc) { s with src := { s.src with plan := p } } := by
  rw [payloadEncPasses, micro_bind_error (readByte_ioErr hp)]

/-! ### The passes of a byte sequence -/

/-- The state once the bytes `x` have been read and their codewords emitted (R192). -/
def State.coded (c : CodeTable) : List Byte → State → State
  | [], s => s
  | v :: x, s => State.coded c x (s.readOn.wrote (tableGet c v))

/-- The source's next bytes are `x`, then `y`; the reads of `x` are answered, every byte of `x` has a codeword, and the first one has room. The drain
after a codeword leaves room for any other. -/
structure Encodable (c : CodeTable) (x y : List Byte) (s : State) : Prop where
  code : s.code = some c
  bytes : s.unread = x ++ y
  reads : PlanOk (s.src.plan.take x.length)
  room : ∀ v ∈ x.head?, s.bb.length + (tableGet c v).length ≤ Config.bbCap
  coded : ∀ v ∈ x, tableGet c v ≠ [] ∧ (tableGet c v).length ≤ Config.maxDepth

theorem Encodable.tail (h : Encodable c (v :: x) y s) : Encodable c x y (s.readOn.wrote (tableGet c v)) where
  code := h.code
  bytes := unread_readOn h.bytes
  reads := planOk_step h.reads
  room u hu := by
    have hlen := (h.coded u (List.mem_cons_of_mem v (List.mem_of_mem_head? hu))).2
    exact room_wrote _ _ (Nat.le_trans (Nat.add_le_add_right hlen 7) (by decide))
  coded u hu := h.coded u (List.mem_cons_of_mem v hu)

theorem Encodable.rest (h : Encodable c x y s) : Encodable c [] y (s.coded c x) := by
  induction x generalizing s with
  | nil => exact h
  | cons v x ih => exact ih h.tail

theorem Encodable.pass (h : Encodable c (v :: x) y s) (n : Nat) :
    payloadEncPasses (n + 1) s = (do emitBits (tableGet c v); payloadEncPasses n) s.readOn :=
  payloadEncPasses_byte h.code (planOk_take_of_le h.reads (by simp)) h.bytes (h.coded v List.mem_cons_self).1 n

theorem Encodable.room_head (h : Encodable c (v :: x) y s) : s.bb.length + (tableGet c v).length ≤ Config.bbCap :=
  h.room v List.head?_cons

/-- The groups of a byte's codeword leave before those of the bytes behind it. -/
theorem fullBytes_payloadBits_cons (c : CodeTable) (v : Byte) (x : List Byte) (s : State) :
    fullBytes (s.bb ++ payloadBits c (v :: x))
      = fullBytes (s.bb ++ tableGet c v) ++ fullBytes ((s.readOn.wrote (tableGet c v)).bb ++ payloadBits c x) :=
  fullBytes_wrote (tableGet c v) (payloadBits c x) s.readOn

/-- As long as both ports answer, the passes emit all codewords. -/
theorem payloadEncPasses_coded (h : Encodable c x y s) (hw : PlanOk (s.snk.plan.take (fullBytes (s.bb ++ payloadBits c x)).length)) (n : Nat) :
    payloadEncPasses (n + x.length) s = payloadEncPasses n (s.coded c x) := by
  induction x generalizing s with
  | nil => rfl
  | cons v x ih =>
    rw [fullBytes_payloadBits_cons, List.length_append] at hw
    have hemit := (emits_emitBits (tableGet c v)).ok s.readOn h.room_head (planOk_take_of_le hw (Nat.le_add_right _ _))
    have hrest : PlanOk ((s.readOn.wrote (tableGet c v)).snk.plan.take
        (fullBytes ((s.readOn.wrote (tableGet c v)).bb ++ payloadBits c x)).length) := by
      rw [wrote_plan, List.take_drop]
      exact planOk_drop hw _
    rw [List.length_cons, ← Nat.add_assoc, h.pass, micro_bind_ok hemit, ih h.tail hrest, State.coded]

/-- Where the write of group `k` fails, the groups before it have left, and the buffer holds that group and perhaps some bits after it. Without a byte
to encode there is no drain, so then the buffer must hold no group. -/
theorem payloadEncPasses_snkErr (h : Encodable c x y s) (hdrain : x = [] → s.bb.length < 8)
    (hk : k < (fullBytes (s.bb ++ payloadBits c x)).length) (hp : s.snk.plan = List.replicate k .answers ++ .ioErr :: p) (n : Nat) :
    ∃ t, payloadEncPasses (n + x.length) s = .error (.err .ioSnk) t
      ∧ t.snk.out = s.snk.out ++ (fullBytes (s.bb ++ payloadBits c x)).take k
      ∧ t.bb <+: (s.bb ++ payloadBits c x).drop (8 * k) ∧ 8 ≤ t.bb.length := by
  induction x generalizing s k with
  | nil =>
    have hnone : payloadBits c [] = [] := rfl
    rw [hnone, List.append_nil, fullBytes_short (hdrain rfl)] at hk
    cases hk
  | cons v x ih =>
    rw [List.length_cons, ← Nat.add_assoc, h.pass]
    rw [fullBytes_payloadBits_cons, List.length_append] at hk
    rw [fullBytes_payloadBits_cons]
    obtain hfirst | hrest := Nat.lt_or_ge k (fullBytes (s.bb ++ tableGet c v)).length
    · obtain ⟨b, hb, h8, he⟩ := (emits_emitBits (tableGet c v)).ioErr s.readOn k p h.room_head hfirst hp
      have hle : 8 * k ≤ (s.bb ++ tableGet c v).length := by
        rw [fullBytes_length] at hfirst
        omega
      refine ⟨_, micro_bind_error he _, ?_, hb.trans ?_, h8⟩
      · rw [List.take_append_of_le_length (Nat.le_of_lt hfirst)]
        rfl
      · rw [payloadBits_cons, ← List.append_assoc, List.drop_append_of_le_length hle]
        exact List.prefix_append _ _
    · obtain ⟨k, rfl⟩ := Nat.exists_eq_add_of_le hrest
      have hemit := (emits_emitBits (tableGet c v)).ok s.readOn h.room_head
        (planOk_take_of_le (planStop_replicate hp).1 (Nat.le_add_right _ _))
      have hp' : (s.readOn.wrote (tableGet c v)).snk.plan = List.replicate k .answers ++ .ioErr :: p := by
        rw [wrote_plan, readOn_snk, hp, List.replicate_add, List.append_assoc, readOn_bb, List.drop_left' List.length_replicate]
      obtain ⟨t, he, hout, hb, h8⟩ := ih h.tail (fun _ => leftover_lt _) (by omega) hp'
      rw [drop_wrote] at hb
      refine ⟨t, (micro_bind_ok hemit _).trans he, ?_, hb, h8⟩
      rw [hout, List.take_length_add_append, ← List.append_assoc]
      rfl

/-! ### The new pass -/

/-- The state after the rewind (R65, R192). -/
def State.restarted (s : State) : State := { s with src := s.src.rewound, srcEos := false }

theorem unread_restarted (s : State) : s.restarted.unread = s.src.rewound.data := by
  rw [State.unread, State.restarted, rewound_pos, List.drop_zero]

theorem payloadEnc_restarted (s : State) : payloadEnc s = payloadEncPasses (s.restarted.unread.length + 1) s.restarted := by
  rw [unread_restarted]
  rfl

/-- All codewords together are emitted as one sequence; without a byte there is no drain. -/
theorem coded_eq (c : CodeTable) (x : List Byte) (s : State) :
    s.coded c x = { if x = [] then s else s.wrote (payloadBits c x) with
      src := { s.src with pos := s.src.pos + x.length, plan := s.src.plan.drop x.length }
      srcEos := if x = [] then s.srcEos else false } := by
  induction x generalizing s with
  | nil => rfl
  | cons v x ih =>
    rw [State.coded, ih, if_neg (List.cons_ne_nil v x), if_neg (List.cons_ne_nil v x), payloadBits_cons]
    by_cases hx : x = []
    · subst hx
      simp [State.readOn, State.wrote, payloadBits]
    · rw [if_neg hx, if_neg hx, wrote_wrote]
      simp [State.readOn, State.wrote, Nat.add_assoc, Nat.add_comm 1]

/-- The state once the bytes `x` of the new pass have been encoded (R192). -/
theorem coded_restarted (c : CodeTable) (x : List Byte) (s : State) :
    s.restarted.coded c x = { s with
      bb := if x = [] then s.bb else leftover (s.bb ++ payloadBits c x)
      src := { s.src.rewound with pos := x.length, plan := s.src.plan.drop x.length }
      srcEos := false
      snk := if x = [] then s.snk else { s.snk with
        out := s.snk.out ++ fullBytes (s.bb ++ payloadBits c x)
        plan := s.snk.plan.drop (fullBytes (s.bb ++ payloadBits c x)).length } } := by
  rw [coded_eq]
  cases x <;> simp [State.restarted, State.wrote]

/-- There are as many passes as bytes, and one more for the end. -/
theorem payloadEnc_passes (h : Encodable c x y s.restarted) : payloadEnc s = payloadEncPasses (y.length + 1 + x.length) s.restarted := by
  have hfuel : s.restarted.unread.length + 1 = y.length + 1 + x.length := by
    rw [h.bytes, List.length_append]
    omega
  rw [payloadEnc_restarted, hfuel]

/-- From the rewind to the end of the bytes `x`. -/
theorem payloadEnc_coded (h : Encodable c x y s.restarted) (hw : PlanOk (s.snk.plan.take (fullBytes (s.bb ++ payloadBits c x)).length)) :
    payloadEnc s = payloadEncPasses (y.length + 1) (s.restarted.coded c x) := by
  rw [payloadEnc_passes h, payloadEncPasses_coded h hw]

theorem planOk_coded (hp : PlanOk (s.src.plan.take (x.length + 1))) : PlanOk ((s.restarted.coded c x).src.plan.take 1) := by
  rw [coded_restarted]
  exact planOk_drop_take_one hp (Nat.lt_succ_self _)

theorem payloadEnc_ok (h : Encodable c x [] s.restarted) (hw : PlanOk (s.snk.plan.take (fullBytes (s.bb ++ payloadBits c x)).length))
    (hp : PlanOk (s.src.plan.take (x.length + 1))) : payloadEnc s = .ok () (s.restarted.coded c x).metEnd := by
  rw [payloadEnc_coded h hw, payloadEncPasses_end (planOk_coded hp) h.rest.bytes]

theorem payloadEnc_noCodeword (h : Encodable c x (v :: y) s.restarted)
    (hw : PlanOk (s.snk.plan.take (fullBytes (s.bb ++ payloadBits c x)).length)) (hp : PlanOk (s.src.plan.take (x.length + 1)))
    (hv : tableGet c v = []) : payloadEnc s = .error (.fault .noCodeword) (s.restarted.coded c x).readOn := by
  rw [payloadEnc_coded h hw, payloadEncPasses_noCodeword h.rest.code (planOk_coded hp) h.rest.bytes hv]

theorem payloadEnc_srcErr (h : Encodable c x y s.restarted) (hw : PlanOk (s.snk.plan.take (fullBytes (s.bb ++ payloadBits c x)).length))
    (hp : s.src.plan = List.replicate x.length .answers ++ .ioErr :: p) :
    payloadEnc s = .error (.err .ioSrc)
      { s.restarted.coded c x with src := { (s.restarted.coded c x).src with plan := p } } := by
  have hplan : (s.restarted.coded c x).src.plan = .ioErr :: p := by
    rw [coded_restarted]
    exact (planStop_replicate hp).2
  rw [payloadEnc_coded h hw, payloadEncPasses_srcErr hplan]

theorem payloadEnc_snkErr (h : Encodable c x y s.restarted) (hx : x ≠ []) (hk : k < (fullBytes (s.bb ++ payloadBits c x)).length)
    (hp : s.snk.plan = List.replicate k .answers ++ .ioErr :: p) :
    ∃ t, payloadEnc s = .error (.err .ioSnk) t
      ∧ t.snk.out = s.snk.out ++ (fullBytes (s.bb ++ payloadBits c x)).take k
      ∧ t.bb <+: (s.bb ++ payloadBits c x).drop (8 * k) ∧ 8 ≤ t.bb.length := by
  rw [payloadEnc_passes h]
  exact payloadEncPasses_snkErr h (absurd · hx) hk hp _

/-- A first codeword without room stops the command before anything is appended (R125). -/
theorem payloadEnc_overflow (hc : s.code = some c) (hdata : s.src.rewound.data = v :: y) (hp : PlanOk (s.src.plan.take 1))
    (hv : tableGet c v ≠ []) (hfull : Config.bbCap < s.bb.length + (tableGet c v).length) :
    payloadEnc s = .error (.fault .bbOverflow) s.restarted.readOn := by
  have hp' : PlanOk (s.restarted.src.plan.take 1) := by
    rw [State.restarted, rewound_plan]
    exact hp
  rw [payloadEnc_restarted, payloadEncPasses_byte (s := s.restarted) hc hp' ((unread_restarted s).trans hdata) hv]
  exact micro_bind_error (micro_bind_error (bbAppendBits_overflow (s := s.restarted.readOn) hfull) _) _

/-! ### The command -/

/-- PAYLOAD_ENC while CODE_VALID = 1. -/
theorem exec_payloadEnc_valid (hc : s.code = some c) : exec .payloadEnc s = primitive true true (thenOk payloadEnc) s := by
  rw [exec, execPayloadEnc, State.codeValid, hc, Option.isSome_some]

/-- Settles O42: the codewords are emitted until the source ends, at a byte without a codeword, or where a port fails. -/
theorem payloadEncAppendsTheCodewords : Obligations.PayloadEncAppendsTheCodewords := by
  refine ⟨encodedAs_of_opcode rfl rfl rfl, noOperand_of_operandMax rfl, fun s hr => ⟨fun c x y hc hdata hroom hcoded => ?valid,
    fun c v y hc hdata hp hv hfull => ?overflow, fun hc => ?badSequence⟩⟩
  case badSequence => exact exec_flagsMissing hr rfl (by rw [Instr.flagsMet, State.codeValid, hc, Option.isSome_none])
  case overflow =>
    rw [exec_payloadEnc_valid hc, primitive_thenOk_error hr (payloadEnc_overflow (s := s.started) hc hdata hp hv hfull), raised_fault]
    simp [State.faulted, State.readOn, State.restarted, State.started]
  case valid =>
    have henc (hp : PlanOk (s.src.plan.take x.length)) : Encodable c x y s.started.restarted :=
      ⟨hc, (unread_restarted _).trans hdata, by rw [State.restarted, rewound_plan]; exact hp, hroom, hcoded⟩
    rw [exec_payloadEnc_valid hc]
    refine ⟨fun hw encoded hencoded => ⟨fun hp hend => ?ok, fun hp v rest hnext hv => ?noCodeword, fun p hp => ?srcErr⟩,
      fun k p hx hp hk hsnk => ?snkErr⟩
    case ok =>
      subst hend hencoded
      have hbody := payloadEnc_ok (henc (planOk_take_of_le hp (Nat.le_succ _))) hw hp
      rw [primitive_eq_ok hr hbody, coded_restarted]
      simp [State.metEnd]
    case noCodeword =>
      subst hnext hencoded
      have hbody := payloadEnc_noCodeword (henc (planOk_take_of_le hp (Nat.le_succ _))) hw hp hv
      rw [primitive_thenOk_error hr hbody, raised_fault, coded_restarted]
      simp [State.readOn, State.faulted]
    case srcErr =>
      subst hencoded
      have hbody := payloadEnc_srcErr (henc (planStop_replicate hp).1) hw hp
      have hplan : s.src.plan.drop (x.length + 1) = p := by
        rw [← List.drop_drop, (planStop_replicate hp).2]
        rfl
      rw [primitive_eq_err hr hbody, coded_restarted]
      simp [hplan]
    case snkErr =>
      obtain ⟨t, hbody, hout, hb, h8⟩ := payloadEnc_snkErr (henc hp) hx hk hsnk
      exact ⟨_, primitive_eq_err hr hbody, hr, rfl, hout, hb, h8⟩

end Sys2Proof.Machine
end

section
/-! PROOF. COMPRESS with ports that answer (R193, R196, R197): the first pass makes the tree, header and packed tree go out, then the packed codewords
of the second pass, up to its end or to a byte without a codeword. -/

namespace Sys2Proof.Machine

variable {s : State} {t : Tree} {v : Byte} {x y z : List Byte}

/-! ### The lengths of the stream's parts -/

/-- One bit for each branch and nine for each leaf, and there is one leaf more than there are branches (R104). -/
theorem Tree.length_ser (t : Tree) : t.ser.length + 1 = 10 * t.symbols.length := by
  induction t with
  | leaf => rfl
  | branch i w l r ihl ihr =>
    rw [ser, symbols, List.length_cons, List.length_append, List.length_append]
    omega

/-- R105. -/
theorem length_streamOf (t : Tree) (x y : List Byte) :
    (streamOf t x y).length = 4 + (10 * t.symbols.length - 1 + 7) / 8 + ((payloadBits (codeTable t) y).length + 7) / 8 := by
  have hser : t.ser.length = 10 * t.symbols.length - 1 := Nat.eq_sub_of_add_eq t.length_ser
  rw [streamOf, List.length_append, List.length_append, pack_length, pack_length, hser]
  rfl

/-! ### The tree and the code of an input -/

theorem toNat_tableGet_freqOf (hlt : x.length < 2 ^ 32) (v : Byte) : (tableGet (freqOf x) v).toNat = x.count v := by
  rw [tableGet_freqOf, BitVec.toNat_ofNat, Nat.mod_eq_of_lt (Nat.lt_of_le_of_lt List.count_le_length hlt)]

theorem counted_of_mem (hlt : x.length < 2 ^ 32) (hv : v ∈ x) : 0 < (tableGet (freqOf x) v).toNat := by
  rw [toNat_tableGet_freqOf hlt]
  exact List.count_pos_iff.mpr hv

theorem exists_buildTree_freqOf (hne : x ≠ []) (hlt : x.length < 2 ^ 32) : ∃ t, buildTree (freqOf x) = some t := by
  have hpos := counted_of_mem hlt (List.head_mem hne)
  have hle := tableGet_le_freqSum (freqOf x) (x.head hne)
  exact Option.isSome_iff_exists.mp (buildTree_isSome (by omega))

/-- Every byte of the first pass has a codeword (R162 (a)). -/
theorem codeword_of_mem (ht : buildTree (freqOf x) = some t) (hlt : x.length < 2 ^ 32) (hv : v ∈ x) : tableGet (codeTable t) v ≠ [] := by
  obtain ⟨hcounted, _⟩ := builtCodeIsACompletePrefixCode _ t ht
  exact hcounted v (counted_of_mem hlt hv)

theorem length_codeword_le {f : FreqTable} (ht : buildTree f = some t) (hv : tableGet (codeTable t) v ≠ []) :
    (tableGet (codeTable t) v).length ≤ Config.maxDepth := by
  obtain ⟨_, hpath, _⟩ := builtCodeIsACompletePrefixCode f t ht
  exact (hpath v hv).2

/-! ### Bits packed into the sink -/

/-- Bits that passed through an empty buffer, with the flush behind them, are packed (R129, R131). -/
theorem bbFlush_wrote (hbb : s.bb = []) (hp : PlanOk s.snk.plan) (q : Bits) : bbFlush (s.wrote q) = .ok () (s.sent (pack q)) := by
  rw [bbFlush_ok (s := s.wrote q) (planOk_take (planOk_drop hp _) _), flushed_all]
  simp only [State.wrote, State.sent, hbb, List.nil_append, pack_eq q, List.append_assoc, List.drop_drop, List.length_append]

theorem treeSer_ok (ht : s.tree = some t) (hbb : s.bb = []) (hp : PlanOk s.snk.plan) : treeSer s = .ok () (s.wrote t.ser) := by
  rw [treeSer, micro_get_bind, micro_bind_ok (needed_of_eq_some ht s)]
  exact (emits_serNodes t).ok s (by rw [hbb]; decide) (planOk_take hp _)

/-! ### The first pass -/

/-- The state before the header is written: the input `x` is counted, its tree and its code are made, the buffer is empty (R196 steps 1 to 5). -/
def State.analysed (t : Tree) (x : List Byte) (s : State) : State :=
  { s with
    freq := some (freqOf x), total := BitVec.ofNat 32 x.length, tree := some t, code := some (codeTable t), bb := []
    src := { s.src with pos := s.src.data.length, plan := s.src.plan.drop (x.length + 1) }
    srcEos := true }

/-- COMPRESS has a whole input of 2 to 2^32 - 1 bytes in front of it, of which `t` is the tree; the reads of the first pass and all writes are
answered. -/
structure Compressible (t : Tree) (x : List Byte) (s : State) : Prop where
  input : s.src.data = x
  start : s.src.pos = 0
  atLeast : Config.minInput ≤ x.length
  atMost : x.length < 2 ^ 32
  built : buildTree (freqOf x) = some t
  reads : PlanOk (s.src.plan.take (x.length + 1))
  writes : PlanOk s.snk.plan

theorem toNat_ofNat_length (hlt : x.length < 2 ^ 32) : (BitVec.ofNat 32 x.length).toNat = x.length := by
  rw [BitVec.toNat_ofNat, Nat.mod_eq_of_lt hlt]

theorem Compressible.steps_analysed (h : Compressible t x s) :
    compressSteps s = (do hdrWrite; treeSer; bbFlush; payloadEnc; bbFlush) (s.analysed t x) := by
  obtain ⟨rfl, hstart, hmin, hlt, ht, hreads, _⟩ := h
  have hunread : s.unread = s.src.data := by rw [State.unread, hstart, List.drop_zero]
  have hscan := freqScan_ok (s := s) (hstart ▸ Nat.zero_le _) (hunread.symm ▸ hreads) (hunread.symm ▸ hlt)
  rw [hunread] at hscan
  have hmin' : Config.minInput ≤ (BitVec.ofNat 32 s.src.data.length).toNat := by rwa [toNat_ofNat_length hlt]
  have hne : (BitVec.ofNat 32 s.src.data.length).toNat ≠ 0 := Nat.ne_of_gt (Nat.lt_of_lt_of_le (by decide) hmin')
  rw [compressSteps, micro_bind_ok hscan, micro_bind_ok (checkInputSize_ok (by exact hmin')), micro_bind_ok (treeBuild_ok rfl hne ht),
    micro_bind_ok (codeGen_ok rfl), micro_bind_ok (bbClear_eq _)]
  rfl

/-- The state before the second pass: header and packed tree have gone out (R196 steps 6 to 8). -/
def State.headed (t : Tree) (x : List Byte) (s : State) : State :=
  (s.analysed t x).sent (bigEndian (BitVec.ofNat 32 x.length) ++ pack t.ser)

theorem Compressible.steps_headed (h : Compressible t x s) : compressSteps s = (do payloadEnc; bbFlush) (s.headed t x) := by
  have hmin : Config.minInput ≤ (s.analysed t x).total.toNat := (toNat_ofNat_length h.atMost).symm ▸ h.atLeast
  have hheader : hdrWrite (s.analysed t x) = .ok () ((s.analysed t x).sent (bigEndian (BitVec.ofNat 32 x.length))) :=
    (hdrWrite_eq hmin).trans (writeAll_ok (planOk_take h.writes _))
  have hplan := planOk_drop h.writes (bigEndian (BitVec.ofNat 32 x.length)).length
  have htree := treeSer_ok (s := (s.analysed t x).sent (bigEndian (BitVec.ofNat 32 x.length))) rfl rfl hplan
  have hflush := bbFlush_wrote (s := (s.analysed t x).sent (bigEndian (BitVec.ofNat 32 x.length))) rfl hplan t.ser
  rw [h.steps_analysed, micro_bind_ok hheader, micro_bind_ok htree, micro_bind_ok hflush, sent_sent]
  rfl

/-! ### The second pass -/

/-- The state once `n` bytes of the new pass have been read (R65). -/
def State.repassed (n : Nat) (s : State) : State :=
  { s with src := { s.src.rewound with pos := n, plan := s.src.plan.drop n }, srcEos := false }

/-- Through an empty buffer all codewords are emitted as one sequence, even of no byte. -/
theorem coded_restarted_of_empty (hbb : s.bb = []) (c : CodeTable) (x : List Byte) :
    s.restarted.coded c x = (s.repassed x.length).wrote (payloadBits c x) := by
  rw [coded_restarted]
  cases x <;> simp [State.repassed, State.wrote, hbb, payloadBits, fullBytes, leftover]

/-- The rewind presents what it would have presented before the first pass. -/
theorem rewound_data_headed (t : Tree) (x : List Byte) (s : State) : (s.headed t x).src.rewound.data = s.src.rewound.data := by
  rw [rewound_data, rewound_data]
  rfl

/-- The second pass reads the bytes `y`, which have codewords, and then `z`, with all reads of both passes up to there answered. -/
structure SecondPass (t : Tree) (x y z : List Byte) (s : State) : Prop where
  bytes : s.src.rewound.data = y ++ z
  coded : ∀ v ∈ y, tableGet (codeTable t) v ≠ []
  reads : PlanOk (s.src.plan.take (x.length + y.length + 2))

theorem SecondPass.encodable (h : SecondPass t x y z s) (ht : buildTree (freqOf x) = some t) :
    Encodable (codeTable t) y z (s.headed t x).restarted where
  code := rfl
  bytes := by rw [unread_restarted, rewound_data_headed, h.bytes]
  reads := by
    rw [State.restarted, rewound_plan, State.headed, State.sent, State.analysed, List.take_drop]
    exact planOk_drop (planOk_take_of_le h.reads (by omega)) _
  room v hv := by
    have hlen := length_codeword_le ht (h.coded v (List.mem_of_mem_head? hv))
    exact Nat.le_trans (Nat.add_le_add_left hlen 0) (by decide)
  coded v hv := ⟨h.coded v hv, length_codeword_le ht (h.coded v hv)⟩

theorem SecondPass.reads_headed (h : SecondPass t x y z s) : PlanOk ((s.headed t x).src.plan.take (y.length + 1)) := by
  rw [State.headed, State.sent, State.analysed, List.take_drop]
  exact planOk_drop (planOk_take_of_le h.reads (by omega)) _

theorem Compressible.writes_headed (h : Compressible t x s) : PlanOk (s.headed t x).snk.plan := planOk_drop h.writes _

/-- The second pass reaches its end. -/
theorem Compressible.steps_ok (h : Compressible t x s) (h' : SecondPass t x y [] s) :
    compressSteps s = .ok () ((((s.headed t x).repassed y.length).metEnd).sent (pack (payloadBits (codeTable t) y))) := by
  have hpayload := payloadEnc_ok (h'.encodable h.built) (planOk_take h.writes_headed _) h'.reads_headed
  rw [coded_restarted_of_empty rfl] at hpayload
  rw [h.steps_headed, micro_bind_ok hpayload]
  exact bbFlush_wrote (s := ((s.headed t x).repassed y.length).metEnd) rfl h.writes_headed _

/-- The second pass meets a byte that the first one did not (R194). -/
theorem Compressible.steps_noCodeword (h : Compressible t x s) (h' : SecondPass t x y (v :: z) s) (hv : tableGet (codeTable t) v = []) :
    compressSteps s
      = .error (.fault .noCodeword) ((((s.headed t x).repassed y.length).readOn).wrote (payloadBits (codeTable t) y)) := by
  have hpayload := payloadEnc_noCodeword (h'.encodable h.built) (planOk_take h.writes_headed _) h'.reads_headed hv
  rw [coded_restarted_of_empty rfl] at hpayload
  rw [h.steps_headed, micro_bind_error hpayload]
  rfl

/-! ### The command -/

theorem Compressible.started (h : Compressible t x s) : Compressible t x s.started :=
  ⟨h.input, h.start, h.atLeast, h.atMost, h.built, h.reads, h.writes⟩

theorem SecondPass.started (h : SecondPass t x y z s) : SecondPass t x y z s.started := ⟨h.bytes, h.coded, h.reads⟩

theorem exec_compress_ok (hr : s.run = .idle) (h : Compressible t x s) (h' : SecondPass t x y [] s) :
    exec .compress s = .next { s with
      freq := none, tree := none, code := none, countValid := false, bb := []
      total := BitVec.ofNat 32 x.length
      src := { s.src.rewound with pos := y.length, plan := s.src.plan.drop (x.length + y.length + 2) }
      srcEos := true
      snk := { s.snk with out := s.snk.out ++ streamOf t x y, plan := s.snk.plan.drop (streamOf t x y).length }
      result := .ok } := by
  rw [exec, execCompress, composite_ok hr (h.started.steps_ok h'.started)]
  simp +arith [State.headed, State.analysed, State.sent, State.repassed, State.metEnd, State.released, State.completed, streamOf, hr]

theorem exec_compress_noCodeword (hr : s.run = .idle) (h : Compressible t x s) (h' : SecondPass t x y (v :: z) s)
    (hv : tableGet (codeTable t) v = []) :
    exec .compress s = .next { s with
      freq := some (freqOf x), tree := some t, code := some (codeTable t)
      bb := leftover (payloadBits (codeTable t) y)
      total := BitVec.ofNat 32 x.length
      src := { s.src.rewound with pos := y.length + 1, plan := s.src.plan.drop (x.length + y.length + 2) }
      srcEos := false
      snk := { s.snk with
        out := s.snk.out ++ (bigEndian (BitVec.ofNat 32 x.length) ++ pack t.ser ++ fullBytes (payloadBits (codeTable t) y))
        plan := s.snk.plan.drop
          (bigEndian (BitVec.ofNat 32 x.length) ++ pack t.ser ++ fullBytes (payloadBits (codeTable t) y)).length }
      run := .fault
      result := .fault .noCodeword } := by
  rw [exec, execCompress, composite_error hr (h.started.steps_noCodeword h'.started hv)]
  simp +arith [State.headed, State.analysed, State.sent, State.repassed, State.readOn, State.wrote, State.faulted]

/-- Settles O43: header and tree are the first pass's, the payload is the second's; a constant source makes both passes one input's. -/
theorem compressWritesTheStream : Obligations.CompressWritesTheStream := by
  refine ⟨encodedAs_of_opcode rfl rfl rfl, noOperand_of_operandMax rfl, fun s x hr hdata hpos hmin hlt hw => ?_⟩
  obtain ⟨t, ht⟩ := exists_buildTree_freqOf (List.ne_nil_of_length_pos (Nat.lt_of_lt_of_le Nat.two_pos hmin)) hlt
  have hjob {n : Nat} (hp : PlanOk (s.src.plan.take (x.length + n + 2))) : Compressible t x s :=
    ⟨hdata, hpos, hmin, hlt, ht, planOk_take_of_le hp (by omega), hw⟩
  refine ⟨t, ht, length_streamOf t x x, fun hconst hp => ?constant, fun y z hbytes hcoded hp => ⟨fun hz => ?ok,
    fun v rest written hz hv hwritten => ?noCodeword⟩⟩
  case constant =>
    have hreads : 2 * (x.length + 1) = x.length + x.length + 2 := by omega
    rw [hreads] at hp ⊢
    exact exec_compress_ok hr (hjob hp) ⟨by rw [hconst, List.append_nil], fun _ => codeword_of_mem ht hlt, hp⟩
  case ok =>
    subst hz
    exact exec_compress_ok hr (hjob hp) ⟨hbytes, hcoded, hp⟩
  case noCodeword =>
    subst hz hwritten
    exact exec_compress_noCodeword hr (hjob hp) ⟨hbytes, hcoded, hp⟩ hv

/-! ### Inputs of fewer than two bytes -/

/-- The first pass counts the input and stops there (R193, R196 step 2). -/
theorem compressSteps_tooSmall (hpos : s.src.pos ≤ s.src.data.length) (hsmall : s.unread.length < Config.minInput)
    (hp : PlanOk (s.src.plan.take (s.unread.length + 1))) :
    compressSteps s = .error (.err .inputTooSmall) { s with
      freq := some (freqOf s.unread), total := BitVec.ofNat 32 s.unread.length, tree := none, code := none
      src := { s.src with pos := s.src.data.length, plan := s.src.plan.drop (s.unread.length + 1) }
      srcEos := true } := by
  have hlt : s.unread.length < 2 ^ 32 := Nat.lt_trans hsmall (by decide)
  rw [compressSteps, micro_bind_ok (freqScan_ok hpos hp hlt), micro_bind_error (checkInputSize_tooSmall ?_)]
  rwa [toNat_ofNat_length hlt]

/-- Settles O44: COMPRESS and HDR_WRITE make the size check, TREE_BUILD asks for a positive TOTAL only. -/
theorem tooSmallInputsAreRejected : Obligations.TooSmallInputsAreRejected := by
  refine fun s hr => ⟨fun hpos hsmall hp => ?compress, exec_hdrWrite_tooSmall hr, fun f hf hsum htotal => ?treeBuild⟩
  case compress =>
    rw [exec, execCompress, composite_error hr (compressSteps_tooSmall (s := s.started) hpos hsmall hp), raised_true_err, completed_eq_of_idle hr]
    rfl
  case treeBuild =>
    obtain ⟨_, _, hcases⟩ := treeBuildSucceedsUnlessEmpty
    obtain ⟨hbuilds, _⟩ := hcases s hr
    obtain ⟨t, _, he⟩ := hbuilds f hf (by rw [hsum, htotal]; rfl) (by rw [htotal]; decide)
    exact ⟨t, he⟩

end Sys2Proof.Machine
end

section
/-! PROOF. COMPRESS with ports that may fail (R78, R198): wherever a port stops a command, the sink has the beginning of what it has when every
operation is answered. -/

namespace Sys2Proof.Machine

variable {α β : Type} {s : State} {t : Tree} {x : List Byte}

/-! ### The run in which every port operation is answered -/

/-- The state with a host that answers every read and write (U28). -/
def State.answering (s : State) : State := s.withPlans [] []

/-- How a run ends beside the run in which every operation is answered: well in both and in the same state, or at a raise at which the sink has no more
than the other run leaves in it. -/
def Outrun (r r' : EStateM.Result Raise State α) : Prop :=
  match r with
  | .ok a t => r' = .ok a t.answering
  | .error _ t => t.snk.out <+: (endState r').snk.out

theorem outrun_readByte (s : State) : Outrun (readByte s) (readByte s.answering) := by
  have hnext : PlanOk (s.answering.src.plan.take 1) := nofun
  have hsent := ThroughPorts.read.out_prefix s.answering
  obtain ⟨v, _, hv, e⟩ | ⟨_, hv, e⟩ | ⟨p, _, e⟩ | ⟨p, _, e⟩ := readByte_cases s <;> rw [e]
  · exact readByte_byte hnext hv
  · exact readByte_eos hnext hv
  · exact hsent
  · exact hsent

theorem outrun_writeByte (v : Byte) (s : State) : Outrun (writeByte v s) (writeByte v s.answering) := by
  have hsent := (ThroughPorts.write v).out_prefix s.answering
  obtain ⟨_, e⟩ | ⟨p, _, e⟩ | ⟨p, _, e⟩ := writeByte_cases v s <;> rw [e]
  · exact writeByte_ok v nofun
  · exact hsent
  · exact hsent

/-- A sequence goes on from its first part, and the sink keeps what it has. -/
theorem out_prefix_bind (m : Micro α) {f : α → Micro β} (hports : ∀ a, ThroughPorts (f a)) (s : State) :
    (endState (m s)).snk.out <+: (endState ((m >>= f) s)).snk.out := by
  rw [micro_bind]
  cases m s with
  | ok a t => exact (hports a).out_prefix t
  | error r t => exact List.prefix_rfl

theorem Outrun.bind {m : Micro α} {f : α → Micro β} (hm : Outrun (m s) (m s.answering)) (hf : ∀ a t, Outrun (f a t) (f a t.answering))
    (hports : ∀ a, ThroughPorts (f a)) : Outrun ((m >>= f) s) ((m >>= f) s.answering) := by
  cases hs : m s with
  | ok a t =>
    rw [hs] at hm
    rw [micro_bind_ok hs, micro_bind_ok hm]
    exact hf a t
  | error r t =>
    rw [hs] at hm
    rw [micro_bind_error hs]
    exact hm.trans (out_prefix_bind m hports s.answering)

theorem endState_onRaise_snk {g : Raise → State → State} (hg : Cleanup g) (m : Micro α) (s : State) :
    (endState (onRaise g m s)).snk = (endState (m s)).snk := by
  rw [onRaise]
  cases m s with
  | ok a t => rfl
  | error r t => exact (hg.same r t).snk

theorem Outrun.onRaise {m : Micro α} {g : Raise → State → State} (hg : Cleanup g) (hm : Outrun (m s) (m s.answering)) :
    Outrun (onRaise g m s) (onRaise g m s.answering) := by
  cases hs : m s with
  | ok a t =>
    rw [hs] at hm
    rw [onRaise_ok hs, onRaise_ok hm]
    rfl
  | error r t =>
    rw [hs] at hm
    rw [onRaise_error hs, Outrun, (hg.same r t).snk, endState_onRaise_snk hg]
    exact hm

theorem ThroughPorts.outrun {m : Micro α} (hm : ThroughPorts m) (s : State) : Outrun (m s) (m s.answering) := by
  induction hm generalizing s with
  | done a => rfl
  | raises _ => exact List.prefix_rfl
  | update hg => exact congrArg (EStateM.Result.ok ()) (hg.plans [] [] s)
  | read => exact outrun_readByte s
  | write v => exact outrun_writeByte v s
  | inspect hblind _ ih =>
    rw [micro_get_bind, micro_get_bind, State.answering, hblind]
    exact ih s s
  | seq _ hf ihm ihf => exact (ihm s).bind ihf hf
  | cleanup hg _ ih => exact (ih s).onRaise hg

/-! ### The stream's beginnings -/

/-- The complete groups of a sequence come first when more bits follow. -/
theorem fullBytes_prefix_pack (p q : Bits) : fullBytes p <+: pack (p ++ q) := by
  rw [pack_eq, fullBytes_append, List.append_assoc]
  exact List.prefix_append _ _

theorem prefix_streamOf (t : Tree) (x y z : List Byte) :
    bigEndian (BitVec.ofNat 32 x.length) ++ pack t.ser ++ fullBytes (payloadBits (codeTable t) y) <+: streamOf t x (y ++ z) := by
  have hbits : payloadBits (codeTable t) (y ++ z) = payloadBits (codeTable t) y ++ payloadBits (codeTable t) z := List.flatMap_append
  rw [streamOf, hbits, List.prefix_append_right_inj]
  exact fullBytes_prefix_pack _ _

/-- The bytes of a second pass all have codewords, or there is a first one without. -/
theorem all_coded_or_exists_uncoded (c : CodeTable) (d : List Byte) :
    (∀ v ∈ d, tableGet c v ≠ []) ∨ ∃ y v z, d = y ++ v :: z ∧ (∀ v ∈ y, tableGet c v ≠ []) ∧ tableGet c v = [] := by
  induction d with
  | nil => exact .inl nofun
  | cons u d ih =>
    by_cases hu : tableGet c u = []
    · exact .inr ⟨[], u, d, rfl, nofun, hu⟩
    · obtain hall | ⟨y, v, z, rfl, hy, hv⟩ := ih
      · exact .inl (List.forall_mem_cons.mpr ⟨hu, hall⟩)
      · exact .inr ⟨u :: y, v, z, rfl, List.forall_mem_cons.mpr ⟨hu, hy⟩, hv⟩

/-! ### The command -/

/-- With ports that answer, COMPRESS ends well with the whole stream of its two passes, or at a byte without a codeword with its beginning. -/
theorem Compressible.steps_out (h : Compressible t x s) (hp : PlanOk s.src.plan) :
    (endState (compressSteps s)).snk.out <+: s.snk.out ++ streamOf t x s.src.rewound.data
    ∧ ∀ w, compressSteps s = .ok () w → w.snk.out = s.snk.out ++ streamOf t x s.src.rewound.data := by
  obtain hall | ⟨y, v, z, hd, hy, hv⟩ := all_coded_or_exists_uncoded (codeTable t) s.src.rewound.data
  · have hok := h.steps_ok ⟨(List.append_nil _).symm, hall, planOk_take hp _⟩
    have hout : (endState (compressSteps s)).snk.out = s.snk.out ++ streamOf t x s.src.rewound.data := by
      rw [hok]
      exact List.append_assoc ..
    exact ⟨hout ▸ List.prefix_rfl, fun w hw => by rwa [hw] at hout⟩
  · have hfault := h.steps_noCodeword ⟨hd, hy, planOk_take hp _⟩ hv
    have hout : (endState (compressSteps s)).snk.out
        = s.snk.out ++ (bigEndian (BitVec.ofNat 32 x.length) ++ pack t.ser ++ fullBytes (payloadBits (codeTable t) y)) := by
      rw [hfault]
      exact List.append_assoc s.snk.out _ _
    rw [hout, hd, List.prefix_append_right_inj]
    exact ⟨prefix_streamOf t x y (v :: z), fun w hw => nomatch hfault.symm.trans hw⟩

/-- A running command that raises ends with another code than OK, or stays BUSY. -/
theorem raised_not_ok_and_idle (hbusy : s.run = .busy) (composite : Bool) (r : Raise) :
    ¬ ((s.raised composite r).result = .ok ∧ (s.raised composite r).run = .idle) := by
  rintro ⟨hok, hidle⟩
  cases r with
  | err | refuse | fault => cases hok
  | hang => cases hbusy.symm.trans hidle

/-- Settles O45: the run in which every operation is answered writes the stream or its beginning, and the run in question no more than that. -/
theorem compressWritesAPrefixOfTheStream : Obligations.CompressWritesAPrefixOfTheStream := by
  intro s u x t hr hdata hpos hmin hlt ht he
  have hjob : Compressible t x s.started.answering := ⟨hdata, hpos, hmin, hlt, ht, nofun, nofun⟩
  obtain ⟨hbegin, hwhole⟩ := hjob.steps_out nofun
  have hdata' : s.started.answering.src.rewound.data = s.src.rewound.data := by
    rw [rewound_data, rewound_data]
    rfl
  rw [hdata'] at hbegin hwhole
  have hrun := throughPorts_compressSteps.outrun s.started
  rw [exec, execCompress] at he
  cases hm : compressSteps s.started with
  | ok a v =>
    rw [hm] at hrun
    cases (composite_ok hr hm).symm.trans he
    exact ⟨_, List.prefix_rfl, hwhole v.answering hrun, fun _ _ => rfl⟩
  | error r v =>
    have hmore := throughPorts_compressSteps.out_prefix s.started
    rw [hm] at hrun hmore
    cases (composite_error hr hm).symm.trans he
    obtain ⟨l, hl⟩ := hmore
    replace hl : s.snk.out ++ l = v.snk.out := hl
    have hv : s.snk.out ++ l <+: s.snk.out ++ streamOf t x s.src.rewound.data := hl.symm ▸ List.IsPrefix.trans hrun hbegin
    have hbusy : v.run = .busy := ((throughPorts_compressSteps.onward s.started).of_error ⟨rfl, List.prefix_rfl⟩ hm).running
    exact ⟨l, (List.prefix_append_right_inj _).mp hv, by rw [(samePorts_raised true r v).snk, hl],
      fun hok hidle => absurd ⟨hok, hidle⟩ (raised_not_ok_and_idle hbusy true r)⟩

end Sys2Proof.Machine
end

section
/-! PROOF. What the commands that touch both ports may write (R45, R78): only a rewind brings other bytes into the source, and it is the encoder's. -/

namespace Sys2Proof.Machine

variable {α : Type} {w : Parts} {s t u : State}

/-! ### The parts each command's pseudocode writes -/

/-- PAYLOAD_ENC (R192). -/
def Parts.encode : Parts := { buffer := true, source := true, sink := true }

/-- DEC_SYMBOL and PAYLOAD_DEC (R212, R213). -/
def Parts.decode : Parts := { buffer := true, source := true, sink := true, emitted := true }

/-- COMPRESS before its Release (R196). -/
def Parts.compress : Parts := { buffer := true, source := true, sink := true, freq := true, tree := true, code := true }

/-- DECOMPRESS before its Release (R216). -/
def Parts.decompress : Parts :=
  { buffer := true, source := true, sink := true, tree := true, code := true, count := true, emitted := true, traversal := true }

/-! ### The decoder -/

theorem Differs.setEmitted (h : Differs w s t) (he : w.emitted = true) (c : Count) : Differs w s { t with emitted := c } :=
  h.step (by simp only [State.overwritten, he, cond_true, Bool.cond_self])

theorem writes_topUpPasses (hb : w.buffer = true) (hs : w.source = true) (n : Nat) : Writes w (topUpPasses n) := by
  intro s
  induction n with
  | zero => exact keeps_pure ()
  | succ n ih =>
    refine keeps_get_bind fun _ => keeps_ite ((writes_bbFill hb hs s).bind fun r => ?_) (keeps_pure ())
    cases r with
    | filled => exact ih
    | eos => exact keeps_pure ()

theorem writes_walkTree (x : Tree) (k : Nat) : Writes w (walkTree x k) := by
  intro s
  induction x generalizing k with
  | leaf i _ v => exact keeps_pure (v, k)
  | branch i _ l r ihl ihr =>
    exact keeps_get_bind fun _ => keeps_ite (keeps_throw _) ((writes_bbPeek k s).bind fun _ => keeps_ite (ihr _) (ihl _))

theorem writes_decSymbol (hb : w.buffer = true) (hs : w.source = true) (hk : w.sink = true) (he : w.emitted = true) : Writes w decSymbol :=
  fun s => keeps_get_bind fun t => (keeps_needed t.tree).bind fun x => (writes_topUpPasses hb hs 32 s).bind fun _ => keeps_get_bind fun _ =>
    keeps_ite (keeps_throw _) <| (writes_walkTree x 0 s).bind fun _ => (writes_writeByte hk _ s).bind fun _ => (writes_bbDrop hb _ s).bind fun _ =>
    triple_modify fun _ h => h.setEmitted he _

theorem writes_payloadDecPasses (hb : w.buffer = true) (hs : w.source = true) (hk : w.sink = true) (he : w.emitted = true) (n : Nat) :
    Writes w (payloadDecPasses n) := by
  intro s
  induction n with
  | zero => exact keeps_pure ()
  | succ n ih =>
    exact keeps_get_bind fun _ => keeps_get_bind fun _ => keeps_ite ((writes_decSymbol hb hs hk he s).bind fun _ => ih) (keeps_pure ())

theorem writes_payloadDec (hb : w.buffer = true) (hs : w.source = true) (hk : w.sink = true) (he : w.emitted = true) : Writes w payloadDec :=
  fun s => Keeps.bind (triple_modify fun _ h => h.setEmitted he 0) fun _ => keeps_get_bind fun _ => writes_payloadDecPasses hb hs hk he _ s

theorem writes_decompressSteps : Writes Parts.decompress decompressSteps :=
  fun s => (writes_bbClear rfl s).bind fun _ => (writes_hdrRead rfl rfl s).bind fun _ => (writes_treeDes rfl rfl rfl rfl rfl s).bind fun _ =>
    (writes_bbClear rfl s).bind fun _ => writes_payloadDec rfl rfl rfl rfl s

/-! ### The encoder's rewind -/

/-- `t` comes from `s` by changes to the parts `w`, before and perhaps also after one rewind. -/
def DiffersByPasses (w : Parts) (s t : State) : Prop := Differs w s t ∨ ∃ u, Differs w s u ∧ Differs w u.restarted t

theorem overwritten_restarted (hs : w.source = true) (s t : State) : s.restarted.overwritten w t = s.overwritten w t := by
  simp only [State.overwritten, State.restarted, hs, cond_true]

theorem DiffersByPasses.frame (h : DiffersByPasses w s t) (hs : w.source = true) : t = s.overwritten w t := by
  obtain h | ⟨u, hu, h⟩ := h
  · exact h.frame
  · calc
      t = u.restarted.overwritten w t := h.frame
      _ = u.overwritten w t := overwritten_restarted hs u t
      _ = (s.overwritten w u).overwritten w t := congrArg (State.overwritten w · t) hu.frame
      _ = s.overwritten w t := overwritten_overwritten w s u t

theorem DiffersByPasses.accepted (h : DiffersByPasses w s t) : s.snk.out <+: t.snk.out := by
  obtain h | ⟨u, hu, h⟩ := h
  · exact h.accepted
  · exact hu.accepted.trans h.accepted

/-- The contents after the rewind depend on nothing but the contents before it (R65, R284). -/
theorem DiffersByPasses.contents (h : DiffersByPasses w s t) :
    (t.src.data = s.src.data ∧ t.src.rewinds = s.src.rewinds) ∨ (t.src.data = s.src.rewound.data ∧ t.src.rewinds = s.src.rewound.rewinds) := by
  obtain h | ⟨u, hu, h⟩ := h
  · exact .inl h.contents
  · obtain ⟨hdata, hrewinds⟩ := h.contents
    refine .inr ⟨hdata.trans ?_, hrewinds.trans ?_⟩ <;> simp [State.restarted, hu.contents]

theorem DiffersByPasses.setOutcome (h : DiffersByPasses w s t) (run : RunState) (c : ResultCode) :
    DiffersByPasses w s (t.withOutcome run c) :=
  h.imp (fun h => h.setOutcome run c) fun ⟨u, hu, h⟩ => ⟨u, hu, h.setOutcome run c⟩

/-- Before the rewind. -/
theorem Writes.beforeRewind {m : Micro α} (hm : Writes w m) (s : State) :
    Triple (Differs w s) m (fun _ => Differs w s) fun _ => DiffersByPasses w s :=
  (hm s).mono (fun _ h => h) (fun _ _ h => h) fun _ _ => .inl

/-- Behind the rewind. -/
theorem Writes.keepsPasses {m : Micro α} (hm : Writes w m) (s : State) : Keeps (DiffersByPasses w s) m := by
  rintro t (h | ⟨u, hu, h⟩)
  · exact (hm s).mono (P' := Differs w s) (fun _ h => h) (fun _ _ => .inl) (fun _ _ => .inl) t h
  · exact (hm u.restarted).mono (P' := Differs w u.restarted) (fun _ h => h) (fun _ _ h => .inr ⟨u, hu, h⟩) (fun _ _ h => .inr ⟨u, hu, h⟩) t h

theorem writes_payloadEncPasses (hb : w.buffer = true) (hs : w.source = true) (hk : w.sink = true) (n : Nat) :
    Writes w (payloadEncPasses n) := by
  intro s
  induction n with
  | zero => exact keeps_pure ()
  | succ n ih =>
    refine (writes_readByte hs s).bind fun r => ?_
    cases r with
    | none => exact keeps_pure ()
    | some v => exact (writes_appendCode hb v s).bind fun _ => (writes_bbDrain hb hk s).bind fun _ => ih

theorem payloadEnc_differs (hb : w.buffer = true) (hs : w.source = true) (hk : w.sink = true) (s : State) :
    Triple (Differs w s) payloadEnc (fun _ => DiffersByPasses w s) fun _ => DiffersByPasses w s := by
  intro t ht
  rw [payloadEnc_restarted]
  exact (writes_payloadEncPasses hb hs hk _).keepsPasses s _ (.inr ⟨t, ht, .refl w _⟩)

theorem compressSteps_differs (s : State) :
    Triple (Differs Parts.compress s) compressSteps (fun _ => DiffersByPasses Parts.compress s) fun _ => DiffersByPasses Parts.compress s :=
  (Writes.beforeRewind (writes_freqScan rfl rfl rfl rfl) s).bind fun _ => (Writes.beforeRewind writes_checkInputSize s).bind fun _ =>
  (Writes.beforeRewind (writes_treeBuild rfl rfl) s).bind fun _ => (Writes.beforeRewind (writes_codeGen rfl) s).bind fun _ =>
  (Writes.beforeRewind (writes_bbClear rfl) s).bind fun _ => (Writes.beforeRewind (writes_hdrWrite rfl) s).bind fun _ =>
  (Writes.beforeRewind (writes_treeSer rfl rfl) s).bind fun _ => (Writes.beforeRewind (writes_bbFlush rfl rfl) s).bind fun _ =>
  (payloadEnc_differs rfl rfl rfl s).bind fun _ => Writes.keepsPasses (writes_bbFlush rfl rfl) s

/-! ### Commands -/

theorem Triple.endState {P Q : State → Prop} {m : Micro α} (h : Triple P m (fun _ => Q) fun _ => Q) (hs : P s) : Q (endState (m s)) := by
  cases hm : m s with
  | ok a t => exact h.of_ok hs hm
  | error r t => exact h.of_error hs hm

theorem started_differs (w : Parts) (s : State) : Differs w s s.started := (Differs.refl w s).setOutcome .busy s.result

/-- A primitive command leaves the state it starts in or the one its pseudocode ends in, with an outcome. -/
theorem primitive_leaves {P : State → Prop} {operandOk required : Bool} {m : Micro Unit} (hs : P s) (hm : P (endState (m s.started)))
    (he : primitive operandOk required (thenOk m) s = .next t) : ∃ u run c, P u ∧ t = u.withOutcome run c := by
  obtain ⟨_, rfl⟩ | ⟨_, _, rfl⟩ | ⟨_, _, _, rfl⟩ | ⟨_, _, _, rfl⟩ := primitive_cases he
  · exact ⟨_, _, _, hs, rfl⟩
  · exact ⟨_, _, _, hs, rfl⟩
  · exact ⟨_, _, _, hs, rfl⟩
  · cases hrun : m s.started with
    | ok a u =>
      rw [hrun] at hm
      rw [settle_ok (thenOk_ok hrun)]
      exact ⟨u, _, _, hm, rfl⟩
    | error r u =>
      rw [hrun] at hm
      rw [settle_error (thenOk_error hrun)]
      cases r <;> exact ⟨u, _, _, hm, rfl⟩

/-- A composite command leaves the state it starts in or the one its steps end in, with an outcome, and perhaps with Release done. -/
theorem composite_leaves {P : State → Prop} {m : Micro Unit} (hs : P s) (hm : P (endState (m s.started))) (he : composite m s = .next t) :
    ∃ u run c, P u ∧ (t = u.withOutcome run c ∨ t = u.released.withOutcome run c) := by
  cases hr : s.run with
  | busy => cases (composite_busy hr m).symm.trans he
  | fault =>
    cases (composite_fault hr m).symm.trans he
    exact ⟨s, _, _, hs, .inl rfl⟩
  | idle =>
    cases hrun : m s.started with
    | ok a u =>
      rw [hrun] at hm
      cases (composite_ok hr hrun).symm.trans he
      exact ⟨u, _, _, hm, .inr rfl⟩
    | error r u =>
      rw [hrun] at hm
      cases (composite_error hr hrun).symm.trans he
      cases r with
      | err | refuse => exact ⟨u, _, _, hm, .inr rfl⟩
      | fault | hang => exact ⟨u, _, _, hm, .inl rfl⟩

theorem exec_payloadEnc_differs (he : exec .payloadEnc s = .next t) : DiffersByPasses Parts.encode s t := by
  have hbody := (payloadEnc_differs (w := Parts.encode) rfl rfl rfl s).endState (started_differs _ s)
  obtain ⟨u, run, c, hu, rfl⟩ := primitive_leaves (.inl (.refl _ s)) hbody he
  exact hu.setOutcome run c

theorem exec_decoder_differs {i : Instr} (hi : i = .decSymbol ∨ i = .payloadDec) (he : exec i s = .next t) : Differs Parts.decode s t := by
  obtain rfl | rfl := hi
  · exact primitive_thenOk_differs (writes_decSymbol rfl rfl rfl rfl) he
  · exact primitive_thenOk_differs (writes_payloadDec rfl rfl rfl rfl) he

theorem exec_compress_leaves (he : exec .compress s = .next t) :
    ∃ u run c, DiffersByPasses Parts.compress s u ∧ (t = u.withOutcome run c ∨ t = u.released.withOutcome run c) :=
  composite_leaves (.inl (.refl _ s)) ((compressSteps_differs s).endState (started_differs _ s)) he

theorem exec_decompress_leaves (he : exec .decompress s = .next t) :
    ∃ u run c, Differs Parts.decompress s u ∧ (t = u.withOutcome run c ∨ t = u.released.withOutcome run c) :=
  composite_leaves (.refl _ s) ((writes_decompressSteps s).endState (started_differs _ s)) he

/-- Settles O60: each command's parts are those of its micro-operations and, for a composite command, of Release. -/
theorem twoPortCommandsFrame : Obligations.TwoPortCommandsFrame := by
  refine fun s t => ⟨fun he => ?payloadEnc, fun i hi he => ?decoder, fun he => ?compress, fun he => ?decompress, fun i hi he => ?accepted,
    fun i hi he => ?constant, fun i hi he => ?rewound⟩
  case payloadEnc => exact (exec_payloadEnc_differs he).frame rfl
  case decoder => exact (exec_decoder_differs hi he).frame
  case compress =>
    obtain ⟨u, run, c, hu, ht⟩ := exec_compress_leaves he
    obtain ⟨v, rfl⟩ : ∃ v, u = s.overwritten Parts.compress v := ⟨u, hu.frame rfl⟩
    obtain rfl | rfl := ht <;> rfl
  case decompress =>
    obtain ⟨u, run, c, hu, ht⟩ := exec_decompress_leaves he
    obtain ⟨v, rfl⟩ : ∃ v, u = s.overwritten Parts.decompress v := ⟨u, hu.frame⟩
    obtain rfl | rfl := ht <;> rfl
  case accepted =>
    obtain rfl | rfl | rfl | rfl | rfl := hi
    · exact (exec_payloadEnc_differs he).accepted
    · exact (exec_decoder_differs (.inl rfl) he).accepted
    · exact (exec_decoder_differs (.inr rfl) he).accepted
    · obtain ⟨u, run, c, hu, rfl | rfl⟩ := exec_compress_leaves he <;> exact hu.accepted
    · obtain ⟨u, run, c, hu, rfl | rfl⟩ := exec_decompress_leaves he <;> exact hu.accepted
  case constant =>
    obtain rfl | rfl | rfl := hi
    · exact (exec_decoder_differs (.inl rfl) he).contents
    · exact (exec_decoder_differs (.inr rfl) he).contents
    · obtain ⟨u, run, c, hu, rfl | rfl⟩ := exec_decompress_leaves he <;> exact hu.contents
  case rewound =>
    obtain rfl | rfl := hi
    · exact (exec_payloadEnc_differs he).contents
    · obtain ⟨u, run, c, hu, rfl | rfl⟩ := exec_compress_leaves he <;> exact hu.contents

end Sys2Proof.Machine
end

section
/-! PROOF. HDR_READ (R211): the bytes are read one after another, and their value is the count. -/

namespace Sys2Proof.Machine

variable {s : State} {l rest : List Byte} {c k n : Nat} {p : List PortPlan}

/-! ### Reading one byte after another -/

/-- The state once the next `k` bytes have been read (R63). -/
def State.advanced (k : Nat) (s : State) : State :=
  { s with
    src := { s.src with pos := s.src.pos + k, plan := s.src.plan.drop k }
    srcEos := if k = 0 then s.srcEos else false }

@[simp] theorem advanced_plan (k : Nat) (s : State) : (s.advanced k).src.plan = s.src.plan.drop k := rfl

theorem unread_advanced (k : Nat) (s : State) : (s.advanced k).unread = s.unread.drop k := by
  rw [State.unread, State.unread, List.drop_drop]
  rfl

theorem advanced_advanced (j k : Nat) (s : State) : (s.advanced j).advanced k = s.advanced (j + k) := by
  have heos : (if k = 0 then if j = 0 then s.srcEos else false else false) = if j + k = 0 then s.srcEos else false := by
    by_cases hk : k = 0 <;> simp [hk]
  simp only [State.advanced, List.drop_drop, Nat.add_assoc, heos]

/-- A read at the source's end, after `k` bytes. -/
theorem metEnd_advanced (k : Nat) (s : State) :
    (s.advanced k).metEnd = { s with src := { s.src with pos := s.src.pos + k, plan := s.src.plan.drop (k + 1) }, srcEos := true } := by
  rw [State.metEnd, advanced_plan, List.drop_drop]
  rfl

/-- A failing read, after `k` bytes. -/
def State.advancedTo (k : Nat) (p : List PortPlan) (s : State) : State :=
  { s.advanced k with src := { (s.advanced k).src with plan := p } }

/-! ### The passes -/

/-- The value of `c` with the bytes `l` behind it, the first byte the most significant (R211). -/
def headerValue (c : Nat) (l : List Byte) : Nat := l.foldl (fun c v => c * 256 + v.toNat) c

theorem headerValue_four (b0 b1 b2 b3 : Byte) : BitVec.ofNat 32 (headerValue 0 [b0, b1, b2, b3]) = b0 ++ b1 ++ b2 ++ b3 := by
  have h0 := b0.isLt
  have h1 := b1.isLt
  have h2 := b2.isLt
  have h3 := b3.isLt
  apply BitVec.eq_of_toNat_eq
  simp only [headerValue, List.foldl_cons, List.foldl_nil, BitVec.toNat_ofNat, BitVec.toNat_append]
  rw [← Nat.shiftLeft_add_eq_or_of_lt h1, ← Nat.shiftLeft_add_eq_or_of_lt h2, ← Nat.shiftLeft_add_eq_or_of_lt h3]
  simp only [Nat.shiftLeft_eq]
  omega

theorem hdrReadPasses_bytes (hu : s.unread = l ++ rest) (hp : PlanOk (s.src.plan.take l.length)) (n c : Nat) :
    hdrReadPasses (n + l.length) c s = hdrReadPasses n (headerValue c l) (s.advanced l.length) := by
  induction l generalizing s c with
  | nil => rfl
  | cons v l ih =>
    have hread : readByte s = .ok (some v) (s.advanced 1) := readByte_unread (planOk_take_of_le hp (Nat.le_add_left 1 _)) hu
    have hrest : (s.advanced 1).unread = l ++ rest := by rw [unread_advanced, hu, List.cons_append, List.drop_one, List.tail_cons]
    rw [List.length_cons, ← Nat.add_assoc, hdrReadPasses, micro_bind_ok hread]
    exact (ih hrest (planOk_step hp) _).trans (by rw [advanced_advanced, Nat.add_comm 1]; rfl)

theorem hdrReadPasses_end (hu : s.unread = []) (hp : PlanOk (s.src.plan.take 1)) (n c : Nat) :
    hdrReadPasses (n + 1) c s = .error (.err .headerTruncated) s.metEnd := by
  rw [hdrReadPasses, micro_bind_ok (readByte_metEnd hp hu)]
  rfl

theorem hdrReadPasses_ioErr (hp : s.src.plan = .ioErr :: p) (n c : Nat) :
    hdrReadPasses (n + 1) c s = .error (.err .ioSrc) { s with src := { s.src with plan := p } } := by
  rw [hdrReadPasses, micro_bind_error (readByte_ioErr hp)]

/-! ### The header -/

/-- Where HDR_READ begins to read: COUNT holds no value for any command (R211). -/
def State.countless (s : State) : State := { s with countValid := false }

theorem hdrRead_ok {b0 b1 b2 b3 : Byte} (hu : s.unread = b0 :: b1 :: b2 :: b3 :: rest) (hp : PlanOk (s.src.plan.take 4)) :
    hdrRead s = .ok () { s.advanced 4 with count := b0 ++ b1 ++ b2 ++ b3, countValid := true } := by
  have hpasses := hdrReadPasses_bytes (s := s.countless) (l := [b0, b1, b2, b3]) hu hp 0 0
  rw [hdrRead, micro_modify_bind]
  exact (micro_bind_ok hpasses _).trans (by rw [micro_modify, headerValue_four]; rfl)

/-- A raise in the passes is HDR_READ's. -/
theorem hdrRead_error {r : Raise} {t : State} (h : hdrReadPasses Config.hdrBytes 0 s.countless = .error r t) : hdrRead s = .error r t :=
  micro_bind_error h _

theorem hdrRead_truncated (hshort : s.unread.length < Config.hdrBytes) (hp : PlanOk (s.src.plan.take (s.unread.length + 1))) :
    hdrRead s = .error (.err .headerTruncated) (s.countless.advanced s.unread.length).metEnd := by
  obtain ⟨n, hn⟩ := Nat.exists_eq_add_of_lt hshort
  have hall : s.countless.unread = s.unread ++ [] := (List.append_nil _).symm
  have hend : (s.countless.advanced s.unread.length).unread = [] := by rw [unread_advanced]; exact List.drop_length
  refine hdrRead_error ?_
  rw [hn, Nat.add_comm s.unread.length n, Nat.add_right_comm,
    hdrReadPasses_bytes hall (planOk_take_of_le hp (Nat.le_succ _)), hdrReadPasses_end hend (planOk_drop_take_one hp (Nat.lt_succ_self _))]

theorem hdrRead_ioErr (hk : k < Config.hdrBytes) (hle : k ≤ s.unread.length)
    (hp : s.src.plan = List.replicate k .answers ++ .ioErr :: p) : hdrRead s = .error (.err .ioSrc) (s.countless.advancedTo k p) := by
  obtain ⟨n, hn⟩ := Nat.exists_eq_add_of_lt hk
  obtain ⟨hok, hd⟩ := planStop_replicate hp
  have hlen : (s.unread.take k).length = k := List.length_take_of_le hle
  have hsplit : s.countless.unread = s.unread.take k ++ s.unread.drop k := (List.take_append_drop k _).symm
  have hpasses := hdrReadPasses_bytes hsplit (hlen.symm ▸ hok) (n + 1) 0
  rw [hlen] at hpasses
  refine hdrRead_error ?_
  rw [hn, Nat.add_comm k n, Nat.add_right_comm, hpasses, hdrReadPasses_ioErr (s := s.countless.advanced k) hd]
  rfl

/-- Settles O46: four bytes are read, or the source ends or fails before. -/
theorem hdrReadReadsTheCount : Obligations.HdrReadReadsTheCount := by
  refine ⟨encodedAs_of_opcode rfl rfl rfl, noOperand_of_operandMax rfl, fun s hr => ⟨fun b0 b1 b2 b3 rest hu hp => ?ok,
    fun hshort hp => ?truncated, fun k p hk hle hp => ?ioErr⟩⟩
  case ok => exact primitive_eq_ok hr (hdrRead_ok (s := s.started) hu hp)
  case truncated =>
    exact primitive_eq_err hr ((hdrRead_truncated (s := s.started) hshort hp).trans (by rw [metEnd_advanced]))
  case ioErr => exact primitive_eq_err hr (hdrRead_ioErr (s := s.started) hk hle hp)

end Sys2Proof.Machine
end

section
/-! PROOF. DEC_SYMBOL (R212): the top-up makes one pass for each byte it can pull, the walk looks at the buffer only, and what the two do to the
buffered and unread bits together. -/

namespace Sys2Proof.Machine

variable {s t u : State} {x : Tree} {v : Byte} {y : List Byte} {q rest : Bits} {k n : Nat} {p : List PortPlan}

/-! ### Pulling bytes into the buffer -/

/-- The state once the next `k` bytes have been pulled into the buffer (R130). -/
def State.pulled (k : Nat) (s : State) : State := { s.advanced k with bb := s.bb ++ bitsOf (s.unread.take k) }

@[simp] theorem pulled_bb (k : Nat) (s : State) : (s.pulled k).bb = s.bb ++ bitsOf (s.unread.take k) := rfl

theorem unread_pulled (k : Nat) (s : State) : (s.pulled k).unread = s.unread.drop k := unread_advanced k s

theorem pulled_zero (s : State) : s.pulled 0 = s := by
  rw [State.pulled, List.take_zero, bitsOf_nil, List.append_nil]
  rfl

theorem pulled_pulled (j k : Nat) (s : State) : (s.pulled j).pulled k = s.pulled (j + k) := by
  have hbb : (s.pulled j).bb ++ bitsOf ((s.pulled j).unread.take k) = s.bb ++ bitsOf (s.unread.take (j + k)) := by
    rw [pulled_bb, unread_pulled, List.append_assoc, ← bitsOf_append, ← List.take_add]
  calc (s.pulled j).pulled k
    _ = { (s.advanced j).advanced k with bb := (s.pulled j).bb ++ bitsOf ((s.pulled j).unread.take k) } := rfl
    _ = s.pulled (j + k) := by rw [hbb, advanced_advanced, State.pulled]

theorem length_bb_pulled (hk : k ≤ s.unread.length) : (s.pulled k).bb.length = s.bb.length + 8 * k := by
  rw [pulled_bb, List.length_append, bitsOf_length, List.length_take_of_le hk]

theorem incoming_pulled (k : Nat) (s : State) : (s.pulled k).incoming = s.incoming := by
  rw [State.incoming, unread_pulled, pulled_bb, List.append_assoc, ← bitsOf_append, List.take_append_drop, State.incoming]

/-! ### The top-up -/

/-- Below TOPUP there is always room for a byte (R212). -/
theorem room_of_lt_topUp (h : s.bb.length < Config.topUp) : s.bb.length + 8 ≤ Config.bbCap := by
  simp only [Config.topUp, Config.bbCap] at h ⊢
  omega

theorem bbFill_unread (hlt : s.bb.length < Config.topUp) (hp : PlanOk (s.src.plan.take 1)) (hu : s.unread = v :: y) :
    bbFill s = .ok .filled (s.pulled 1) := by
  have hget : s.src.data[s.src.pos]? = some v := by rw [← Nat.add_zero s.src.pos, ← getElem?_unread, hu, List.getElem?_cons_zero]
  rw [bbFill_byte (room_of_lt_topUp hlt) hp hget, State.pulled, hu, List.take_succ_cons, List.take_zero, bitsOf_cons, bitsOf_nil,
    List.append_nil]
  rfl

theorem topUpPasses_enough (h : Config.topUp ≤ s.bb.length) (n : Nat) : topUpPasses n s = .ok () s := by
  cases n with
  | zero => rfl
  | succ n => rw [topUpPasses, micro_get_bind, if_neg (Nat.not_lt.mpr h), micro_pure]

theorem topUpPasses_byte (hlt : s.bb.length < Config.topUp) (hp : PlanOk (s.src.plan.take 1)) (hu : s.unread = v :: y) (n : Nat) :
    topUpPasses (n + 1) s = topUpPasses n (s.pulled 1) := by
  rw [topUpPasses, micro_get_bind, if_pos hlt, micro_bind_ok (bbFill_unread hlt hp hu)]

theorem topUpPasses_end (hlt : s.bb.length < Config.topUp) (hp : PlanOk (s.src.plan.take 1)) (hu : s.unread = []) (n : Nat) :
    topUpPasses (n + 1) s = .ok () s.metEnd := by
  have hget : s.src.data[s.src.pos]? = none := List.getElem?_eq_none (List.drop_eq_nil_iff.mp hu)
  rw [topUpPasses, micro_get_bind, if_pos hlt, micro_bind_ok (bbFill_eos (room_of_lt_topUp hlt) hp hget)]
  rfl

theorem topUpPasses_ioErr (hlt : s.bb.length < Config.topUp) (hp : s.src.plan = .ioErr :: p) (n : Nat) :
    topUpPasses (n + 1) s = .error (.err .ioSrc) { s with src := { s.src with plan := p } } := by
  rw [topUpPasses, micro_get_bind, if_pos hlt, micro_bind_error (bbFill_ioErr (room_of_lt_topUp hlt) hp)]

/-- The first `k` passes, as long as each of them is due and pulls a byte. -/
theorem topUpPasses_pulled (hdue : s.bb.length + 8 * k < Config.topUp + 8) (hk : k ≤ s.unread.length) (hp : PlanOk (s.src.plan.take k))
    (n : Nat) : topUpPasses (n + k) s = topUpPasses n (s.pulled k) := by
  induction k generalizing n with
  | zero => rw [pulled_zero, Nat.add_zero]
  | succ k ih =>
    have hlt : (s.pulled k).bb.length < Config.topUp := by
      rw [length_bb_pulled (Nat.le_of_succ_le hk)]
      omega
    have hu : (s.pulled k).unread = s.unread[k] :: s.unread.drop (k + 1) := by rw [unread_pulled, List.drop_eq_getElem_cons]
    rw [Nat.add_succ, ← Nat.succ_add, ih (by omega) (Nat.le_of_succ_le hk) (planOk_take_of_le hp (Nat.le_succ k)) (n + 1),
      topUpPasses_byte hlt (planOk_drop_take_one hp (Nat.lt_succ_self k)) hu, pulled_pulled]

/-- How many bytes the top-up pulls (R212). -/
def State.pulls (s : State) : Nat := min s.unread.length ((Config.topUp - s.bb.length + 7) / 8)

theorem pulls_le (s : State) : s.pulls ≤ s.unread.length := Nat.min_le_left _ _

/-- Each pass that pulls a byte is due. -/
theorem pulls_due (s : State) : s.bb.length + 8 * s.pulls < Config.topUp + 8 ∨ s.pulls = 0 := by
  rw [State.pulls]
  omega

/-- The state a top-up leaves: the bytes are pulled, and where they are too few the source's end has been met (R212). -/
def State.topped (s : State) : State :=
  { s with
    bb := s.bb ++ bitsOf (s.unread.take s.pulls)
    src := { s.src with
      pos := s.src.pos + s.pulls
      plan := s.src.plan.drop (if (s.bb ++ bitsOf (s.unread.take s.pulls)).length < Config.topUp then s.pulls + 1 else s.pulls) }
    srcEos := if Config.topUp ≤ s.bb.length then s.srcEos
      else decide ((s.bb ++ bitsOf (s.unread.take s.pulls)).length < Config.topUp) }

theorem topped_eq_pulled (h : Config.topUp ≤ (s.pulled s.pulls).bb.length) : s.topped = s.pulled s.pulls := by
  have heos : (if Config.topUp ≤ s.bb.length then s.srcEos else false) = if s.pulls = 0 then s.srcEos else false := by
    rw [length_bb_pulled (pulls_le s)] at h
    obtain hlt | hle := Nat.lt_or_ge s.bb.length Config.topUp
    · rw [if_neg (Nat.not_le.mpr hlt), if_neg (by omega)]
    · rw [if_pos hle, if_pos (by rw [State.pulls]; omega)]
  rw [pulled_bb, ← Nat.not_lt] at h
  rw [State.topped, if_neg h, decide_eq_false h, heos]
  rfl

theorem topped_eq_metEnd (h : (s.pulled s.pulls).bb.length < Config.topUp) : s.topped = (s.pulled s.pulls).metEnd := by
  have hle : ¬ Config.topUp ≤ s.bb.length := by
    rw [length_bb_pulled (pulls_le s)] at h
    omega
  rw [pulled_bb] at h
  rw [State.topped, if_pos h, decide_eq_true h, if_neg hle, State.metEnd, State.pulled, advanced_plan, List.drop_drop]
  rfl

/-- Where the bytes are too few, they are all the source has. -/
theorem unread_pulled_pulls (h : (s.pulled s.pulls).bb.length < Config.topUp) : (s.pulled s.pulls).unread = [] := by
  rw [length_bb_pulled (pulls_le s)] at h
  rw [unread_pulled, List.drop_eq_nil_iff]
  rw [State.pulls] at h ⊢
  omega

theorem topUp_ok (hp : PlanOk (s.src.plan.take (s.pulls + 1))) : topUp s = .ok () s.topped := by
  have hfew : s.pulls ≤ 32 := by
    rw [State.pulls, Config.topUp]
    omega
  obtain ⟨n, hn⟩ := Nat.exists_eq_add_of_le' hfew
  have hpasses : topUp s = topUpPasses n (s.pulled s.pulls) := by
    rw [topUp, hn]
    obtain hdue | hnone := pulls_due s
    · exact topUpPasses_pulled hdue (pulls_le s) (planOk_take_of_le hp (Nat.le_succ _)) n
    · rw [hnone, pulled_zero, Nat.add_zero]
  obtain hshort | henough := Nat.lt_or_ge (s.pulled s.pulls).bb.length Config.topUp
  · obtain ⟨n, rfl⟩ : ∃ m, n = m + 1 := by
      rw [length_bb_pulled (pulls_le s), Config.topUp] at hshort
      exact Nat.exists_eq_add_one.mpr (by omega)
    rw [hpasses, topped_eq_metEnd hshort,
      topUpPasses_end hshort (planOk_drop_take_one hp (Nat.lt_succ_self _)) (unread_pulled_pulls hshort)]
  · rw [hpasses, topped_eq_pulled henough, topUpPasses_enough henough]

/-- A failing read stops the top-up (R254). -/
theorem topUp_ioErr (hk : k ≤ s.unread.length) (hlt : s.bb.length + 8 * k < Config.topUp)
    (hp : s.src.plan = List.replicate k .answers ++ .ioErr :: p) :
    topUp s = .error (.err .ioSrc) { s.pulled k with src := { (s.pulled k).src with plan := p } } := by
  obtain ⟨n, hn⟩ : ∃ n, 32 = n + 1 + k := ⟨31 - k, by rw [Config.topUp] at hlt; omega⟩
  obtain ⟨hok, hd⟩ := planStop_replicate hp
  have hdue : (s.pulled k).bb.length < Config.topUp := by rwa [length_bb_pulled hk]
  rw [topUp, hn, topUpPasses_pulled (Nat.lt_add_right 8 hlt) hk hok, topUpPasses_ioErr hdue hd]

/-! ### The walk -/

/-- At a branch, bit `k` of the buffer picks the child (R212). -/
theorem walkTree_branch {i : Nat} {w : Option Count} {l r : Tree} (hlt : k < s.bb.length) :
    walkTree (.branch i w l r) k s = walkTree (bif s.bb[k] then r else l) (k + 1) s := by
  rw [walkTree, micro_get_bind, if_neg (Nat.ne_of_lt hlt), micro_bind_ok (bbPeek_ok (List.getElem?_eq_getElem hlt))]
  cases s.bb[k] <;> rfl

/-- The walk from a node, `k` bits down, looks at the rest of the buffer (R44, R212). -/
theorem walkTree_some (hk : k ≤ s.bb.length) (h : walkBits x (s.bb.drop k) = some (v, rest)) :
    ∃ n, n ≤ s.bb.length ∧ s.bb.drop n = rest ∧ walkTree x k s = .ok (v, n) s := by
  induction x generalizing k with
  | leaf i w b =>
    cases h
    exact ⟨k, hk, rfl, rfl⟩
  | branch i w l r ihl ihr =>
    obtain rfl | hlt := Nat.eq_or_lt_of_le hk
    · rw [List.drop_length] at h
      cases h
    · rw [List.drop_eq_getElem_cons hlt, walkBits] at h
      rw [walkTree_branch hlt]
      cases hb : s.bb[k] <;> rw [hb] at h
      · exact ihl hlt h
      · exact ihr hlt h

theorem walkTree_none (hk : k ≤ s.bb.length) (h : walkBits x (s.bb.drop k) = none) :
    walkTree x k s = .error (.err .payloadMid) s := by
  induction x generalizing k with
  | leaf i w b => cases h
  | branch i w l r ihl ihr =>
    obtain rfl | hlt := Nat.eq_or_lt_of_le hk
    · rw [walkTree, micro_get_bind, if_pos rfl, micro_throw]
    · rw [List.drop_eq_getElem_cons hlt, walkBits] at h
      rw [walkTree_branch hlt]
      cases hb : s.bb[k] <;> rw [hb] at h
      · exact ihl hlt h
      · exact ihr hlt h

/-! ### One symbol from the buffer -/

/-- DecSymbol behind its top-up (R212). -/
def decodeBuffered (x : Tree) : Micro Unit := do
  if (← get).bb.length = 0 then throw (.err .payloadEmpty)
  else do
    let (v, k) ← walkTree x 0
    writeByte v
    bbDrop k
    modify fun s => { s with emitted := emittedNext s.emitted }

/-- The state once a symbol has been written and its codeword dropped (R212). -/
def State.popped (v : Byte) (rest : Bits) (s : State) : State := { s.sent [v] with bb := rest, emitted := emittedNext s.emitted }

theorem decSymbol_topped (ht : s.tree = some x) (h : topUp s = .ok () u) : decSymbol s = decodeBuffered x u := by
  rw [decSymbol, micro_get_bind, micro_bind_ok (needed_of_eq_some ht s), micro_bind_ok h]
  rfl

theorem decSymbol_topUp_error {r : Raise} (ht : s.tree.isSome = true) (h : topUp s = .error r u) : decSymbol s = .error r u := by
  obtain ⟨x, hx⟩ := Option.isSome_iff_exists.mp ht
  rw [decSymbol, micro_get_bind, micro_bind_ok (needed_of_eq_some hx s), micro_bind_error h]

theorem decodeBuffered_empty (h : s.bb = []) : decodeBuffered x s = .error (.err .payloadEmpty) s := by
  rw [decodeBuffered, micro_get_bind, if_pos (List.length_eq_zero_iff.mpr h), micro_throw]

/-- With a bit there, the walk begins at the root. -/
theorem decodeBuffered_walk (h : s.bb ≠ []) :
    decodeBuffered x s = (do
      let p ← walkTree x 0
      writeByte p.1
      bbDrop p.2
      modify fun s => { s with emitted := emittedNext s.emitted } : Micro Unit) s := by
  rw [decodeBuffered, micro_get_bind, if_neg (mt List.length_eq_zero_iff.mp h)]

theorem decodeBuffered_mid (h : s.bb ≠ []) (hw : walkBits x s.bb = none) : decodeBuffered x s = .error (.err .payloadMid) s := by
  rw [decodeBuffered_walk h, micro_bind_error (walkTree_none (Nat.zero_le _) hw)]

theorem decodeBuffered_ok (h : s.bb ≠ []) (hw : walkBits x s.bb = some (v, rest)) (hp : PlanOk (s.snk.plan.take 1)) :
    decodeBuffered x s = .ok () (s.popped v rest) := by
  obtain ⟨n, hn, hdrop, hwalk⟩ := walkTree_some (Nat.zero_le _) hw
  have hwrite : writeByte v s = .ok () (s.sent [v]) := writeByte_ok v hp
  have hdropped : bbDrop n (s.sent [v]) = .ok () { s.sent [v] with bb := rest } := hdrop ▸ bbDrop_ok hn
  rw [decodeBuffered_walk h, micro_bind_ok hwalk, micro_bind_ok hwrite, micro_bind_ok hdropped, micro_modify]
  rfl

theorem decodeBuffered_ioErr (h : s.bb ≠ []) (hw : walkBits x s.bb = some (v, rest)) (hp : s.snk.plan = .ioErr :: p) :
    decodeBuffered x s = .error (.err .ioSnk) { s with snk := { s.snk with plan := p } } := by
  obtain ⟨n, _, _, hwalk⟩ := walkTree_some (Nat.zero_le _) hw
  rw [decodeBuffered_walk h, micro_bind_ok hwalk, micro_bind_error (writeByte_ioErr v hp)]

/-! ### The command -/

/-- DEC_SYMBOL while TREE_VALID = 1. -/
theorem exec_decSymbol_valid (ht : s.tree.isSome = true) : exec .decSymbol s = primitive true true (thenOk decSymbol) s := by
  rw [exec, execDecSymbol, State.treeValid, ht]

section Valid

variable (hr : s.run = .idle) (ht : s.tree = some x) (hp : PlanOk (s.src.plan.take (s.pulls + 1)))
include hr ht hp

theorem exec_decSymbol_ok (h : decodeBuffered x s.started.topped = .ok () u) :
    exec .decSymbol s = .next { u with run := s.run, result := .ok } := by
  rw [exec_decSymbol_valid (Option.isSome_of_eq_some ht)]
  exact primitive_eq_ok hr ((decSymbol_topped (s := s.started) ht (topUp_ok hp)).trans h)

theorem exec_decSymbol_err {e : ErrCode} (h : decodeBuffered x s.started.topped = .error (.err e) u) :
    exec .decSymbol s = .next { u with run := s.run, result := .err e } := by
  rw [exec_decSymbol_valid (Option.isSome_of_eq_some ht)]
  exact primitive_eq_err hr ((decSymbol_topped (s := s.started) ht (topUp_ok hp)).trans h)

end Valid

/-- Settles O47: after the top-up the buffer decides, then the sink; or the top-up itself fails. -/
theorem decSymbolDecodesOneSymbol : Obligations.DecSymbolDecodesOneSymbol := by
  refine ⟨encodedAs_of_opcode rfl rfl rfl, noOperand_of_operandMax rfl, fun s hr =>
    ⟨fun x pulled bb topped ht _ hpulled hbb hp hw htopped => ?decodes, fun x pulled bb v rest p ht _ hpulled hbb hp hw hwalk hne => ?snkErr,
      fun k p ht hk hlt hp => ?srcErr, fun ht => ?badSequence⟩⟩
  case decodes =>
    subst hpulled hbb htopped
    exact ⟨fun hempty => exec_decSymbol_err (u := s.started.topped) hr ht hp (decodeBuffered_empty hempty),
      fun hne hnone => exec_decSymbol_err (u := s.started.topped) hr ht hp (decodeBuffered_mid hne hnone),
      fun v rest hwalk hne => exec_decSymbol_ok hr ht hp (decodeBuffered_ok (s := s.started.topped) hne hwalk hw)⟩
  case snkErr =>
    subst hpulled hbb
    exact ⟨_, exec_decSymbol_err hr ht hp (decodeBuffered_ioErr (s := s.started.topped) hne hwalk hw), rfl, hr, rfl, rfl, rfl⟩
  case srcErr =>
    rw [exec_decSymbol_valid ht]
    exact primitive_eq_err hr (decSymbol_topUp_error ht (topUp_ioErr (s := s.started) hk hlt hp))
  case badSequence => exact exec_flagsMissing hr rfl (by rw [Instr.flagsMet, State.treeValid, ht, Option.isSome_none])

end Sys2Proof.Machine
end

section
/-! PROOF. PAYLOAD_DEC (R213, R215): a topped-up buffer decides every walk as all the bits that are still to come would, so that the passes decode
the buffered and unread bits together. -/

namespace Sys2Proof.Machine

variable {s t u : State} {x : Tree} {v : Byte} {q rest : Bits} {l : List Byte} {n : Nat} {c : Count} {e : DecodeEnd}

/-! ### The walk on a sequence of bits -/

theorem walkBits_append (h : walkBits x q = some (v, rest)) (q' : Bits) : walkBits x (q ++ q') = some (v, rest ++ q') := by
  induction x generalizing q with
  | leaf => cases h; rfl
  | branch i w l r ihl ihr =>
    cases q with
    | nil => cases h
    | cons b q =>
      rw [walkBits] at h
      rw [List.cons_append, walkBits]
      cases b
      · exact ihl h
      · exact ihr h

/-- Bits as many as the tree is high always lead to a leaf (R212: a codeword fits in the topped-up buffer). -/
theorem walkBits_isSome (h : x.height ≤ q.length) : (walkBits x q).isSome = true := by
  induction x generalizing q with
  | leaf => rfl
  | branch i w l r ihl ihr =>
    rw [Tree.height] at h
    cases q with
    | nil => cases h
    | cons b q =>
      rw [List.length_cons] at h
      rw [walkBits]
      cases b
      · exact ihl (by omega)
      · exact ihr (by omega)

/-! ### What the top-up leaves of the bits to come -/

theorem incoming_topped (s : State) : s.topped.incoming = s.incoming := by
  obtain hshort | henough := Nat.lt_or_ge (s.pulled s.pulls).bb.length Config.topUp
  · rw [topped_eq_metEnd hshort]
    exact incoming_pulled s.pulls s
  · rw [topped_eq_pulled henough, incoming_pulled]

/-- After the top-up the buffer holds TOPUP bits or everything there is (R212). -/
theorem topped_enough_or_end (s : State) : Config.topUp ≤ s.topped.bb.length ∨ s.topped.unread = [] := by
  obtain hshort | henough := Nat.lt_or_ge (s.pulled s.pulls).bb.length Config.topUp
  · exact .inr (by rw [topped_eq_metEnd hshort]; exact unread_pulled_pulls hshort)
  · exact .inl henough

theorem incoming_of_unread_eq_nil (h : s.unread = []) : s.incoming = s.bb := by
  rw [State.incoming, h, bitsOf_nil, List.append_nil]

theorem topped_bb_eq_nil_iff (s : State) : s.topped.bb = [] ↔ s.incoming = [] := by
  rw [← incoming_topped]
  obtain henough | hend := topped_enough_or_end s
  · have hne : s.topped.bb ≠ [] := List.ne_nil_of_length_pos (Nat.lt_of_lt_of_le (by decide) henough)
    exact iff_of_false hne (by simp [State.incoming, hne])
  · rw [incoming_of_unread_eq_nil hend]

/-- A walk down a tree of valid depth ends in the topped-up buffer as it would in all the bits to come. -/
theorem walkBits_topped (hx : x.height ≤ Config.maxDepth) (s : State) :
    walkBits x s.incoming = (walkBits x s.topped.bb).map fun p => (p.1, p.2 ++ bitsOf s.topped.unread) := by
  rw [← incoming_topped, State.incoming]
  cases h : walkBits x s.topped.bb with
  | some p => exact walkBits_append h _
  | none =>
    obtain henough | hend := topped_enough_or_end s
    · have hleaf := walkBits_isSome (hx.trans henough)
      rw [h] at hleaf
      cases hleaf
    · rw [hend, bitsOf_nil, List.append_nil, h]
      rfl

/-! ### What decoding leaves -/

/-- From `s` to `u` the symbols `l` have been decoded and written, and the bits `q` are still to come; the source has moved on by whole bytes. -/
structure Decoded (s : State) (l : List Byte) (q : Bits) (u : State) : Prop where
  out : u.snk.out = s.snk.out ++ l
  inFlight : u.snk.inFlight = s.snk.inFlight
  incoming : u.incoming = q
  emitted : u.emitted.toNat = s.emitted.toNat + l.length
  ends : u.src.pos + u.unread.length = s.src.pos + s.unread.length

theorem Decoded.trans {l' : List Byte} {q' : Bits} (h : Decoded s l q t) (h' : Decoded t l' q' u) : Decoded s (l ++ l') q' u where
  out := by rw [h'.out, h.out, List.append_assoc]
  inFlight := h'.inFlight.trans h.inFlight
  incoming := h'.incoming
  emitted := by rw [h'.emitted, h.emitted, List.length_append, Nat.add_assoc]
  ends := h'.ends.trans h.ends

theorem decoded_self (s : State) : Decoded s [] s.incoming s := ⟨(List.append_nil _).symm, rfl, rfl, rfl, rfl⟩

theorem ends_topped (s : State) : s.topped.src.pos + s.topped.unread.length = s.src.pos + s.unread.length := by
  have hle := pulls_le s
  have hunread : s.topped.unread = s.unread.drop s.pulls := unread_pulled s.pulls s
  have hpos : s.topped.src.pos = s.src.pos + s.pulls := rfl
  rw [hunread, hpos, List.length_drop]
  omega

/-- The top-up decodes nothing. -/
theorem decoded_topped (s : State) : Decoded s [] s.incoming s.topped :=
  ⟨(List.append_nil _).symm, rfl, incoming_topped s, rfl, ends_topped s⟩

theorem toNat_emittedNext {c d : Count} (h : c.toNat < d.toNat) : (emittedNext c).toNat = c.toNat + 1 := by
  have hd := d.isLt
  have hone : (1 : Count).toNat = 1 := rfl
  rw [emittedNext, if_neg (by omega), BitVec.toNat_add, hone, Nat.mod_eq_of_lt (by omega)]

theorem decoded_popped (hc : s.emitted.toNat < c.toNat) : Decoded s [v] (rest ++ bitsOf s.unread) (s.popped v rest) :=
  ⟨rfl, rfl, rfl, toNat_emittedNext hc, rfl⟩

/-! ### The passes -/

/-- How a micro-operation ends that decodes: by success, or by the raise of R215. -/
def DecodeEnd.result : DecodeEnd → State → EStateM.Result Raise State Unit
  | .done, u => .ok () u
  | .empty, u => .error (.err .payloadEmpty) u
  | .mid, u => .error (.err .payloadMid) u

/-- What stays of a state in which symbols can be decoded: its tree `x` and COUNT, and ports that answer. -/
structure Decodes (x : Tree) (c : Count) (s : State) : Prop where
  tree : s.tree = some x
  count : s.count = c
  reads : PlanOk s.src.plan
  writes : PlanOk s.snk.plan

theorem Decodes.topUp_eq (h : Decodes x c s) : topUp s = .ok () s.topped := topUp_ok (planOk_take h.reads _)

theorem Decodes.popped (h : Decodes x c s) (v : Byte) (rest : Bits) : Decodes x c (s.topped.popped v rest) :=
  ⟨h.tree, h.count, planOk_drop h.reads _, planOk_drop h.writes _⟩

theorem Decodes.decSymbol_eq (h : Decodes x c s) : decSymbol s = decodeBuffered x s.topped := decSymbol_topped h.tree h.topUp_eq

/-- A pass that is due is a symbol and the passes after it. -/
theorem Decodes.payloadDecPasses_succ (h : Decodes x c s) (hlt : s.emitted.toNat < c.toNat) (n : Nat) :
    payloadDecPasses (n + 1) s = (do decSymbol; payloadDecPasses n : Micro Unit) s := by
  rw [payloadDecPasses, micro_get_bind, micro_get_bind, h.count, if_pos hlt]

/-- The passes decode one symbol each, as many as are still due, until the bits run out (R213). -/
theorem payloadDecPasses_decodes (hx : x.height ≤ Config.maxDepth) (h : Decodes x c s) (hn : s.emitted.toNat + n = c.toNat) :
    ∃ u, payloadDecPasses n s = (decodeUpTo n x s.incoming).2.2.result u
      ∧ Decoded s (decodeUpTo n x s.incoming).1 (decodeUpTo n x s.incoming).2.1 u := by
  induction n generalizing s with
  | zero => exact ⟨s, rfl, decoded_self s⟩
  | succ n ih =>
    have hlt : s.emitted.toNat < c.toNat := by omega
    rw [h.payloadDecPasses_succ hlt, decodeUpTo]
    by_cases hempty : s.incoming = []
    · rw [if_pos hempty]
      exact ⟨s.topped, micro_bind_error (h.decSymbol_eq.trans (decodeBuffered_empty ((topped_bb_eq_nil_iff s).mpr hempty))) _, decoded_topped s⟩
    · have hbb : s.topped.bb ≠ [] := mt (topped_bb_eq_nil_iff s).mp hempty
      rw [if_neg hempty, walkBits_topped hx]
      cases hw : walkBits x s.topped.bb with
      | none => exact ⟨s.topped, micro_bind_error (h.decSymbol_eq.trans (decodeBuffered_mid hbb hw)) _, decoded_topped s⟩
      | some p =>
        obtain ⟨v, rest⟩ := p
        have hone : decSymbol s = .ok () (s.topped.popped v rest) :=
          h.decSymbol_eq.trans (decodeBuffered_ok hbb hw (planOk_take h.writes 1))
        have hdecoded := (decoded_topped s).trans (decoded_popped (v := v) (rest := rest) (s := s.topped) hlt)
        have hemitted : (s.topped.popped v rest).emitted.toNat + n = c.toNat := by
          rw [hdecoded.emitted, List.nil_append, List.length_singleton, Nat.add_assoc, Nat.add_comm 1 n, hn]
        obtain ⟨u, hu, hrest⟩ := ih (h.popped v rest) hemitted
        rw [hdecoded.incoming] at hu hrest
        exact ⟨u, (micro_bind_ok hone _).trans hu, hdecoded.trans hrest⟩

/-- Where PAYLOAD_DEC begins to decode (R213). -/
def State.unemitted (s : State) : State := { s with emitted := 0 }

theorem payloadDec_eq (s : State) : payloadDec s = payloadDecPasses s.count.toNat s.unemitted := rfl

theorem payloadDec_decodes (hx : x.height ≤ Config.maxDepth) (h : Decodes x c s) :
    ∃ u, payloadDec s = (decodeUpTo c.toNat x s.incoming).2.2.result u
      ∧ Decoded s.unemitted (decodeUpTo c.toNat x s.incoming).1 (decodeUpTo c.toNat x s.incoming).2.1 u := by
  rw [payloadDec_eq, h.count]
  exact payloadDecPasses_decodes (s := s.unemitted) hx ⟨h.tree, h.count, h.reads, h.writes⟩ (Nat.zero_add _)

/-! ### The command -/

/-- PAYLOAD_DEC while TREE_VALID and COUNT_VALID are 1. -/
theorem exec_payloadDec_valid (ht : s.tree = some x) (hc : s.countValid = true) :
    exec .payloadDec s = primitive true true (thenOk payloadDec) s := by
  rw [exec, execPayloadDec, State.treeValid, ht, hc]
  rfl

theorem primitive_eq_decodeEnd {m : Micro Unit} (hr : s.run = .idle) (h : m s.started = e.result u) :
    primitive true true (thenOk m) s = .next { u with run := s.run, result := e.code } := by
  cases e with
  | done => exact primitive_eq_ok hr h
  | empty | mid => exact primitive_eq_err hr h

theorem payloadDec_zero (h : s.count = 0) : payloadDec s = .ok () s.unemitted := by
  rw [payloadDec_eq, h]
  rfl

theorem Decoded.emitted_eq (h : Decoded s.unemitted l q u) : u.emitted = BitVec.ofNat 32 l.length := by
  have hlen : u.emitted.toNat = l.length := h.emitted.trans (Nat.zero_add _)
  rw [← hlen, BitVec.ofNat_toNat, BitVec.setWidth_eq]

/-- Settles O48: the passes decode the buffered and unread bits, and nothing else of the state changes. -/
theorem payloadDecDecodesCountSymbols : Obligations.PayloadDecDecodesCountSymbols := by
  refine ⟨encodedAs_of_opcode rfl rfl rfl, noOperand_of_operandMax rfl, fun s hr =>
    ⟨fun x d ht hc _ hx ⟨hreads, hwrites⟩ hd => ?decodes, fun hflags => ?badSequence⟩⟩
  case decodes =>
    subst hd
    obtain ⟨u, hu, h⟩ := payloadDec_decodes (s := s.started) hx ⟨ht, rfl, hreads, hwrites⟩
    have hexec := (exec_payloadDec_valid ht hc).trans (primitive_eq_decodeEnd hr hu)
    have hframe := exec_decoder_differs (.inr rfl) hexec
    refine ⟨_, hexec, rfl, h.out, h.emitted_eq, h.incoming, hframe.contents.1, h.inFlight, hframe.frame, fun hzero => ?_⟩
    have hexec0 := (exec_payloadDec_valid ht hc).trans (primitive_eq_ok hr (payloadDec_zero (s := s.started) hzero))
    exact Host.Outcome.next.inj (hexec.symm.trans hexec0)
  case badSequence =>
    refine exec_flagsMissing hr rfl ?_
    rw [Instr.flagsMet, State.treeValid]
    obtain ht | hc := hflags
    · rw [ht, Option.isSome_none, Bool.false_and]
    · rw [hc, Bool.and_false]

end Sys2Proof.Machine
end

section
/-! PROOF. DECOMPRESS (R216): the header and the tree are read, the rest of the tree's last byte is dropped, and the payload is decoded with the
rebuilt tree; and the round trip with COMPRESS (R217). -/

namespace Sys2Proof.Machine

variable {s u : State} {x : Tree} {v : Byte} {q : Bits} {l rest : List Byte} {c : Count} {e : DecodeEnd} {n : Nat}

/-! ### The stream's parts -/

/-- A packed sequence is the sequence with zeros up to a byte boundary (R101). -/
theorem bitsOf_pack (q : Bits) : bitsOf (pack q) = q ++ List.replicate (padLength q.length) false := by
  have hwhole : leftover (q ++ List.replicate (padLength q.length) false) = [] := by
    rw [← List.length_eq_zero_iff, leftover_length, List.length_append, List.length_replicate, padLength_spec]
  have hall := bitsOf_fullBytes_append_leftover (q ++ List.replicate (padLength q.length) false)
  rwa [hwhole, List.append_nil] at hall

/-- The four bytes of a count are the count (R68). -/
theorem bigEndian_value (c : Count) : c.extractLsb' 24 8 ++ c.extractLsb' 16 8 ++ c.extractLsb' 8 8 ++ c.extractLsb' 0 8 = c := by
  rw [BitVec.extractLsb'_append_extractLsb'_eq_extractLsb' (by rfl), BitVec.extractLsb'_append_extractLsb'_eq_extractLsb' (by rfl),
    BitVec.extractLsb'_append_extractLsb'_eq_extractLsb' (by rfl)]
  exact BitVec.extractLsb'_eq_self

/-! ### The rebuilt tree -/

theorem Tree.height_preorder (x : Tree) (n : Nat) : (x.preorder n).1.height = x.height := by
  induction x generalizing n with
  | leaf => rfl
  | branch i w l r ihl ihr => rw [preorder, height, ihl, ihr, height]

/-- The walk does not look at indices and weights. -/
theorem walkBits_preorder (x : Tree) (n : Nat) (q : Bits) : walkBits (x.preorder n).1 q = walkBits x q := by
  induction x generalizing n q with
  | leaf => rfl
  | branch i w l r ihl ihr =>
    cases q with
    | nil => rfl
    | cons b q => rw [Tree.preorder, walkBits, walkBits, ihl, ihr]

theorem decodeUpTo_preorder (x : Tree) (k n : Nat) (q : Bits) : decodeUpTo n (x.preorder k).1 q = decodeUpTo n x q := by
  induction n generalizing q with
  | zero => rfl
  | succ n ih => simp only [decodeUpTo, walkBits_preorder, ih]

/-- TREE_DES rebuilds a tree it is supplied with (R173, R179). -/
theorem treeDes_ok (hx : x.Fits) (h : Supplies s x.ser) :
    treeDes s = .ok () { s.discarded.read x.ser with tree := some (x.preorder 0).1 } := by
  obtain ⟨hbranch, hheight, hsize⟩ := hx
  have hnode := desNode_tree (n := 0) (s := s.discarded) x (Nat.lt_succ_of_le hheight) ((Nat.zero_add _).symm ▸ hsize) ⟨h.bits, h.plan⟩
  have htree := desRecursive_tree hnode (by rw [preorder_isLeaf, hbranch])
  exact (treeDes_eq_desRecursive fun _ hhang => nomatch htree.symm.trans hhang).trans htree

/-! ### Up to the payload -/

/-- The state with an empty buffer (R121). -/
def State.cleared (s : State) : State := { s with bb := [] }

/-- Where the payload begins: the count and the tree are there, all bytes in front of the payload are read, and the buffer is empty (R214). -/
def State.aligned (c : Count) (x : Tree) (s : State) : State :=
  { s with
    bb := [], count := c, countValid := true, tree := some (x.preorder 0).1, code := none, des := .idle
    src := { s.src with
      pos := s.src.pos + (4 + (pack x.ser).length)
      plan := s.src.plan.drop (4 + (pack x.ser).length) }
    srcEos := false }

/-- DECOMPRESS has a whole header and tree in front of it, and then the bytes `rest`; its ports answer. -/
structure Decompressible (c : Count) (x : Tree) (rest : List Byte) (s : State) : Prop where
  fits : x.Fits
  bytes : s.unread = bigEndian c ++ pack x.ser ++ rest
  reads : PlanOk s.src.plan
  writes : PlanOk s.snk.plan

theorem Decompressible.started (h : Decompressible c x rest s) : Decompressible c x rest s.started := ⟨h.fits, h.bytes, h.reads, h.writes⟩

theorem Decompressible.unread_aligned (h : Decompressible c x rest s) : (s.aligned c x).unread = rest := by
  have hlen : 4 + (pack x.ser).length = (bigEndian c ++ pack x.ser).length := by rw [List.length_append]; rfl
  calc (s.aligned c x).unread
    _ = s.unread.drop (4 + (pack x.ser).length) := (List.drop_drop).symm
    _ = rest := by rw [h.bytes, hlen, List.drop_left]

theorem Decompressible.ends_aligned (h : Decompressible c x rest s) :
    (s.aligned c x).src.pos + (s.aligned c x).unread.length = s.src.pos + s.unread.length := by
  have hpos : (s.aligned c x).src.pos = s.src.pos + ((bigEndian c).length + (pack x.ser).length) := rfl
  rw [h.unread_aligned, h.bytes, hpos, List.length_append, List.length_append, Nat.add_assoc]

/-- Steps 1 and 2: the buffer is cleared and the header read (R216). -/
def State.counted (c : Count) (s : State) : State := { s.cleared.advanced 4 with count := c, countValid := true }

theorem Decompressible.supplies (h : Decompressible c x rest s) : Supplies (s.counted c) x.ser where
  bits := by
    have hunread : (s.counted c).unread = pack x.ser ++ rest := (unread_advanced 4 s.cleared).trans (congrArg (List.drop 4) h.bytes)
    rw [State.incoming, hunread, bitsOf_append, bitsOf_pack, List.append_assoc]
    exact List.prefix_append _ _
  plan := planOk_take (planOk_drop h.reads 4) _

/-- Steps 3 and 4: the tree is read from the bytes that hold its bits, and what is left in the buffer is dropped (R214, R216). -/
theorem aligned_eq (c : Count) (x : Tree) (s : State) :
    s.aligned c x = { { (s.counted c).discarded.read x.ser with tree := some (x.preorder 0).1 } with bb := [] } := by
  have hfills : (s.counted c).discarded.fills x.ser.length = (pack x.ser).length := (pack_length x.ser).symm
  have heos : (if (pack x.ser).length = 0 then (s.counted c).discarded.srcEos else false) = false := ite_self false
  rw [State.read, State.consumed, State.filled, hfills, heos]
  simp only [State.aligned, State.discarded, State.counted, advanced_plan, List.drop_drop, ← Nat.add_assoc]
  rfl

/-- Steps 1 to 4 (R216). -/
theorem Decompressible.steps_aligned (h : Decompressible c x rest s) : decompressSteps s = payloadDec (s.aligned c x) := by
  have hclear : bbClear s = .ok () s.cleared := bbClear_eq s
  have hheader : hdrRead s.cleared = .ok () (s.counted c) := by
    rw [hdrRead_ok (s := s.cleared) (rest := pack x.ser ++ rest) h.bytes (planOk_take h.reads 4), bigEndian_value]
    rfl
  rw [decompressSteps, micro_bind_ok hclear, micro_bind_ok hheader, micro_bind_ok (treeDes_ok h.fits h.supplies),
    micro_bind_ok (bbClear_eq _), aligned_eq]

@[simp] theorem endState_result (e : DecodeEnd) (u : State) : endState (e.result u) = u := by
  cases e <;> rfl

/-- The five steps decode the payload's bits. -/
theorem Decompressible.steps_decode (h : Decompressible c x rest s) :
    ∃ u, decompressSteps s = (decodeUpTo c.toNat x (bitsOf rest)).2.2.result u
      ∧ u = (s.aligned c x).overwritten Parts.decode u
      ∧ u.src.data = s.src.data
      ∧ Decoded (s.aligned c x).unemitted (decodeUpTo c.toNat x (bitsOf rest)).1 (decodeUpTo c.toNat x (bitsOf rest)).2.1 u := by
  obtain ⟨_, hheight, _⟩ := h.fits
  have hincoming : (s.aligned c x).incoming = bitsOf rest := congrArg bitsOf h.unread_aligned
  obtain ⟨u, hu, hdecoded⟩ := payloadDec_decodes (s := s.aligned c x) (x := (x.preorder 0).1) (c := c) (by rwa [Tree.height_preorder])
    ⟨rfl, rfl, planOk_drop h.reads _, h.writes⟩
  have hframe := (writes_payloadDec (w := Parts.decode) rfl rfl rfl rfl (s.aligned c x)).endState (.refl _ _)
  rw [hincoming, decodeUpTo_preorder] at hu hdecoded
  rw [hu, endState_result] at hframe
  exact ⟨u, h.steps_aligned.trans hu, hframe.frame, hframe.contents.1, hdecoded⟩

/-! ### The command -/

theorem composite_eq_decodeEnd {m : Micro Unit} (hr : s.run = .idle) (h : m s.started = e.result u) :
    composite m s = .next { u.released with run := s.run, result := e.code } := by
  rw [← completed_eq_of_idle hr]
  cases e with
  | done => exact composite_ok hr h
  | empty | mid => exact composite_error hr h

/-- Settles O49: the steps up to the payload leave what PAYLOAD_DEC decodes with the rebuilt tree, and Release clears the rest. -/
theorem decompressDecodesTheStream : Obligations.DecompressDecodesTheStream := by
  refine ⟨encodedAs_of_opcode rfl rfl rfl, noOperand_of_operandMax rfl, fun s c x rest d hr hfits ⟨hreads, hwrites⟩ hbytes hd => ?_⟩
  subst hd
  have h : Decompressible c x rest s := ⟨hfits, hbytes, hreads, hwrites⟩
  obtain ⟨u, hu, hframe, hdata, hdecoded⟩ := h.started.steps_decode
  refine ⟨_, composite_eq_decodeEnd hr hu, rfl, hdecoded.out, hdata, hdecoded.inFlight, ?_⟩
  rw [← hdecoded.emitted_eq, hframe]
  rfl

/-! ### The round trip -/

/-- The codewords of symbols of the tree decode to the symbols, whatever follows (R217). -/
theorem decodeUpTo_payloadBits (hbranch : x.isLeaf = false) (hl : ∀ v ∈ l, v ∈ x.symbols) (q : Bits) :
    decodeUpTo l.length x (payloadBits (codeTable x) l ++ q) = (l, q, .done) := by
  induction l with
  | nil => rfl
  | cons v l ih =>
    have hv : v ∈ x.symbols := hl v List.mem_cons_self
    have hne := (tableGet_codeTable_ne_nil_iff hbranch).mpr hv
    rw [List.length_cons, payloadBits_cons, List.append_assoc, decodeUpTo, if_neg (List.append_ne_nil_of_left_ne_nil hne _),
      walkBits_of_mem_paths (mem_paths_codeTable hv)]
    simp only [ih fun w hw => hl w (List.mem_cons_of_mem v hw)]

/-- Where fewer than 8 bits are still to come, the source is at its end. -/
theorem unread_eq_nil_of_incoming (h : s.incoming.length < 8) : s.unread = [] := by
  rw [length_incoming] at h
  exact List.length_eq_zero_iff.mp (by omega)

/-- DECOMPRESS of the stream of an input (R217). -/
theorem exec_decompress_streamWith (hr : s.run = .idle) (hx : buildTree (freqOf l) = some x) (hlt : l.length < 2 ^ 32)
    (h : Decompressible (BitVec.ofNat 32 l.length) x (pack (payloadBits (codeTable x) l)) s) :
    ∃ u, exec .decompress s = .next u ∧ u.result = .ok ∧ u.snk.out = s.snk.out ++ l ∧ u.count = BitVec.ofNat 32 l.length
      ∧ u.emitted = BitVec.ofNat 32 l.length ∧ u.src.pos = s.src.pos + s.unread.length := by
  obtain ⟨hbranch, _⟩ := h.fits
  have hsymbols : ∀ v ∈ l, v ∈ x.symbols := fun v hv => (tableGet_codeTable_ne_nil_iff hbranch).mp (codeword_of_mem hx hlt hv)
  obtain ⟨u, hu, hframe, _, hdecoded⟩ := h.started.steps_decode
  rw [toNat_ofNat_length hlt, bitsOf_pack, decodeUpTo_payloadBits hbranch hsymbols] at hu hdecoded
  have hend : u.unread = [] := unread_eq_nil_of_incoming (by rw [hdecoded.incoming, List.length_replicate]; exact padLength_lt _)
  have hpos : u.src.pos = s.src.pos + s.unread.length := by
    have hends := hdecoded.ends.trans h.started.ends_aligned
    rwa [hend, List.length_nil, Nat.add_zero] at hends
  exact ⟨_, composite_eq_decodeEnd hr hu, rfl, hdecoded.out, congrArg State.count hframe, hdecoded.emitted_eq, hpos⟩

/-- Settles O50: what COMPRESS writes is the stream of the input. -/
theorem decompressUndoesCompress : Obligations.DecompressUndoesCompress := by
  intro s l hr hdata hconst hpos hmin hlt ⟨hreads, hwrites⟩
  obtain ⟨_, _, hcases⟩ := compressWritesTheStream
  obtain ⟨x, hx, _, hjob, _⟩ := hcases s l hr hdata hpos hmin hlt hwrites
  refine ⟨_, streamWith x l, hjob hconst (planOk_take hreads _), rfl, rfl, fun s' hr' hdata' hpos' ⟨hreads', hwrites'⟩ => ?_⟩
  obtain ⟨⟨hfits, _⟩, _⟩ := buildTree_ok hx
  have hunread : s'.unread = streamWith x l := by rw [State.unread, hdata', hpos', List.drop_zero]
  obtain ⟨u, hu⟩ := exec_decompress_streamWith hr' hx hlt ⟨hfits, hunread, hreads', hwrites'⟩
  rw [hpos', Nat.zero_add, hunread] at hu
  exact ⟨u, hu⟩

end Sys2Proof.Machine
end

section
/-! PROOF. The system commands NOP, SOFT_RESET and RELEASE (R230 to R232, R271). -/

namespace Sys2Proof.Machine

variable {s : State}

/-- SOFT_RESET is the one command that FAULT accepts as IDLE does (R231, R255). -/
theorem exec_softReset_of_not_busy (h : s.run ≠ .busy) : exec .softReset s = .next s.engineReset := by
  rw [exec, execSoftReset]
  cases hr : s.run with
  | idle | fault => rfl
  | busy => exact absurd hr h

/-- Settles O14: the reset of the engine is the reset state with the environment kept. -/
theorem softResetReachesTheResetState : Obligations.SoftResetReachesTheResetState :=
  ⟨encodedAs_of_opcode rfl rfl rfl, noOperand_of_operandMax rfl, fun _ => exec_softReset_of_not_busy⟩

/-- NOP runs an empty body, so the only change is the completion's write of RESULT (R230). -/
theorem exec_nop_of_idle (hr : s.run = .idle) : exec .nop s = .next { s with result := .ok } :=
  primitive_eq_ok (m := pure ()) (t := s.started) hr (micro_pure () _)

/-- RELEASE runs Release, which cannot raise, and completes (R232). -/
theorem exec_release_of_idle (hr : s.run = .idle) : exec .release s = .next { s.released with result := .ok } :=
  primitive_eq_ok (t := s.started.released) hr (micro_modify _ _)

/-- Settles O17: the all-ones word is illegal by its RSV field; NOP and RELEASE cannot raise. -/
theorem nopAndReleaseComplete : Obligations.NopAndReleaseComplete := by
  refine ⟨encodedAs_of_opcode rfl rfl rfl, noOperand_of_operandMax rfl, decodeWord_illegal (.inl ?rsv),
    encodedAs_of_opcode rfl rfl rfl, noOperand_of_operandMax rfl, fun s hr => ⟨exec_nop_of_idle hr, exec_release_of_idle hr⟩⟩
  case rsv => decide

end Sys2Proof.Machine
end

section
/-! PROOF. Which result codes a command can end in (R240, R253): every micro-operation raises only what its pseudocode names, under what is known of
the tables and the buffer where it starts. -/

namespace Sys2Proof.Machine

variable {α β : Type} {P P' : State → Prop} {Q : α → State → Prop} {E : Raise → State → Prop} {l : List ResultCode} {n : Nat}

/-! ### Raises and their codes -/

/-- The code in which a command ends at a raise (R245 to R247); none where it waits for a port. -/
def Raise.code : Raise → Option ResultCode
  | .err e => some (.err e)
  | .refuse c => some (.refuse c)
  | .fault f => some (.fault f)
  | .hang => none

/-- The raise leads to a code of the list, or to none. -/
def EndsIn (l : List ResultCode) (r : Raise) (_ : State) : Prop := ∀ c, r.code = some c → c ∈ l

theorem endsIn_of_code {r : Raise} {c : ResultCode} (hr : r.code = some c) (hc : c ∈ l) (s : State) : EndsIn l r s :=
  fun _ hd => Option.some.inj (hr.symm.trans hd) ▸ hc

theorem endsIn_hang (s : State) : EndsIn l .hang s := nofun

theorem raised_result {r : Raise} {c : ResultCode} (hr : r.code = some c) (composite : Bool) (s : State) :
    (s.raised composite r).result = c := by
  cases r with
  | err | refuse | fault => cases hr; rfl
  | hang => cases hr

/-- A micro-operation that, started where `P` holds, raises only what leads to a code of the list, and ends well where `Q` holds. -/
abbrev Raises (l : List ResultCode) (P : State → Prop) (m : Micro α) (Q : α → State → Prop) : Prop := Triple P m Q (EndsIn l)

theorem raises_throw {r : Raise} {c : ResultCode} (hr : r.code = some c) (hc : c ∈ l) : Raises l P (throw r : Micro α) Q :=
  triple_throw fun s _ => endsIn_of_code hr hc s

theorem raises_onRaise {m : Micro α} (h : Raises l P m Q) (g : Raise → State → State) : Raises l P (onRaise g m) Q :=
  h.onRaise fun _ _ hr => hr

/-- What `m` keeps is known beside what a triple says of `m`. -/
theorem Triple.keeping {m : Micro α} (h : Triple P m Q E) (hk : Keeps P' m) :
    Triple (fun s => P' s ∧ P s) m (fun a s => P' s ∧ Q a s) E := by
  intro s ⟨hs', hs⟩
  cases hm : m s with
  | ok a t => exact ⟨hk.of_ok hs' hm, h.of_ok hs hm⟩
  | error r t => exact h.of_error hs hm

/-- A table that is known to hold a value is read without a refusal (R30). -/
theorem triple_get_needed {table : State → Option α} {f : α → Micro β} {R : β → State → Prop} (hP : ∀ s, P s → (table s).isSome)
    (h : ∀ a, Triple (fun s => table s = some a ∧ P s) (f a) R E) :
    Triple P ((get : Micro State) >>= fun s => needed (table s) >>= f) R E := by
  intro s hs
  obtain ⟨a, ha⟩ := Option.isSome_iff_exists.mp (hP s hs)
  rw [micro_get_bind, micro_bind_ok (needed_of_eq_some ha s)]
  exact h a s ⟨ha, hs⟩

/-! ### Ports -/

/-- `P` says nothing of the ports. -/
def PortFree (P : State → Prop) : Prop := ∀ s a e b, P s → P { s with src := a, srcEos := e, snk := b }

/-- `P` says nothing of the ports and the buffer. -/
def BufferFree (P : State → Prop) : Prop := ∀ s q a e b, P s → P { s with bb := q, src := a, srcEos := e, snk := b }

theorem bufferFree_true : BufferFree fun _ => True := fun _ _ _ _ _ h => h

theorem BufferFree.portFree (hP : BufferFree P) : PortFree P := fun s => hP s s.bb

theorem raises_readByte (hsrc : .err .ioSrc ∈ l) (hP : PortFree P) : Raises l P readByte fun _ => P := by
  intro s hs
  obtain ⟨v, _, _, e⟩ | ⟨_, _, e⟩ | ⟨p, _, e⟩ | ⟨p, _, e⟩ := readByte_cases s <;> rw [e]
  · exact hP s _ _ _ hs
  · exact hP s _ _ _ hs
  · exact endsIn_of_code rfl hsrc _
  · exact endsIn_hang _

theorem raises_writeByte (hsnk : .err .ioSnk ∈ l) (hP : PortFree P) (v : Byte) : Raises l P (writeByte v) fun _ => P := by
  intro s hs
  obtain ⟨_, e⟩ | ⟨p, _, e⟩ | ⟨p, _, e⟩ := writeByte_cases v s <;> rw [e]
  · exact hP s _ _ _ hs
  · exact endsIn_of_code rfl hsnk _
  · exact endsIn_hang _

/-! ### Bit buffer -/

/-- `P` holds and the buffer has at most `n` bits. -/
def Buffered (P : State → Prop) (n : Nat) (s : State) : Prop := P s ∧ s.bb.length ≤ n

theorem Buffered.mono {m : Nat} {s : State} (h : Buffered P n s) (hle : n ≤ m) : Buffered P m s := ⟨h.1, h.2.trans hle⟩

theorem BufferFree.buffered (hP : BufferFree P) (n : Nat) : PortFree (Buffered P n) :=
  fun s a e b h => ⟨hP s s.bb a e b h.1, h.2⟩

/-- An append raises nothing where there is room, and a list with the overflow allows for all others (R123). -/
theorem raises_bbAppendBits (hP : BufferFree P) {q : Bits} (hroom : n + q.length ≤ Config.bbCap ∨ .fault .bbOverflow ∈ l) :
    Raises l (Buffered P n) (bbAppendBits q) fun _ => Buffered P (n + q.length) := by
  intro s ⟨hs, hn⟩
  by_cases hq : s.bb.length + q.length ≤ Config.bbCap
  · rw [bbAppendBits_ok hq]
    exact ⟨hP s _ _ _ _ hs, by rw [List.length_append]; omega⟩
  · rw [bbAppendBits_overflow (by omega)]
    exact endsIn_of_code rfl (hroom.resolve_left (by omega)) s

/-- A drop raises nothing where the bits are there, and a list with the underflow allows for all others (R127). -/
theorem raises_bbDrop (hP : BufferFree P) (k : Nat) :
    Raises l (fun s => P s ∧ (k ≤ s.bb.length ∨ .fault .bbUnderflow ∈ l)) (bbDrop k) fun _ => P := by
  intro s ⟨hs, hthere⟩
  by_cases hk : k ≤ s.bb.length
  · rw [bbDrop_ok hk]
    exact hP s _ _ _ _ hs
  · rw [bbDrop_underflow (by omega)]
    exact endsIn_of_code rfl (hthere.resolve_left hk) s

theorem raises_bbPeek (k : Nat) : Raises l (fun s => P s ∧ k < s.bb.length) (bbPeek k) fun _ s => P s ∧ k < s.bb.length := by
  intro s ⟨hs, hk⟩
  rw [bbPeek_ok (List.getElem?_eq_getElem hk)]
  exact ⟨hs, hk⟩

/-- A drain takes complete groups only, so it never asks for a bit that is not there (R128). -/
theorem raises_bbDrain (hsnk : .err .ioSnk ∈ l) (hP : BufferFree P) : Raises l P bbDrain fun _ => Buffered P 7
    := by
  intro s hs
  rw [bbDrain_eq]
  obtain ⟨_, e⟩ | ⟨k, p, _, _, _, e⟩ | ⟨k, p, v, _, _, _, _, e⟩ := bbDrainPasses_cases (s.bb.length / 8) s (by omega) <;> rw [e]
  · exact ⟨hP s _ _ _ _ hs, Nat.le_of_lt_succ (leftover_lt s.bb)⟩
  · exact endsIn_of_code rfl hsnk _
  · exact endsIn_hang _

theorem raises_bbFlush (hsnk : .err .ioSnk ∈ l) (hP : BufferFree P) : Raises l P bbFlush fun _ => Buffered P 0
    := by
  intro s hs
  obtain ⟨_, e⟩ | ⟨k, p, _, _, _, e⟩ | ⟨k, p, v, _, _, _, _, e⟩ := bbFlush_cases s <;> rw [e]
  · rw [flushed_all]
    exact ⟨hP s _ _ _ _ hs, Nat.le_refl _⟩
  · exact endsIn_of_code rfl hsnk _
  · exact endsIn_hang _

/-- A fill with room for a byte reads the source and does not overflow (R130). -/
theorem raises_bbFill (hsrc : .err .ioSrc ∈ l) (hP : BufferFree P) :
    Raises l (fun s => P s ∧ s.bb.length + 8 ≤ Config.bbCap) bbFill fun _ => P := by
  intro s ⟨hs, hroom⟩
  obtain ⟨v, _, _, e⟩ | ⟨_, _, e⟩ | ⟨p, _, e⟩ | ⟨p, _, e⟩ := bbFill_cases hroom <;> rw [e]
  · exact hP s _ _ _ _ hs
  · exact hP s _ _ _ _ hs
  · exact endsIn_of_code rfl hsrc _
  · exact endsIn_hang _

theorem raises_bbFillCommand (hl : [.err .ioSrc, .fault .bbOverflow, .ok, .okEos] ⊆ l) :
    Raises l (fun _ => True) bbFillCommand fun c _ => c ∈ l := by
  simp only [List.cons_subset] at hl
  obtain ⟨hsrc, hfull, hok, heos, _⟩ := hl
  refine Triple.bind (Q := fun _ _ => True) (fun s _ => ?fill) fun r => ?code
  case fill =>
    by_cases hroom : s.bb.length + 8 ≤ Config.bbCap
    · exact raises_bbFill hsrc bufferFree_true s ⟨trivial, hroom⟩
    · rw [bbFill_overflow (by omega)]
      exact endsIn_of_code rfl hfull s
  case code =>
    cases r with
    | filled => exact triple_pure fun _ _ => hok
    | eos => exact triple_pure fun _ _ => heos

/-! ### Frequency table, trees and codes -/

/-- FREQ_VALID = 1 (R31). -/
abbrev HasFreq (s : State) : Prop := s.freq.isSome = true

/-- TREE_VALID = 1 (R32). -/
abbrev HasTree (s : State) : Prop := s.tree.isSome = true

theorem raises_freqInc (hlarge : .refuse .inputTooLarge ∈ l) (v : Byte) : Raises l HasFreq (freqInc v) fun _ => HasFreq :=
  triple_get_needed (fun _ hs => hs) fun _ => triple_get_bind fun _ =>
    triple_ite (fun _ => raises_throw rfl hlarge) fun _ => triple_modify fun _ _ => rfl

theorem raises_freqScan (hsrc : .err .ioSrc ∈ l) (hlarge : .refuse .inputTooLarge ∈ l) :
    Raises l (fun _ => True) freqScan fun _ => HasFreq := by
  have hpasses (k : Nat) : Raises l HasFreq (freqScanPasses k) fun _ => HasFreq := by
    induction k with
    | zero => exact triple_pure fun _ hs => hs
    | succ k ih =>
      refine (raises_readByte hsrc fun _ _ _ _ h => h).bind fun r => ?_
      cases r with
      | none => exact triple_pure fun _ hs => hs
      | some v => exact (raises_freqInc hlarge v).bind fun _ => ih
  exact Triple.bind (Q := fun _ => HasFreq) (triple_modify fun _ _ => rfl) fun _ => triple_get_bind fun _ =>
    (raises_onRaise (hpasses _) freqScanStopped).pre fun _ ⟨_, hs⟩ => hs

theorem raises_treeBuild (hempty : .refuse .emptyFreq ∈ l) : Raises l HasFreq treeBuild fun _ => HasTree := by
  refine triple_get_needed (fun _ hs => hs) fun f => triple_get_bind fun _ => triple_ite (fun _ => raises_throw rfl hempty) fun _ => ?_
  cases buildTree f with
  | none => exact raises_throw rfl hempty
  | some t => exact triple_modify fun _ _ => rfl

theorem raises_codeGen : Raises l HasTree codeGen fun _ s => HasTree s ∧ s.code.isSome = true :=
  triple_get_needed (table := State.tree) (fun _ hs => hs) fun t =>
    triple_modify (P := fun s => s.tree = some t ∧ HasTree s) fun _ ⟨_, hs⟩ => ⟨hs, rfl⟩

/-! ### Serializer and encoder -/

/-- Between two tokens at most 7 bits are buffered, and a token has at most 9 (R171). -/
theorem raises_serNodes (hsnk : .err .ioSnk ∈ l) (hP : BufferFree P) (t : Tree) (hroom : n + 9 ≤ Config.bbCap ∨ .fault .bbOverflow ∈ l) :
    Raises l (Buffered P n) (serNodes t) fun _ => Buffered P 7 := by
  have hdrain {k : Nat} : Raises l (Buffered P k) bbDrain fun _ => Buffered P 7 := (raises_bbDrain hsnk hP).pre fun _ ⟨hs, _⟩ => hs
  have hbit : n + 1 ≤ Config.bbCap ∨ .fault .bbOverflow ∈ l := hroom.imp_left fun h => by omega
  induction t generalizing n with
  | leaf i w v =>
    exact (raises_bbAppendBits hP (q := [true]) hbit).bind fun _ =>
      (raises_bbAppendBits hP (q := bits8 v) hroom).bind fun _ => hdrain
  | branch i w left right ihl ihr =>
    exact (raises_bbAppendBits hP (q := [false]) hbit).bind fun _ => hdrain.bind fun _ =>
      (ihl (.inl (by decide)) (.inl (by decide))).bind fun _ => ihr (.inl (by decide)) (.inl (by decide))

theorem raises_treeSer (hsnk : .err .ioSnk ∈ l) (hP : BufferFree P) (ht : ∀ s, P s → HasTree s)
    (hroom : n + 9 ≤ Config.bbCap ∨ .fault .bbOverflow ∈ l) : Raises l (Buffered P n) treeSer fun _ => Buffered P 7 :=
  triple_get_needed (fun s ⟨hs, _⟩ => ht s hs) fun t => (raises_serNodes hsnk hP t hroom).pre fun _ ⟨_, hs⟩ => hs

theorem raises_checkInputSize (hsmall : .err .inputTooSmall ∈ l) :
    Raises l P checkInputSize fun _ s => P s ∧ Config.minInput ≤ s.total.toNat := by
  refine triple_get_bind fun u => triple_ite (fun _ => raises_throw rfl hsmall) fun henough => triple_pure ?_
  rintro s ⟨rfl, hs⟩
  exact ⟨hs, Nat.le_of_not_lt henough⟩

theorem raises_hdrWrite (hsmall : .err .inputTooSmall ∈ l) (hsnk : .err .ioSnk ∈ l) (hP : PortFree P) : Raises l P hdrWrite fun _ => P :=
  (raises_checkInputSize hsmall).bind fun _ => triple_get_bind fun _ => Triple.pre
    ((raises_writeByte hsnk hP _).bind fun _ => (raises_writeByte hsnk hP _).bind fun _ => (raises_writeByte hsnk hP _).bind fun _ =>
      raises_writeByte hsnk hP _) fun _ ⟨_, hs, _⟩ => hs

/-- CODE holds a table of codewords of at most 255 bits (R162). -/
def HasCode (s : State) : Prop := ∃ c, s.code = some c ∧ ∀ v, (tableGet c v).length ≤ Config.maxDepth

theorem bufferFree_hasCode : BufferFree HasCode := fun _ _ _ _ _ h => h

theorem raises_appendCode (hnone : .fault .noCodeword ∈ l) (hP : BufferFree P) (hcode : ∀ s, P s → HasCode s)
    (hroom : n + Config.maxDepth ≤ Config.bbCap ∨ .fault .bbOverflow ∈ l) (v : Byte) :
    Raises l (Buffered P n) (appendCode v) fun _ => Buffered P (n + Config.maxDepth) := by
  intro s ⟨hs, hn⟩
  obtain ⟨c, hc, hlen⟩ := hcode s hs
  by_cases hv : tableGet c v = []
  · rw [appendCode_none hc hv]
    exact endsIn_of_code rfl hnone s
  · rw [appendCode_eq hc hv]
    have happend := raises_bbAppendBits (l := l) hP (n := n) (q := tableGet c v) (hroom.imp_left fun h => by have := hlen v; omega)
    exact happend.mono (fun _ h => h) (fun _ _ h => h.mono (Nat.add_le_add_left (hlen v) n)) (fun _ _ h => h) s ⟨hs, hn⟩

theorem raises_payloadEnc (hl : [.err .ioSrc, .err .ioSnk, .fault .noCodeword] ⊆ l) (hP : BufferFree P)
    (hcode : ∀ s, P s → HasCode s) (hn : 7 ≤ n) (hroom : n + Config.maxDepth ≤ Config.bbCap ∨ .fault .bbOverflow ∈ l) :
    Raises l (Buffered P n) payloadEnc fun _ => Buffered P n := by
  simp only [List.cons_subset] at hl
  obtain ⟨hsrc, hsnk, hnone, _⟩ := hl
  have hpasses (k : Nat) : Raises l (Buffered P n) (payloadEncPasses k) fun _ => Buffered P n := by
    induction k with
    | zero => exact triple_pure fun _ hs => hs
    | succ k ih =>
      refine (raises_readByte hsrc (hP.buffered n)).bind fun r => ?_
      cases r with
      | none => exact triple_pure fun _ hs => hs
      | some v =>
        exact (raises_appendCode hnone hP hcode hroom v).bind fun _ =>
          ((raises_bbDrain hsnk hP).pre fun _ ⟨hs, _⟩ => hs).bind fun _ => ih.pre fun _ hs => hs.mono hn
  exact Triple.bind (Q := fun _ => Buffered P n) (triple_modify fun s hs => hP.buffered n s _ _ _ hs) fun _ =>
    triple_get_bind fun _ => (hpasses _).pre fun _ ⟨_, hs⟩ => hs

/-! ### Deserializer and decoder -/

theorem raises_demandBits (hsrc : .err .ioSrc ∈ l) (heos : .err .treeEos ∈ l) (hn : n ≤ 8) :
    Raises l (fun _ => True) (demandBits n) fun _ s => n ≤ s.bb.length := by
  have henough : Raises l (fun _ => True) (do if (← get).bb.length < n then throw (.err .treeEos) else pure ())
      fun _ s => n ≤ s.bb.length := by
    refine triple_get_bind fun u => triple_ite (fun _ => raises_throw rfl heos) fun hlen => triple_pure ?_
    rintro s ⟨rfl, _⟩
    exact Nat.le_of_not_lt hlen
  refine triple_get_bind fun u => triple_ite (fun hshort => ?fill) fun hlen => triple_pure ?held
  case fill =>
    refine Triple.bind ((raises_bbFill hsrc bufferFree_true).pre ?room) fun r => ?_
    case room =>
      rintro s ⟨rfl, _⟩
      exact ⟨trivial, by simp only [Config.bbCap]; omega⟩
    cases r <;> exact henough
  case held =>
    rintro s ⟨rfl, _⟩
    exact Nat.le_of_not_lt hlen

/-- A bit that is there can be looked at and dropped, so a token's kind bit never underflows (R126, R127). -/
theorem raises_desToken (hsrc : .err .ioSrc ∈ l) (heos : .err .treeEos ∈ l) (hdeep : .err .treeDepth ∈ l)
    (hfull : .refuse .nodeMemFull ∈ l) : Raises l (fun _ => True) desToken fun _ _ => True := by
  have henter : Raises l (fun _ => True) enterNode fun _ _ => True :=
    triple_get_bind fun _ => triple_ite (fun _ => raises_throw rfl hdeep) fun _ => triple_pure fun _ _ => trivial
  have hfree : Raises l (fun _ => True) checkNodeFree fun _ _ => True :=
    triple_get_bind fun _ => triple_ite (fun _ => raises_throw rfl hfull) fun _ => triple_pure fun _ _ => trivial
  have htake (g : Traversal → Traversal) : Raises l (fun _ => True) (takeNode g) fun _ _ => True :=
    henter.bind fun _ => hfree.bind fun _ => triple_modify fun _ _ => trivial
  have hdrop {k : Nat} : Raises l (fun s => k ≤ s.bb.length) (bbDrop k) fun _ _ => True :=
    (raises_bbDrop bufferFree_true k).pre fun _ hs => ⟨trivial, .inl hs⟩
  have hkind : Raises l (fun _ => True) readKind fun _ _ => True :=
    (raises_demandBits hsrc heos (by decide)).bind fun _ => ((raises_bbPeek 0).pre fun _ hs => ⟨trivial, hs⟩).bind fun _ =>
      (hdrop.pre fun _ ⟨_, hs⟩ => hs).bind fun _ => triple_pure fun _ _ => trivial
  have hsymbol : Raises l (fun _ => True) readSymbol fun _ _ => True :=
    (raises_demandBits hsrc heos (Nat.le_refl 8)).bind fun _ => triple_get_bind fun _ =>
      (hdrop.pre fun _ ⟨_, hs⟩ => hs).bind fun _ => triple_pure fun _ _ => trivial
  rw [desToken_eq]
  exact henter.bind fun _ => hkind.bind fun b => Triple.bind (Q := fun _ _ => True) (triple_modify fun _ _ => trivial) fun _ =>
    hfree.bind fun _ => triple_ite
      (fun _ => hsymbol.bind fun q => Triple.bind (Q := fun _ _ => True) (triple_modify fun _ _ => trivial) fun _ =>
        htake (Traversal.addLeaf (byteOf q)))
      fun _ => htake Traversal.openBranch

theorem raises_treeDes (hl : [.err .ioSrc, .err .treeEos, .err .treeDepth, .refuse .nodeMemFull, .err .treeSingleLeaf] ⊆ l) :
    Raises l (fun _ => True) treeDes fun _ => HasTree := by
  simp only [List.cons_subset] at hl
  obtain ⟨hsrc, heos, hdeep, hfull, hleaf, _⟩ := hl
  have hpasses (k : Nat) : Raises l (fun _ => True) (desPasses k) fun _ _ => True := by
    induction k with
    | zero => exact raises_throw rfl hfull
    | succ k ih =>
      refine (raises_desToken hsrc heos hdeep hfull).bind fun _ => triple_get_bind fun u => ?_
      cases u.des.whole with
      | some t => exact triple_pure fun _ _ => trivial
      | none => exact ih.pre fun _ _ => trivial
  exact Triple.bind (Q := fun _ _ => True) (triple_modify fun _ _ => trivial) fun _ =>
    (raises_onRaise (hpasses _) dropTraversal).bind fun t => Triple.bind (Q := fun _ _ => True) (triple_modify fun _ _ => trivial) fun _ =>
    triple_ite (fun _ => raises_throw rfl hleaf) fun _ => triple_modify fun _ _ => rfl

theorem raises_hdrRead (hsrc : .err .ioSrc ∈ l) (hshort : .err .headerTruncated ∈ l) :
    Raises l (fun _ => True) hdrRead fun _ _ => True := by
  have hpasses (k c : Nat) : Raises l (fun _ => True) (hdrReadPasses k c) fun _ _ => True := by
    induction k generalizing c with
    | zero => exact triple_pure fun _ _ => trivial
    | succ k ih =>
      refine (raises_readByte hsrc bufferFree_true.portFree).bind fun r => ?_
      cases r with
      | none => exact raises_throw rfl hshort
      | some v => exact ih _
  exact Triple.bind (Q := fun _ _ => True) (triple_modify fun _ _ => trivial) fun _ => (hpasses _ 0).bind fun _ =>
    triple_modify fun _ _ => trivial

/-- The top-up fills only below 255 bits, where there is room (R212). -/
theorem raises_topUp (hsrc : .err .ioSrc ∈ l) (hP : BufferFree P) : Raises l P topUp fun _ => P := by
  have hpasses (k : Nat) : Raises l P (topUpPasses k) fun _ => P := by
    induction k with
    | zero => exact triple_pure fun _ hs => hs
    | succ k ih =>
      refine triple_get_bind fun u => triple_ite (fun hlt => ?_) fun _ => triple_pure fun _ ⟨_, hs⟩ => hs
      refine ((raises_bbFill hsrc hP).pre ?room).bind fun r => ?_
      case room =>
        rintro s ⟨rfl, hs⟩
        exact ⟨hs, room_of_lt_topUp hlt⟩
      cases r with
      | filled => exact ih
      | eos => exact triple_pure fun _ hs => hs
  exact hpasses 32

/-- The walk looks only at bits that are there, and has consumed no more (R212). -/
theorem raises_walkTree (hmid : .err .payloadMid ∈ l) (t : Tree) (k : Nat) :
    Raises l (fun s => P s ∧ k ≤ s.bb.length) (walkTree t k) fun r s => P s ∧ r.2 ≤ s.bb.length := by
  induction t generalizing k with
  | leaf i w v => exact triple_pure fun _ hs => hs
  | branch i w left right ihl ihr =>
    refine triple_get_bind fun u => triple_ite (fun _ => raises_throw rfl hmid) fun hne => ?_
    refine ((raises_bbPeek k).pre ?there).bind fun b => triple_ite (fun _ => (ihr _).pre fun _ hs => hs) fun _ => (ihl _).pre fun _ hs => hs
    rintro s ⟨rfl, hs, hk⟩
    exact ⟨hs, Nat.lt_of_le_of_ne hk hne⟩

theorem bufferFree_hasTree : BufferFree HasTree := fun _ _ _ _ _ h => h

theorem raises_decSymbol (hl : [.err .payloadEmpty, .err .payloadMid, .err .ioSrc, .err .ioSnk] ⊆ l) :
    Raises l HasTree decSymbol fun _ => HasTree := by
  simp only [List.cons_subset] at hl
  obtain ⟨hempty, hmid, hsrc, hsnk, _⟩ := hl
  refine triple_get_needed (fun _ hs => hs) fun t => ((raises_topUp hsrc bufferFree_hasTree).pre fun _ ⟨_, hs⟩ => hs).bind fun _ =>
    triple_get_bind fun _ => triple_ite (fun _ => raises_throw rfl hempty) fun _ => ?_
  refine ((raises_walkTree hmid t 0).pre fun _ ⟨_, hs⟩ => ⟨hs, Nat.zero_le _⟩).bind fun r =>
    (raises_writeByte hsnk (fun _ _ _ _ h => h) _).bind fun _ =>
    ((raises_bbDrop bufferFree_hasTree _).pre fun _ ⟨hs, hk⟩ => ⟨hs, .inl hk⟩).bind fun _ => triple_modify fun _ hs => hs

theorem raises_payloadDec (hl : [.err .payloadEmpty, .err .payloadMid, .err .ioSrc, .err .ioSnk] ⊆ l) :
    Raises l HasTree payloadDec fun _ => HasTree := by
  have hpasses (k : Nat) : Raises l HasTree (payloadDecPasses k) fun _ => HasTree := by
    induction k with
    | zero => exact triple_pure fun _ hs => hs
    | succ k ih =>
      exact triple_get_bind fun _ => triple_get_bind fun _ => triple_ite
        (fun _ => ((raises_decSymbol hl).pre fun _ ⟨_, _, hs⟩ => hs).bind fun _ => ih) fun _ =>
        triple_pure fun _ ⟨_, _, hs⟩ => hs
  exact Triple.bind (Q := fun _ => HasTree) (triple_modify fun _ hs => hs) fun _ => triple_get_bind fun _ => (hpasses _).pre fun _ ⟨_, hs⟩ => hs

end Sys2Proof.Machine
end

section
/-! PROOF. The raises of the composite commands (R196, R216): each step meets what the next one asks for, and a source that is constant over the job
has a codeword for every byte. -/

namespace Sys2Proof.Machine

variable {α : Type} {l : List ResultCode} {s t : State}

/-! ### COMPRESS -/

theorem length_tableGet_codeTable_le {x : Tree} (hx : x.height ≤ Config.maxDepth) (v : Byte) :
    (tableGet (codeTable x) v).length ≤ Config.maxDepth := by
  by_cases hv : v ∈ x.symbols
  · exact (Tree.length_le_height (mem_paths_codeTable hv)).trans hx
  · rw [tableGet_codeTable_of_notMem hv]
    exact Nat.zero_le _

/-- A valid code table is that of a tree of valid depths (R33, R38). -/
theorem Running.hasCode {D : Traversal → Option Tree → Prop} (h : Running D s) (hc : s.code.isSome = true) : HasCode s := by
  obtain ⟨c, hc⟩ := Option.isSome_iff_exists.mp hc
  obtain ⟨x, hx, rfl⟩ := h.codeOk c hc
  obtain ⟨⟨_, hheight, _⟩, _⟩ := h.treeOk x hx
  exact ⟨_, hc, length_tableGet_codeTable_le hheight⟩

/-- A counted input has a tree (R154), so that TreeBuild does not refuse. -/
theorem Running.treeBuild_succeeds (h : Running AtRest s) (hf : HasFreq s) (hsize : Config.minInput ≤ s.total.toNat) :
    ∃ x, treeBuild s = .ok () { s with tree := some x, code := none } := by
  obtain ⟨f, hf⟩ := Option.isSome_iff_exists.mp hf
  have hne : s.total.toNat ≠ 0 := Nat.ne_of_gt (Nat.lt_of_lt_of_le (by decide) hsize)
  have hsum : freqSum f ≠ 0 := (h.freqTotal f hf).symm ▸ hne
  obtain ⟨x, hx⟩ := Option.isSome_iff_exists.mp (buildTree_isSome hsum)
  exact ⟨x, treeBuild_ok hf hne hx⟩

/-- The tree and the code of a job are made (R196 steps 1 to 4). -/
def Coded (s : State) : Prop := HasTree s ∧ HasCode s

theorem bufferFree_coded : BufferFree Coded := fun _ _ _ _ _ h => h

/-- The steps up to CODE_GEN give what the serializer and the encoder ask for. -/
theorem raises_compressAnalysis (hsrc : .err .ioSrc ∈ l) (hlarge : .refuse .inputTooLarge ∈ l) (hsmall : .err .inputTooSmall ∈ l) :
    Raises l (Running AtRest) (do freqScan; checkInputSize; treeBuild; codeGen) fun _ => Coded := by
  have hscan : Raises l (Running AtRest) freqScan fun _ s => Running AtRest s ∧ HasFreq s :=
    ((raises_freqScan hsrc hlarge).keeping keeps_freqScan).pre fun _ hs => ⟨hs, trivial⟩
  have hbuild : Raises l (fun s => (Running AtRest s ∧ HasFreq s) ∧ Config.minInput ≤ s.total.toNat) treeBuild
      fun _ s => Running AtRest s ∧ HasTree s := by
    rintro s ⟨⟨hs, hf⟩, hsize⟩
    obtain ⟨x, hx⟩ := hs.treeBuild_succeeds hf hsize
    have hs' := keeps_treeBuild.of_ok hs hx
    rw [hx]
    exact ⟨hs', rfl⟩
  have hcode : Raises l (fun s => Running AtRest s ∧ HasTree s) codeGen fun _ => Coded :=
    (raises_codeGen.keeping keeps_codeGen).mono (fun _ hs => hs) (fun _ _ ⟨hs, ht, hc⟩ => ⟨ht, hs.hasCode hc⟩) fun _ _ hr => hr
  exact hscan.bind fun _ => (raises_checkInputSize hsmall).bind fun _ => hbuild.bind fun _ => hcode

/-- The buffer of COMPRESS never holds more than 7 bits between two codewords or tokens, so no overflow is in its row (R282). -/
theorem raises_compressSteps (hl : [.err .ioSrc, .err .ioSnk, .refuse .inputTooLarge, .err .inputTooSmall, .fault .noCodeword] ⊆ l) :
    Raises l (Running AtRest) compressSteps fun _ _ => True := by
  simp only [List.cons_subset] at hl
  obtain ⟨hsrc, hsnk, hlarge, hsmall, hnone, _⟩ := hl
  have hclear : Raises l Coded bbClear fun _ => Buffered Coded 0 := triple_modify fun _ hs => ⟨hs, Nat.le_refl 0⟩
  have hflush {n : Nat} : Raises l (Buffered Coded n) bbFlush fun _ => Buffered Coded 0 :=
    (raises_bbFlush hsnk bufferFree_coded).pre fun _ ⟨hs, _⟩ => hs
  have hemit : Raises l Coded (do bbClear; hdrWrite; treeSer; bbFlush; payloadEnc; bbFlush) fun _ _ => True :=
    hclear.bind fun _ => (raises_hdrWrite hsmall hsnk (bufferFree_coded.buffered 0)).bind fun _ =>
      (raises_treeSer hsnk bufferFree_coded (fun _ ⟨ht, _⟩ => ht) (.inl (by decide))).bind fun _ => hflush.bind fun _ =>
      ((raises_payloadEnc (by simp [hsrc, hsnk, hnone]) bufferFree_coded (fun _ ⟨_, hc⟩ => hc) (Nat.le_refl 7) (.inl (by decide))).pre
        fun _ hs => hs.mono (Nat.zero_le 7)).bind fun _ =>
      hflush.mono (fun _ hs => hs) (fun _ _ _ => trivial) fun _ _ hr => hr
  have hsteps : compressSteps = (do (do freqScan; checkInputSize; treeBuild; codeGen)
                                    bbClear; hdrWrite; treeSer; bbFlush; payloadEnc; bbFlush) := by
    simp only [compressSteps, bind_assoc]
  rw [hsteps]
  exact (raises_compressAnalysis hsrc hlarge hsmall).bind fun _ => hemit

/-! ### The raises of the run in which every port operation is answered -/

/-- A raise that is not the ports' own is also a raise of the run in which they answer every operation. -/
theorem ThroughPorts.raise_answering {m : Micro α} (hm : ThroughPorts m) {r : Raise} (hr : r ∉ [.hang, .err .ioSrc, .err .ioSnk])
    (h : m s = .error r t) : ∃ u, m s.answering = .error r u := by
  induction hm generalizing s t with
  | done a => cases h
  | raises _ => cases h; exact ⟨_, rfl⟩
  | update hg => cases h
  | read =>
    obtain ⟨v, _, _, e⟩ | ⟨_, _, e⟩ | ⟨p, _, e⟩ | ⟨p, _, e⟩ := readByte_cases s <;> cases e.symm.trans h <;> simp at hr
  | write v =>
    obtain ⟨_, e⟩ | ⟨p, _, e⟩ | ⟨p, _, e⟩ := writeByte_cases v s <;> cases e.symm.trans h <;> simp at hr
  | inspect hblind _ ih =>
    rw [micro_get_bind] at h
    rw [micro_get_bind, State.answering, hblind]
    exact ih s h
  | @seq _ _ m f hm _ ihm ihf =>
    obtain h | ⟨a, u, hu, h⟩ := micro_bind_eq_error.mp h
    · obtain ⟨v, hv⟩ := ihm h
      exact ⟨v, micro_bind_error hv f⟩
    · have hans : m s.answering = .ok a u.answering := by simpa only [hu, Outrun] using hm.outrun s
      rw [micro_bind_ok hans]
      exact ihf a h
  | @cleanup _ g m _ _ ih =>
    cases hs : m s with
    | ok a u => cases (onRaise_ok hs).symm.trans h
    | error r' u =>
      cases (onRaise_error hs).symm.trans h
      obtain ⟨v, hv⟩ := ih hs
      exact ⟨_, onRaise_error hv⟩

/-- With a source that is constant over the job, every byte of the second pass was counted in the first and has a codeword (R162 (a), R194). -/
theorem compressSteps_not_noCodeword (hpos : s.src.pos = 0) (hdata : s.src.rewound.data = s.src.data) :
    compressSteps s ≠ .error (.fault .noCodeword) t := by
  intro h
  obtain ⟨u, hu⟩ := throughPorts_compressSteps.raise_answering (by decide) h
  have hunread : s.answering.unread = s.src.data := congrArg s.src.data.drop hpos
  by_cases hsmall : s.src.data.length < Config.minInput
  · cases (compressSteps_tooSmall (s := s.answering) (by exact hpos ▸ Nat.zero_le _) (hunread.symm ▸ hsmall) nofun).symm.trans hu
  by_cases hlt : s.src.data.length < 2 ^ 32
  · have hmin := Nat.le_of_not_lt hsmall
    obtain ⟨x, hx⟩ := exists_buildTree_freqOf (List.ne_nil_of_length_pos (Nat.lt_of_lt_of_le (by decide) hmin)) hlt
    have hjob : Compressible x s.src.data s.answering := ⟨rfl, hpos, hmin, hlt, hx, nofun, nofun⟩
    have hpass : SecondPass x s.src.data s.src.data [] s.answering :=
      ⟨by rw [List.append_nil, ← hdata, rewound_data, rewound_data]; rfl, fun _ => codeword_of_mem hx hlt, nofun⟩
    cases (hjob.steps_ok hpass).symm.trans hu
  · have hscan := freqScan_tooLarge (s := s.answering) (k := 2 ^ 32 - 1) nofun (by rw [hunread]; omega) rfl
    cases (micro_bind_error hscan _).symm.trans hu

/-! ### DECOMPRESS -/

theorem raises_decompressSteps (hl : [.err .ioSrc, .err .ioSnk, .err .headerTruncated, .err .treeDepth, .err .treeSingleLeaf, .err .treeEos,
      .err .payloadEmpty, .err .payloadMid, .refuse .nodeMemFull] ⊆ l) : Raises l (fun _ => True) decompressSteps fun _ => HasTree := by
  simp only [List.cons_subset] at hl
  obtain ⟨hsrc, hsnk, hshort, hdeep, hleaf, heos, hempty, hmid, hfull, _⟩ := hl
  exact Triple.bind (Q := fun _ _ => True) (triple_modify fun _ _ => trivial) fun _ => (raises_hdrRead hsrc hshort).bind fun _ =>
    (raises_treeDes (by simp [hsrc, heos, hdeep, hfull, hleaf])).bind fun _ =>
    Triple.bind (Q := fun _ => HasTree) (triple_modify fun _ hs => hs) fun _ => raises_payloadDec (by simp [hempty, hmid, hsrc, hsnk])

end Sys2Proof.Machine
end

section
/-! PROOF. Every command ends in its row of table R253, and the composite commands never break the buffer (R253, R281, R282). -/

namespace Sys2Proof.Machine

variable {P : State → Prop} {l : List ResultCode} {s t : State}

/-! ### From a body to RESULT -/

/-- Micro-operations do not touch RUN_STATE, so a command that waits for a port is BUSY (R79). -/
theorem hang_busy {α : Type} {m : Micro α} (hports : ThroughPorts m) {r : Raise} (h : m s.started = .error r t) : t.run = .busy :=
  ((hports.onward s.started).of_error ⟨rfl, List.prefix_rfl⟩ h).running

/-- A command that has left BUSY ends in the code of its body or in that of the raise. -/
theorem settle_result_mem {composite : Bool} {body : Micro ResultCode} (hports : ThroughPorts body)
    (hbody : Raises l P body fun c _ => c ∈ l) (hs : P s.started) (hrun : (settle composite body s).run ≠ .busy) :
    (settle composite body s).result ∈ l := by
  cases hm : body s.started with
  | ok c u =>
    rw [settle_ok hm]
    exact hbody.of_ok hs hm
  | error r u =>
    have hr := hbody.of_error hs hm
    rw [settle_error hm] at hrun ⊢
    cases hc : r.code with
    | some c =>
      rw [raised_result hc]
      exact hr c hc
    | none =>
      cases r with
      | hang => exact absurd (hang_busy hports hm) hrun
      | err | refuse | fault => cases hc

/-- A primitive command's row lists the refusals it can meet before its pseudocode, and what the pseudocode ends in. -/
theorem primitive_result_mem {operandOk required : Bool} {body : Micro ResultCode} (hr : s.run = .idle)
    (he : primitive operandOk required body s = .next t) (hrun : t.run ≠ .busy) (hports : ThroughPorts body)
    (hbody : Raises l P body fun c _ => c ∈ l) (hs : required = true → P s.started)
    (hoperand : operandOk = false → .refuse .badOperand ∈ l) (hflags : required = false → .refuse .badSequence ∈ l) : t.result ∈ l := by
  obtain ⟨hfault, _⟩ | ⟨_, hop, rfl⟩ | ⟨_, _, hreq, rfl⟩ | ⟨_, _, hreq, rfl⟩ := primitive_cases he
  · cases hr.symm.trans hfault
  · exact hoperand hop
  · exact hflags hreq
  · exact settle_result_mem hports hbody (hs hreq) hrun

theorem primitive_thenOk_result_mem {operandOk required : Bool} {m : Micro Unit} {Q : Unit → State → Prop} (hr : s.run = .idle)
    (he : primitive operandOk required (thenOk m) s = .next t) (hrun : t.run ≠ .busy) (hports : ThroughPorts m) (hm : Raises l P m Q)
    (hs : required = true → P s.started) (hok : .ok ∈ l := by simp [Instr.outcomes])
    (hoperand : operandOk = false → .refuse .badOperand ∈ l := by simp [Instr.outcomes])
    (hflags : required = false → .refuse .badSequence ∈ l := by simp [Instr.outcomes]) : t.result ∈ l :=
  primitive_result_mem hr he hrun hports.thenOk (hm.bind fun _ => triple_pure fun _ _ => hok) hs hoperand hflags

theorem composite_result_mem {m : Micro Unit} {Q : Unit → State → Prop} (hr : s.run = .idle) (he : composite m s = .next t)
    (hrun : t.run ≠ .busy) (hports : ThroughPorts m) (hm : Raises l P m Q) (hs : P s.started) (hok : .ok ∈ l := by simp [Instr.outcomes]) :
    t.result ∈ l := by
  have hbody : Raises l P (do m; modify State.released; pure .ok) fun c _ => c ∈ l :=
    hm.bind fun _ => Triple.bind (Q := fun _ _ => True) (triple_modify fun _ _ => trivial) fun _ => triple_pure fun _ _ => hok
  rw [composite, accept_idle hr] at he
  cases he
  exact settle_result_mem (hports.seq fun _ => .seq (.update {}) fun _ => .done _) hbody hs hrun

/-! ### The rows of table R253 -/

theorem raises_modify {f : State → State} : Raises l (fun _ => True) (modify f : Micro Unit) fun _ _ => True :=
  triple_modify fun _ _ => trivial

/-- At a command's start the buffer is within its capacity (R28). -/
theorem Inv.buffered (h : Inv s) (hs : P s.started) : Buffered P Config.bbCap s.started := ⟨hs, h.buffer⟩

/-- The rows of all commands but COMPRESS. -/
theorem exec_result_mem {i : Instr} (hc : i.isCommand = true) (hi : i ≠ .compress) (h : Inv s) (hr : s.run = .idle)
    (he : exec i s = .next t) (hrun : t.run ≠ .busy) : t.result ∈ i.outcomes := by
  have htrue : Buffered (fun _ => True) Config.bbCap s.started := h.buffered trivial
  have hcode : s.codeValid = true → Buffered HasCode Config.bbCap s.started := fun hv => h.buffered ((h.started hr).hasCode hv)
  cases i with
  | nop =>
    exact primitive_result_mem (P := fun _ => True) (body := pure .ok) hr he hrun (.done _)
      (triple_pure fun _ _ => by simp [Instr.outcomes]) (fun _ => trivial) nofun nofun
  | softReset =>
    cases (exec_softReset_of_not_busy (by rw [hr]; exact nofun)).symm.trans he
    simp [Instr.outcomes]
  | release => exact primitive_thenOk_result_mem hr he hrun (.update {}) raises_modify fun _ => trivial
  | bbClear => exact primitive_thenOk_result_mem hr he hrun throughPorts_bbClear raises_modify fun _ => trivial
  | bbAppendBit b =>
    exact primitive_thenOk_result_mem hr he hrun (throughPorts_bbAppendBits _)
      (raises_bbAppendBits bufferFree_true (.inr (by simp [Instr.outcomes]))) fun _ => htrue
  | bbAppendByte v =>
    exact primitive_thenOk_result_mem hr he hrun (throughPorts_bbAppendBits _)
      (raises_bbAppendBits bufferFree_true (.inr (by simp [Instr.outcomes]))) fun _ => htrue
  | bbAppendCode v =>
    exact primitive_thenOk_result_mem hr he hrun (throughPorts_appendCode _)
      (raises_appendCode (by simp [Instr.outcomes]) bufferFree_hasCode (fun _ hs => hs) (.inr (by simp [Instr.outcomes])) _) hcode
  | bbDrop n =>
    rw [exec_bbDrop] at he
    exact primitive_thenOk_result_mem hr he hrun (throughPorts_bbDrop _) (raises_bbDrop bufferFree_true _) fun _ =>
      ⟨trivial, .inr (by simp [Instr.outcomes])⟩
  | bbDrain =>
    exact primitive_thenOk_result_mem hr he hrun throughPorts_bbDrain (raises_bbDrain (by decide) bufferFree_true) fun _ => trivial
  | bbFlush =>
    exact primitive_thenOk_result_mem hr he hrun throughPorts_bbFlush (raises_bbFlush (by decide) bufferFree_true) fun _ => trivial
  | bbFill => exact primitive_result_mem hr he hrun throughPorts_bbFillCommand (raises_bbFillCommand (by decide)) (fun _ => trivial) nofun nofun
  | freqClr => exact primitive_thenOk_result_mem hr he hrun throughPorts_freqClr raises_modify fun _ => trivial
  | freqInc v => exact primitive_thenOk_result_mem hr he hrun (throughPorts_freqInc _) (raises_freqInc (by simp [Instr.outcomes]) _) fun hv => hv
  | freqScan => exact primitive_thenOk_result_mem hr he hrun throughPorts_freqScan (raises_freqScan (by decide) (by decide)) fun _ => trivial
  | treeBuild => exact primitive_thenOk_result_mem hr he hrun throughPorts_treeBuild (raises_treeBuild (by decide)) fun hv => hv
  | codeGen => exact primitive_thenOk_result_mem hr he hrun throughPorts_codeGen raises_codeGen fun hv => hv
  | treeSer =>
    exact primitive_thenOk_result_mem hr he hrun throughPorts_treeSer
      (raises_treeSer (by decide) bufferFree_hasTree (fun _ hs => hs) (.inr (by decide))) fun hv => h.buffered hv
  | treeDes => exact primitive_thenOk_result_mem hr he hrun throughPorts_treeDes (raises_treeDes (by decide)) fun _ => trivial
  | hdrWrite =>
    exact primitive_thenOk_result_mem hr he hrun throughPorts_hdrWrite
      (raises_hdrWrite (by decide) (by decide) bufferFree_true.portFree) fun _ => trivial
  | payloadEnc =>
    exact primitive_thenOk_result_mem hr he hrun throughPorts_payloadEnc (raises_payloadEnc (by decide) bufferFree_hasCode
      (fun _ hs => hs) (by decide) (.inr (by decide))) hcode
  | hdrRead => exact primitive_thenOk_result_mem hr he hrun throughPorts_hdrRead (raises_hdrRead (by decide) (by decide)) fun _ => trivial
  | decSymbol => exact primitive_thenOk_result_mem hr he hrun throughPorts_decSymbol (raises_decSymbol (by decide)) fun hv => hv
  | payloadDec =>
    exact primitive_thenOk_result_mem hr he hrun throughPorts_payloadDec (raises_payloadDec (by decide)) fun hv => (Bool.and_eq_true_iff.mp hv).1
  | decompress => exact composite_result_mem hr he hrun throughPorts_decompressSteps (raises_decompressSteps (by decide)) trivial
  | compress => exact absurd rfl hi
  | branch | leaf => cases hc

/-- The row of COMPRESS, and NO_CODEWORD where the source is not constant over the job (R194, R253). -/
theorem exec_compress_result (h : Inv s) (hr : s.run = .idle) (he : exec .compress s = .next t) (hrun : t.run ≠ .busy) :
    t.result ∈ Instr.compress.outcomes
    ∨ (t.result = .fault .noCodeword ∧ ¬ (s.src.pos = 0 ∧ s.src.rewound.data = s.src.data)) := by
  have hmem : t.result ∈ .fault .noCodeword :: Instr.compress.outcomes :=
    composite_result_mem hr he hrun throughPorts_compressSteps (raises_compressSteps (by decide)) (h.started hr)
  refine (List.mem_cons.mp hmem).symm.imp_right fun hfault => ⟨hfault, fun ⟨hpos, hdata⟩ => ?_⟩
  cases hm : compressSteps s.started with
  | ok a u =>
    cases (composite_ok hr hm).symm.trans he
    cases hfault
  | error r u =>
    cases (composite_error hr hm).symm.trans he
    cases r with
    | err | refuse => cases hfault
    | fault f =>
      cases hfault
      exact compressSteps_not_noCodeword (s := s.started) hpos hdata hm
    | hang => exact hrun (hang_busy throughPorts_compressSteps hm)

/-- Settles O55: each command's micro-operations raise only what its row lists. -/
theorem everyOutcomeIsInTheMatrix : Obligations.EveryOutcomeIsInTheMatrix := by
  intro i s t hc h hr he hrun
  by_cases hi : i = .compress
  · subst hi
    exact (exec_compress_result h hr he hrun).imp_right fun hfault => ⟨rfl, hfault⟩
  · exact .inl (exec_result_mem hc hi h hr he hrun)

/-! ### Faults of the composite commands -/

theorem Inv.run_ne_fault (h : Inv s) (hresult : s.result.isFault = false) : s.run ≠ .fault := by
  intro hf
  cases hresult.symm.trans (h.faultCode.mp hf)

/-- Table R253 lists no fault for the composite commands. -/
theorem composite_rows_faultless {i : Instr} (hi : i = .compress ∨ i = .decompress) : ∀ c ∈ i.outcomes, c.isFault = false := by
  obtain rfl | rfl := hi <;> decide

/-- The one fault of COMPRESS, waiting or ended. -/
theorem exec_compress_fault (h : Inv s) (hr : s.run = .idle) (he : exec .compress s = .next t) :
    t.result.isFault = false
    ∨ (t.result = .fault .noCodeword ∧ ¬ (s.src.pos = 0 ∧ s.src.rewound.data = s.src.data)) := by
  by_cases hrun : t.run = .busy
  · have hcode := (exec_keeps_inv h (by rw [hr]; exact nofun) he).faultCode
    exact .inl (by simpa [hrun] using hcode)
  · exact (exec_compress_result h hr he hrun).imp_left fun hrow => composite_rows_faultless (.inl rfl) _ hrow

/-- Settles O52: the rows of the two composite commands list no fault, and a command that waits for a port has not faulted. -/
theorem compositesNeverBreakTheBuffer : Obligations.CompositesNeverBreakTheBuffer := by
  intro s t h hr
  have hidle : s.run ≠ .busy := by rw [hr]; exact nofun
  refine ⟨fun he => ?compress, fun he hf => ?decompress⟩
  case compress =>
    obtain hcode | ⟨hcode, hchanged⟩ := exec_compress_fault h hr he
    · exact ⟨ne_of_apply_ne ResultCode.isFault (by rw [hcode]; decide), ne_of_apply_ne ResultCode.isFault (by rw [hcode]; decide),
        fun _ _ => (exec_keeps_inv h hidle he).run_ne_fault hcode⟩
    · exact ⟨by rw [hcode]; decide, by rw [hcode]; decide, fun hpos hdata => absurd ⟨hpos, hdata⟩ hchanged⟩
  case decompress =>
    have hrow := exec_result_mem (i := .decompress) rfl (by decide) h hr he (by rw [hf]; exact nofun)
    exact (exec_keeps_inv h hidle he).run_ne_fault (composite_rows_faultless (.inr rfl) _ hrow) hf

end Sys2Proof.Machine
end

section
/-! PROOF. How commands end (R288, R289): in a next state, out of BUSY if the ports are answered, and a composite command with its job released. -/

namespace Sys2Proof.Machine

variable {s t : State} {m : Micro Unit}

/-- A command that ends out of BUSY and FAULT has performed Release, last of all or at the raise (R245, R246). -/
theorem composite_releases (hports : ThroughPorts m) (hr : s.run = .idle) (he : composite m s = .next t) (hidle : t.run = .idle) :
    ∃ (u : State) (c : ResultCode), t = u.released.completed c := by
  cases hm : m s.started with
  | ok a u =>
    cases (composite_ok hr hm).symm.trans he
    exact ⟨u, _, rfl⟩
  | error r u =>
    cases (composite_error hr hm).symm.trans he
    cases r with
    | err | refuse => exact ⟨u, _, rfl⟩
    | fault => cases hidle
    | hang => cases (hang_busy hports hm).symm.trans hidle

/-- Settles O53: Release is what clears the flags and the buffer. -/
theorem compositesReleaseTheJob : Obligations.CompositesReleaseTheJob := by
  intro s t hr he hidle
  obtain ⟨u, c, rfl⟩ : ∃ (u : State) (c : ResultCode), t = u.released.completed c := by
    obtain he | he := he
    · exact composite_releases throughPorts_compressSteps hr he hidle
    · exact composite_releases throughPorts_decompressSteps hr he hidle
  exact ⟨rfl, rfl, rfl, rfl, rfl⟩

theorem UsedUp.silent_mem {p q : List PortPlan} (h : UsedUp p (.never :: q)) : .never ∈ p := by
  obtain ⟨used, rfl, _⟩ := h
  simp

theorem Unanswered.not_live (h : Unanswered s t) : ¬ s.PortsLive := by
  rintro ⟨hreads, hwrites⟩
  cases h with
  | read hsilent => exact hreads _ hsilent.silent_mem rfl
  | write _ hsilent => exact hwrites _ hsilent.silent_mem rfl

/-- Settles O56: a command runs one body, which waits only for an operation that is never answered. -/
theorem everyCommandEnds : Obligations.EveryCommandEnds := by
  intro i s hc hr
  obtain ⟨composite, body, hports, hexec⟩ := command_runsBody hc hr
  refine ⟨settle composite body s, hexec s.src.plan s.snk.plan, fun hlive => ?_⟩
  obtain ⟨hrun, _⟩ | ⟨_, hsilent, _⟩ := settle_ends (composite := composite) hports rfl
  · exact hrun
  · exact absurd hlive hsilent.not_live

end Sys2Proof.Machine
end

section
/-! PROOF. The result codes (R240, R241), hard reset (R270) and the FAULT state (R255). -/

namespace Sys2Proof.Machine

variable {s : State} {w : Word} {rest : List HostAct}

/-! ### Result codes -/

theorem mem_resultTable (c : ResultCode) : (c, c.toNat) ∈ resultTable := by
  cases c with
  | ok | okEos => decide
  | err e => cases e <;> decide
  | refuse r => cases r <;> decide
  | fault f => cases f <;> decide

/-- No code stands twice in table R241. -/
theorem resultCode_toNat_injective : Function.Injective ResultCode.toNat := by
  intro c d h
  have hdistinct : (resultTable.map Prod.snd).Nodup := by decide
  exact congrArg Prod.fst (List.inj_on_of_nodup_map hdistinct (mem_resultTable c) (mem_resultTable d) h)

theorem resultCode_toNat_lt (c : ResultCode) : c.toNat < 2 ^ 8 := by
  have hbytes : ∀ p ∈ resultTable, p.2 < 2 ^ 8 := by decide
  exact hbytes _ (mem_resultTable c)

theorem toNat_resultWord (s : State) : (resultWord s).toNat = s.result.toNat := by
  rw [resultWord, BitVec.toNat_ofNat, Nat.mod_eq_of_lt (Nat.lt_trans (resultCode_toNat_lt s.result) (by decide))]

/-- Settles O9: the outcomes are the rows of table R241. -/
theorem resultCodesTellTheOutcome : Obligations.ResultCodesTellTheOutcome := by
  refine ⟨toNat_resultWord, mem_resultTable, fun _ _ h => resultCode_toNat_injective h, fun c => ?_⟩
  cases c with
  | ok | okEos => rfl
  | err e => cases e <;> rfl
  | refuse r => cases r <;> rfl
  | fault f => cases f <;> rfl

/-! ### Hard reset -/

/-- Without a byte in flight only the engine is reset; a byte in flight joins the sink or is lost (R270, U26). -/
theorem hardReset_cases (s : State) :
    (s.snk.inFlight = none ∧ s.hardReset = s.engineReset)
    ∨ ∃ v out, s.snk.inFlight = some v ∧ (out = s.snk.out ∨ out = s.snk.out ++ [v])
      ∧ s.hardReset = { s.engineReset with snk := { s.snk with out := out, inFlight := none }, free := s.free + 1 } := by
  rw [State.hardReset]
  cases hf : s.snk.inFlight with
  | none => exact .inl ⟨rfl, rfl⟩
  | some v =>
    refine .inr ⟨v, _, rfl, ?_, rfl⟩
    split
    · exact .inr rfl
    · exact .inl rfl

/-- Settles O13: hard reset is an act of the host that works in every run state. -/
theorem hardResetReachesTheResetState : Obligations.HardResetReachesTheResetState := by
  intro s rest ht hh
  have hstep : step s = .next (State.hardReset { s with host := rest }) := step_hostAct ht hh
  obtain ⟨hf, e⟩ | ⟨v, out, hf, hout, e⟩ := hardReset_cases { s with host := rest } <;> rw [e] at hstep
  · exact ⟨_, hstep, rfl, fun _ => rfl, fun v hv => nomatch hf.symm.trans hv⟩
  · refine ⟨_, hstep, rfl, ?none, ?some⟩
    case none => exact fun hn => nomatch hf.symm.trans hn
    case some =>
      intro u hu
      cases hf.symm.trans hu
      obtain rfl | rfl := hout
      · exact .inl rfl
      · exact .inr rfl

/-! ### The FAULT state -/

theorem exec_of_fault {i : Instr} (hr : s.run = .fault) (hc : i.isCommand = true) (hi : i ≠ .softReset) : exec i s = .next s := by
  cases i with
  | softReset => exact absurd rfl hi
  | compress | decompress => exact composite_fault hr _
  | branch | leaf => cases hc
  | _ => exact primitive_fault hr _ _ _

theorem step_writeCmd_fault (hr : s.run = .fault) (hh : s.host = .writeReg 0 w :: rest) :
    step s = if w = 0x01000000#32 then exec .softReset { s with host := rest } else .next { s with host := rest } := by
  have hact : hostAct exec (.writeReg 0 w) { s with host := rest } = writeCmd exec w { s with host := rest } := rfl
  rw [step_hostAct (heldToken_of_not_busy (by rw [hr]; exact nofun)) hh, hact, writeCmd, hr]

/-- Settles O54: FAULT lets through SOFT_RESET's word, hard reset and reads. -/
theorem faultStateAcceptsOnlySoftReset : Obligations.FaultStateAcceptsOnlySoftReset := by
  intro s rest hr
  have hbusy : s.run ≠ .busy := by rw [hr]; exact nofun
  have htoken := heldToken_of_not_busy hbusy
  refine ⟨fun w hh => ⟨fun hw => ?ignored, fun hw => ?softReset⟩, fun hh => ?hardReset, fun hh => ?result, fun i => exec_of_fault hr⟩
  case ignored => rw [step_writeCmd_fault hr hh, if_neg hw]
  case softReset =>
    rw [step_writeCmd_fault hr hh, if_pos hw, exec_softReset_of_not_busy (by exact hbusy)]
    rfl
  case hardReset =>
    obtain ⟨t, hstep, ht, _⟩ := hardResetReachesTheResetState s rest htoken hh
    rw [ht] at hstep
    exact ⟨_, hstep, rfl, rfl, rfl⟩
  case result =>
    have hread : readReg 2 { s with host := rest } = resultWord s := readReg_eq_readIdle (s := { s with host := rest }) hbusy 2
    rw [← hread]
    exact step_hostAct htoken hh

end Sys2Proof.Machine
end
